-- ==== Sys2Proof/Word.lean ====
section
/-! DEFINITION. The word types of CORE: what the spec treats as bits (rules R6, R30, R50, R71). -/

namespace Sys2Proof

/-- A Symbol, `u8` (R30). -/
abbrev Symbol := BitVec 8

/-- A register of a unit's bank, `REG_BITS` = 64 (R6, R50). -/
abbrev Reg := BitVec 64

/-- An element of `PAIR_IN` / `PAIR_OUT`: value in [39:32], count in [31:0] (R106). -/
abbrev PairElem := BitVec 40

/-- An entry of the tree table (R108). -/
abbrev NodeElem := BitVec 60

/-- An entry of the code table (R109). -/
abbrev CodeElem := BitVec 263

end Sys2Proof
end

