-- ==== Sys2Proof/Config.lean ====
section
/-! DEFINITION. What is fixed for the machine (R6) and the free values, which nothing constrains (assumption log 7). -/

namespace Sys2Proof

/-- `MAX_IN` (R6, R348): the largest admitted input length and the largest admitted `W * H` of a decoder. -/
def Config.maxIn : Nat := 2 ^ 32 - 1

/-- The largest admitted `PLANE_LEN[p]` of `RLD.DECB` (R348). -/
def Config.maxPlaneLen : Nat := 2 ^ 38 - 1

/-- `NUM_SEED` = `FIRST_FREE_CODE` = 256 (R6): the seed entries of an LZW dictionary. -/
def Config.numSeed : Nat := 256

/-- `MAX_NODES` (R6, R108): entries of the tree table. -/
def Config.maxNodes : Nat := 511

/-- Entries of the code table, one for each Symbol (R109). -/
def Config.numCodes : Nat := 256

/-- The `ELAPSED` value of an encoding operation, by unit number and draw: the spec does not constrain it (R295). -/
opaque Config.elapsed : Nat → Nat → BitVec 64

/-- A register whose value the spec leaves unspecified, by unit number, draw and register number (R50, R52, R346). -/
opaque Config.freeRegister : Nat → Nat → Nat → BitVec 64

/-- A buffer element whose value the spec leaves unspecified, by unit number, draw, buffer and index (R346). -/
opaque Config.freeElement : Nat → Nat → Nat → Nat → BitVec 263

end Sys2Proof
end

