-- ==== Sys2Proof/Syntax.lean ====
section
/-! DEFINITION. What the host can ask of CORE: the units, the operations and commands (one constructor for each row of
spec/opcode_table.json), and the events of a host script. -/

namespace Sys2Proof

/-- The eight units, in the order of their numbers 0 to 7 (R2, R50). -/
inductive UnitId where
  | rle  -- 0 run_length_encoder
  | rld  -- 1 run_length_decoder
  | bre  -- 2 bit_run_encoder
  | htb  -- 3 huffman_tree_builder
  | hen  -- 4 huffman_encoder
  | hde  -- 5 huffman_decoder
  | lze  -- 6 lzw_encoder
  | lzd  -- 7 lzw_decoder
  deriving DecidableEq, Repr

/-- The ten operations, the `CLEAR` command and the one pseudo-operation (R3, R101, R113). A command carries no operand (R103):
only `CLEAR` says which unit's `CTRL` it goes to, and keeps the eight bits the decoder ignores. -/
inductive Instr where
  | rleEncs
  | rleEncb
  | rldDecs
  | rldDecb
  | brePut
  | htbBuild
  | henEnc
  | hdeDec
  | lzeEnc
  | lzdDec
  | clear (u : UnitId) (ignored : BitVec 8)
  | hufEncode
  deriving DecidableEq, Repr

/-- A place the host can name: a register by its number `32*u + r` (R50, R75), or one element of a buffer (R71). A buffer name
stands for the "out" buffer when read and for the "in" buffer when written. -/
inductive Place where
  | reg (n : BitVec 8)
  | sym (u : UnitId) (i : Nat)
  | pair (i : Nat)
  | bit (u : UnitId) (i : Nat)
  | plane (p : Fin 8) (i : Nat)
  | tree (i : Nat)
  | ctab (i : Nat)
  | lzc (i : Nat)
  deriving DecidableEq, Repr

/-- A value of one element width (R71, R74). -/
inductive HostValue where
  | word (v : BitVec 64)
  | sym (v : Symbol)
  | pair (v : PairElem)
  | bit (v : Bool)
  | node (v : NodeElem)
  | code (v : CodeElem)
  deriving DecidableEq, Repr

/-- What can happen next (R287, R316, R340). Which agent moves next is the event at the head of the queue (assumption log 1, 2). -/
inductive Event where
  /-- the host writes an operand register, an "in" buffer element or `CTRL`; a `START` runs its operation in the same step -/
  | write (p : Place) (v : HostValue)
  /-- the host reads a register or an "out" buffer element -/
  | read (p : Place)
  /-- the host carries one value from a result to an operand (R82) -/
  | copy (src dst : Place)
  /-- the host writes `CTRL` of unit `u`; a started unit is left `BUSY` -/
  | startSlow (u : UnitId) (w : BitVec 64)
  /-- unit `u`, if `BUSY`, takes the step of its operation (R7) -/
  | unitStep (u : UnitId)
  /-- the host runs the pseudo-operation (R113, R224) -/
  | hufEncode
  /-- the host waits for the unit of `i`, then binds the results of `i`; on a fault the script ends (R112) -/
  | collect (i : Instr)
  /-- reset of all eight units (R340) -/
  | reset
  deriving DecidableEq, Repr

end Sys2Proof
end

