-- ==== Sys2Proof/WellFormed.lean ====
section
/-! DEFINITION. Which terms of the syntax name something that exists: a command has a `CMD` word of its own, a place belongs to
the unit it names and lies inside a fixed table, a written value has its element's width. -/

namespace Sys2Proof

/-- An instruction is well formed as a command when the opcode map gives it a word (R101): all but the pseudo-operation. -/
def Instr.wellFormed : Instr → Bool
  | .hufEncode => false
  | _ => true

/-- The host may read a register or an "out" buffer element of a unit that owns that buffer (R71, R287). -/
def Place.readable : Place → Bool
  | .reg _ => true
  | .sym u _ => u = .rld || u = .hde || u = .lzd
  | .pair _ => true
  | .bit u _ => u = .bre || u = .hen
  | .plane _ _ => true
  | .tree i => decide (i < Config.maxNodes)
  | .ctab i => decide (i < Config.numCodes)
  | .lzc _ => true

/-- The host may write a register or an "in" buffer element of a unit that owns that buffer (R71, R287). -/
def Place.writable : Place → Bool
  | .reg _ => true
  | .sym u _ => u = .rle || u = .htb || u = .hen || u = .lze
  | .pair _ => true
  | .bit u _ => u = .bre || u = .hde
  | .plane _ _ => true
  | .tree i => decide (i < Config.maxNodes)
  | .ctab i => decide (i < Config.numCodes)
  | .lzc _ => true

/-- The value has the width of the place's elements (R71, R74). -/
def Place.fits : Place → HostValue → Bool
  | .reg _, .word _ => true
  | .sym _ _, .sym _ => true
  | .pair _, .pair _ => true
  | .bit _ _, .bit _ => true
  | .plane _ _, .bit _ => true
  | .tree _, .node _ => true
  | .ctab _, .code _ => true
  | .lzc _, .word _ => true
  | _, _ => false

/-- An event is well formed when every place it names exists for what it does there. -/
def Event.wellFormed : Event → Bool
  | .write p v => p.writable && p.fits v
  | .read p => p.readable
  | .copy src dst => src.readable && dst.writable
  | _ => true

end Sys2Proof
end

