-- ==== Sys2Proof/Decode.lean ====
section
/-! DEFINITION. The command decoder (R100 to R102), total on every word written to every unit's `CTRL`, and after it the
encoder, written from the same opcode map. -/

namespace Sys2Proof

/-- Unit number `u` (R50). -/
def unitNumber : UnitId → Nat
  | .rle => 0
  | .rld => 1
  | .bre => 2
  | .htb => 3
  | .hen => 4
  | .hde => 5
  | .lze => 6
  | .lzd => 7

/-- The unit with number `n`, modulo 8: a register number `32*u + r` of 8 bits has no other (R50). -/
def unitOfNumber (n : Nat) : UnitId :=
  match n % 8 with
  | 0 => .rle
  | 1 => .rld
  | 2 => .bre
  | 3 => .htb
  | 4 => .hen
  | 5 => .hde
  | 6 => .lze
  | _ => .lzd

/-- The number of a register within CORE, `32*u + r` (R50). -/
def regNumber (u : UnitId) (r : Nat) : BitVec 8 := BitVec.ofNat 8 (32 * unitNumber u + r % 32)

/-- The unit of register number `n` (R50). -/
def regUnit (n : BitVec 8) : UnitId := unitOfNumber (n.toNat / 32)

/-- The number `r` of a register within its unit's bank (R50). -/
def regIndex (n : BitVec 8) : Nat := n.toNat % 32

/-- The `OPCODE` field of a command, `CTRL[7:0]` (R100). -/
def ctrlOpcode (w : BitVec 64) : BitVec 8 := w.extractLsb' 0 8

/-- The `START` bit (R100). -/
def ctrlStart (w : BitVec 64) : Bool := w.getLsbD 8

/-- The `CLEAR` bit (R100). -/
def ctrlClear (w : BitVec 64) : Bool := w.getLsbD 9

/-- The reserved bits `[63:10]` (R100). -/
def ctrlReserved (w : BitVec 64) : BitVec 54 := w.extractLsb' 10 54

/-- The opcode map (R101): the operation of an `OPCODE`, and the unit that executes it. -/
def opcodeMap (o : BitVec 8) : Option (UnitId × Instr) :=
  match o with
  | 0x00#8 => some (.rle, .rleEncs)
  | 0x01#8 => some (.rle, .rleEncb)
  | 0x10#8 => some (.rld, .rldDecs)
  | 0x11#8 => some (.rld, .rldDecb)
  | 0x20#8 => some (.bre, .brePut)
  | 0x30#8 => some (.htb, .htbBuild)
  | 0x40#8 => some (.hen, .henEnc)
  | 0x50#8 => some (.hde, .hdeDec)
  | 0x60#8 => some (.lze, .lzeEnc)
  | 0x70#8 => some (.lzd, .lzdDec)
  | _ => none

/-- Why a write to `CTRL` is reserved whatever the unit's state (R102). -/
inductive ReservedWrite where
  | bitsAboveCommand
  | startAndClear
  | undefinedOpcode
  | otherUnit
  deriving DecidableEq, Repr

/-- What a write to `CTRL` asks for (R100, R101). -/
inductive Command where
  | run (i : Instr)
  | noEffect
  | reserved (why : ReservedWrite)
  deriving DecidableEq, Repr

/-- The decoder of R101, for the word `w` written to the `CTRL` of unit `u`. -/
def decodeCtrl (u : UnitId) (w : BitVec 64) : Command :=
  if ctrlReserved w ≠ 0 then .reserved .bitsAboveCommand
  else match ctrlClear w, ctrlStart w with
    | false, true =>
      match opcodeMap (ctrlOpcode w) with
      | some (v, i) => if v = u then .run i else .reserved .otherUnit
      | none => .reserved .undefinedOpcode
    | true, false => .run (.clear u (ctrlOpcode w))
    | false, false => .noEffect
    | true, true => .reserved .startAndClear

/-- The unit whose `CTRL` an instruction is written to (R101); the pseudo-operation begins on unit 3 (R224). -/
def instrUnit : Instr → UnitId
  | .rleEncs => .rle
  | .rleEncb => .rle
  | .rldDecs => .rld
  | .rldDecb => .rld
  | .brePut => .bre
  | .htbBuild => .htb
  | .henEnc => .hen
  | .hdeDec => .hde
  | .lzeEnc => .lze
  | .lzdDec => .lzd
  | .clear u _ => u
  | .hufEncode => .htb

/-- The command word of an instruction (R101): `0x100 | OPCODE` for an operation, `0x200` with the ignored bits for `CLEAR`;
the pseudo-operation has none (R113). -/
def encodeWord : Instr → Option (BitVec 64)
  | .rleEncs => some 0x100#64
  | .rleEncb => some 0x101#64
  | .rldDecs => some 0x110#64
  | .rldDecb => some 0x111#64
  | .brePut => some 0x120#64
  | .htbBuild => some 0x130#64
  | .henEnc => some 0x140#64
  | .hdeDec => some 0x150#64
  | .lzeEnc => some 0x160#64
  | .lzdDec => some 0x170#64
  | .clear _ ignored => some (0x200#64 ||| ignored.setWidth 64)
  | .hufEncode => none

/-- The words of an instruction: the unit whose `CTRL` is written and the word written there. -/
def encode (i : Instr) : Option (UnitId × BitVec 64) :=
  (encodeWord i).map fun w => (instrUnit i, w)

/-- The operation of unit `u` with function field `f` (R100, R101): what a `BUSY` unit is running. -/
def opOfFunc (u : UnitId) (f : BitVec 4) : Option Instr :=
  match opcodeMap (BitVec.ofNat 8 (16 * unitNumber u + f.toNat)) with
  | some (v, i) => if v = u then some i else none
  | none => none

/-- The `FUNC` field of a command (R100). -/
def ctrlFunc (w : BitVec 64) : BitVec 4 := w.extractLsb' 0 4

/-- The unit a bare command word is for, when no register number comes with it: the low three bits of its `UNIT` field. A `START`
word names its unit there; `CLEAR` ignores the field and is valid on every unit (assumption log 14). -/
def wordUnit (w : BitVec 64) : UnitId := unitOfNumber (w.extractLsb' 4 3).toNat

/-- The host's view of the decoder: the instruction of a word of `nbits` bits, every higher bit of `CTRL` 0. -/
def decodeTableWord (nbits w : Nat) : Option Instr :=
  let word := BitVec.ofNat 64 (w % 2 ^ nbits)
  match decodeCtrl (wordUnit word) word with
  | .run i => some i
  | _ => none

end Sys2Proof
end

