-- ==== Sys2Proof/Machine/State.lean ====
section
/-! DEFINITION. The state of CORE as plain data (10_state.md), the reasons a step can be refused, and the state after reset. -/

namespace Sys2Proof.Machine

/-- `STATUS.STATE` (R44, R50). A `BUSY` unit also holds the `FUNC` field of the command it accepted (R100). -/
inductive UnitState where
  | idle
  | busy (func : BitVec 4)
  | done
  | fault
  deriving DecidableEq, Repr

/-- `STATUS.FAULT` (R50, R300): none, or one of the four faults of CORE. -/
inductive FaultCode where
  | none
  | malformedStream
  | invalidCode
  | emptyStream
  | invalidDimensions
  deriving DecidableEq, Repr

/-- What every unit holds besides its operands, results and working registers (R44), and the model's counter of free values
drawn so far (assumption log 7). -/
structure Control where
  state : UnitState
  fault : FaultCode
  draws : Nat
  deriving DecidableEq, Repr

/-- An operand register: its value and whether the host wrote it since reset (R341, R342). -/
structure OpReg where
  value : BitVec 64
  written : Bool
  deriving DecidableEq, Repr

/-- An "in" buffer (R71): the elements the host wrote since reset, as (index, element) pairs, indexes strictly rising. -/
abbrev Buf (α : Type) := List (Nat × α)

/-- A Huffman tree with at least one node (R37); `Empty` is the `none` of `Option HTree`. -/
inductive HTree where
  | leaf (sym : Symbol) (freq : Nat)
  | node (freq : Nat) (left right : HTree)
  deriving DecidableEq, Repr

/-- A unit (R44): control, operands, results, working registers. -/
structure CodecUnit (O R W : Type) where
  ctl : Control
  ops : O
  res : R
  work : W
  deriving DecidableEq, Repr

/-- Operands of unit 0 (R51). -/
structure RleOps where
  width : OpReg
  height : OpReg
  inLen : OpReg
  symIn : Buf Symbol
  deriving DecidableEq, Repr

/-- Results of unit 0 (R51). An "out" buffer lists its defined elements, from index 0. -/
structure RleRes where
  outLen : BitVec 64
  ratioNum : BitVec 64
  ratioDen : BitVec 64
  elapsed : BitVec 64
  planeLen : Vector (BitVec 64) 8
  pairOut : List PairElem
  planeOut : Vector (List Bool) 8
  deriving DecidableEq, Repr

/-- Working registers of unit 0 (R45); `cur` holds a Symbol or one bit of a plane. -/
structure RleWork where
  r : Nat
  c : Nat
  pos : Nat
  cur : Symbol
  cnt : Nat
  deriving DecidableEq, Repr

/-- Operands of unit 1 (R51). -/
structure RldOps where
  width : OpReg
  height : OpReg
  inLen : OpReg
  planeLen : Vector OpReg 8
  pairIn : Buf PairElem
  planeIn : Vector (Buf Bool) 8
  deriving DecidableEq, Repr

/-- Results of the units that deliver a symbol stream (units 1, 5, 7; R51). -/
structure SymRes where
  outLen : BitVec 64
  symOut : List Symbol
  deriving DecidableEq, Repr

/-- Working registers of unit 1 (R45). -/
structure RldWork where
  pos : Nat
  cur : Bool
  deriving DecidableEq, Repr

/-- Operands of unit 2 (R51). -/
structure BreOps where
  inLen : OpReg
  arg : OpReg
  bitIn : Buf Bool
  deriving DecidableEq, Repr

/-- Results of unit 2 (R51). -/
structure BreRes where
  outLen : BitVec 64
  bitOut : List Bool
  deriving DecidableEq, Repr

/-- Unit 2 has no working registers (R45). -/
structure NoWork where
  deriving DecidableEq, Repr

/-- Operands of unit 3 (R51). -/
structure HtbOps where
  inLen : OpReg
  symIn : Buf Symbol
  deriving DecidableEq, Repr

/-- Results of unit 3 (R51); no operation writes its `OUT_LEN` (R50), which therefore never has a defined value. -/
structure HtbRes where
  outLen : BitVec 64
  root : BitVec 64
  treeOut : List NodeElem
  ctabOut : List CodeElem
  deriving DecidableEq, Repr

/-- Working registers of unit 3 (R45). -/
structure HtbWork where
  freq : List Nat
  queue : List HTree
  k : Nat
  stack : List (HTree × List Bool)
  deriving DecidableEq, Repr

/-- Operands of unit 4 (R51). -/
structure HenOps where
  inLen : OpReg
  symIn : Buf Symbol
  ctabIn : Buf CodeElem
  deriving DecidableEq, Repr

/-- Results of unit 4 (R51). -/
structure HenRes where
  outLen : BitVec 64
  ratioNum : BitVec 64
  ratioDen : BitVec 64
  elapsed : BitVec 64
  bitOut : List Bool
  deriving DecidableEq, Repr

/-- Working registers of unit 4 (R45). -/
structure HenWork where
  pos : Nat
  deriving DecidableEq, Repr

/-- Operands of unit 5 (R51). -/
structure HdeOps where
  inLen : OpReg
  root : OpReg
  bitIn : Buf Bool
  treeIn : Buf NodeElem
  deriving DecidableEq, Repr

/-- Working registers of unit 5 (R45); `node` is where the walk stands, none when it stands at no node. -/
structure HdeWork where
  pos : Nat
  node : Option HTree
  deriving DecidableEq, Repr

/-- Operands of unit 6 (R51). -/
structure LzeOps where
  inLen : OpReg
  symIn : Buf Symbol
  deriving DecidableEq, Repr

/-- Results of unit 6 (R51). -/
structure LzeRes where
  outLen : BitVec 64
  ratioNum : BitVec 64
  ratioDen : BitVec 64
  elapsed : BitVec 64
  lzcOut : List (BitVec 64)
  deriving DecidableEq, Repr

/-- Working registers of unit 6 (R40, R45). -/
structure LzeWork where
  dict : List (List Symbol × Nat)
  nextCode : Nat
  w : List Symbol
  pos : Nat
  deriving DecidableEq, Repr

/-- Operands of unit 7 (R51). -/
structure LzdOps where
  inLen : OpReg
  lzcIn : Buf (BitVec 64)
  deriving DecidableEq, Repr

/-- Working registers of unit 7 (R41, R45); the string of code `k` stands at index `k` of `ddict`. -/
structure LzdWork where
  ddict : List (List Symbol)
  nextCode : Nat
  w : List Symbol
  entry : List Symbol
  pos : Nat
  deriving DecidableEq, Repr

/-- CORE with its host: the eight units, the open parameter `BUF_CAP` (none: unbounded), the events still to come, the values the
host's reads have returned, oldest first, and for each unit the draw counter at the host's last `STATUS` read that returned `DONE`
(R346; the host's record, assumption log 25). -/
structure State where
  rle : CodecUnit RleOps RleRes RleWork
  rld : CodecUnit RldOps SymRes RldWork
  bre : CodecUnit BreOps BreRes NoWork
  htb : CodecUnit HtbOps HtbRes HtbWork
  hen : CodecUnit HenOps HenRes HenWork
  hde : CodecUnit HdeOps SymRes HdeWork
  lze : CodecUnit LzeOps LzeRes LzeWork
  lzd : CodecUnit LzdOps SymRes LzdWork
  cap : Option Nat
  pending : List Event
  reads : List HostValue
  seen : Vector (Option Nat) 8
  deriving DecidableEq, Repr

/-- Reasons to stop with a machine fault: there is none. The four faults of CORE are states of a unit (R300, R307) and the
machine goes on. Nothing raises this; the empty type is safe. -/
inductive Fault where
  deriving DecidableEq, Repr

/-- Reasons to refuse: what the spec gives no meaning to ("refuse", R12 and 93_implementation_defined.md). Each refusal is safe: nothing can
be proved about a script that meets it. -/
inductive Refusal where
  /-- raised by `exec` for an instruction without a meaning; none is left; safe -/
  | notModelled (mnemonic : String)
  /-- raised by a `CTRL` write that is reserved in every state (R102); safe -/
  | reservedCommand (why : ReservedWrite)
  /-- raised by `START` outside `IDLE` (R102, R345); safe -/
  | startNotIdle
  /-- raised by `CLEAR` in `BUSY` (R102); safe -/
  | clearWhileBusy
  /-- raised by `START` when an operand it reads was never written since reset (R341, R342); safe -/
  | operandNotWritten
  /-- raised by `START` when a must-be-zero part of `ARG` or `ROOT` is set (R103, R348); safe -/
  | mustBeZeroSet
  /-- raised by `START` when a length, or `W * H` of a decoder, is above its admitted range (R348); safe -/
  | aboveAdmittedRange
  /-- raised by an access or an operation that needs more than `BUF_CAP` elements of a buffer (R6, R348); safe -/
  | beyondCapacity
  /-- raised by `HDE.DEC` for a tree table that is not well formed (R108, R231); safe -/
  | treeNotWellFormed
  /-- raised by `HEN.ENC` for a symbol without a code (R221); safe -/
  | symbolWithoutCode
  /-- raised by a host write to an operand of a `BUSY` unit (R344); safe -/
  | operandWriteWhileBusy
  /-- raised by a host write to a read-only register, which R287 does not list (assumption log 12); safe -/
  | readOnlyRegister
  /-- raised by a host access to a place that does not exist or with a value of another width (R71, R287; log 15); safe -/
  | noSuchAccess
  deriving DecidableEq, Repr

/-- An operand register after reset: unspecified (R52); the value 0 is the model's (assumption log 3). -/
def OpReg.atReset : OpReg := { value := 0, written := false }

/-- Control after reset: `IDLE`, no fault (R52). -/
def Control.atReset : Control := { state := .idle, fault := .none, draws := 0 }

def RleOps.atReset : RleOps :=
  { width := .atReset, height := .atReset, inLen := .atReset, symIn := [] }

def RleRes.atReset : RleRes :=
  { outLen := 0, ratioNum := 0, ratioDen := 0, elapsed := 0, planeLen := Vector.replicate 8 0, pairOut := [],
    planeOut := Vector.replicate 8 [] }

def RleWork.atRest : RleWork := { r := 0, c := 0, pos := 0, cur := 0, cnt := 0 }

def RldOps.atReset : RldOps :=
  { width := .atReset, height := .atReset, inLen := .atReset, planeLen := Vector.replicate 8 .atReset, pairIn := [],
    planeIn := Vector.replicate 8 [] }

def SymRes.atReset : SymRes := { outLen := 0, symOut := [] }

def RldWork.atRest : RldWork := { pos := 0, cur := false }

def BreOps.atReset : BreOps := { inLen := .atReset, arg := .atReset, bitIn := [] }

def BreRes.atReset : BreRes := { outLen := 0, bitOut := [] }

def HtbOps.atReset : HtbOps := { inLen := .atReset, symIn := [] }

def HtbRes.atReset : HtbRes := { outLen := 0, root := 0, treeOut := [], ctabOut := [] }

def HtbWork.atRest : HtbWork := { freq := List.replicate 256 0, queue := [], k := 0, stack := [] }

def HenOps.atReset : HenOps := { inLen := .atReset, symIn := [], ctabIn := [] }

def HenRes.atReset : HenRes := { outLen := 0, ratioNum := 0, ratioDen := 0, elapsed := 0, bitOut := [] }

def HenWork.atRest : HenWork := { pos := 0 }

def HdeOps.atReset : HdeOps := { inLen := .atReset, root := .atReset, bitIn := [], treeIn := [] }

def HdeWork.atRest : HdeWork := { pos := 0, node := none }

def LzeOps.atReset : LzeOps := { inLen := .atReset, symIn := [] }

def LzeRes.atReset : LzeRes := { outLen := 0, ratioNum := 0, ratioDen := 0, elapsed := 0, lzcOut := [] }

def LzeWork.atRest : LzeWork := { dict := [], nextCode := 0, w := [], pos := 0 }

def LzdOps.atReset : LzdOps := { inLen := .atReset, lzcIn := [] }

def LzdWork.atRest : LzdWork := { ddict := [], nextCode := 0, w := [], entry := [], pos := 0 }

/-- CORE right after reset (R52, R340): every unit `IDLE` without a fault, no buffer element written, nothing to come.
Values R52 leaves unspecified are the model's (assumption log 3 to 6). -/
def State.reset : State :=
  { rle := { ctl := .atReset, ops := .atReset, res := .atReset, work := .atRest }
    rld := { ctl := .atReset, ops := .atReset, res := .atReset, work := .atRest }
    bre := { ctl := .atReset, ops := .atReset, res := .atReset, work := {} }
    htb := { ctl := .atReset, ops := .atReset, res := .atReset, work := .atRest }
    hen := { ctl := .atReset, ops := .atReset, res := .atReset, work := .atRest }
    hde := { ctl := .atReset, ops := .atReset, res := .atReset, work := .atRest }
    lze := { ctl := .atReset, ops := .atReset, res := .atReset, work := .atRest }
    lzd := { ctl := .atReset, ops := .atReset, res := .atReset, work := .atRest }
    cap := none
    pending := []
    reads := []
    seen := Vector.replicate 8 none }

end Sys2Proof.Machine
end

