-- ==== Sys2Proof/Machine/Ops.lean ====
section
/-! DEFINITION. The shared operations: reading and writing buffers, what a unit's registers hold when the spec leaves them
unspecified, starting an operation, ending it in `DONE`, raising a fault and returning from it. -/

namespace Sys2Proof.Machine

/-! ### Buffers (R70, R71, R285) -/

/-- The element at index `i`, none when the host never wrote it since reset. -/
def bufGet {α : Type} : Buf α → Nat → Option α
  | [], _ => none
  | (j, x) :: rest, i => if i = j then some x else bufGet rest i

/-- `MemWrite(B+i, 1, v)` (R10): the indexes stay strictly rising. -/
def bufSet {α : Type} : Buf α → Nat → α → Buf α
  | [], i, v => [(i, v)]
  | (j, x) :: rest, i, v =>
    if i < j then (i, v) :: (j, x) :: rest
    else if i = j then (i, v) :: rest
    else (j, x) :: bufSet rest i v

/-- `MemRead(B+i, n)` (R10): `n` elements from index `i`, none when one of them was never written. -/
def bufRead {α : Type} (b : Buf α) : Nat → Nat → Option (List α)
  | _, 0 => some []
  | i, n + 1 =>
    match bufGet b i with
    | none => none
    | some x => (bufRead b (i + 1) n).map fun xs => x :: xs

/-- `MemWrite(B+i, n, v)` (R10): the elements of a sequence, from index `i` upward. -/
def bufWriteList {α : Type} : Buf α → Nat → List α → Buf α
  | b, _, [] => b
  | b, i, x :: xs => bufWriteList (bufSet b i x) (i + 1) xs

/-- The canonical form of a buffer: indexes strictly rising, so equal contents are equal lists. -/
abbrev bufWf {α : Type} (b : Buf α) : Prop := (b.map Prod.fst).Pairwise (· < ·)

/-- Every element lies below `n`. -/
abbrev bufBelow {α : Type} (n : Nat) (b : Buf α) : Prop := ∀ e ∈ b, e.1 < n

/-- `BUF_CAP` admits `n` elements (R6, R348). -/
def fitsCap (cap : Option Nat) (n : Nat) : Bool :=
  match cap with
  | none => true
  | some c => decide (n ≤ c)

/-! ### What the spec leaves unspecified (R50, R52, R346; assumption log 7) -/

def RleRes.unspecified (n : Nat) : RleRes :=
  { outLen := Config.freeRegister 0 n 5
    ratioNum := Config.freeRegister 0 n 6
    ratioDen := Config.freeRegister 0 n 7
    elapsed := Config.freeRegister 0 n 8
    planeLen := Vector.ofFn fun p => Config.freeRegister 0 n (16 + p.val)
    pairOut := []
    planeOut := Vector.replicate 8 [] }

def SymRes.unspecified (unit : Nat) (n : Nat) : SymRes :=
  { outLen := Config.freeRegister unit n 5, symOut := [] }

def BreRes.unspecified (n : Nat) : BreRes :=
  { outLen := Config.freeRegister 2 n 5, bitOut := [] }

def HtbRes.unspecified (n : Nat) : HtbRes :=
  { outLen := Config.freeRegister 3 n 5, root := Config.freeRegister 3 n 10, treeOut := [], ctabOut := [] }

def HenRes.unspecified (n : Nat) : HenRes :=
  { outLen := Config.freeRegister 4 n 5
    ratioNum := Config.freeRegister 4 n 6
    ratioDen := Config.freeRegister 4 n 7
    elapsed := Config.freeRegister 4 n 8
    bitOut := [] }

def LzeRes.unspecified (n : Nat) : LzeRes :=
  { outLen := Config.freeRegister 6 n 5
    ratioNum := Config.freeRegister 6 n 6
    ratioDen := Config.freeRegister 6 n 7
    elapsed := Config.freeRegister 6 n 8
    lzcOut := [] }

/-! ### A unit's life: start, end, fault, clear (R44, R100, R307, R310) -/

/-- How an operation ends (R7): with all its results, or with one fault and no result. -/
inductive Ending (R : Type) where
  | results (r : R)
  | raises (f : FaultCode)
  deriving DecidableEq, Repr

/-- `STATE <- DONE` with the results of the operation. No working register outlives it (R43, assumption log 5). -/
def completeUnit {O R W : Type} (rest : W) (r : R) (x : CodecUnit O R W) : CodecUnit O R W :=
  { ctl := { state := .done, fault := .none, draws := x.ctl.draws + 1 }, ops := x.ops, res := r, work := rest }

/-- Fault entry, `raise F` (R307): `STATUS.FAULT` gets the code, `STATUS.STATE` gets `FAULT`, the operands keep the host's
values, and every result is unspecified. -/
def raiseFault {O R W : Type} (unspec : Nat → R) (rest : W) (f : FaultCode) (x : CodecUnit O R W) : CodecUnit O R W :=
  { ctl := { state := .fault, fault := f, draws := x.ctl.draws + 1 }, ops := x.ops, res := unspec x.ctl.draws,
    work := rest }

/-- The end of an operation, one way or the other. -/
def endOperation {O R W : Type} (unspec : Nat → R) (rest : W) (x : CodecUnit O R W) : Ending R → CodecUnit O R W
  | .results r => completeUnit rest r x
  | .raises f => raiseFault unspec rest f x

/-- Return from a fault or from completion, `CLEAR` (R310): to `IDLE` without a fault, results unspecified, operands kept; no
effect in `IDLE`; reserved in `BUSY` (R102). -/
def clearUnit {O R W : Type} (unspec : Nat → R) (rest : W) (x : CodecUnit O R W) :
    Except Refusal (CodecUnit O R W) :=
  match x.ctl.state with
  | .idle => .ok x
  | .busy _ => .error .clearWhileBusy
  | _ => .ok { ctl := { state := .idle, fault := .none, draws := x.ctl.draws + 1 }, ops := x.ops,
               res := unspec x.ctl.draws, work := rest }

/-- What an operation does with the capacity and its own unit's operands: refused, or an ending. -/
abbrev Operation (O R W : Type) := Option Nat → CodecUnit O R W → Except Refusal (Ending R)

/-- The one atomic step of an operation that was started (R7). -/
def finishOn {O R W : Type} (unspec : Nat → R) (rest : W) (op : Operation O R W) (cap : Option Nat)
    (x : CodecUnit O R W) : Except Refusal (CodecUnit O R W) :=
  (op cap x).map (endOperation unspec rest x)

/-- `START` with the operation's step merged into it (R44, R100): only in `IDLE` (R345). -/
def runOn {O R W : Type} (unspec : Nat → R) (rest : W) (op : Operation O R W) (cap : Option Nat)
    (x : CodecUnit O R W) : Except Refusal (CodecUnit O R W) :=
  if x.ctl.state = .idle then finishOn unspec rest op cap x else .error .startNotIdle

/-- `START` alone (R100): the unit samples its operands and is `BUSY`, its working registers at their initial values (R343). -/
def beginOn {O R W : Type} (init : CodecUnit O R W → W) (func : BitVec 4) (op : Operation O R W) (cap : Option Nat)
    (x : CodecUnit O R W) : Except Refusal (CodecUnit O R W) :=
  if x.ctl.state = .idle then
    (op cap x).map fun _ => { x with ctl := { x.ctl with state := .busy func }, work := init x }
  else .error .startNotIdle

/-- A unit after reset: as `State.reset` has it, but that the draws already made stay made (assumption log 7). -/
def resetUnit {O R W : Type} (fresh : CodecUnit O R W) (x : CodecUnit O R W) : CodecUnit O R W :=
  { fresh with ctl := { fresh.ctl with draws := x.ctl.draws } }

/-- The outcome of a step that is refused or gives a next state; CORE has no machine fault (R300). -/
def answer (e : Except Refusal State) : Host.Outcome State Fault Refusal :=
  match e with
  | .ok s => .next s
  | .error r => .refused r

end Sys2Proof.Machine
end

