-- ==== Sys2Proof/Machine/Flags.lean ====
section
/-! DEFINITION. CORE has no condition codes (R47). Its only status is `STATUS`, computed here from a unit's control, and the
counters of the compression ratio (R290, R291). -/

namespace Sys2Proof.Machine

/-- `STATUS[1:0]` (R50). -/
def stateCode : UnitState → BitVec 2
  | .idle => 0
  | .busy _ => 1
  | .done => 2
  | .fault => 3

/-- `STATUS[6:4]` (R50, R300). -/
def faultCode : FaultCode → BitVec 3
  | .none => 0
  | .malformedStream => 1
  | .invalidCode => 2
  | .emptyStream => 3
  | .invalidDimensions => 4

/-- The `STATUS` register (R50): `STATE` in [1:0], `FAULT` in [6:4], every other bit 0. -/
def statusWord (c : Control) : BitVec 64 :=
  (stateCode c.state).setWidth 64 ||| ((faultCode c.fault).setWidth 64 <<< 4)

/-- The compression ratio of two counters (R290); `0/0` has no value (R292). -/
def compressionRatio (num den : BitVec 64) : Option Rat :=
  if den = 0 then none else some ((num.toNat : Rat) / (den.toNat : Rat))

/-- A length or counter register holding the mathematical value `n` (R9, R282). -/
def counter (n : Nat) : BitVec 64 := BitVec.ofNat 64 n

end Sys2Proof.Machine
end

