-- ==== Sys2Proof/Machine/Operands.lean ====
section
/-! DEFINITION. Operand assembly (R103) with the refusals of R342 and R348, and the data formats of 30_encoding.md part 2. -/

namespace Sys2Proof.Machine

/-! ### Sampling operands at `START` (R100, R103, R342) -/

/-- An operand register, refused when the host never wrote it since reset (R341). -/
def sampleReg (r : OpReg) : Except Refusal (BitVec 64) :=
  if r.written then .ok r.value else .error .operandNotWritten

/-- An unsigned length register with the bound of R348. -/
def sampleLength (bound : Nat) (r : OpReg) : Except Refusal Nat :=
  match sampleReg r with
  | .error e => .error e
  | .ok v => if v.toNat ≤ bound then .ok v.toNat else .error .aboveAdmittedRange

/-- Elements 0 to `n - 1` of an "in" buffer: within `BUF_CAP` (R348) and all written (R342). -/
def sampleBuf {α : Type} (cap : Option Nat) (b : Buf α) (n : Nat) : Except Refusal (List α) :=
  if fitsCap cap n then
    match bufRead b 0 n with
    | some xs => .ok xs
    | none => .error .operandNotWritten
  else .error .beyondCapacity

/-- The elements a length register counts. -/
def sampleStream {α : Type} (cap : Option Nat) (bound : Nat) (len : OpReg) (b : Buf α) : Except Refusal (List α) :=
  match sampleLength bound len with
  | .error e => .error e
  | .ok n => sampleBuf cap b n

/-- A register of which only the low `n` bits may be set, read as the number in them (R103: `ARG[31:0]`, `ROOT[8:0]`). -/
def sampleLow (n : Nat) (r : OpReg) : Except Refusal Nat :=
  match sampleReg r with
  | .error e => .error e
  | .ok v => if v.toNat < 2 ^ n then .ok v.toNat else .error .mustBeZeroSet

/-- Results are delivered only when every result buffer holds them (R348). -/
def deliver {R : Type} (fits : Bool) (r : R) : Except Refusal (Ending R) :=
  if fits then .ok (.results r) else .error .beyondCapacity

/-! ### The 32-bit run-length field (R104) -/

/-- `field32(n)`: 32 bits, the most significant first. -/
def field32 (n : BitVec 32) : List Bool := (List.range 32).map fun j => n.getLsbD (31 - j)

/-- The number a bit sequence writes, first bit most significant. -/
def bitsValue (f : List Bool) : Nat := f.foldl (fun acc b => 2 * acc + b.toNat) 0

/-- `value32(f)`. -/
def value32 (f : List Bool) : Nat := bitsValue f

/-- `MemRead(PLANE_IN[p] + 32*k, 32)` for `k` = 0 to `n - 1`, each read as a number (R175). -/
def fieldValues : Nat → List Bool → List Nat
  | 0, _ => []
  | n + 1, e => value32 (e.take 32) :: fieldValues n (e.drop 32)

/-! ### Pairs (R106) -/

/-- Bits [39:32]. -/
def pairValue (e : PairElem) : Symbol := e.extractLsb' 32 8

/-- Bits [31:0]. -/
def pairCount (e : PairElem) : Nat := (e.extractLsb' 0 32).toNat

/-- The element that holds (value, count). -/
def mkPair (v : Symbol) (n : Nat) : PairElem := v ++ BitVec.ofNat 32 n

/-! ### Tree-table entries (R108) -/

/-- An entry of the tree table from its fields. -/
def nodeEntry (valid leaf : Bool) (sym : Symbol) (freq left right : Nat) : NodeElem :=
  BitVec.ofNat 9 right ++ BitVec.ofNat 9 left ++ BitVec.ofNat 32 freq ++ sym ++ BitVec.ofBool leaf ++ BitVec.ofBool valid

def entryValid (e : NodeElem) : Bool := e.getLsbD 0

def entryLeaf (e : NodeElem) : Bool := e.getLsbD 1

def entrySym (e : NodeElem) : Symbol := e.extractLsb' 2 8

def entryFreq (e : NodeElem) : Nat := (e.extractLsb' 10 32).toNat

def entryLeft (e : NodeElem) : Nat := (e.extractLsb' 42 9).toNat

def entryRight (e : NodeElem) : Nat := (e.extractLsb' 51 9).toNat

/-- The frequency of a tree's root (R37). -/
def treeFreq : HTree → Nat
  | .leaf _ f => f
  | .node f _ _ => f

/-- `tree_of(i)` (R108), with the indexes reached so far: refused where the table is not well formed (an index above 510, an
entry reached twice, `VALID` = 0; R231) and where a reached entry was never written (R342). `fuel` = 511 suffices, because
every call but the last adds an index below 511 to those reached. -/
def treeWalk (tbl : Buf NodeElem) : Nat → Nat → List Nat → Except Refusal (HTree × List Nat)
  | 0, _, _ => .error .treeNotWellFormed
  | fuel + 1, i, seen =>
    if Config.maxNodes ≤ i ∨ i ∈ seen then .error .treeNotWellFormed
    else
      match bufGet tbl i with
      | none => .error .operandNotWritten
      | some e =>
        if entryValid e = false then .error .treeNotWellFormed
        else if entryLeaf e then .ok (.leaf (entrySym e) (entryFreq e), i :: seen)
        else
          match treeWalk tbl fuel (entryLeft e) (i :: seen) with
          | .error r => .error r
          | .ok (l, seen1) =>
            match treeWalk tbl fuel (entryRight e) seen1 with
            | .error r => .error r
            | .ok (r, seen2) => .ok (.node (entryFreq e) l r, seen2)

/-- The tree of a table and its `ROOT` (R108): 511 names `Empty`, at the top only. -/
def treeOf (tbl : Buf NodeElem) (root : Nat) : Except Refusal (Option HTree) :=
  if root = Config.maxNodes then .ok none
  else
    match treeWalk tbl Config.maxNodes root [] with
    | .error r => .error r
    | .ok (t, _) => .ok (some t)

/-! ### Code-table entries (R109) -/

/-- The entry of a code: `LEN` in [7:0], the code left-aligned in [262:8]; the empty sequence stands for "no code". -/
def codeEntry (code : List Bool) : CodeElem :=
  BitVec.ofNat 263 (code.length + bitsValue code * 2 ^ (263 - code.length))

/-- `LEN`. -/
def entryCodeLen (e : CodeElem) : Nat := (e.extractLsb' 0 8).toNat

/-- The first `LEN` bits of `BITS`: code bit `j` is entry bit `262 - j`. -/
def entryCode (e : CodeElem) : List Bool := (List.range (entryCodeLen e)).map fun j => e.getLsbD (262 - j)

/-! ### Dimensions (R150, R170, R281) -/

/-- `W <= 0 or H <= 0`, in the signed reading. -/
def badDimensions (w h : BitVec 64) : Bool := decide (w.toInt ≤ 0) || decide (h.toInt ≤ 0)

end Sys2Proof.Machine
end

