-- ==== Sys2Proof/Machine/BitRun.lean ====
section
/-! DEFINITION. Unit 2, bit_run_encoder (40_bit_run_encoder.md). -/

namespace Sys2Proof.Machine

/-- `BRE.PUT` on its unit (R141). -/
def brePutOp : Operation BreOps BreRes NoWork := fun cap x =>
  match sampleStream cap Config.maxIn x.ops.inLen x.ops.bitIn, sampleLow 32 x.ops.arg with
  | .error e, _ => .error e
  | _, .error e => .error e
  | .ok b, .ok n =>
    deliver (fitsCap cap (b.length + 32))
      { outLen := counter (b.length + 32), bitOut := b ++ field32 (BitVec.ofNat 32 n) }

/-- `BRE.PUT` (R140, R141). -/
def execBrePut (s : State) : Host.Outcome State Fault Refusal :=
  answer ((runOn BreRes.unspecified {} brePutOp s.cap s.bre).map fun x => { s with bre := x })

end Sys2Proof.Machine
end

