-- ==== Sys2Proof/Machine/Clear.lean ====
section
/-! DEFINITION. The CLEAR command (R310): return from a fault or from completion, on the unit whose `CTRL` is written. -/

namespace Sys2Proof.Machine

/-- `CLEAR` on unit `u`; the eight ignored bits have no effect (R101, R310). -/
def execClear (u : UnitId) (_ignored : BitVec 8) (s : State) : Host.Outcome State Fault Refusal :=
  answer (match u with
    | .rle => (clearUnit RleRes.unspecified .atRest s.rle).map fun x => { s with rle := x }
    | .rld => (clearUnit (SymRes.unspecified 1) .atRest s.rld).map fun x => { s with rld := x }
    | .bre => (clearUnit BreRes.unspecified {} s.bre).map fun x => { s with bre := x }
    | .htb => (clearUnit HtbRes.unspecified .atRest s.htb).map fun x => { s with htb := x }
    | .hen => (clearUnit HenRes.unspecified .atRest s.hen).map fun x => { s with hen := x }
    | .hde => (clearUnit (SymRes.unspecified 5) .atRest s.hde).map fun x => { s with hde := x }
    | .lze => (clearUnit LzeRes.unspecified .atRest s.lze).map fun x => { s with lze := x }
    | .lzd => (clearUnit (SymRes.unspecified 7) .atRest s.lzd).map fun x => { s with lzd := x })

end Sys2Proof.Machine
end

