-- ==== Sys2Proof/Machine/Huffman.lean ====
section
/-! DEFINITION. Units 3, 4 and 5, huffman_tree_builder, huffman_encoder and huffman_decoder, and the pseudo-operation
HUF.ENCODE (43_huffman_tree_builder.md, 44_huffman_encoder.md, 45_huffman_decoder.md). -/

namespace Sys2Proof.Machine

/-! ### HTB.BUILD, phase 1: frequencies -/

/-- `freq[s]` for `s` = 0 to 255 (R191). -/
def freqTable (s : List Symbol) : List Nat := (List.range 256).map fun b => s.count (BitVec.ofNat 8 b)

/-! ### Phase 2: the tree, policy `det` (R192 to R194) -/

/-- A tree in the queue with its frequency and sequence number (R194). -/
structure QNode where
  freq : Nat
  seq : Nat
  tree : HTree
  deriving DecidableEq, Repr

/-- The queue order, lexicographic on (freq, seq) (R194). -/
def queueBefore (a b : QNode) : Bool := decide (a.freq < b.freq) || (a.freq == b.freq && decide (a.seq < b.seq))

/-- A tree put into the queue at its place in the queue order. -/
def queueInsert (x : QNode) : List QNode → List QNode
  | [] => [x]
  | y :: ys => if queueBefore x y then x :: y :: ys else y :: queueInsert x ys

/-- One leaf for each symbol that occurs (R192), from symbol `b` on. -/
def leavesFrom : Nat → List Nat → List QNode
  | _, [] => []
  | b, f :: fs =>
    if f = 0 then leavesFrom (b + 1) fs
    else { freq := f, seq := b, tree := .leaf (BitVec.ofNat 8 b) f } :: leavesFrom (b + 1) fs

/-- The seeded queue (R192) in queue order. -/
def seedQueue (freqs : List Nat) : List QNode := (leavesFrom 0 freqs).foldr queueInsert []

/-- The node of merge number `k`: the first removed is the left child (R193, R194). -/
def mergedNode (k : Nat) (a b : QNode) : QNode :=
  { freq := a.freq + b.freq, seq := 256 + k, tree := .node (a.freq + b.freq) a.tree b.tree }

/-- The merge loop (R193, R194) on a queue in order, with the tree-table entries of the merges (R200); `fuel` = the length
of the queue suffices, since every merge shortens it by one. -/
def mergeLoop : Nat → Nat → List QNode → Option QNode × List NodeElem
  | fuel + 1, k, a :: b :: rest =>
    let n := mergedNode k a b
    let (top, entries) := mergeLoop fuel (k + 1) (queueInsert n rest)
    (top, nodeEntry true false 0 n.freq a.seq b.seq :: entries)
  | _, _, q => (q.head?, [])

/-- The top of the tree, `none` for `Empty` (R196), and the entries of the internal nodes in merge order. -/
def buildTree (s : List Symbol) : Option QNode × List NodeElem :=
  let q := seedQueue (freqTable s)
  mergeLoop q.length 0 q

/-! ### Phase 3: the code table (R197, R198) -/

/-- The depth-first walk: each leaf's symbol with its path, root first. -/
def walkCodes : HTree → List Bool → List (Symbol × List Bool)
  | .leaf s _, path => [(s, path)]
  | .node _ l r, path => walkCodes l (path ++ [false]) ++ walkCodes r (path ++ [true])

/-- The code table of a tree: a lone leaf gets the one-bit code `0` (R198), `Empty` gives no code. -/
def codesOf : Option HTree → List (Symbol × List Bool)
  | none => []
  | some (.leaf s _) => [(s, [false])]
  | some t => walkCodes t []

/-- `code[s]`, none when `s` has no code. -/
def codeFor (tab : List (Symbol × List Bool)) (s : Symbol) : Option (List Bool) := tab.lookup s

/-- The walk with an explicit stack, as the hardware runs it (R197, R349): `steps` bounds the nodes visited. -/
def walkStack : Nat → List (HTree × List Bool) → List (Symbol × List Bool) → List (Symbol × List Bool)
  | 0, _, out => out
  | _ + 1, [], out => out
  | n + 1, (.leaf s _, path) :: rest, out => walkStack n rest (out ++ [(s, path)])
  | n + 1, (.node _ l r, path) :: rest, out =>
    walkStack n ((l, path ++ [false]) :: (r, path ++ [true]) :: rest) out

/-! ### Results (R200) -/

/-- An entry that is no node: `VALID` = 0; the spec does not say what its other bits hold (assumption log 7). -/
def invalidEntry (draw i : Nat) : NodeElem :=
  (Config.freeElement 3 draw 1 i).setWidth 60 &&& ~~~ 1#60

/-- The tree table: leaf `s` at index `s`, merge `k` at `256 + k`. -/
def treeTable (draw : Nat) (freqs : List Nat) (merges : List NodeElem) : List NodeElem :=
  (List.range Config.maxNodes).map fun i =>
    if i < 256 then
      if freqs.getD i 0 = 0 then invalidEntry draw i
      else nodeEntry true true (BitVec.ofNat 8 i) (freqs.getD i 0) 0 0
    else (merges[i - 256]?).getD (invalidEntry draw i)

/-- The code table: `LEN` = 0 and `BITS` = 0 where a symbol has no code. -/
def codeTable (tab : List (Symbol × List Bool)) : List CodeElem :=
  (List.range Config.numCodes).map fun b => codeEntry ((codeFor tab (BitVec.ofNat 8 b)).getD [])

/-- `ROOT`: the index of the root, 511 for `Empty`. -/
def rootIndex (top : Option QNode) : Nat :=
  match top with
  | none => Config.maxNodes
  | some n => n.seq

/-- The results of `HTB.BUILD` for a stream (R200, R201). -/
def htbResults (draw : Nat) (s : List Symbol) : HtbRes :=
  let b := buildTree s
  { outLen := Config.freeRegister 3 draw 5
    root := counter (rootIndex b.1)
    treeOut := treeTable draw (freqTable s) b.2
    ctabOut := codeTable (codesOf (b.1.map QNode.tree)) }

/-- `HTB.BUILD` on its unit (R190, R201). Its results are whole tables, which `TREE_OUT` with its 511 entries, and so `CTAB_OUT` with
256, must hold (R6, R71, R348). -/
def htbBuildOp : Operation HtbOps HtbRes HtbWork := fun cap x =>
  match sampleStream cap Config.maxIn x.ops.inLen x.ops.symIn with
  | .error e => .error e
  | .ok s => deliver (fitsCap cap Config.maxNodes) (htbResults x.ctl.draws s)

/-! ### The merge relation of the source, policy `any` (R193) -/

/-- `MergesTo q t`: the merge loop may turn the queue `q` into the tree `t`, whichever minimal nodes it removes and whichever
becomes the left child. -/
inductive MergesTo : List HTree → Option HTree → Prop where
  | empty : MergesTo [] none
  | single (t : HTree) : MergesTo [t] (some t)
  | merge (q rest : List HTree) (a b l r : HTree) (t : Option HTree)
      (perm : q.Perm (a :: b :: rest))
      (aMin : ∀ x ∈ b :: rest, treeFreq a ≤ treeFreq x)
      (bMin : ∀ x ∈ rest, treeFreq b ≤ treeFreq x)
      (sides : (l = a ∧ r = b) ∨ (l = b ∧ r = a))
      (next : MergesTo (.node (treeFreq a + treeFreq b) l r :: rest) t) :
      MergesTo q t

/-- The trees `HTB.BUILD` admits for a stream under policy `any` (R192, R193). -/
def AdmittedTree (s : List Symbol) (t : Option HTree) : Prop :=
  MergesTo ((leavesFrom 0 (freqTable s)).map QNode.tree) t

/-! ### HEN.ENC -/

/-- The code of a symbol in a table of 256 entries, none when `LEN` = 0 (R109, R221). -/
def tableCode (tab : List CodeElem) (s : Symbol) : Option (List Bool) :=
  match tab[s.toNat]? with
  | none => none
  | some e => if entryCodeLen e = 0 then none else some (entryCode e)

/-- The concatenation of the codes, in input order (R222); none when a symbol has no code (R221). -/
def encodeSymbols (tab : List CodeElem) : List Symbol → Option (List Bool)
  | [] => some []
  | s :: rest =>
    match tableCode tab s with
    | none => none
    | some code => (encodeSymbols tab rest).map fun bits => code ++ bits

/-- The 256 entries of `CTAB_IN`: within `BUF_CAP` (R6, R71, R348) and all written (R342). -/
def sampleCodeTable (cap : Option Nat) (b : Buf CodeElem) : Except Refusal (List CodeElem) :=
  sampleBuf cap b Config.numCodes

/-- `HEN.ENC` on its unit (R220 to R223). The capacity is held against the bits of a stream that encodes (assumption log 24). -/
def henEncOp : Operation HenOps HenRes HenWork := fun cap x =>
  match sampleStream cap Config.maxIn x.ops.inLen x.ops.symIn, sampleCodeTable cap x.ops.ctabIn with
  | .error e, _ => .error e
  | _, .error e => .error e
  | .ok s, .ok tab =>
    match encodeSymbols tab s with
    | none => .error .symbolWithoutCode
    | some bits =>
      deliver (fitsCap cap bits.length)
        { outLen := counter bits.length
          ratioNum := counter (8 * s.length)
          ratioDen := counter bits.length
          elapsed := Config.elapsed 4 x.ctl.draws
          bitOut := bits }

/-! ### HDE.DEC -/

/-- The walk for a tree with an internal node (R232): `at` is where the walk stands inside a code, none at the root. -/
def walkBits (root : HTree) : Option HTree → List Bool → Option (List Symbol)
  | none, [] => some []
  | some _, [] => none
  | at?, b :: bs =>
    match at?.getD root with
    | .leaf _ _ => none
    | .node _ l r =>
      match if b then r else l with
      | .leaf s _ => (walkBits root none bs).map fun out => s :: out
      | .node f l2 r2 => walkBits root (some (.node f l2 r2)) bs

/-- The symbols of a bit sequence under a tree, none for `MalformedStream` (R232 to R235). -/
def decodeBits (tree : Option HTree) (bits : List Bool) : Option (List Symbol) :=
  match bits, tree with
  | [], _ => some []
  | _ :: _, none => none
  | _ :: _, some (.leaf s _) => some (List.replicate bits.length s)
  | _ :: _, some (.node f l r) => walkBits (.node f l r) none bits

/-- The tree operand (R230, R231): `ROOT` and the entries reached from it, in a table whose fixed 511 entries `BUF_CAP` must admit
(R6, R71, R348), whatever the `ROOT` (assumption log 8). -/
def sampleTree (cap : Option Nat) (o : HdeOps) : Except Refusal (Option HTree) :=
  match sampleLow 9 o.root with
  | .error e => .error e
  | .ok root => if fitsCap cap Config.maxNodes then treeOf o.treeIn root else .error .beyondCapacity

/-- `HDE.DEC` on its unit (R230 to R235). The capacity is held against the output of bits that decode (assumption log 24). -/
def hdeDecOp : Operation HdeOps SymRes HdeWork := fun cap x =>
  match sampleStream cap Config.maxIn x.ops.inLen x.ops.bitIn, sampleTree cap x.ops with
  | .error e, _ => .error e
  | _, .error e => .error e
  | .ok bits, .ok tree =>
    match decodeBits tree bits with
    | none => .ok (.raises .malformedStream)
    | some out => deliver (fitsCap cap out.length) { outLen := counter out.length, symOut := out }

/-! ### The meanings -/

/-- `HTB.BUILD` (R190 to R201). -/
def execHtbBuild (s : State) : Host.Outcome State Fault Refusal :=
  answer ((runOn HtbRes.unspecified .atRest htbBuildOp s.cap s.htb).map fun x => { s with htb := x })

/-- `HEN.ENC` (R220 to R223). -/
def execHenEnc (s : State) : Host.Outcome State Fault Refusal :=
  answer ((runOn HenRes.unspecified .atRest henEncOp s.cap s.hen).map fun x => { s with hen := x })

/-- `HDE.DEC` (R230 to R235). -/
def execHdeDec (s : State) : Host.Outcome State Fault Refusal :=
  answer ((runOn (SymRes.unspecified 5) .atRest hdeDecOp s.cap s.hde).map fun x => { s with hde := x })

/-- What the host carries from unit 3 to unit 4 between the halves of `HUF.ENCODE`: the same stream and the code table of
`CTAB_OUT`, element for element (R82, R224). -/
def carryToEncoder (s : State) : State :=
  let stream := (bufRead s.htb.ops.symIn 0 s.htb.ops.inLen.value.toNat).getD []
  { s with hen := { s.hen with ops :=
    { inLen := { value := s.htb.ops.inLen.value, written := true }
      symIn := bufWriteList s.hen.ops.symIn 0 stream
      ctabIn := bufWriteList s.hen.ops.ctabIn 0 s.htb.res.ctabOut } } }

/-- The pseudo-operation `HUF.ENCODE` (R113, R224): `HTB.BUILD` on unit 3, the host's copy, `HEN.ENC` on unit 4; both units are
left in `DONE`, their results readable (assumption log 13). -/
def execHufEncode (s : State) : Host.Outcome State Fault Refusal :=
  match execHtbBuild s with
  | .next s1 => execHenEnc (carryToEncoder s1)
  | .fault f => .fault f
  | .refused r => .refused r

end Sys2Proof.Machine
end

