-- ==== Sys2Proof/Machine/Lzw.lean ====
section
/-! DEFINITION. Units 6 and 7, lzw_encoder and lzw_decoder (46_lzw_encoder.md, 47_lzw_decoder.md). -/

namespace Sys2Proof.Machine

/-! ### LZE.ENC -/

/-- The seeded dictionary `[b] -> b` (R40, R251). -/
def seedDict : List (List Symbol × Nat) :=
  (List.range Config.numSeed).map fun b => ([BitVec.ofNat 8 b], b)

/-- `dict[w]`; R252 shows that `w` is always an entry where the code is emitted, so the 0 is never used. -/
def dictCode (dict : List (List Symbol × Nat)) (w : List Symbol) : Nat := (dict.lookup w).getD 0

/-- The main loop (R252) with the flush of R253 at the end of the input. The dictionary has no bound, `BUF_CAP` or other (R256;
assumption log 8). -/
def lzwEncodeFrom (dict : List (List Symbol × Nat)) (nextCode : Nat) (w : List Symbol) : List Symbol → List Nat
  | [] => if w = [] then [] else [dictCode dict w]
  | c :: rest =>
    match dict.lookup (w ++ [c]) with
    | some _ => lzwEncodeFrom dict nextCode (w ++ [c]) rest
    | none => dictCode dict w :: lzwEncodeFrom (dict ++ [(w ++ [c], nextCode)]) (nextCode + 1) [c] rest

/-- The code stream of a byte stream (R251 to R253). -/
def lzwEncode (b : List Symbol) : List Nat := lzwEncodeFrom seedDict Config.numSeed [] b

/-- `LZE.ENC` on its unit (R250 to R257). -/
def lzeEncOp : Operation LzeOps LzeRes LzeWork := fun cap x =>
  match sampleStream cap Config.maxIn x.ops.inLen x.ops.symIn with
  | .error e => .error e
  | .ok b =>
    let codes := lzwEncode b
    deliver (fitsCap cap codes.length)
      { outLen := counter codes.length
        ratioNum := counter b.length
        ratioDen := counter codes.length
        elapsed := Config.elapsed 6 x.ctl.draws
        lzcOut := codes.map fun k => BitVec.ofNat 64 k }

/-! ### LZD.DEC -/

/-- The seeded decode dictionary: the string of code `k` at index `k` (R41, R271). -/
def seedStrings : List (List Symbol) := (List.range Config.numSeed).map fun b => [BitVec.ofNat 8 b]

/-- The entry a code names (R272): a known one, or the self-referential one (R274), else none (R275). The next code to be
assigned is the length of the dictionary (R271). -/
def lzwEntry (ddict : List (List Symbol)) (w : List Symbol) (k : Nat) : Option (List Symbol) :=
  if k < ddict.length then ddict[k]?
  else if k = ddict.length then some (w ++ w.take 1)
  else none

/-- The loop over the codes after the first (R272). The dictionary has no bound, `BUF_CAP` or other (R256; assumption log 8). -/
def lzwDecodeFrom (ddict : List (List Symbol)) (w : List Symbol) : List Nat → Option (List Symbol)
  | [] => some []
  | k :: rest =>
    match lzwEntry ddict w k with
    | none => none
    | some entry =>
      (lzwDecodeFrom (ddict ++ [w ++ entry.take 1]) entry rest).map fun out => entry ++ out

/-- The byte stream of a code stream, or the fault (R272, R273, R276). -/
def lzwDecode (codes : List Nat) : Except FaultCode (List Symbol) :=
  match codes with
  | [] => .error .emptyStream
  | k :: rest =>
    if Config.numSeed ≤ k then .error .invalidCode
    else
      match lzwDecodeFrom seedStrings [BitVec.ofNat 8 k] rest with
      | none => .error .invalidCode
      | some out => .ok (BitVec.ofNat 8 k :: out)

/-- `LZD.DEC` on its unit (R270 to R277). The capacity is held against the output of codes that decode (assumption log 24). -/
def lzdDecOp : Operation LzdOps SymRes LzdWork := fun cap x =>
  match sampleStream cap Config.maxIn x.ops.inLen x.ops.lzcIn with
  | .error e => .error e
  | .ok codes =>
    match lzwDecode (codes.map BitVec.toNat) with
    | .error f => .ok (.raises f)
    | .ok out => deliver (fitsCap cap out.length) { outLen := counter out.length, symOut := out }

/-! ### The meanings -/

/-- `LZE.ENC` (R250 to R257). -/
def execLzeEnc (s : State) : Host.Outcome State Fault Refusal :=
  answer ((runOn LzeRes.unspecified .atRest lzeEncOp s.cap s.lze).map fun x => { s with lze := x })

/-- `LZD.DEC` (R270 to R277). -/
def execLzdDec (s : State) : Host.Outcome State Fault Refusal :=
  answer ((runOn (SymRes.unspecified 7) .atRest lzdDecOp s.cap s.lzd).map fun x => { s with lzd := x })

end Sys2Proof.Machine
end

