-- ==== Sys2Proof/Machine/RunLength.lean ====
section
/-! DEFINITION. Units 0 and 1, run_length_encoder and run_length_decoder (41_run_length_encoder.md, 42_run_length_decoder.md). -/

namespace Sys2Proof.Machine

/-! ### RLE.ENCS -/

/-- The scan of a row from the second column on, with the current run (R152). -/
def scanRow (cur : Symbol) (cnt : Nat) : List Symbol → List (Symbol × Nat)
  | [] => [(cur, cnt)]
  | v :: vs => if v = cur then scanRow cur (cnt + 1) vs else (cur, cnt) :: scanRow v 1 vs

/-- The runs of one row. -/
def rowRuns : List Symbol → List (Symbol × Nat)
  | [] => []
  | v :: vs => scanRow v 1 vs

/-- The runs of `h` rows of width `w`, each row by itself, in row order (R152). -/
def rasterRuns (w : Nat) : Nat → List Symbol → List (Symbol × Nat)
  | 0, _ => []
  | h + 1, r => rowRuns (r.take w) ++ rasterRuns w h (r.drop w)

/-- The operands of the two encoders (R150): width, height and the stream. -/
def sampleRaster (cap : Option Nat) (o : RleOps) : Except Refusal (BitVec 64 × BitVec 64 × List Symbol) :=
  match sampleReg o.width, sampleReg o.height, sampleStream cap Config.maxIn o.inLen o.symIn with
  | .error e, _, _ => .error e
  | _, .error e, _ => .error e
  | _, _, .error e => .error e
  | .ok w, .ok h, .ok r => .ok (w, h, r)

/-- The check of R150: both dimensions at least 1 and the stream as long as their mathematical product. -/
def badRaster (w h : BitVec 64) (len : Nat) : Bool :=
  badDimensions w h || decide ((len : Int) ≠ w.toInt * h.toInt)

/-- `RLE.ENCS` on its unit (R150 to R152). -/
def rleEncsOp : Operation RleOps RleRes RleWork := fun cap x =>
  match sampleRaster cap x.ops with
  | .error e => .error e
  | .ok (w, h, r) =>
    if badRaster w h r.length then .ok (.raises .invalidDimensions)
    else
      let runs := rasterRuns w.toNat h.toNat r
      deliver (fitsCap cap runs.length)
        { RleRes.unspecified x.ctl.draws with
          outLen := counter runs.length
          ratioNum := counter (w.toNat * h.toNat)
          ratioDen := counter runs.length
          elapsed := Config.elapsed 0 x.ctl.draws
          pairOut := runs.map fun p => mkPair p.1 p.2 }

/-! ### RLE.ENCB -/

/-- Bit plane `p` of a stream (R34). -/
def bitPlane (p : Nat) (r : List Symbol) : List Bool := r.map fun v => v.getLsbD p

/-- The scan of a plane with the current run; the last run is always emitted (R155). -/
def scanPlane (cur : Bool) (cnt : Nat) : List Bool → List Nat
  | [] => [cnt]
  | b :: bs => if b = cur then scanPlane cur (cnt + 1) bs else cnt :: scanPlane b 1 bs

/-- The run lengths of a plane, starting implicitly at 0 (R155). -/
def planeRuns (bits : List Bool) : List Nat := scanPlane false 0 bits

/-- The plane bit sequence: one 32-bit field for each run (R105, R142). -/
def encodePlane (bits : List Bool) : List Bool :=
  (planeRuns bits).flatMap fun n => field32 (BitVec.ofNat 32 n)

/-- The eight plane sequences `E_0` to `E_7` (R155). -/
def encodePlanes (r : List Symbol) : Vector (List Bool) 8 :=
  Vector.ofFn fun p => encodePlane (bitPlane p.val r)

/-- The sum of the eight plane lengths (R157). -/
def planesLength (e : Vector (List Bool) 8) : Nat := (e.toList.map List.length).sum

/-- `RLE.ENCB` on its unit (R150, R155, R157). -/
def rleEncbOp : Operation RleOps RleRes RleWork := fun cap x =>
  match sampleRaster cap x.ops with
  | .error e => .error e
  | .ok (w, h, r) =>
    if badRaster w h r.length then .ok (.raises .invalidDimensions)
    else
      let e := encodePlanes r
      deliver (e.toList.all fun bits => fitsCap cap bits.length)
        { RleRes.unspecified x.ctl.draws with
          ratioNum := counter (8 * (w.toNat * h.toNat))
          ratioDen := counter (planesLength e)
          elapsed := Config.elapsed 0 x.ctl.draws
          planeLen := e.map fun bits => counter bits.length
          planeOut := e }

/-! ### RLD.DECS -/

/-- The replay of pairs from position `pos`, with the check before each write and the check at the end (R172). -/
def replayPairs (n : Nat) : Nat → List (Symbol × Nat) → Option (List Symbol)
  | pos, [] => if pos = n then some [] else none
  | pos, (v, c) :: rest =>
    if n < pos + c then none
    else (replayPairs n (pos + c) rest).map fun out => List.replicate c v ++ out

/-- `RLD.DECS` on its unit (R170 to R173). The capacity is held against the raster of a stream that replays: a malformed one delivers
nothing and faults (assumption log 24). -/
def rldDecsOp : Operation RldOps SymRes RldWork := fun cap x =>
  match sampleReg x.ops.width, sampleReg x.ops.height, sampleStream cap Config.maxIn x.ops.inLen x.ops.pairIn with
  | .error e, _, _ => .error e
  | _, .error e, _ => .error e
  | _, _, .error e => .error e
  | .ok w, .ok h, .ok pairs =>
    if badDimensions w h then .ok (.raises .invalidDimensions)
    else if Config.maxIn < w.toNat * h.toNat then .error .aboveAdmittedRange
    else
      match replayPairs (w.toNat * h.toNat) 0 (pairs.map fun e => (pairValue e, pairCount e)) with
      | none => .ok (.raises .malformedStream)
      | some out => deliver (fitsCap cap out.length) { outLen := counter out.length, symOut := out }

/-! ### RLD.DECB -/

/-- The replay of a plane's runs from position `pos` with current value `cur` (R175). -/
def replayPlane (n : Nat) : Nat → Bool → List Nat → Option (List Bool)
  | pos, _, [] => if pos = n then some [] else none
  | pos, cur, c :: rest =>
    if n < pos + c then none
    else (replayPlane n (pos + c) (!cur) rest).map fun out => List.replicate c cur ++ out

/-- The bits of one plane: a length that is a multiple of 32, fields, replay starting at 0 (R175). -/
def decodePlane (n : Nat) (e : List Bool) : Option (List Bool) :=
  if e.length % 32 = 0 then replayPlane n 0 false (fieldValues (e.length / 32) e) else none

/-- `out[i] <- out[i] | (1 << p)` where plane `p` has a 1 bit (R175, R176). -/
def orPlane (p : Nat) (out : List Symbol) (bits : List Bool) : List Symbol :=
  List.zipWith (fun o b => if b then o ||| (1#8 <<< p) else o) out bits

/-- Planes `p`, `p + 1`, ... decoded in turn into `out` (R175). -/
def decodePlanesFrom (n : Nat) : Nat → List (List Bool) → List Symbol → Option (List Symbol)
  | _, [], out => some out
  | p, e :: rest, out =>
    match decodePlane n e with
    | none => none
    | some bits => decodePlanesFrom n (p + 1) rest (orPlane p out bits)

/-- The raster of eight plane sequences, or none for a malformed stream (R175). -/
def decodePlanes (n : Nat) (e : List (List Bool)) : Option (List Symbol) :=
  decodePlanesFrom n 0 e (List.replicate n 0)

/-- The first `k` of the plane sequences, each with its own length register (R342, R348). -/
def samplePlanes (cap : Option Nat) : List (OpReg × Buf Bool) → Except Refusal (List (List Bool))
  | [] => .ok []
  | (len, b) :: rest =>
    match sampleStream cap Config.maxPlaneLen len b, samplePlanes cap rest with
    | .error e, _ => .error e
    | _, .error e => .error e
    | .ok x, .ok xs => .ok (x :: xs)

/-- `RLD.DECB` on its unit (R170, R174 to R177). The capacity is held against the raster of planes that replay (assumption log 24). -/
def rldDecbOp : Operation RldOps SymRes RldWork := fun cap x =>
  match sampleReg x.ops.width, sampleReg x.ops.height,
      samplePlanes cap (x.ops.planeLen.toList.zip x.ops.planeIn.toList) with
  | .error e, _, _ => .error e
  | _, .error e, _ => .error e
  | _, _, .error e => .error e
  | .ok w, .ok h, .ok planes =>
    if badDimensions w h then .ok (.raises .invalidDimensions)
    else if Config.maxIn < w.toNat * h.toNat then .error .aboveAdmittedRange
    else
      match decodePlanes (w.toNat * h.toNat) planes with
      | none => .ok (.raises .malformedStream)
      | some out => deliver (fitsCap cap out.length) { outLen := counter out.length, symOut := out }

/-! ### The meanings -/

/-- `RLE.ENCS` (R150 to R152). -/
def execRleEncs (s : State) : Host.Outcome State Fault Refusal :=
  answer ((runOn RleRes.unspecified .atRest rleEncsOp s.cap s.rle).map fun x => { s with rle := x })

/-- `RLE.ENCB` (R150, R155). -/
def execRleEncb (s : State) : Host.Outcome State Fault Refusal :=
  answer ((runOn RleRes.unspecified .atRest rleEncbOp s.cap s.rle).map fun x => { s with rle := x })

/-- `RLD.DECS` (R170 to R172). -/
def execRldDecs (s : State) : Host.Outcome State Fault Refusal :=
  answer ((runOn (SymRes.unspecified 1) .atRest rldDecsOp s.cap s.rld).map fun x => { s with rld := x })

/-- `RLD.DECB` (R170, R175). -/
def execRldDecb (s : State) : Host.Outcome State Fault Refusal :=
  answer ((runOn (SymRes.unspecified 1) .atRest rldDecbOp s.cap s.rld).map fun x => { s with rld := x })

end Sys2Proof.Machine
end

