-- ==== Sys2Proof/Machine/Dispatch.lean ====
section
/-! DEFINITION. One arm for each instruction of spec/opcode_table.json. -/

namespace Sys2Proof.Machine

def exec (i : Instr) (s : State) : Host.Outcome State Fault Refusal :=
  match i with
  | .rleEncs => Sys2Proof.Machine.execRleEncs s
  | .rleEncb => Sys2Proof.Machine.execRleEncb s
  | .rldDecs => Sys2Proof.Machine.execRldDecs s
  | .rldDecb => Sys2Proof.Machine.execRldDecb s
  | .brePut => Sys2Proof.Machine.execBrePut s
  | .htbBuild => Sys2Proof.Machine.execHtbBuild s
  | .henEnc => Sys2Proof.Machine.execHenEnc s
  | .hdeDec => Sys2Proof.Machine.execHdeDec s
  | .lzeEnc => Sys2Proof.Machine.execLzeEnc s
  | .lzdDec => Sys2Proof.Machine.execLzdDec s
  | .clear u ignored => Sys2Proof.Machine.execClear u ignored s
  | .hufEncode => Sys2Proof.Machine.execHufEncode s

end Sys2Proof.Machine
end

