-- ==== Sys2Proof/Machine/Registers.lean ====
section
/-! DEFINITION. The host's access to the register banks (R50, R287, R344, R346). -/

namespace Sys2Proof.Machine

/-- The control of a unit. -/
def control (s : State) : UnitId → Control
  | .rle => s.rle.ctl
  | .rld => s.rld.ctl
  | .bre => s.bre.ctl
  | .htb => s.htb.ctl
  | .hen => s.hen.ctl
  | .hde => s.hde.ctl
  | .lze => s.lze.ctl
  | .lzd => s.lzd.ctl

/-- The place of a unit in the host's record, by its number (R50). -/
def unitIndex : UnitId → Fin 8
  | .rle => 0
  | .rld => 1
  | .bre => 2
  | .htb => 3
  | .hen => 4
  | .hde => 5
  | .lze => 6
  | .lzd => 7

/-- Whether results of a unit hold for the host (R346): from the `STATUS` read that returned `DONE` until the next `CLEAR`. Every end
of an operation and every `CLEAR` moves the draw counter, so that an earlier read does not count (assumption log 25). -/
def resultsDefined (s : State) (u : UnitId) : Bool :=
  decide ((control s u).state = .done ∧ s.seen[unitIndex u] = some (control s u).draws)

/-- A read-only result register: the value stored where it is defined (R50, R346), else a free value (assumption log 7). -/
def resultShown (u : UnitId) (defined : Bool) (c : Control) (r : Nat) (stored : BitVec 64) : BitVec 64 :=
  if defined then stored else Config.freeRegister (unitNumber u) c.draws r

/-- A read-write operand register: the value the host last wrote (R50), a free value before the first write (R52). -/
def operandShown (u : UnitId) (c : Control) (r : Nat) (o : OpReg) : BitVec 64 :=
  if o.written then o.value else Config.freeRegister (unitNumber u) c.draws r

/-- The registers of unit 0 above `STATUS`, `d` saying whether results are defined; reserved ones read 0. -/
def rleReg (d : Bool) (x : CodecUnit RleOps RleRes RleWork) (r : Nat) : BitVec 64 :=
  match r with
  | 2 => operandShown .rle x.ctl 2 x.ops.width
  | 3 => operandShown .rle x.ctl 3 x.ops.height
  | 4 => operandShown .rle x.ctl 4 x.ops.inLen
  | 5 => resultShown .rle d x.ctl 5 x.res.outLen
  | 6 => resultShown .rle d x.ctl 6 x.res.ratioNum
  | 7 => resultShown .rle d x.ctl 7 x.res.ratioDen
  | 8 => resultShown .rle d x.ctl 8 x.res.elapsed
  | r => if h : 16 ≤ r ∧ r < 24 then resultShown .rle d x.ctl r (x.res.planeLen[r - 16]'(by omega)) else 0

/-- The registers of unit 1 above `STATUS`. -/
def rldReg (d : Bool) (x : CodecUnit RldOps SymRes RldWork) (r : Nat) : BitVec 64 :=
  match r with
  | 2 => operandShown .rld x.ctl 2 x.ops.width
  | 3 => operandShown .rld x.ctl 3 x.ops.height
  | 4 => operandShown .rld x.ctl 4 x.ops.inLen
  | 5 => resultShown .rld d x.ctl 5 x.res.outLen
  | r => if h : 16 ≤ r ∧ r < 24 then operandShown .rld x.ctl r (x.ops.planeLen[r - 16]'(by omega)) else 0

/-- The registers of unit 2 above `STATUS`. -/
def breReg (d : Bool) (x : CodecUnit BreOps BreRes NoWork) (r : Nat) : BitVec 64 :=
  match r with
  | 4 => operandShown .bre x.ctl 4 x.ops.inLen
  | 5 => resultShown .bre d x.ctl 5 x.res.outLen
  | 9 => operandShown .bre x.ctl 9 x.ops.arg
  | _ => 0

/-- The registers of unit 3 above `STATUS`. -/
def htbReg (d : Bool) (x : CodecUnit HtbOps HtbRes HtbWork) (r : Nat) : BitVec 64 :=
  match r with
  | 4 => operandShown .htb x.ctl 4 x.ops.inLen
  | 5 => resultShown .htb false x.ctl 5 x.res.outLen
  | 10 => resultShown .htb d x.ctl 10 x.res.root
  | _ => 0

/-- The registers of unit 4 above `STATUS`. -/
def henReg (d : Bool) (x : CodecUnit HenOps HenRes HenWork) (r : Nat) : BitVec 64 :=
  match r with
  | 4 => operandShown .hen x.ctl 4 x.ops.inLen
  | 5 => resultShown .hen d x.ctl 5 x.res.outLen
  | 6 => resultShown .hen d x.ctl 6 x.res.ratioNum
  | 7 => resultShown .hen d x.ctl 7 x.res.ratioDen
  | 8 => resultShown .hen d x.ctl 8 x.res.elapsed
  | _ => 0

/-- The registers of unit 5 above `STATUS`. -/
def hdeReg (d : Bool) (x : CodecUnit HdeOps SymRes HdeWork) (r : Nat) : BitVec 64 :=
  match r with
  | 4 => operandShown .hde x.ctl 4 x.ops.inLen
  | 5 => resultShown .hde d x.ctl 5 x.res.outLen
  | 10 => operandShown .hde x.ctl 10 x.ops.root
  | _ => 0

/-- The registers of unit 6 above `STATUS`. -/
def lzeReg (d : Bool) (x : CodecUnit LzeOps LzeRes LzeWork) (r : Nat) : BitVec 64 :=
  match r with
  | 4 => operandShown .lze x.ctl 4 x.ops.inLen
  | 5 => resultShown .lze d x.ctl 5 x.res.outLen
  | 6 => resultShown .lze d x.ctl 6 x.res.ratioNum
  | 7 => resultShown .lze d x.ctl 7 x.res.ratioDen
  | 8 => resultShown .lze d x.ctl 8 x.res.elapsed
  | _ => 0

/-- The registers of unit 7 above `STATUS`. -/
def lzdReg (d : Bool) (x : CodecUnit LzdOps SymRes LzdWork) (r : Nat) : BitVec 64 :=
  match r with
  | 4 => operandShown .lzd x.ctl 4 x.ops.inLen
  | 5 => resultShown .lzd d x.ctl 5 x.res.outLen
  | _ => 0

/-- What a host read of register `r` of unit `u` returns (R50): `CTRL` reads 0, `STATUS` is always readable, no read has a side
effect (R74). -/
def readReg (s : State) (u : UnitId) (r : Nat) : BitVec 64 :=
  if r = 0 then 0
  else if r = 1 then statusWord (control s u)
  else
    let d := resultsDefined s u
    match u with
    | .rle => rleReg d s.rle r
    | .rld => rldReg d s.rld r
    | .bre => breReg d s.bre r
    | .htb => htbReg d s.htb r
    | .hen => henReg d s.hen r
    | .hde => hdeReg d s.hde r
    | .lze => lzeReg d s.lze r
    | .lzd => lzdReg d s.lzd r

/-- The host has read `STATUS` of unit `u`: when it returned `DONE`, the host's record says so. No unit changes (R74). -/
def noteStatus (u : UnitId) (s : State) : State :=
  if (control s u).state = .done then
    { s with seen := s.seen.set (unitIndex u) (some (control s u).draws) }
  else s

/-- A host write to an operand of a unit: kept, and marked as written; refused while the unit is `BUSY` (R82, R344), and
accepted as soon as it is not, whether or not the host has read `STATUS` since (assumption log 25). -/
def writeOperand {O R W : Type} (x : CodecUnit O R W) (f : O → O) : Except Refusal (CodecUnit O R W) :=
  match x.ctl.state with
  | .busy _ => .error .operandWriteWhileBusy
  | _ => .ok { x with ops := f x.ops }

/-- An operand register the host has written. -/
def writtenReg (v : BitVec 64) : OpReg := { value := v, written := true }

def rleWriteReg (x : CodecUnit RleOps RleRes RleWork) (r : Nat) (v : BitVec 64) :
    Except Refusal (CodecUnit RleOps RleRes RleWork) :=
  match r with
  | 2 => writeOperand x fun o => { o with width := writtenReg v }
  | 3 => writeOperand x fun o => { o with height := writtenReg v }
  | 4 => writeOperand x fun o => { o with inLen := writtenReg v }
  | r => if (1 ≤ r ∧ r ≤ 8) ∨ (16 ≤ r ∧ r < 24) then .error .readOnlyRegister else .ok x

def rldWriteReg (x : CodecUnit RldOps SymRes RldWork) (r : Nat) (v : BitVec 64) :
    Except Refusal (CodecUnit RldOps SymRes RldWork) :=
  match r with
  | 1 => .error .readOnlyRegister
  | 2 => writeOperand x fun o => { o with width := writtenReg v }
  | 3 => writeOperand x fun o => { o with height := writtenReg v }
  | 4 => writeOperand x fun o => { o with inLen := writtenReg v }
  | 5 => .error .readOnlyRegister
  | r =>
    if h : 16 ≤ r ∧ r < 24 then
      writeOperand x fun o => { o with planeLen := o.planeLen.set (r - 16) (writtenReg v) (by omega) }
    else .ok x

def breWriteReg (x : CodecUnit BreOps BreRes NoWork) (r : Nat) (v : BitVec 64) :
    Except Refusal (CodecUnit BreOps BreRes NoWork) :=
  match r with
  | 1 => .error .readOnlyRegister
  | 4 => writeOperand x fun o => { o with inLen := writtenReg v }
  | 5 => .error .readOnlyRegister
  | 9 => writeOperand x fun o => { o with arg := writtenReg v }
  | _ => .ok x

def htbWriteReg (x : CodecUnit HtbOps HtbRes HtbWork) (r : Nat) (v : BitVec 64) :
    Except Refusal (CodecUnit HtbOps HtbRes HtbWork) :=
  match r with
  | 1 => .error .readOnlyRegister
  | 4 => writeOperand x fun o => { o with inLen := writtenReg v }
  | 5 => .error .readOnlyRegister
  | 10 => .error .readOnlyRegister
  | _ => .ok x

def henWriteReg (x : CodecUnit HenOps HenRes HenWork) (r : Nat) (v : BitVec 64) :
    Except Refusal (CodecUnit HenOps HenRes HenWork) :=
  match r with
  | 1 => .error .readOnlyRegister
  | 4 => writeOperand x fun o => { o with inLen := writtenReg v }
  | r => if 5 ≤ r ∧ r ≤ 8 then .error .readOnlyRegister else .ok x

def hdeWriteReg (x : CodecUnit HdeOps SymRes HdeWork) (r : Nat) (v : BitVec 64) :
    Except Refusal (CodecUnit HdeOps SymRes HdeWork) :=
  match r with
  | 1 => .error .readOnlyRegister
  | 4 => writeOperand x fun o => { o with inLen := writtenReg v }
  | 5 => .error .readOnlyRegister
  | 10 => writeOperand x fun o => { o with root := writtenReg v }
  | _ => .ok x

def lzeWriteReg (x : CodecUnit LzeOps LzeRes LzeWork) (r : Nat) (v : BitVec 64) :
    Except Refusal (CodecUnit LzeOps LzeRes LzeWork) :=
  match r with
  | 1 => .error .readOnlyRegister
  | 4 => writeOperand x fun o => { o with inLen := writtenReg v }
  | r => if 5 ≤ r ∧ r ≤ 8 then .error .readOnlyRegister else .ok x

def lzdWriteReg (x : CodecUnit LzdOps SymRes LzdWork) (r : Nat) (v : BitVec 64) :
    Except Refusal (CodecUnit LzdOps SymRes LzdWork) :=
  match r with
  | 1 => .error .readOnlyRegister
  | 4 => writeOperand x fun o => { o with inLen := writtenReg v }
  | 5 => .error .readOnlyRegister
  | _ => .ok x

/-- A host write to register `r` of unit `u`, for `r` other than `CTRL`: an operand register takes the value, a reserved one
ignores it (R50), a read-only one refuses (assumption log 12). -/
def writeReg (s : State) (u : UnitId) (r : Nat) (v : BitVec 64) : Except Refusal State :=
  match u with
  | .rle => (rleWriteReg s.rle r v).map fun x => { s with rle := x }
  | .rld => (rldWriteReg s.rld r v).map fun x => { s with rld := x }
  | .bre => (breWriteReg s.bre r v).map fun x => { s with bre := x }
  | .htb => (htbWriteReg s.htb r v).map fun x => { s with htb := x }
  | .hen => (henWriteReg s.hen r v).map fun x => { s with hen := x }
  | .hde => (hdeWriteReg s.hde r v).map fun x => { s with hde := x }
  | .lze => (lzeWriteReg s.lze r v).map fun x => { s with lze := x }
  | .lzd => (lzdWriteReg s.lzd r v).map fun x => { s with lzd := x }

end Sys2Proof.Machine
end

