-- ==== Sys2Proof/Machine/HostAccess.lean ====
section
/-! DEFINITION. The host's reads and writes of places (R71, R82, R287, R346), `CTRL` among them, and reset (R340). -/

namespace Sys2Proof.Machine

/-! ### Reads -/

/-- An element of an "out" buffer: where results are defined, the one below the length the operation delivered (R346), else a free
value. -/
def elementShown {α : Type} (defined : Bool) (xs : List α) (i : Nat) (free : α) : α :=
  if defined then xs.getD i free else free

/-- The free value of an element, by unit, draw, buffer and index (assumption log 7). -/
def freeElement (u : UnitId) (c : Control) (buffer i : Nat) : BitVec 263 :=
  Config.freeElement (unitNumber u) c.draws buffer i

/-- `SYM_OUT` of units 1, 5 and 7. -/
def symRead {O W : Type} (u : UnitId) (d : Bool) (x : CodecUnit O SymRes W) (i : Nat) : HostValue :=
  .sym (elementShown d x.res.symOut i ((freeElement u x.ctl 0 i).setWidth 8))

/-- Entry `i` of `TREE_OUT`. -/
def treeShown (s : State) (i : Nat) : NodeElem :=
  elementShown (resultsDefined s .htb) s.htb.res.treeOut i ((freeElement .htb s.htb.ctl 1 i).setWidth 60)

/-- What the host reads at a place (R287): refused where there is no such register or "out" buffer element. -/
def readPlace (s : State) (p : Place) : Except Refusal HostValue :=
  match p with
  | .reg n => .ok (.word (readReg s (regUnit n) (regIndex n)))
  | .sym u i =>
    match u with
    | .rld => .ok (symRead .rld (resultsDefined s .rld) s.rld i)
    | .hde => .ok (symRead .hde (resultsDefined s .hde) s.hde i)
    | .lzd => .ok (symRead .lzd (resultsDefined s .lzd) s.lzd i)
    | _ => .error .noSuchAccess
  | .pair i => .ok (.pair (elementShown (resultsDefined s .rle) s.rle.res.pairOut i ((freeElement .rle s.rle.ctl 8 i).setWidth 40)))
  | .bit u i =>
    match u with
    | .bre => .ok (.bit (elementShown (resultsDefined s .bre) s.bre.res.bitOut i ((freeElement .bre s.bre.ctl 0 i).getLsbD 0)))
    | .hen => .ok (.bit (elementShown (resultsDefined s .hen) s.hen.res.bitOut i ((freeElement .hen s.hen.ctl 0 i).getLsbD 0)))
    | _ => .error .noSuchAccess
  | .plane q i =>
    .ok (.bit (elementShown (resultsDefined s .rle) s.rle.res.planeOut[q] i ((freeElement .rle s.rle.ctl q.val i).getLsbD 0)))
  | .tree i =>
    if i < Config.maxNodes then .ok (.node (treeShown s i))
    else .error .noSuchAccess
  | .ctab i =>
    if i < Config.numCodes then
      .ok (.code (elementShown (resultsDefined s .htb) s.htb.res.ctabOut i (freeElement .htb s.htb.ctl 2 i)))
    else .error .noSuchAccess
  | .lzc i =>
    .ok (.word (elementShown (resultsDefined s .lze) s.lze.res.lzcOut i ((freeElement .lze s.lze.ctl 0 i).setWidth 64)))

/-! ### Writes -/

/-- A host write to element `i` of an "in" buffer, bounded by `BUF_CAP` (R71, R348). -/
def writeElement {O R W : Type} (cap : Option Nat) (x : CodecUnit O R W) (i : Nat) (f : O → O) :
    Except Refusal (CodecUnit O R W) :=
  if fitsCap cap (i + 1) then writeOperand x f else .error .beyondCapacity

/-- A host write to entry `i` of a table with `n` entries, bounded by `BUF_CAP` like every buffer (R71, R348). -/
def writeEntry {O R W : Type} (cap : Option Nat) (n : Nat) (x : CodecUnit O R W) (i : Nat) (f : O → O) :
    Except Refusal (CodecUnit O R W) :=
  if i < n then writeElement cap x i f else .error .noSuchAccess

/-- What a host write does at a place other than `CTRL` (R71, R287): the unit's operand takes the value. -/
def writePlace (s : State) (p : Place) (v : HostValue) : Except Refusal State :=
  match p, v with
  | .reg n, .word w => writeReg s (regUnit n) (regIndex n) w
  | .sym u i, .sym v =>
    match u with
    | .rle => (writeElement s.cap s.rle i fun o => { o with symIn := bufSet o.symIn i v }).map fun x => { s with rle := x }
    | .htb => (writeElement s.cap s.htb i fun o => { o with symIn := bufSet o.symIn i v }).map fun x => { s with htb := x }
    | .hen => (writeElement s.cap s.hen i fun o => { o with symIn := bufSet o.symIn i v }).map fun x => { s with hen := x }
    | .lze => (writeElement s.cap s.lze i fun o => { o with symIn := bufSet o.symIn i v }).map fun x => { s with lze := x }
    | _ => .error .noSuchAccess
  | .pair i, .pair v =>
    (writeElement s.cap s.rld i fun o => { o with pairIn := bufSet o.pairIn i v }).map fun x => { s with rld := x }
  | .bit u i, .bit v =>
    match u with
    | .bre => (writeElement s.cap s.bre i fun o => { o with bitIn := bufSet o.bitIn i v }).map fun x => { s with bre := x }
    | .hde => (writeElement s.cap s.hde i fun o => { o with bitIn := bufSet o.bitIn i v }).map fun x => { s with hde := x }
    | _ => .error .noSuchAccess
  | .plane q i, .bit v =>
    (writeElement s.cap s.rld i fun o => { o with planeIn := o.planeIn.set q (bufSet o.planeIn[q] i v) }).map
      fun x => { s with rld := x }
  | .tree i, .node v =>
    (writeEntry s.cap Config.maxNodes s.hde i fun o => { o with treeIn := bufSet o.treeIn i v }).map fun x => { s with hde := x }
  | .ctab i, .code v =>
    (writeEntry s.cap Config.numCodes s.hen i fun o => { o with ctabIn := bufSet o.ctabIn i v }).map fun x => { s with hen := x }
  | .lzc i, .word v =>
    (writeElement s.cap s.lzd i fun o => { o with lzcIn := bufSet o.lzcIn i v }).map fun x => { s with lzd := x }
  | _, _ => .error .noSuchAccess

/-- A host write of `w` to the `CTRL` of unit `u` (R100): the decoded command runs, a word with neither `START` nor `CLEAR` has
no effect in any state, every other word is reserved (R102). -/
def writeCtrl (u : UnitId) (w : BitVec 64) (s : State) : Host.Outcome State Fault Refusal :=
  match decodeCtrl u w with
  | .run i => exec i s
  | .noEffect => .next s
  | .reserved why => .refused (.reservedCommand why)

/-- A host write: to `CTRL` when the place is register 0 of a unit, else to an operand. -/
def hostWrite (p : Place) (v : HostValue) (s : State) : Host.Outcome State Fault Refusal :=
  match p, v with
  | .reg n, .word w => if regIndex n = 0 then writeCtrl (regUnit n) w s else answer (writePlace s p v)
  | _, _ => answer (writePlace s p v)

/-- What the host's record keeps of a read: only of a `STATUS` that returned `DONE` (R346). -/
def noteRead (p : Place) (s : State) : State :=
  match p with
  | .reg n => if regIndex n = 1 then noteStatus (regUnit n) s else s
  | _ => s

/-- A host read: the value joins those the host has read; nothing of CORE changes (R74). -/
def hostRead (p : Place) (s : State) : Host.Outcome State Fault Refusal :=
  match readPlace s p with
  | .ok v => .next { noteRead p s with reads := s.reads ++ [v] }
  | .error r => .refused r

/-- The host carries one value from a result to an operand (R82, R316): a read and a write. -/
def hostCopy (src dst : Place) (s : State) : Host.Outcome State Fault Refusal :=
  match readPlace s src with
  | .ok v => hostWrite dst v (noteRead src s)
  | .error r => .refused r

/-- Reset of all eight units (R340): every unit as `State.reset` has it. `BUF_CAP`, the host's script and what the host has read
are not CORE's, and stay; no `STATUS` read before it counts any more (R346). -/
def resetCore (s : State) : State :=
  { s with
    rle := resetUnit State.reset.rle s.rle
    rld := resetUnit State.reset.rld s.rld
    bre := resetUnit State.reset.bre s.bre
    htb := resetUnit State.reset.htb s.htb
    hen := resetUnit State.reset.hen s.hen
    hde := resetUnit State.reset.hde s.hde
    lze := resetUnit State.reset.lze s.lze
    lzd := resetUnit State.reset.lzd s.lzd
    seen := State.reset.seen }

end Sys2Proof.Machine
end

