-- ==== Sys2Proof/Machine/Busy.lean ====
section
/-! DEFINITION. The life of a unit that stays `BUSY` between its `START` and the step of its operation (R7, R44, R100, R317), for hosts that
look before the operation has ended (R351). -/

namespace Sys2Proof.Machine

/-- Working registers at the start of `RLE.ENCS` (R45, R152): the first row's run is open, `cur <- R[0]`, `cnt <- 1`, and the scan
goes on at column 1. Where the check of R150 fails, no loop is entered and they rest (assumption log 5). -/
def rleEncsInitial (x : CodecUnit RleOps RleRes RleWork) : RleWork :=
  match sampleRaster none x.ops with
  | .ok (w, h, v :: rest) =>
    if badRaster w h (v :: rest).length then .atRest else { r := 0, c := 1, pos := 0, cur := v, cnt := 1 }
  | _ => .atRest

/-- Working registers at the start of an operation of unit 5 (R45, R232): at the root of the tree operand. -/
def hdeInitial (x : CodecUnit HdeOps SymRes HdeWork) : HdeWork :=
  match sampleTree none x.ops with
  | .ok t => { pos := 0, node := t }
  | .error _ => .atRest

/-- Working registers at the start of an operation of unit 6 (R45, R251). -/
def lzeInitial : LzeWork := { dict := seedDict, nextCode := Config.numSeed, w := [], pos := 0 }

/-- Working registers at the start of an operation of unit 7 (R45, R271). -/
def lzdInitial : LzdWork := { ddict := seedStrings, nextCode := Config.numSeed, w := [], entry := [], pos := 0 }

/-- `START` of operation `i` alone: the unit is `BUSY` with its working registers at their initial values (R100, R343). Units
whose working registers start at 0 or empty (R155, R172, R175, R191, R222) begin as they rest. -/
def beginOperation (i : Instr) (func : BitVec 4) (s : State) : Except Refusal State :=
  match i with
  | .rleEncs => (beginOn rleEncsInitial func rleEncsOp s.cap s.rle).map fun x => { s with rle := x }
  | .rleEncb => (beginOn (fun _ => .atRest) func rleEncbOp s.cap s.rle).map fun x => { s with rle := x }
  | .rldDecs => (beginOn (fun _ => .atRest) func rldDecsOp s.cap s.rld).map fun x => { s with rld := x }
  | .rldDecb => (beginOn (fun _ => .atRest) func rldDecbOp s.cap s.rld).map fun x => { s with rld := x }
  | .brePut => (beginOn (fun _ => {}) func brePutOp s.cap s.bre).map fun x => { s with bre := x }
  | .htbBuild => (beginOn (fun _ => .atRest) func htbBuildOp s.cap s.htb).map fun x => { s with htb := x }
  | .henEnc => (beginOn (fun _ => .atRest) func henEncOp s.cap s.hen).map fun x => { s with hen := x }
  | .hdeDec => (beginOn hdeInitial func hdeDecOp s.cap s.hde).map fun x => { s with hde := x }
  | .lzeEnc => (beginOn (fun _ => lzeInitial) func lzeEncOp s.cap s.lze).map fun x => { s with lze := x }
  | .lzdDec => (beginOn (fun _ => lzdInitial) func lzdDecOp s.cap s.lzd).map fun x => { s with lzd := x }
  | .clear _ _ => .ok s
  | .hufEncode => .ok s

/-- The step of operation `i` on a unit that is `BUSY` with it (R7). -/
def finishOperation (i : Instr) (s : State) : Except Refusal State :=
  match i with
  | .rleEncs => (finishOn RleRes.unspecified .atRest rleEncsOp s.cap s.rle).map fun x => { s with rle := x }
  | .rleEncb => (finishOn RleRes.unspecified .atRest rleEncbOp s.cap s.rle).map fun x => { s with rle := x }
  | .rldDecs => (finishOn (SymRes.unspecified 1) .atRest rldDecsOp s.cap s.rld).map fun x => { s with rld := x }
  | .rldDecb => (finishOn (SymRes.unspecified 1) .atRest rldDecbOp s.cap s.rld).map fun x => { s with rld := x }
  | .brePut => (finishOn BreRes.unspecified {} brePutOp s.cap s.bre).map fun x => { s with bre := x }
  | .htbBuild => (finishOn HtbRes.unspecified .atRest htbBuildOp s.cap s.htb).map fun x => { s with htb := x }
  | .henEnc => (finishOn HenRes.unspecified .atRest henEncOp s.cap s.hen).map fun x => { s with hen := x }
  | .hdeDec => (finishOn (SymRes.unspecified 5) .atRest hdeDecOp s.cap s.hde).map fun x => { s with hde := x }
  | .lzeEnc => (finishOn LzeRes.unspecified .atRest lzeEncOp s.cap s.lze).map fun x => { s with lze := x }
  | .lzdDec => (finishOn (SymRes.unspecified 7) .atRest lzdDecOp s.cap s.lzd).map fun x => { s with lzd := x }
  | .clear _ _ => .ok s
  | .hufEncode => .ok s

/-- A host write of `w` to the `CTRL` of unit `u` that leaves a started unit `BUSY`; every other word does what `writeCtrl` does. -/
def startSlow (u : UnitId) (w : BitVec 64) (s : State) : Host.Outcome State Fault Refusal :=
  match decodeCtrl u w with
  | .run (.clear v ignored) => exec (.clear v ignored) s
  | .run i => answer (beginOperation i (ctrlFunc w) s)
  | .noEffect => .next s
  | .reserved why => .refused (.reservedCommand why)

/-- Unit `u` takes the step of its operation if it is `BUSY`; in any other state it does nothing (R318). -/
def unitStep (u : UnitId) (s : State) : Host.Outcome State Fault Refusal :=
  match (control s u).state with
  | .busy func =>
    match opOfFunc u func with
    | some i => answer (finishOperation i s)
    | none => .next s
  | _ => .next s

/-- The units in the order of their numbers (R50). -/
def allUnits : List UnitId := [.rle, .rld, .bre, .htb, .hen, .hde, .lze, .lzd]

/-- Whether a unit is `BUSY`. -/
def isBusy (s : State) (u : UnitId) : Bool :=
  match (control s u).state with
  | .busy _ => true
  | _ => false

/-- What happens when the host has nothing more to do: the first `BUSY` unit takes its step, and with none nothing happens (R8,
R318, R340; assumption log 2). -/
def idleStep (s : State) : Host.Outcome State Fault Refusal :=
  match allUnits.find? (isBusy s) with
  | some u => unitStep u s
  | none => .next s

end Sys2Proof.Machine
end

