-- ==== Sys2Proof/Machine/Script.lean ====
section
/-! DEFINITION. Host scripts (R112): what one script line does, as events. -/

namespace Sys2Proof.Machine

/-- One line of a host script with its operands (R112, R113). `HUF.ENCODE` is a line of its own. -/
inductive ScriptLine where
  | brePut (b : List Bool) (n : BitVec 64)
  | rleEncs (r : List Symbol) (w h : BitVec 64)
  | rleEncb (r : List Symbol) (w h : BitVec 64)
  | rldDecs (runs : List PairElem) (w h : BitVec 64)
  | rldDecb (planes : Vector (List Bool) 8) (w h : BitVec 64)
  | htbBuild (s : List Symbol)
  | henEnc (s : List Symbol) (tab : List CodeElem)
  | hdeDec (bits : List Bool) (tree : List NodeElem) (root : BitVec 64)
  | lzeEnc (b : List Symbol)
  | lzdDec (codes : List (BitVec 64))
  | hufEncode (s : List Symbol)
  deriving DecidableEq, Repr

/-- The operation of a line. -/
def lineInstr : ScriptLine → Instr
  | .brePut _ _ => .brePut
  | .rleEncs _ _ _ => .rleEncs
  | .rleEncb _ _ _ => .rleEncb
  | .rldDecs _ _ _ => .rldDecs
  | .rldDecb _ _ _ => .rldDecb
  | .htbBuild _ => .htbBuild
  | .henEnc _ _ => .henEnc
  | .hdeDec _ _ _ => .hdeDec
  | .lzeEnc _ => .lzeEnc
  | .lzdDec _ => .lzdDec
  | .hufEncode _ => .hufEncode

/-- The host writes register `r` of unit `u`. -/
def regEvent (u : UnitId) (r : Nat) (v : BitVec 64) : Event := .write (.reg (regNumber u r)) (.word v)

/-- The host writes the elements of a sequence to consecutive places. -/
def elementEvents {α : Type} (place : Nat → Place) (value : α → HostValue) (xs : List α) : List Event :=
  xs.mapIdx fun i x => .write (place i) (value x)

/-- The operand writes of a line (R51, R112). -/
def operandEvents : ScriptLine → List Event
  | .brePut b n =>
    elementEvents (.bit .bre) .bit b ++ [regEvent .bre 4 (counter b.length), regEvent .bre 9 n]
  | .rleEncs r w h =>
    elementEvents (.sym .rle) .sym r ++ [regEvent .rle 2 w, regEvent .rle 3 h, regEvent .rle 4 (counter r.length)]
  | .rleEncb r w h =>
    elementEvents (.sym .rle) .sym r ++ [regEvent .rle 2 w, regEvent .rle 3 h, regEvent .rle 4 (counter r.length)]
  | .rldDecs runs w h =>
    elementEvents .pair .pair runs ++ [regEvent .rld 2 w, regEvent .rld 3 h, regEvent .rld 4 (counter runs.length)]
  | .rldDecb planes w h =>
    (List.finRange 8).flatMap (fun p =>
      elementEvents (.plane p) .bit planes[p] ++ [regEvent .rld (16 + p.val) (counter planes[p].length)]) ++
    [regEvent .rld 2 w, regEvent .rld 3 h]
  | .htbBuild s => elementEvents (.sym .htb) .sym s ++ [regEvent .htb 4 (counter s.length)]
  | .henEnc s tab =>
    elementEvents (.sym .hen) .sym s ++ elementEvents .ctab .code tab ++ [regEvent .hen 4 (counter s.length)]
  | .hdeDec bits tree root =>
    elementEvents (.bit .hde) .bit bits ++ elementEvents .tree .node tree ++
    [regEvent .hde 4 (counter bits.length), regEvent .hde 10 root]
  | .lzeEnc b => elementEvents (.sym .lze) .sym b ++ [regEvent .lze 4 (counter b.length)]
  | .lzdDec codes => elementEvents .lzc .word codes ++ [regEvent .lzd 4 (counter codes.length)]
  | .hufEncode s => elementEvents (.sym .htb) .sym s ++ [regEvent .htb 4 (counter s.length)]

/-- The `CLEAR` of a unit (R112). -/
def clearEvent (u : UnitId) : Event := regEvent u 0 0x200#64

/-- The command of a line: the `START` word written to the unit's `CTRL`, or the pseudo-operation. -/
def commandEvent (i : Instr) : Event :=
  match encode i with
  | some (u, w) => regEvent u 0 w
  | none => .hufEncode

/-- One line (R112): operands, `START`, wait, results, `CLEAR`; the pseudo-operation clears both its units. -/
def lineEvents (l : ScriptLine) : List Event :=
  operandEvents l ++ [commandEvent (lineInstr l), .collect (lineInstr l), clearEvent (instrUnit (lineInstr l))] ++
  (match lineInstr l with
    | .hufEncode => [clearEvent .hen]
    | _ => [])

/-- Registers of a unit, each as a host read gives it (R50, R346). -/
def regsShown (s : State) (u : UnitId) (rs : List Nat) : List HostValue := rs.map fun r => .word (readReg s u r)

/-- The registers and buffers an operation leaves as its results (R51), as the host copies them out once it has polled `DONE`: each
register and each tree entry of the pseudo-operation is what a host read gives (R346; assumption log 17). -/
def resultValues (i : Instr) (s : State) : List HostValue :=
  match i with
  | .rleEncs => regsShown s .rle [5, 6, 7, 8] ++ s.rle.res.pairOut.map .pair
  | .rleEncb =>
    regsShown s .rle [16, 17, 18, 19, 20, 21, 22, 23, 6, 7, 8] ++
    s.rle.res.planeOut.toList.flatMap fun e => e.map .bit
  | .rldDecs => regsShown s .rld [5] ++ s.rld.res.symOut.map .sym
  | .rldDecb => regsShown s .rld [5] ++ s.rld.res.symOut.map .sym
  | .brePut => regsShown s .bre [5] ++ s.bre.res.bitOut.map .bit
  | .htbBuild => regsShown s .htb [10] ++ s.htb.res.treeOut.map .node ++ s.htb.res.ctabOut.map .code
  | .henEnc => regsShown s .hen [5, 6, 7, 8] ++ s.hen.res.bitOut.map .bit
  | .hdeDec => regsShown s .hde [5] ++ s.hde.res.symOut.map .sym
  | .lzeEnc => regsShown s .lze [5, 6, 7, 8] ++ s.lze.res.lzcOut.map .word
  | .lzdDec => regsShown s .lzd [5] ++ s.lzd.res.symOut.map .sym
  | .clear _ _ => []
  | .hufEncode =>
    regsShown s .htb [10] ++ (List.range Config.maxNodes).map (fun i => .node (treeShown s i)) ++
    regsShown s .hen [5, 6, 7, 8] ++ s.hen.res.bitOut.map .bit

/-- The units whose `STATUS` a line polls: both units of the two lines of the pseudo-operation (R113). -/
def polledUnits (i : Instr) : List UnitId :=
  match i with
  | .hufEncode => [.htb, .hen]
  | i => [instrUnit i]

/-- One poll of `STATUS` (R112): the value read joins the host's, and a `DONE` is noted (R346). -/
def pollStatus (u : UnitId) (s : State) : State :=
  { noteStatus u s with reads := s.reads ++ [.word (statusWord (control s u))] }

/-- A poll of each unit, in order. -/
def pollAll (us : List UnitId) (s : State) : State := us.foldl (fun t u => pollStatus u t) s

/-- Whether a unit is in `FAULT`. -/
def isFaulted (s : State) (u : UnitId) : Bool := decide ((control s u).state = .fault)

/-- Whether a unit is in `DONE`. -/
def isDone (s : State) (u : UnitId) : Bool := decide ((control s u).state = .done)

/-- The host polls until the units of `i` are `DONE` or `FAULT` (R112): in `BUSY` the unit moves and the host polls again; in `DONE`
the results are bound; in `FAULT` they are not, and the script ends after the `CLEAR`. Where some unit is in `IDLE`, which no line
meets, the host polls once, binds nothing and goes on (assumption log 17). `s` is the state with this event taken off the queue, `again`
with it still there. -/
def collectResults (i : Instr) (again s : State) : Host.Outcome State Fault Refusal :=
  let us := polledUnits i
  match us.find? (isBusy s) with
  | some u => unitStep u (pollStatus u again)
  | none =>
    let t := pollAll us s
    match us.find? (isFaulted s) with
    | some u => .next { t with pending := [clearEvent u] }
    | none => .next (if us.all (isDone s) then { t with reads := t.reads ++ resultValues i t } else t)

/-- What one event does, on the state with the event already taken off the queue (assumption log 1); `again` still has it. -/
def runEvent (e : Event) (again s : State) : Host.Outcome State Fault Refusal :=
  match e with
  | .write p v => hostWrite p v s
  | .read p => hostRead p s
  | .copy src dst => hostCopy src dst s
  | .startSlow u w => startSlow u w s
  | .unitStep u => unitStep u s
  | .hufEncode => exec .hufEncode s
  | .collect i => collectResults i again s
  | .reset => .next (resetCore s)

/-- The event the next step runs. -/
def nextEvent (s : State) : Option (Event × State) :=
  match s.pending with
  | [] => none
  | e :: rest => some (e, { s with pending := rest })

/-- The event that brings a bare command word to the unit it is for (assumption log 14). -/
def fetchEvent (nbits w : Nat) : Event :=
  let word := BitVec.ofNat 64 (w % 2 ^ nbits)
  regEvent (wordUnit word) 0 word

end Sys2Proof.Machine
end

