-- ==== Sys2Proof/Machine/Step.lean ====
section
/-! DEFINITION. One step of CORE with its host (R7, R44, R287): the next event of the queue, or the units alone. -/

namespace Sys2Proof.Machine

/-- One step. The three outcomes: a next state; a machine fault, of which CORE has none; a refusal. -/
def step (s : State) : Host.Outcome State Fault Refusal :=
  match nextEvent s with
  | some (e, rest) => runEvent e s rest
  | none => idleStep s

/-- CORE fetches nothing: its one command is the value of a `CTRL` write (R80). So this puts the host's write of the word to
the `CTRL` of the word's unit at the head of the queue, and changes nothing else (assumption log 1). -/
def State.withFetchWord (s : State) (nbits w : Nat) : State :=
  { s with pending := fetchEvent nbits w :: s.pending }

end Sys2Proof.Machine
end

