-- ==== Sys2Proof/Safety.lean ====
section
/-! DEFINITION. The terms claims are made in: what it is for an operand to be there, the declarative readings of the data
formats, the invariants of the machine, and what an operation may touch. -/

namespace Sys2Proof.Machine

/-! ### Operands -/

/-- The host wrote `v` into an operand register. -/
def RegHolds (r : OpReg) (v : BitVec 64) : Prop := r.written = true ∧ r.value = v

/-- Elements 0 to `xs.length - 1` of an "in" buffer were written and are `xs`. -/
def Stored {α : Type} (b : Buf α) (xs : List α) : Prop := ∀ i (h : i < xs.length), bufGet b i = some xs[i]

/-- The operand sequence `xs`: counted by a written length register within its range, within `BUF_CAP`, and stored (R342, R348). -/
structure StreamOperand {α : Type} (cap : Option Nat) (bound : Nat) (len : OpReg) (b : Buf α) (xs : List α) : Prop where
  written : len.written = true
  counted : len.value.toNat = xs.length
  admitted : xs.length ≤ bound
  capacity : fitsCap cap xs.length = true
  stored : Stored b xs

/-- The operands of `RLE.ENCS` and `RLE.ENCB` (R51, R150). -/
structure RasterOperands (s : State) (r : List Symbol) (w h : BitVec 64) : Prop where
  width : RegHolds s.rle.ops.width w
  height : RegHolds s.rle.ops.height h
  stream : StreamOperand s.cap Config.maxIn s.rle.ops.inLen s.rle.ops.symIn r

/-- The operands of `RLD.DECS` (R51, R171). -/
structure PairOperands (s : State) (pairs : List PairElem) (w h : BitVec 64) : Prop where
  width : RegHolds s.rld.ops.width w
  height : RegHolds s.rld.ops.height h
  stream : StreamOperand s.cap Config.maxIn s.rld.ops.inLen s.rld.ops.pairIn pairs

/-- The operands of `RLD.DECB` (R51, R174). -/
structure PlaneOperands (s : State) (planes : Vector (List Bool) 8) (w h : BitVec 64) : Prop where
  width : RegHolds s.rld.ops.width w
  height : RegHolds s.rld.ops.height h
  stream : ∀ p : Fin 8,
    StreamOperand s.cap Config.maxPlaneLen s.rld.ops.planeLen[p] s.rld.ops.planeIn[p] planes[p]

/-- The operands of `HEN.ENC` (R51, R220, R342). -/
structure EncoderOperands (s : State) (stream : List Symbol) (tab : List CodeElem) : Prop where
  stream : StreamOperand s.cap Config.maxIn s.hen.ops.inLen s.hen.ops.symIn stream
  capacity : fitsCap s.cap Config.numCodes = true
  entries : tab.length = Config.numCodes
  table : Stored s.hen.ops.ctabIn tab

/-- The operands of `HDE.DEC` (R51, R230, R231): the tree is that of a well-formed table. -/
structure DecoderOperands (s : State) (bits : List Bool) (tree : Option HTree) : Prop where
  stream : StreamOperand s.cap Config.maxIn s.hde.ops.inLen s.hde.ops.bitIn bits
  root : s.hde.ops.root.written = true ∧ s.hde.ops.root.value.toNat < 2 ^ 9
  capacity : fitsCap s.cap Config.maxNodes = true
  tree : treeOf s.hde.ops.treeIn s.hde.ops.root.value.toNat = .ok tree

/-! ### Declarative readings -/

/-- The maximal-run decomposition of a sequence (R152): counts at least 1, neighbours different, and the sequence replayed. -/
structure MaximalRuns (runs : List (Symbol × Nat)) (s : List Symbol) : Prop where
  positive : ∀ p ∈ runs, 1 ≤ p.2
  different : runs.IsChain fun a b => a.1 ≠ b.1
  replay : runs.flatMap (fun p => List.replicate p.2 p.1) = s

/-- The fields of a plane describe its bits (R105, R156 (e), R175): run `k` has value `k mod 2`. -/
structure PlaneRuns (fields : List Nat) (bits : List Bool) : Prop where
  total : fields.sum = bits.length
  value : ∀ j k (h : j < bits.length),
    (fields.take k).sum ≤ j → j < (fields.take (k + 1)).sum → bits[j] = decide (k % 2 = 1)

/-- The merge loop under policy `det` (R194), read declaratively: in each iteration number `k` the least node in (freq, seq) order
becomes the left child, the least of the rest the right child, and the new node has sequence number `256 + k`. -/
inductive DetMerges : Nat → List QNode → Option QNode → Prop where
  | empty (k : Nat) : DetMerges k [] none
  | single (k : Nat) (n : QNode) : DetMerges k [n] (some n)
  | merge (k : Nat) (q rest : List QNode) (a b : QNode) (top : Option QNode)
      (perm : q.Perm (a :: b :: rest))
      (aLeast : ∀ x ∈ b :: rest, queueBefore a x = true)
      (bLeast : ∀ x ∈ rest, queueBefore b x = true)
      (next : DetMerges (k + 1) (mergedNode k a b :: rest) top) :
      DetMerges k q top

/-- The same loop with the list of its merges, in order: which node became the left child and which the right one. -/
inductive DetMergeLog : Nat → List QNode → List (QNode × QNode) → Option QNode → Prop where
  | empty (k : Nat) : DetMergeLog k [] [] none
  | single (k : Nat) (n : QNode) : DetMergeLog k [n] [] (some n)
  | merge (k : Nat) (q rest : List QNode) (a b : QNode) (merges : List (QNode × QNode)) (top : Option QNode)
      (perm : q.Perm (a :: b :: rest))
      (aLeast : ∀ x ∈ b :: rest, queueBefore a x = true)
      (bLeast : ∀ x ∈ rest, queueBefore b x = true)
      (next : DetMergeLog (k + 1) (mergedNode k a b :: rest) merges top) :
      DetMergeLog k q ((a, b) :: merges) top

/-! ### The tree table (R108, R231) -/

/-- The child a valid internal entry names: the left one, or the right one. -/
def childAt (tbl : Buf NodeElem) (i : Nat) (right : Bool) : Option Nat :=
  if i < Config.maxNodes then
    match bufGet tbl i with
    | some e =>
      if entryValid e && !entryLeaf e then some (if right then entryRight e else entryLeft e) else none
    | none => none
  else none

/-- The index reached from index `i` along a path of left (false) and right (true) steps, none where the path leaves the table. -/
def reachedAt (tbl : Buf NodeElem) : Nat → List Bool → Option Nat
  | i, [] => some i
  | i, right :: path =>
    match childAt tbl i right with
    | some j => reachedAt tbl j path
    | none => none

/-- Every index reached names an entry, every entry reached that was written is valid, and none is reached twice (R108). -/
structure TableShape (tbl : Buf NodeElem) (root : Nat) : Prop where
  inTable : ∀ path i, reachedAt tbl root path = some i → i < Config.maxNodes
  valid : ∀ path i e, reachedAt tbl root path = some i → bufGet tbl i = some e → entryValid e = true
  once : ∀ path path' i, reachedAt tbl root path = some i → reachedAt tbl root path' = some i → path = path'

/-- Every entry reached was written (R342). -/
def TableWritten (tbl : Buf NodeElem) (root : Nat) : Prop :=
  ∀ path i, reachedAt tbl root path = some i → i < Config.maxNodes → bufGet tbl i ≠ none

/-- Entry `i` of the table holds the tree, its subtrees at the child indexes. -/
def TableHolds (tbl : Buf NodeElem) : Nat → HTree → Prop
  | i, .leaf s f => ∃ e, bufGet tbl i = some e ∧ entryValid e = true ∧ entryLeaf e = true ∧ entrySym e = s ∧ entryFreq e = f
  | i, .node f l r => ∃ e, bufGet tbl i = some e ∧ entryValid e = true ∧ entryLeaf e = false ∧ entryFreq e = f ∧
      TableHolds tbl (entryLeft e) l ∧ TableHolds tbl (entryRight e) r

/-- The symbols of a tree's leaves, from left to right. -/
def leafSyms : HTree → List Symbol
  | .leaf s _ => [s]
  | .node _ l r => leafSyms l ++ leafSyms r

/-- How many internal nodes a tree has. -/
def internalNodes : HTree → Nat
  | .leaf _ _ => 0
  | .node _ l r => internalNodes l + internalNodes r + 1

/-- Every internal node's frequency is the sum of its children's (R193). -/
def FreqsAdd : HTree → Prop
  | .leaf _ _ => True
  | .node f l r => f = treeFreq l + treeFreq r ∧ FreqsAdd l ∧ FreqsAdd r

/-- A concatenation of 32-bit fields (R105). -/
def fieldBits (fields : List Nat) : List Bool := fields.flatMap fun n => field32 (BitVec.ofNat 32 n)

/-- A code stream read as strings (R254, R277): a code below 256 is one byte; code `256 + m` at index `j`, `m < j`, is the string
of code `m` followed by the first byte of the string of code `m + 1`. -/
structure LzwStrings (codes : List Nat) (strings : List (List Symbol)) : Prop where
  sameLength : strings.length = codes.length
  nonEmpty : ∀ s ∈ strings, s ≠ []
  seed : ∀ j (h : j < codes.length) (h' : j < strings.length), codes[j] < Config.numSeed →
    strings[j] = [BitVec.ofNat 8 codes[j]]
  entry : ∀ j (h : j < codes.length) (h' : j < strings.length), Config.numSeed ≤ codes[j] →
    ∃ m, ∃ hm : m < j, codes[j] = Config.numSeed + m ∧
      strings[j] = strings[m] ++ (strings[m + 1]).take 1

/-- The encoder's match at index `j` is the longest (R252): the string of code `j` with the first byte of the next is neither one
byte nor an entry inserted before. -/
def LzwGreedy (strings : List (List Symbol)) : Prop :=
  ∀ j (h : j + 1 < strings.length), ∀ m (hm : m < j),
    strings[j] ++ (strings[j + 1]).take 1 ≠ strings[m] ++ (strings[m + 1]).take 1

/-- The codes of `LZD.DEC` are in range (R302): the first below 256, the one at index `j` at most `256 + j - 1`. -/
def CodesInRange (codes : List Nat) : Prop :=
  ∀ j (h : j < codes.length), if j = 0 then codes[j] < Config.numSeed else codes[j] < Config.numSeed + j

/-! ### The register bank (R50) -/

/-- The registers the host may write and read back. -/
def operandRegister (u : UnitId) (r : Nat) : Bool :=
  match u with
  | .rle => r = 2 || r = 3 || r = 4
  | .rld => r = 2 || r = 3 || r = 4 || (decide (16 ≤ r) && decide (r < 24))
  | .bre => r = 4 || r = 9
  | .htb => r = 4
  | .hen => r = 4
  | .hde => r = 4 || r = 10
  | .lze => r = 4
  | .lzd => r = 4

/-- The read-only registers that hold results. -/
def resultRegister (u : UnitId) (r : Nat) : Bool :=
  match u with
  | .rle => r = 5 || r = 6 || r = 7 || r = 8 || (decide (16 ≤ r) && decide (r < 24))
  | .rld => r = 5
  | .bre => r = 5
  | .htb => r = 5 || r = 10
  | .hen => r = 5 || r = 6 || r = 7 || r = 8
  | .hde => r = 5
  | .lze => r = 5 || r = 6 || r = 7 || r = 8
  | .lzd => r = 5

/-- The registers that read 0 and ignore writes: every number below 32 that is no other register of the unit. -/
def reservedRegister (u : UnitId) (r : Nat) : Bool :=
  decide (2 ≤ r) && decide (r < 32) && !operandRegister u r && !resultRegister u r

/-- Operand register `r` of unit `u`. -/
def operandAt (s : State) (u : UnitId) (r : Nat) : Option OpReg :=
  match u with
  | .rle => if r = 2 then some s.rle.ops.width else if r = 3 then some s.rle.ops.height
      else if r = 4 then some s.rle.ops.inLen else none
  | .rld => if r = 2 then some s.rld.ops.width else if r = 3 then some s.rld.ops.height
      else if r = 4 then some s.rld.ops.inLen
      else if h : 16 ≤ r ∧ r < 24 then some (s.rld.ops.planeLen[r - 16]'(by omega)) else none
  | .bre => if r = 4 then some s.bre.ops.inLen else if r = 9 then some s.bre.ops.arg else none
  | .htb => if r = 4 then some s.htb.ops.inLen else none
  | .hen => if r = 4 then some s.hen.ops.inLen else none
  | .hde => if r = 4 then some s.hde.ops.inLen else if r = 10 then some s.hde.ops.root else none
  | .lze => if r = 4 then some s.lze.ops.inLen else none
  | .lzd => if r = 4 then some s.lzd.ops.inLen else none

/-- From `s` to `t` only the operands of unit `u` changed. -/
def OnlyOperands (u : UnitId) (s t : State) : Prop :=
  match u with
  | .rle => t = { s with rle := { s.rle with ops := t.rle.ops } }
  | .rld => t = { s with rld := { s.rld with ops := t.rld.ops } }
  | .bre => t = { s with bre := { s.bre with ops := t.bre.ops } }
  | .htb => t = { s with htb := { s.htb with ops := t.htb.ops } }
  | .hen => t = { s with hen := { s.hen with ops := t.hen.ops } }
  | .hde => t = { s with hde := { s.hde with ops := t.hde.ops } }
  | .lze => t = { s with lze := { s.lze with ops := t.lze.ops } }
  | .lzd => t = { s with lzd := { s.lzd with ops := t.lzd.ops } }

/-- The "in" buffers of unit `u` are the same. -/
def SameInBuffers (u : UnitId) (s t : State) : Prop :=
  match u with
  | .rle => t.rle.ops.symIn = s.rle.ops.symIn
  | .rld => t.rld.ops.pairIn = s.rld.ops.pairIn ∧ t.rld.ops.planeIn = s.rld.ops.planeIn
  | .bre => t.bre.ops.bitIn = s.bre.ops.bitIn
  | .htb => t.htb.ops.symIn = s.htb.ops.symIn
  | .hen => t.hen.ops.symIn = s.hen.ops.symIn ∧ t.hen.ops.ctabIn = s.hen.ops.ctabIn
  | .hde => t.hde.ops.bitIn = s.hde.ops.bitIn ∧ t.hde.ops.treeIn = s.hde.ops.treeIn
  | .lze => t.lze.ops.symIn = s.lze.ops.symIn
  | .lzd => t.lzd.ops.lzcIn = s.lzd.ops.lzcIn

/-- From `s` to `t` operand register `r` of unit `u` took the value `v` and was marked as written, and nothing else changed. -/
structure OperandRegisterSet (u : UnitId) (r : Nat) (v : BitVec 64) (s t : State) : Prop where
  onlyOperands : OnlyOperands u s t
  buffers : SameInBuffers u s t
  taken : operandAt t u r = some { value := v, written := true }
  others : ∀ r', r' ≠ r → operandAt t u r' = operandAt s u r'

/-- Every operand register of every unit. -/
def operandRegisters (s : State) : List OpReg :=
  [s.rle.ops.width, s.rle.ops.height, s.rle.ops.inLen, s.rld.ops.width, s.rld.ops.height, s.rld.ops.inLen,
    s.bre.ops.inLen, s.bre.ops.arg, s.htb.ops.inLen, s.hen.ops.inLen, s.hde.ops.inLen, s.hde.ops.root,
    s.lze.ops.inLen, s.lzd.ops.inLen] ++ s.rld.ops.planeLen.toList

/-- No operand register and no "in" buffer element of any unit has been written. -/
structure NothingWritten (s : State) : Prop where
  registers : ∀ r ∈ operandRegisters s, r.written = false
  rleSym : s.rle.ops.symIn = []
  rldPair : s.rld.ops.pairIn = []
  rldPlane : ∀ p : Fin 8, s.rld.ops.planeIn[p] = []
  breBit : s.bre.ops.bitIn = []
  htbSym : s.htb.ops.symIn = []
  henSym : s.hen.ops.symIn = []
  henTab : s.hen.ops.ctabIn = []
  hdeBit : s.hde.ops.bitIn = []
  hdeTree : s.hde.ops.treeIn = []
  lzeSym : s.lze.ops.symIn = []
  lzdLzc : s.lzd.ops.lzcIn = []

/-- The write to a unit's `CTRL` that an event makes, if it makes one. -/
def ctrlWrite (s : State) : Event → Option (UnitId × BitVec 64)
  | .write (.reg n) (.word w) => if regIndex n = 0 then some (regUnit n, w) else none
  | .copy src (.reg n) =>
    match readPlace s src with
    | .ok (.word w) => if regIndex n = 0 then some (regUnit n, w) else none
    | _ => none
  | .startSlow u w => some (u, w)
  | _ => none

/-! ### Results and the `STATUS` reads that make them defined (R346) -/

/-- The unit whose register or "out" buffer a place names for a read. -/
def readUnit : Place → UnitId
  | .reg n => regUnit n
  | .sym u _ => u
  | .pair _ => .rle
  | .bit u _ => u
  | .plane _ _ => .rle
  | .tree _ => .htb
  | .ctab _ => .htb
  | .lzc _ => .lze

/-- A place that holds a result: a result register, or an element of an "out" buffer. -/
def resultPlace : Place → Bool
  | .reg n => resultRegister (regUnit n) (regIndex n)
  | p => p.readable

/-- The free value of a result place, at the unit's draw counter (assumption log 7). -/
def freeValueAt (s : State) (p : Place) : HostValue :=
  let u := readUnit p
  let c := control s u
  match p with
  | .reg n => .word (Config.freeRegister (unitNumber u) c.draws (regIndex n))
  | .sym _ i => .sym ((freeElement u c 0 i).setWidth 8)
  | .pair i => .pair ((freeElement u c 8 i).setWidth 40)
  | .bit _ i => .bit ((freeElement u c 0 i).getLsbD 0)
  | .plane q i => .bit ((freeElement u c q.val i).getLsbD 0)
  | .tree i => .node ((freeElement u c 1 i).setWidth 60)
  | .ctab i => .code (freeElement u c 2 i)
  | .lzc i => .word ((freeElement u c 0 i).setWidth 64)

/-- An element at or beyond the number of elements that the operation delivered. -/
def BeyondDelivered (s : State) : Place → Prop
  | .reg _ => False
  | .sym u i => match u with
    | .rld => s.rld.res.symOut.length ≤ i
    | .hde => s.hde.res.symOut.length ≤ i
    | .lzd => s.lzd.res.symOut.length ≤ i
    | _ => False
  | .pair i => s.rle.res.pairOut.length ≤ i
  | .bit u i => match u with
    | .bre => s.bre.res.bitOut.length ≤ i
    | .hen => s.hen.res.bitOut.length ≤ i
    | _ => False
  | .plane q i => s.rle.res.planeOut[q].length ≤ i
  | .tree i => s.htb.res.treeOut.length ≤ i
  | .ctab i => s.htb.res.ctabOut.length ≤ i
  | .lzc i => s.lze.res.lzcOut.length ≤ i

/-- The event reads `STATUS` of unit `u`: a read, a copy from it, or the polling of a script line. -/
def readsStatus (u : UnitId) : Event → Bool
  | .read (.reg n) => decide (regUnit n = u ∧ regIndex n = 1)
  | .copy (.reg n) _ => decide (regUnit n = u ∧ regIndex n = 1)
  | .collect i => decide (u ∈ polledUnits i)
  | _ => false

/-- The next event ends what unit `u` holds: a `CLEAR` written to its `CTRL`, or reset. -/
def EndsResults (s : State) (u : UnitId) : Prop :=
  ∃ e rest, s.pending = e :: rest ∧
    (e = .reset ∨ ∃ w b, ctrlWrite s e = some (u, w) ∧ decodeCtrl u w = .run (.clear u b))

/-! ### What an operation may touch -/

/-- From `s` to `t` only unit `u` changed, and not its operands (R77, R286, R307, R317). -/
def OnlyUnit (u : UnitId) (s t : State) : Prop :=
  match u with
  | .rle => t = { s with rle := t.rle } ∧ t.rle.ops = s.rle.ops
  | .rld => t = { s with rld := t.rld } ∧ t.rld.ops = s.rld.ops
  | .bre => t = { s with bre := t.bre } ∧ t.bre.ops = s.bre.ops
  | .htb => t = { s with htb := t.htb } ∧ t.htb.ops = s.htb.ops
  | .hen => t = { s with hen := t.hen } ∧ t.hen.ops = s.hen.ops
  | .hde => t = { s with hde := t.hde } ∧ t.hde.ops = s.hde.ops
  | .lze => t = { s with lze := t.lze } ∧ t.lze.ops = s.lze.ops
  | .lzd => t = { s with lzd := t.lzd } ∧ t.lzd.ops = s.lzd.ops

/-- Units `u` of two states are the same in everything. -/
def SameUnit (u : UnitId) (s t : State) : Prop :=
  match u with
  | .rle => s.rle = t.rle
  | .rld => s.rld = t.rld
  | .bre => s.bre = t.bre
  | .htb => s.htb = t.htb
  | .hen => s.hen = t.hen
  | .hde => s.hde = t.hde
  | .lze => s.lze = t.lze
  | .lzd => s.lzd = t.lzd

/-- Units `u` of two states agree in control and operands; their results and working registers may differ. -/
def SameInput (u : UnitId) (s t : State) : Prop :=
  match u with
  | .rle => s.rle.ctl = t.rle.ctl ∧ s.rle.ops = t.rle.ops
  | .rld => s.rld.ctl = t.rld.ctl ∧ s.rld.ops = t.rld.ops
  | .bre => s.bre.ctl = t.bre.ctl ∧ s.bre.ops = t.bre.ops
  | .htb => s.htb.ctl = t.htb.ctl ∧ s.htb.ops = t.htb.ops
  | .hen => s.hen.ctl = t.hen.ctl ∧ s.hen.ops = t.hen.ops
  | .hde => s.hde.ctl = t.hde.ctl ∧ s.hde.ops = t.hde.ops
  | .lze => s.lze.ctl = t.lze.ctl ∧ s.lze.ops = t.lze.ops
  | .lzd => s.lzd.ctl = t.lzd.ctl ∧ s.lzd.ops = t.lzd.ops

/-- The ten operations: what a `START` can start. -/
def IsOperation (i : Instr) : Prop := i ≠ .hufEncode ∧ ∀ u b, i ≠ .clear u b

/-- A unit ended its operation with all its results (R7). -/
def Done (c : Control) : Prop := c.state = .done ∧ c.fault = .none

/-- A unit ended its operation with fault `f` (R307). -/
def Faulted (f : FaultCode) (c : Control) : Prop := c.state = .fault ∧ c.fault = f

/-- The faults each operation can raise (R305); an empty list is a row without an entry. -/
def mayRaise : Instr → List FaultCode
  | .rleEncs => [.invalidDimensions]
  | .rleEncb => [.invalidDimensions]
  | .rldDecs => [.malformedStream, .invalidDimensions]
  | .rldDecb => [.malformedStream, .invalidDimensions]
  | .brePut => []
  | .htbBuild => []
  | .henEnc => []
  | .hdeDec => [.malformedStream]
  | .lzeEnc => []
  | .lzdDec => [.invalidCode, .emptyStream]
  | .clear _ _ => []
  | .hufEncode => []

/-- Instruction `i`, run in `s`, raises fault `f`: it ends in a next state in which a unit shows `f` that did not. -/
def Raises (i : Instr) (s : State) (f : FaultCode) : Prop :=
  ∃ t u, exec i s = .next t ∧ Faulted f (control t u) ∧ ¬ Faulted f (control s u)

/-- The instruction is refused, by whatever name. -/
def Refused (o : Host.Outcome State Fault Refusal) : Prop := ∃ why, o = .refused why

/-- An element below the length that a register holds was never written. -/
def MissingElement {α : Type} (len : OpReg) (b : Buf α) : Prop := ∃ i, i < len.value.toNat ∧ bufGet b i = none

/-- Some operand that the instruction reads (R51, R342) was not written since reset: a register, an element below the length, an
entry of the code table, or an entry that the tree reaches. -/
def OperandMissing (s : State) : Instr → Prop
  | .rleEncs | .rleEncb => s.rle.ops.width.written = false ∨ s.rle.ops.height.written = false ∨
      s.rle.ops.inLen.written = false ∨ MissingElement s.rle.ops.inLen s.rle.ops.symIn
  | .rldDecs => s.rld.ops.width.written = false ∨ s.rld.ops.height.written = false ∨
      s.rld.ops.inLen.written = false ∨ MissingElement s.rld.ops.inLen s.rld.ops.pairIn
  | .rldDecb => s.rld.ops.width.written = false ∨ s.rld.ops.height.written = false ∨
      ∃ p : Fin 8, s.rld.ops.planeLen[p].written = false ∨ MissingElement s.rld.ops.planeLen[p] s.rld.ops.planeIn[p]
  | .brePut => s.bre.ops.inLen.written = false ∨ s.bre.ops.arg.written = false ∨
      MissingElement s.bre.ops.inLen s.bre.ops.bitIn
  | .htbBuild | .hufEncode => s.htb.ops.inLen.written = false ∨ MissingElement s.htb.ops.inLen s.htb.ops.symIn
  | .henEnc => s.hen.ops.inLen.written = false ∨ MissingElement s.hen.ops.inLen s.hen.ops.symIn ∨
      ∃ x, x < Config.numCodes ∧ bufGet s.hen.ops.ctabIn x = none
  | .hdeDec => s.hde.ops.inLen.written = false ∨ s.hde.ops.root.written = false ∨
      MissingElement s.hde.ops.inLen s.hde.ops.bitIn ∨
      (s.hde.ops.root.value.toNat ≠ Config.maxNodes ∧ ¬ TableWritten s.hde.ops.treeIn s.hde.ops.root.value.toNat)
  | .lzeEnc => s.lze.ops.inLen.written = false ∨ MissingElement s.lze.ops.inLen s.lze.ops.symIn
  | .lzdDec => s.lzd.ops.inLen.written = false ∨ MissingElement s.lzd.ops.inLen s.lzd.ops.lzcIn
  | .clear _ _ => False

/-- A length within its admitted range (R348) and the capacity. -/
def LengthAdmitted (cap : Option Nat) (bound : Nat) (len : OpReg) : Prop :=
  len.value.toNat ≤ bound ∧ fitsCap cap len.value.toNat = true

/-- The operands that an instruction reads are within their admitted ranges (R103, R348), but for what depends on the dimensions
or on the stream. -/
def OperandsInRange (s : State) : Instr → Prop
  | .rleEncs | .rleEncb => LengthAdmitted s.cap Config.maxIn s.rle.ops.inLen
  | .rldDecs => LengthAdmitted s.cap Config.maxIn s.rld.ops.inLen
  | .rldDecb => ∀ p : Fin 8, LengthAdmitted s.cap Config.maxPlaneLen s.rld.ops.planeLen[p]
  | .brePut => LengthAdmitted s.cap Config.maxIn s.bre.ops.inLen ∧ s.bre.ops.arg.value.toNat < 2 ^ 32
  | .htbBuild | .hufEncode => LengthAdmitted s.cap Config.maxIn s.htb.ops.inLen
  | .henEnc => LengthAdmitted s.cap Config.maxIn s.hen.ops.inLen ∧ fitsCap s.cap Config.numCodes = true
  | .hdeDec => LengthAdmitted s.cap Config.maxIn s.hde.ops.inLen ∧ s.hde.ops.root.value.toNat < 512 ∧
      fitsCap s.cap Config.maxNodes = true ∧
      (s.hde.ops.root.value.toNat ≠ Config.maxNodes → TableShape s.hde.ops.treeIn s.hde.ops.root.value.toNat)
  | .lzeEnc => LengthAdmitted s.cap Config.maxIn s.lze.ops.inLen
  | .lzdDec => LengthAdmitted s.cap Config.maxIn s.lzd.ops.inLen
  | .clear _ _ => True

/-- Some length that an instruction reads counts more elements than a capacity admits (R348). -/
def LengthBeyondCapacity (s : State) : Instr → Prop
  | .rleEncs | .rleEncb => fitsCap s.cap s.rle.ops.inLen.value.toNat = false
  | .rldDecs => fitsCap s.cap s.rld.ops.inLen.value.toNat = false
  | .rldDecb => ∃ p : Fin 8, fitsCap s.cap s.rld.ops.planeLen[p].value.toNat = false
  | .brePut => fitsCap s.cap s.bre.ops.inLen.value.toNat = false
  | .htbBuild | .hufEncode => fitsCap s.cap s.htb.ops.inLen.value.toNat = false
  | .henEnc => fitsCap s.cap s.hen.ops.inLen.value.toNat = false
  | .hdeDec => fitsCap s.cap s.hde.ops.inLen.value.toNat = false
  | .lzeEnc => fitsCap s.cap s.lze.ops.inLen.value.toNat = false
  | .lzdDec => fitsCap s.cap s.lzd.ops.inLen.value.toNat = false
  | .clear _ _ => False

/-- How many units are `BUSY`. -/
def busyCount (s : State) : Nat := (allUnits.filter (isBusy s)).length

/-! ### Host scripts -/

/-- The operands of a script line stand in the unit of the line (R51, R112). -/
def LineOperands (s : State) : ScriptLine → Prop
  | .brePut b n => StreamOperand s.cap Config.maxIn s.bre.ops.inLen s.bre.ops.bitIn b ∧ RegHolds s.bre.ops.arg n
  | .rleEncs r w h => RasterOperands s r w h
  | .rleEncb r w h => RasterOperands s r w h
  | .rldDecs runs w h => PairOperands s runs w h
  | .rldDecb planes w h => PlaneOperands s planes w h
  | .htbBuild xs => StreamOperand s.cap Config.maxIn s.htb.ops.inLen s.htb.ops.symIn xs
  | .henEnc xs tab => EncoderOperands s xs tab
  | .hdeDec bits tree root => StreamOperand s.cap Config.maxIn s.hde.ops.inLen s.hde.ops.bitIn bits ∧
      Stored s.hde.ops.treeIn tree ∧ RegHolds s.hde.ops.root root
  | .lzeEnc b => StreamOperand s.cap Config.maxIn s.lze.ops.inLen s.lze.ops.symIn b
  | .lzdDec codes => StreamOperand s.cap Config.maxIn s.lzd.ops.inLen s.lzd.ops.lzcIn codes
  | .hufEncode xs => StreamOperand s.cap Config.maxIn s.htb.ops.inLen s.htb.ops.symIn xs

/-- The sequences of a line have admitted lengths (R348), and its tables their sizes (R108, R109). -/
def LineAdmitted : ScriptLine → Prop
  | .brePut b _ => b.length ≤ Config.maxIn
  | .rleEncs r _ _ => r.length ≤ Config.maxIn
  | .rleEncb r _ _ => r.length ≤ Config.maxIn
  | .rldDecs runs _ _ => runs.length ≤ Config.maxIn
  | .rldDecb planes _ _ => ∀ p : Fin 8, planes[p].length ≤ Config.maxPlaneLen
  | .htbBuild xs => xs.length ≤ Config.maxIn
  | .henEnc xs tab => xs.length ≤ Config.maxIn ∧ tab.length = Config.numCodes
  | .hdeDec bits tree _ => bits.length ≤ Config.maxIn ∧ tree.length ≤ Config.maxNodes
  | .lzeEnc b => b.length ≤ Config.maxIn
  | .lzdDec codes => codes.length ≤ Config.maxIn
  | .hufEncode xs => xs.length ≤ Config.maxIn

/-! ### Invariants -/

/-- Every "in" buffer is in canonical form, and the two tables hold no entry beyond their size (R71). -/
structure BuffersWf (s : State) : Prop where
  rleSym : bufWf s.rle.ops.symIn
  rldPair : bufWf s.rld.ops.pairIn
  rldPlane : ∀ p : Fin 8, bufWf s.rld.ops.planeIn[p]
  breBit : bufWf s.bre.ops.bitIn
  htbSym : bufWf s.htb.ops.symIn
  henSym : bufWf s.hen.ops.symIn
  henTab : bufWf s.hen.ops.ctabIn
  hdeBit : bufWf s.hde.ops.bitIn
  hdeTree : bufWf s.hde.ops.treeIn
  lzeSym : bufWf s.lze.ops.symIn
  lzdLzc : bufWf s.lzd.ops.lzcIn
  tabSize : bufBelow Config.numCodes s.hen.ops.ctabIn
  treeSize : bufBelow Config.maxNodes s.hde.ops.treeIn

/-- A unit shows a fault code exactly in `FAULT` (R44, R300, R307, R310). -/
def FaultCodesMatch (s : State) : Prop :=
  ∀ u, (control s u).fault ≠ .none ↔ (control s u).state = .fault

/-- A `BUSY` unit runs an operation of its own that its `START` accepted: its step is not refused (R8, R100, R344). -/
def BusyRuns (s : State) : Prop :=
  ∀ u f, (control s u).state = .busy f → ∃ i t, opOfFunc u f = some i ∧ finishOperation i s = .ok t

/-- The host's record of a `STATUS` read (R346) was made at a draw counter that its unit had already reached. -/
def SeenIsPast (s : State) : Prop := ∀ u n, s.seen[unitIndex u] = some n → n ≤ (control s u).draws

/-- The machine's invariant. -/
structure Inv (s : State) : Prop where
  buffers : BuffersWf s
  faults : FaultCodesMatch s
  busy : BusyRuns s
  seen : SeenIsPast s

/-- In `DONE` the length registers count what the operation delivered (R50, R51, R282), and the tables are full (R108, R109). -/
structure ResultsCounted (s : State) : Prop where
  rle : s.rle.ctl.state = .done →
    s.rle.res.outLen.toNat = s.rle.res.pairOut.length ∨
    ∀ p : Fin 8, (s.rle.res.planeLen[p]).toNat = (s.rle.res.planeOut[p]).length
  rld : s.rld.ctl.state = .done → s.rld.res.outLen.toNat = s.rld.res.symOut.length
  bre : s.bre.ctl.state = .done → s.bre.res.outLen.toNat = s.bre.res.bitOut.length
  htb : s.htb.ctl.state = .done → s.htb.res.treeOut.length = Config.maxNodes ∧
    s.htb.res.ctabOut.length = Config.numCodes ∧ s.htb.res.root.toNat ≤ Config.maxNodes
  hen : s.hen.ctl.state = .done → s.hen.res.outLen.toNat = s.hen.res.bitOut.length
  hde : s.hde.ctl.state = .done → s.hde.res.outLen.toNat = s.hde.res.symOut.length
  lze : s.lze.ctl.state = .done → s.lze.res.outLen.toNat = s.lze.res.lzcOut.length
  lzd : s.lzd.ctl.state = .done → s.lzd.res.outLen.toNat = s.lzd.res.symOut.length

end Sys2Proof.Machine
end

