-- ==== Sys2Proof/Certificates/Slice0/Obligations.lean ====
section
/-! DEFINITION. The statements for the provers. Each follows numbered rules of spec/; OBLIGATIONS.json names them. -/

section

open Sys2Proof Sys2Proof.Machine

/-! ### Commands and steps -/

/-- R101: the opcode map and the decoder, in both directions, on every word and every unit. -/
def Obligations.DecoderIsTheOpcodeMap : Prop :=
  (encode .rleEncs = some (.rle, 0x100#64) ∧ encode .rleEncb = some (.rle, 0x101#64) ∧
    encode .rldDecs = some (.rld, 0x110#64) ∧ encode .rldDecb = some (.rld, 0x111#64) ∧
    encode .brePut = some (.bre, 0x120#64) ∧ encode .htbBuild = some (.htb, 0x130#64) ∧
    encode .henEnc = some (.hen, 0x140#64) ∧ encode .hdeDec = some (.hde, 0x150#64) ∧
    encode .lzeEnc = some (.lze, 0x160#64) ∧ encode .lzdDec = some (.lzd, 0x170#64) ∧
    ∀ u b, encode (.clear u b) = some (u, 0x200#64 ||| b.setWidth 64)) ∧
  (∀ u w i, decodeCtrl u w = .run i ↔ encode i = some (u, w)) ∧
  (∀ u w, decodeCtrl u w = .noEffect ↔ w.toNat < 2 ^ 8) ∧
  (∀ u w, (∃ why, decodeCtrl u w = .reserved why) ↔ 2 ^ 8 ≤ w.toNat ∧ ∀ i, encode i ≠ some (u, w))

/-- R101: every well-formed instruction has one command word, and decoding that word on its unit gives it back. -/
def Obligations.DecodeOfEncodeIsIdentity : Prop :=
  ∀ i : Instr, i.wellFormed = true → ∃ u w, encode i = some (u, w) ∧ decodeCtrl u w = .run i

/-- R101: words written out from the opcode map (a sanity statement). The spec's `CLEAR` is valid on any unit; that a bare word
`0x200` or `0x225` is for the unit its bits [6:4] name is the model's choice (assumption log 14). -/
def Obligations.SpecWordsDecode : Prop :=
  decodeTableWord 16 0x100 = some .rleEncs ∧ decodeTableWord 16 0x111 = some .rldDecb ∧
  decodeTableWord 16 0x130 = some .htbBuild ∧ decodeTableWord 16 0x170 = some .lzdDec ∧
  decodeTableWord 16 0x200 = some (.clear .rle 0) ∧ decodeTableWord 16 0x225 = some (.clear .bre 0x25) ∧
  decodeTableWord 16 0x102 = none ∧ decodeTableWord 16 0x300 = none ∧ decodeTableWord 16 0x500 = none ∧
  decodeCtrl .lzd 0x160#64 = .reserved .otherUnit ∧ decodeCtrl .rle 0x0FF#64 = .noEffect

/-- A step runs the decoded instruction: a command word written to a unit's `CTRL` by the host, a fetched word, and the
pseudo-operation (R100, R112, R113). A word with neither `START` nor `CLEAR` has no effect in any state. -/
def Obligations.StepRunsTheDecodedInstruction : Prop :=
  (∀ (s : State) (u : UnitId) (w : BitVec 64) (i : Instr) (rest : List Event),
    s.pending = .write (.reg (regNumber u 0)) (.word w) :: rest → decodeCtrl u w = .run i →
    step s = exec i { s with pending := rest }) ∧
  (∀ (s : State) (u : UnitId) (w : BitVec 64) (rest : List Event),
    s.pending = .write (.reg (regNumber u 0)) (.word w) :: rest → decodeCtrl u w = .noEffect →
    step s = .next { s with pending := rest }) ∧
  (∀ (s : State) (nbits w : Nat) (i : Instr), decodeTableWord nbits w = some i →
    step (s.withFetchWord nbits w) = exec i s) ∧
  (∀ (s : State) (rest : List Event), s.pending = .hufEncode :: rest →
    step s = exec .hufEncode { s with pending := rest })

/-- R102: every reserved write to `CTRL` is refused, whether or not the host would wait. -/
def Obligations.ReservedWritesAreRefused : Prop :=
  ∀ (s : State) (u : UnitId) (w : BitVec 64),
    (ctrlStart w = true ∧ (∀ i, opcodeMap (ctrlOpcode w) ≠ some (u, i))) ∨
    (ctrlStart w = true ∧ ctrlClear w = true) ∨
    (ctrlReserved w ≠ 0) ∨
    (ctrlStart w = true ∧ (control s u).state ≠ .idle) ∨
    (ctrlClear w = true ∧ isBusy s u = true) →
    (∃ r, writeCtrl u w s = .refused r) ∧ ∃ r, startSlow u w s = .refused r

/-- R345: `START` only in `IDLE`; outside it the write is refused. The pseudo-operation needs both its units in `IDLE`. -/
def Obligations.StartOnlyInIdle : Prop :=
  (∀ (s : State) (i : Instr) (f : BitVec 4), IsOperation i → (control s (instrUnit i)).state ≠ .idle →
    exec i s = .refused .startNotIdle ∧ beginOperation i f s = .error .startNotIdle) ∧
  (∀ s : State, s.htb.ctl.state ≠ .idle → exec .hufEncode s = .refused .startNotIdle) ∧
  (∀ s t : State, exec .hufEncode s = .next t → s.htb.ctl.state = .idle ∧ s.hen.ctl.state = .idle)

/-! ### The host's access -/

/-- R50: an operand register keeps the value the host last wrote; nothing else in the whole state changes. That it is writable as soon
as the unit is not `BUSY`, whether or not the host has read `STATUS` since, is assumption log 25. -/
def Obligations.OperandRegistersKeepTheHostsValue : Prop :=
  ∀ (s : State) (u : UnitId) (r : Nat) (v : BitVec 64), operandRegister u r = true → isBusy s u = false →
    ∃ t, hostWrite (.reg (regNumber u r)) (.word v) s = .next t ∧ OperandRegisterSet u r v s t ∧ readReg t u r = v ∧
      (∀ r', r' ≠ r → readReg t u r' = readReg s u r') ∧ (∀ v', v' ≠ u → SameUnit v' s t) ∧
      control t u = control s u ∧ t.cap = s.cap ∧ t.pending = s.pending ∧ t.reads = s.reads

/-- R50: `CTRL` reads 0, a reserved register reads 0 and ignores writes, and `STATUS` has its fields and no other bit. -/
def Obligations.RegistersThatReadAsFixed : Prop :=
  (∀ (s : State) (u : UnitId), readReg s u 0 = 0) ∧
  (∀ (s : State) (u : UnitId) (r : Nat) (v : BitVec 64), reservedRegister u r = true →
    readReg s u r = 0 ∧ hostWrite (.reg (regNumber u r)) (.word v) s = .next s) ∧
  (∀ (s : State) (u : UnitId), readReg s u 1 =
    BitVec.ofNat 64 ((stateCode (control s u).state).toNat + 16 * (faultCode (control s u).fault).toNat))

/-- R346: from the `STATUS` read that returned `DONE` until the next `CLEAR` (or reset) a host read gives the result, of every result
register and every element below the stated length; before that read, outside `DONE` and beyond the length it gives a free value. Only
a `STATUS` read in `DONE` makes results defined, and while they are defined no step changes what they read. The form of the
record of `STATUS` reads is assumption log 25, that of free values assumption log 7. -/
def Obligations.ResultsAreReadInDone : Prop :=
  (∀ (s : State) (u : UnitId), (control s u).state = .done →
    ∃ t, hostRead (.reg (regNumber u 1)) s = .next t ∧ resultsDefined t u = true ∧
      t = { s with seen := t.seen, reads := s.reads ++ [.word (readReg s u 1)] } ∧
      ∀ v, v ≠ u → resultsDefined t v = resultsDefined s v) ∧
  (∀ (s t : State) (u : UnitId), Inv s → step s = .next t → resultsDefined s u = false → resultsDefined t u = true →
    (control s u).state = .done ∧ ∃ e rest, s.pending = e :: rest ∧ readsStatus u e = true) ∧
  (∀ (s t : State) (u : UnitId), step s = .next t → resultsDefined s u = true →
    EndsResults s u ∨ (resultsDefined t u = true ∧ (control t u).state = .done ∧
      ∀ p, resultPlace p = true → readUnit p = u → readPlace t p = readPlace s p)) ∧
  (∀ (s t : State) (u : UnitId), step s = .next t → EndsResults s u → resultsDefined t u = false) ∧
  (∀ (s : State) (p : Place), resultPlace p = true → resultsDefined s (readUnit p) = false ∨ BeyondDelivered s p →
    readPlace s p = .ok (freeValueAt s p)) ∧
  (∀ (s : State) (n : BitVec 8), readPlace s (.reg n) = .ok (.word (readReg s (regUnit n) (regIndex n)))) ∧
  (∀ s : State, resultsDefined s .rle = true →
    readReg s .rle 5 = s.rle.res.outLen ∧ readReg s .rle 6 = s.rle.res.ratioNum ∧
    readReg s .rle 7 = s.rle.res.ratioDen ∧ readReg s .rle 8 = s.rle.res.elapsed ∧
    (∀ p : Fin 8, readReg s .rle (16 + p.val) = s.rle.res.planeLen[p]) ∧
    (∀ i (h : i < s.rle.res.pairOut.length), readPlace s (.pair i) = .ok (.pair s.rle.res.pairOut[i])) ∧
    (∀ (p : Fin 8) i (h : i < s.rle.res.planeOut[p].length),
      readPlace s (.plane p i) = .ok (.bit s.rle.res.planeOut[p][i]))) ∧
  (∀ s : State, resultsDefined s .rld = true → readReg s .rld 5 = s.rld.res.outLen ∧
    ∀ i (h : i < s.rld.res.symOut.length), readPlace s (.sym .rld i) = .ok (.sym s.rld.res.symOut[i])) ∧
  (∀ s : State, resultsDefined s .bre = true → readReg s .bre 5 = s.bre.res.outLen ∧
    ∀ i (h : i < s.bre.res.bitOut.length), readPlace s (.bit .bre i) = .ok (.bit s.bre.res.bitOut[i])) ∧
  (∀ s : State, resultsDefined s .htb = true → readReg s .htb 10 = s.htb.res.root ∧
    (∀ i (h : i < s.htb.res.treeOut.length), i < Config.maxNodes →
      readPlace s (.tree i) = .ok (.node s.htb.res.treeOut[i])) ∧
    (∀ i (h : i < s.htb.res.ctabOut.length), i < Config.numCodes →
      readPlace s (.ctab i) = .ok (.code s.htb.res.ctabOut[i]))) ∧
  (∀ s : State, resultsDefined s .hen = true → readReg s .hen 5 = s.hen.res.outLen ∧
    readReg s .hen 6 = s.hen.res.ratioNum ∧ readReg s .hen 7 = s.hen.res.ratioDen ∧
    readReg s .hen 8 = s.hen.res.elapsed ∧
    ∀ i (h : i < s.hen.res.bitOut.length), readPlace s (.bit .hen i) = .ok (.bit s.hen.res.bitOut[i])) ∧
  (∀ s : State, resultsDefined s .hde = true → readReg s .hde 5 = s.hde.res.outLen ∧
    ∀ i (h : i < s.hde.res.symOut.length), readPlace s (.sym .hde i) = .ok (.sym s.hde.res.symOut[i])) ∧
  (∀ s : State, resultsDefined s .lze = true → readReg s .lze 5 = s.lze.res.outLen ∧
    readReg s .lze 6 = s.lze.res.ratioNum ∧ readReg s .lze 7 = s.lze.res.ratioDen ∧
    readReg s .lze 8 = s.lze.res.elapsed ∧
    ∀ i (h : i < s.lze.res.lzcOut.length), readPlace s (.lzc i) = .ok (.word s.lze.res.lzcOut[i])) ∧
  (∀ s : State, resultsDefined s .lzd = true → readReg s .lzd 5 = s.lzd.res.outLen ∧
    ∀ i (h : i < s.lzd.res.symOut.length), readPlace s (.sym .lzd i) = .ok (.sym s.lzd.res.symOut[i]))

/-- R74: no read has a side effect on CORE, and reading again gives the same value; the host's own record of values and of `STATUS` reads
(assumption logs 1 and 25) is all that changes. -/
def Obligations.ReadsHaveNoSideEffect : Prop :=
  ∀ (s : State) (p : Place) (rest : List Event), p.readable = true → s.pending = .read p :: .read p :: rest →
    ∃ v, readPlace s p = .ok v ∧
      Host.Core.run Sys2Proof.core 2 s =
        .next { s with pending := rest, reads := s.reads ++ [v, v], seen := (noteRead p s).seen }

/-- R82, R287: the host's operand writes of a script line put the operands of the line into its unit, whatever the unit's state
but `BUSY`; the other units, the unit's control and the host's record are not touched. That operands are writable by the state, without a
`STATUS` read (R344), is assumption log 25. -/
def Obligations.ScriptLineWritesItsOperands : Prop :=
  ∀ (s : State) (l : ScriptLine) (rest : List Event), s.cap = none → LineAdmitted l →
    isBusy s (instrUnit (lineInstr l)) = false → s.pending = operandEvents l ++ rest →
    ∃ t, Host.Core.run Sys2Proof.core (operandEvents l).length s = .next t ∧ LineOperands t l ∧
      t.pending = rest ∧ t.reads = s.reads ∧ t.seen = s.seen ∧ t.cap = none ∧
      control t (instrUnit (lineInstr l)) = control s (instrUnit (lineInstr l)) ∧
      ∀ v, v ≠ instrUnit (lineInstr l) → SameUnit v s t

/-- R112: a whole line `codes = LZE.ENC S`, from any state with unit 6 in `IDLE`: the host polls `DONE`, binds the results, and
leaves the unit in `IDLE` again. -/
def Obligations.LzwEncodeLineRuns : Prop :=
  ∀ (s : State) (b : List Symbol), s.cap = none → b.length ≤ Config.maxIn → s.lze.ctl.state = .idle →
    s.pending = lineEvents (.lzeEnc b) →
    ∃ t, ∃ codes : List (BitVec 64), ∃ elapsed : BitVec 64, Host.Core.run Sys2Proof.core (lineEvents (.lzeEnc b)).length s = .next t ∧
      t.reads = s.reads ++ [.word 2#64, .word (counter codes.length), .word (counter b.length),
        .word (counter codes.length), .word elapsed] ++ codes.map .word ∧
      (∃ strings, LzwStrings (codes.map BitVec.toNat) strings ∧ LzwGreedy strings ∧ strings.flatten = b) ∧
      t.lze.ctl.state = .idle ∧ t.lze.ctl.fault = .none ∧ t.pending = [] ∧ ∀ v, v ≠ .lze → SameUnit v s t

/-- R112: a line whose operation ends in `FAULT`: the host reads `FAULT` with the code, the results are not bound and the script ends
after the `CLEAR`, with the operands and the other units as they were; and, as one line that always faults, `LZD.DEC` of no codes (R276).
The list of events of a line is assumption logs 1 and 17. -/
def Obligations.FaultingLineEndsTheScript : Prop :=
  (∀ (s b : State) (l : ScriptLine) (later : List Event) (f : FaultCode), s.pending = lineEvents l ++ later →
    Host.Core.run Sys2Proof.core ((operandEvents l).length + 1) s = .next b →
    Faulted f (control b (instrUnit (lineInstr l))) →
    ∃ t, Host.Core.run Sys2Proof.core ((operandEvents l).length + 3) s = .next t ∧
      t.reads = s.reads ++ [.word (BitVec.ofNat 64 (3 + 16 * (faultCode f).toNat))] ∧ t.pending = [] ∧
      (control t (instrUnit (lineInstr l))).state = .idle ∧ (control t (instrUnit (lineInstr l))).fault = .none ∧
      (∀ r, operandAt t (instrUnit (lineInstr l)) r = operandAt b (instrUnit (lineInstr l)) r) ∧
      SameInBuffers (instrUnit (lineInstr l)) b t ∧
      ∀ v, v ≠ instrUnit (lineInstr l) → SameUnit v s t) ∧
  (∀ (s : State) (later : List Event), s.lzd.ctl.state = .idle →
    s.pending = lineEvents (.lzdDec []) ++ later →
    ∃ t, Host.Core.run Sys2Proof.core (lineEvents (.lzdDec [])).length s = .next t ∧
      t.reads = s.reads ++ [.word 0x33#64] ∧ t.pending = [] ∧ t.lzd.ctl.state = .idle ∧ t.lzd.ctl.fault = .none)

/-- R344: while a unit is `BUSY`, a host write to any of its operand registers or "in" buffers is refused, and so is a write of
its `CTRL` with `START` or `CLEAR`. -/
def Obligations.NoOperandWriteWhileBusy : Prop :=
  (∀ (s : State) (u : UnitId) (r : Nat) (v : BitVec 64), isBusy s u = true → operandRegister u r = true →
    hostWrite (.reg (regNumber u r)) (.word v) s = .refused .operandWriteWhileBusy) ∧
  (∀ (s : State) (u : UnitId) (i : Nat) (v : Symbol), isBusy s u = true → (Place.sym u i).writable = true →
    ∃ r, hostWrite (.sym u i) (.sym v) s = .refused r) ∧
  (∀ (s : State) (u : UnitId) (i : Nat) (v : Bool), isBusy s u = true → (Place.bit u i).writable = true →
    ∃ r, hostWrite (.bit u i) (.bit v) s = .refused r) ∧
  (∀ (s : State) (i : Nat) (v : PairElem), isBusy s .rld = true → ∃ r, hostWrite (.pair i) (.pair v) s = .refused r) ∧
  (∀ (s : State) (p : Fin 8) (i : Nat) (v : Bool), isBusy s .rld = true →
    ∃ r, hostWrite (.plane p i) (.bit v) s = .refused r) ∧
  (∀ (s : State) (i : Nat) (v : NodeElem), isBusy s .hde = true → ∃ r, hostWrite (.tree i) (.node v) s = .refused r) ∧
  (∀ (s : State) (i : Nat) (v : CodeElem), isBusy s .hen = true → ∃ r, hostWrite (.ctab i) (.code v) s = .refused r) ∧
  (∀ (s : State) (i : Nat) (v : BitVec 64), isBusy s .lzd = true → ∃ r, hostWrite (.lzc i) (.word v) s = .refused r) ∧
  (∀ (s : State) (u : UnitId) (w : BitVec 64), isBusy s u = true → ctrlStart w = true ∨ ctrlClear w = true →
    ∃ r, hostWrite (.reg (regNumber u 0)) (.word w) s = .refused r)

/-- R82, R286: a copy of an element carries the value of a result to an operand unchanged: pairs, tree and code-table entries, LZW
codes; a symbol, a bit or a register word read at any place, to every "in" buffer of symbols, of bits or of a plane, and to every
operand register. The values of pairs, entries and codes are defined from the `STATUS` read on (R346); that operands are writable
by the state, without a `STATUS` read (R344), is assumption log 25. -/
def Obligations.HostCopyCarriesTheValue : Prop :=
  (∀ (s : State) (i j : Nat) (h : i < s.rle.res.pairOut.length), resultsDefined s .rle = true → isBusy s .rld = false →
    fitsCap s.cap (j + 1) = true →
    hostCopy (.pair i) (.pair j) s =
      .next { s with rld := { s.rld with ops := { s.rld.ops with
        pairIn := bufSet s.rld.ops.pairIn j s.rle.res.pairOut[i] } } }) ∧
  (∀ (s : State) (i j : Nat) (h : i < s.htb.res.treeOut.length), resultsDefined s .htb = true → isBusy s .hde = false →
    i < Config.maxNodes → j < Config.maxNodes → fitsCap s.cap (j + 1) = true →
    hostCopy (.tree i) (.tree j) s =
      .next { s with hde := { s.hde with ops := { s.hde.ops with
        treeIn := bufSet s.hde.ops.treeIn j s.htb.res.treeOut[i] } } }) ∧
  (∀ (s : State) (i j : Nat) (h : i < s.htb.res.ctabOut.length), resultsDefined s .htb = true → isBusy s .hen = false →
    i < Config.numCodes → j < Config.numCodes → fitsCap s.cap (j + 1) = true →
    hostCopy (.ctab i) (.ctab j) s =
      .next { s with hen := { s.hen with ops := { s.hen.ops with
        ctabIn := bufSet s.hen.ops.ctabIn j s.htb.res.ctabOut[i] } } }) ∧
  (∀ (s : State) (i j : Nat) (h : i < s.lze.res.lzcOut.length), resultsDefined s .lze = true → isBusy s .lzd = false →
    fitsCap s.cap (j + 1) = true →
    hostCopy (.lzc i) (.lzc j) s =
      .next { s with lzd := { s.lzd with ops := { s.lzd.ops with
        lzcIn := bufSet s.lzd.ops.lzcIn j s.lze.res.lzcOut[i] } } }) ∧
  (∀ (s : State) (src : Place) (j : Nat) (x : Symbol), readPlace s src = .ok (.sym x) → fitsCap s.cap (j + 1) = true →
    (isBusy s .rle = false → hostCopy src (.sym .rle j) s =
      .next { s with rle := { s.rle with ops := { s.rle.ops with symIn := bufSet s.rle.ops.symIn j x } } }) ∧
    (isBusy s .htb = false → hostCopy src (.sym .htb j) s =
      .next { s with htb := { s.htb with ops := { s.htb.ops with symIn := bufSet s.htb.ops.symIn j x } } }) ∧
    (isBusy s .hen = false → hostCopy src (.sym .hen j) s =
      .next { s with hen := { s.hen with ops := { s.hen.ops with symIn := bufSet s.hen.ops.symIn j x } } }) ∧
    (isBusy s .lze = false → hostCopy src (.sym .lze j) s =
      .next { s with lze := { s.lze with ops := { s.lze.ops with symIn := bufSet s.lze.ops.symIn j x } } })) ∧
  (∀ (s : State) (src : Place) (j : Nat) (x : Bool), readPlace s src = .ok (.bit x) → fitsCap s.cap (j + 1) = true →
    (isBusy s .bre = false → hostCopy src (.bit .bre j) s =
      .next { s with bre := { s.bre with ops := { s.bre.ops with bitIn := bufSet s.bre.ops.bitIn j x } } }) ∧
    (isBusy s .hde = false → hostCopy src (.bit .hde j) s =
      .next { s with hde := { s.hde with ops := { s.hde.ops with bitIn := bufSet s.hde.ops.bitIn j x } } }) ∧
    (isBusy s .rld = false → ∀ p : Fin 8, hostCopy src (.plane p j) s =
      .next { s with rld := { s.rld with ops := { s.rld.ops with
        planeIn := s.rld.ops.planeIn.set p (bufSet s.rld.ops.planeIn[p] j x) } } })) ∧
  (∀ (s : State) (src : BitVec 8) (u : UnitId) (r : Nat), operandRegister u r = true → isBusy s u = false →
    ∃ t, hostCopy (.reg src) (.reg (regNumber u r)) s = .next t ∧
      OperandRegisterSet u r (readReg s (regUnit src) (regIndex src)) (noteRead (.reg src) s) t)

/-! ### Reset -/

/-- R52: what reset leaves, and R340: nothing executes until the host writes. -/
def Obligations.ResetLeavesUnitsIdle : Prop :=
  (∀ u, (control State.reset u).state = .idle ∧ (control State.reset u).fault = .none ∧
    readReg State.reset u 0 = 0 ∧ readReg State.reset u 1 = 0 ∧
    ∀ r, reservedRegister u r = true → readReg State.reset u r = 0) ∧
  NothingWritten State.reset ∧ step State.reset = .next State.reset

/-- R340: reset may come at any time, abandons an operation in progress, and leaves every unit as R52 says. -/
def Obligations.ResetAtAnyTime : Prop :=
  ∀ (s : State) (rest : List Event), s.pending = .reset :: rest →
    ∃ t, step s = .next t ∧ t.pending = rest ∧ t.reads = s.reads ∧ t.cap = s.cap ∧ NothingWritten t ∧
      ∀ u, (control t u).state = .idle ∧ (control t u).fault = .none ∧ readReg t u 1 = 0

/-! ### The operations -/

/-- R141: `BRE.PUT` appends the 32-bit field of `ARG` to the bits. -/
def Obligations.BrePutAppendsTheField : Prop :=
  ∀ (s : State) (b : List Bool) (n : BitVec 64),
    StreamOperand s.cap Config.maxIn s.bre.ops.inLen s.bre.ops.bitIn b → RegHolds s.bre.ops.arg n →
    s.bre.ctl.state = .idle →
    (n.toNat < 2 ^ 32 → fitsCap s.cap (b.length + 32) = true →
      ∃ t, exec .brePut s = .next t ∧ OnlyUnit .bre s t ∧ Done t.bre.ctl ∧
        t.bre.res.outLen = BitVec.ofNat 64 (b.length + 32) ∧ t.bre.res.bitOut.length = b.length + 32 ∧
        (∀ j (h : j < b.length), t.bre.res.bitOut[j]? = some b[j]) ∧
        ∀ j, j < 32 → t.bre.res.bitOut[b.length + j]? = some (n.getLsbD (31 - j))) ∧
    (2 ^ 32 ≤ n.toNat → exec .brePut s = .refused .mustBeZeroSet) ∧
    (n.toNat < 2 ^ 32 → fitsCap s.cap (b.length + 32) = false → exec .brePut s = .refused .beyondCapacity)

/-- R150, R152: on a raster that passes the check, `RLE.ENCS` emits the maximal runs of each row, in row order. -/
def Obligations.RleEncsEmitsMaximalRuns : Prop :=
  ∀ (s : State) (r : List Symbol) (w h : BitVec 64), RasterOperands s r w h → s.rle.ctl.state = .idle →
    1 ≤ w.toInt → 1 ≤ h.toInt → (r.length : Int) = w.toInt * h.toInt →
    ∃ t, ∃ rows : List (List (Symbol × Nat)), exec .rleEncs s = .next t ∧ OnlyUnit .rle s t ∧ Done t.rle.ctl ∧
      rows.length = h.toNat ∧
      (∀ k (hk : k < rows.length), MaximalRuns rows[k] ((r.drop (k * w.toNat)).take w.toNat)) ∧
      t.rle.res.pairOut.map (fun e => (pairValue e, pairCount e)) = rows.flatten ∧
      t.rle.res.outLen = BitVec.ofNat 64 rows.flatten.length ∧
      t.rle.res.ratioNum = BitVec.ofNat 64 (w.toNat * h.toNat) ∧
      t.rle.res.ratioDen = BitVec.ofNat 64 rows.flatten.length

/-- R153, R154: how many pairs `RLE.ENCS` emits, and what their counts are. -/
def Obligations.RleEncsContract : Prop :=
  ∀ (s t : State) (r : List Symbol) (w h : BitVec 64), RasterOperands s r w h → exec .rleEncs s = .next t →
    Done t.rle.ctl →
    h.toNat ≤ t.rle.res.pairOut.length ∧ t.rle.res.pairOut.length ≤ w.toNat * h.toNat ∧
    (∀ e ∈ t.rle.res.pairOut, 1 ≤ pairCount e ∧ pairCount e ≤ w.toNat) ∧
    (t.rle.res.pairOut.map pairCount).sum = w.toNat * h.toNat ∧
    ((∀ x ∈ r, ∀ y ∈ r, x = y) → t.rle.res.pairOut.length = h.toNat) ∧
    ((∀ i, (i + 1) % w.toNat ≠ 0 → ∀ (h : i + 1 < r.length), r[i] ≠ r[i + 1]) →
      t.rle.res.pairOut.length = w.toNat * h.toNat)

/-- R155, R156, R157: on a raster that passes the check, `RLE.ENCB` emits for each plane the 32-bit fields of its runs. -/
def Obligations.RleEncbEmitsPlaneFields : Prop :=
  ∀ (s : State) (r : List Symbol) (w h : BitVec 64), RasterOperands s r w h → s.rle.ctl.state = .idle →
    1 ≤ w.toInt → 1 ≤ h.toInt → (r.length : Int) = w.toInt * h.toInt → fitsCap s.cap (32 * (r.length + 1)) = true →
    ∃ t, ∃ fields : Fin 8 → List Nat, exec .rleEncb s = .next t ∧ OnlyUnit .rle s t ∧ Done t.rle.ctl ∧
      (∀ p : Fin 8, t.rle.res.planeOut[p] = fieldBits (fields p) ∧ PlaneRuns (fields p) (bitPlane p.val r) ∧
        fields p ≠ [] ∧ (∀ n ∈ (fields p).tail, 1 ≤ n) ∧ (fields p).length ≤ r.length + 1 ∧
        t.rle.res.planeLen[p] = BitVec.ofNat 64 (32 * (fields p).length)) ∧
      t.rle.res.ratioNum = BitVec.ofNat 64 (8 * (w.toNat * h.toNat)) ∧
      t.rle.res.ratioDen = BitVec.ofNat 64 (32 * ((List.finRange 8).map fun p => (fields p).length).sum)

/-- R170, R172, R173: `RLD.DECS` replays the pairs when their exact total is `W * H`, and else raises `MalformedStream`. -/
def Obligations.RldDecsReplaysPairs : Prop :=
  ∀ (s : State) (pairs : List PairElem) (w h : BitVec 64), PairOperands s pairs w h → s.rld.ctl.state = .idle →
    1 ≤ w.toInt → 1 ≤ h.toInt → w.toNat * h.toNat ≤ Config.maxIn → fitsCap s.cap (w.toNat * h.toNat) = true →
    ∃ t, exec .rldDecs s = .next t ∧ OnlyUnit .rld s t ∧
      ((pairs.map pairCount).sum = w.toNat * h.toNat → Done t.rld.ctl ∧
        t.rld.res.symOut = pairs.flatMap (fun e => List.replicate (pairCount e) (pairValue e)) ∧
        t.rld.res.outLen = BitVec.ofNat 64 (w.toNat * h.toNat)) ∧
      ((pairs.map pairCount).sum ≠ w.toNat * h.toNat → Faulted .malformedStream t.rld.ctl)

/-- R175, R176, R177: `RLD.DECB` rebuilds the raster whose bit planes the fields describe, when every plane is whole fields that
sum to `W * H`; else it raises `MalformedStream`. -/
def Obligations.RldDecbReplaysPlanes : Prop :=
  ∀ (s : State) (planes : Vector (List Bool) 8) (w h : BitVec 64), PlaneOperands s planes w h →
    s.rld.ctl.state = .idle → 1 ≤ w.toInt → 1 ≤ h.toInt → w.toNat * h.toNat ≤ Config.maxIn →
    fitsCap s.cap (w.toNat * h.toNat) = true →
    ∃ t, exec .rldDecb s = .next t ∧ OnlyUnit .rld s t ∧
      (∀ fields : Fin 8 → List Nat, (∀ p : Fin 8, planes[p] = fieldBits (fields p) ∧
          (∀ n ∈ fields p, n < 2 ^ 32) ∧ (fields p).sum = w.toNat * h.toNat) →
        Done t.rld.ctl ∧ t.rld.res.symOut.length = w.toNat * h.toNat ∧
        t.rld.res.outLen = BitVec.ofNat 64 (w.toNat * h.toNat) ∧
        ∀ p : Fin 8, PlaneRuns (fields p) (bitPlane p.val t.rld.res.symOut)) ∧
      ((¬ ∃ fields : Fin 8 → List Nat, ∀ p : Fin 8, planes[p] = fieldBits (fields p) ∧
          (∀ n ∈ fields p, n < 2 ^ 32) ∧ (fields p).sum = w.toNat * h.toNat) →
        Faulted .malformedStream t.rld.ctl)

/-- R190 to R201: `HTB.BUILD` builds the tree of policy `det`, writes its table, leaf `s` at entry `s` and merge `k` at entry
`256 + k`, every other entry not valid (R200), and its codes; with a capacity below the 511 entries of the tree table it is refused (R6, R71). -/
def Obligations.HtbBuildFollowsPolicyDet : Prop :=
  ∀ (s : State) (xs : List Symbol), StreamOperand s.cap Config.maxIn s.htb.ops.inLen s.htb.ops.symIn xs →
    s.htb.ctl.state = .idle →
    (fitsCap s.cap Config.maxNodes = false → exec .htbBuild s = .refused .beyondCapacity) ∧
    (fitsCap s.cap Config.maxNodes = true → ∃ t top merges, exec .htbBuild s = .next t ∧ OnlyUnit .htb s t ∧ Done t.htb.ctl ∧
      DetMerges 0 (leavesFrom 0 (freqTable xs)) top ∧ DetMergeLog 0 (leavesFrom 0 (freqTable xs)) merges top ∧
      (∀ k (h : k < merges.length), t.htb.res.treeOut[256 + k]? =
        some (nodeEntry true false 0 (merges[k].1.freq + merges[k].2.freq) merges[k].1.seq merges[k].2.seq)) ∧
      (∀ k, merges.length ≤ k → k < 255 → ∃ e, t.htb.res.treeOut[256 + k]? = some e ∧ entryValid e = false) ∧
      t.htb.res.root = BitVec.ofNat 64 ((top.map QNode.seq).getD 511) ∧
      t.htb.res.treeOut.length = 511 ∧ t.htb.res.ctabOut.length = 256 ∧
      (∀ tbl, Stored tbl t.htb.res.treeOut → treeOf tbl t.htb.res.root.toNat = .ok (top.map QNode.tree)) ∧
      (∀ x : Symbol, ∃ e, t.htb.res.treeOut[x.toNat]? = some e ∧
        (x ∈ xs → e = nodeEntry true true x (xs.count x) 0 0) ∧ (x ∉ xs → entryValid e = false)) ∧
      ∀ x : Symbol, t.htb.res.ctabOut[x.toNat]? =
        some (codeEntry ((codeFor (codesOf (top.map QNode.tree)) x).getD [])))

/-- R193, R194, R195, R196: the tree of `HTB.BUILD` is one that the source's relation admits, and what every such tree satisfies. -/
def Obligations.HtbTreeIsAdmitted : Prop :=
  (∀ (xs : List Symbol) (top : Option QNode), DetMerges 0 (leavesFrom 0 (freqTable xs)) top →
    AdmittedTree xs (top.map QNode.tree)) ∧
  (∀ (xs : List Symbol) (tree : Option HTree), AdmittedTree xs tree →
    (tree = none ↔ xs = []) ∧
    ∀ t, tree = some t → (leafSyms t).Nodup ∧ (∀ x, x ∈ leafSyms t ↔ x ∈ xs) ∧
      internalNodes t + 1 = (leafSyms t).length ∧ FreqsAdd t ∧ treeFreq t = xs.length) ∧
  (∀ (n : Nat) (x : Symbol) (t : HTree), 1 ≤ n → AdmittedTree (List.replicate n x) (some t) → t = .leaf x n)

/-- R197, R198, R199: the code table of every admitted tree is defined exactly on the symbols that occur, its codes have between
1 and `max 1 (d - 1)` bits, and none is the beginning of another symbol's. -/
def Obligations.HuffmanCodesArePrefixFree : Prop :=
  ∀ (xs : List Symbol) (tree : Option HTree), AdmittedTree xs tree →
    (∀ x, (codeFor (codesOf tree) x).isSome = true ↔ x ∈ xs) ∧
    (∀ x c, codeFor (codesOf tree) x = some c → 1 ≤ c.length ∧ c.length ≤ 255 ∧
      c.length ≤ max 1 ((xs.dedup).length - 1)) ∧
    (∀ x y c d, codeFor (codesOf tree) x = some c → codeFor (codesOf tree) y = some d → c <+: d → x = y) ∧
    (∀ x n, tree = some (.leaf x n) → codeFor (codesOf tree) x = some [false])

/-- R197, R349: the walk with an explicit stack, as the hardware runs it, gives the codes of the recursive walk. -/
def Obligations.StackWalkIsTheRecursiveWalk : Prop :=
  ∀ (t : HTree) (steps : Nat), internalNodes t + (leafSyms t).length ≤ steps →
    walkStack steps [(t, [])] [] = walkCodes t []

/-- R221, R222, R223: `HEN.ENC` concatenates the codes of the symbols, in input order. -/
def Obligations.HenEncConcatenatesCodes : Prop :=
  ∀ (s : State) (xs : List Symbol) (tab : List CodeElem) (code : Symbol → List Bool), EncoderOperands s xs tab →
    s.hen.ctl.state = .idle → (∀ x ∈ xs, tableCode tab x = some (code x)) →
    (fitsCap s.cap (xs.flatMap code).length = true →
      ∃ t, exec .henEnc s = .next t ∧ OnlyUnit .hen s t ∧ Done t.hen.ctl ∧
        t.hen.res.bitOut = xs.flatMap code ∧
        t.hen.res.outLen = BitVec.ofNat 64 (xs.flatMap code).length ∧
        t.hen.res.ratioNum = BitVec.ofNat 64 (8 * xs.length) ∧
        t.hen.res.ratioDen = BitVec.ofNat 64 (xs.flatMap code).length) ∧
    (fitsCap s.cap (xs.flatMap code).length = false → exec .henEnc s = .refused .beyondCapacity)

/-- R221: a symbol without a code is refused, neither faulted nor skipped; by that name also where the capacity is short (assumption
log 24). -/
def Obligations.HenEncRefusesUncodedSymbols : Prop :=
  ∀ (s : State) (xs : List Symbol) (tab : List CodeElem) (x : Symbol), EncoderOperands s xs tab →
    s.hen.ctl.state = .idle → x ∈ xs → tableCode tab x = none → exec .henEnc s = .refused .symbolWithoutCode

/-- R232, R233, R234: `HDE.DEC` on no bits, on a lone leaf, with no tree, and the walk of a tree with an internal node. -/
def Obligations.HdeDecWalksTheTree : Prop :=
  ∀ (s : State) (bits : List Bool) (tree : Option HTree), DecoderOperands s bits tree → s.hde.ctl.state = .idle →
    ∃ t, exec .hdeDec s = .next t ∧ OnlyUnit .hde s t ∧
      (bits = [] → Done t.hde.ctl ∧ t.hde.res.symOut = [] ∧ t.hde.res.outLen = 0) ∧
      (bits ≠ [] → tree = none → Faulted .malformedStream t.hde.ctl) ∧
      (∀ x n, tree = some (.leaf x n) → Done t.hde.ctl ∧ t.hde.res.symOut = List.replicate bits.length x ∧
        t.hde.res.outLen = BitVec.ofNat 64 bits.length) ∧
      (∀ n l r, tree = some (.node n l r) →
        (∀ path : List (Symbol × List Bool), (∀ p ∈ path, p ∈ walkCodes (.node n l r) []) →
          bits = path.flatMap Prod.snd →
          Done t.hde.ctl ∧ t.hde.res.symOut = path.map Prod.fst ∧ t.hde.res.outLen = BitVec.ofNat 64 path.length) ∧
        ((¬ ∃ path : List (Symbol × List Bool), (∀ p ∈ path, p ∈ walkCodes (.node n l r) []) ∧
            bits = path.flatMap Prod.snd) →
          Faulted .malformedStream t.hde.ctl))

/-- R108, R231, R342: a tree table that is not well formed anywhere below `ROOT` (an index above 510 or an entry that is not valid is
reached, an entry is reached twice, through left or right children) or that reaches an entry never written is refused; when every entry
reached was written, it is refused as not well formed. The last clauses name the refusal by the root entry alone. With no bits the refusal
is the model's choice (assumption log 18). A table that the capacity does not admit is refused by the name of that (OperandsAboveRangeAreRefused). -/
def Obligations.HdeDecRefusesIllFormedTables : Prop :=
  ∀ (s : State) (bits : List Bool), StreamOperand s.cap Config.maxIn s.hde.ops.inLen s.hde.ops.bitIn bits →
    s.hde.ctl.state = .idle → s.hde.ops.root.written = true → s.hde.ops.root.value.toNat < 511 →
    (¬ (TableShape s.hde.ops.treeIn s.hde.ops.root.value.toNat ∧
        TableWritten s.hde.ops.treeIn s.hde.ops.root.value.toNat) → Refused (exec .hdeDec s)) ∧
    (fitsCap s.cap Config.maxNodes = true → TableWritten s.hde.ops.treeIn s.hde.ops.root.value.toNat →
      ¬ TableShape s.hde.ops.treeIn s.hde.ops.root.value.toNat → exec .hdeDec s = .refused .treeNotWellFormed) ∧
    (∀ e, fitsCap s.cap Config.maxNodes = true → bufGet s.hde.ops.treeIn s.hde.ops.root.value.toNat = some e →
      (entryValid e = false → exec .hdeDec s = .refused .treeNotWellFormed) ∧
      (entryValid e = true → entryLeaf e = false → entryLeft e = 511 → exec .hdeDec s = .refused .treeNotWellFormed) ∧
      (entryValid e = true → entryLeaf e = false → entryLeft e = s.hde.ops.root.value.toNat →
        exec .hdeDec s = .refused .treeNotWellFormed)) ∧
    (fitsCap s.cap Config.maxNodes = true → bufGet s.hde.ops.treeIn s.hde.ops.root.value.toNat = none → exec .hdeDec s = .refused .operandNotWritten)

/-- R224: `HUF.ENCODE` is `HTB.BUILD`, the host's copy of the code table, and `HEN.ENC`; it cannot fault and meets no symbol
without a code. -/
def Obligations.HufEncodeIsBothHalves : Prop :=
  ∀ (s : State) (xs : List Symbol), StreamOperand s.cap Config.maxIn s.htb.ops.inLen s.htb.ops.symIn xs →
    s.htb.ctl.state = .idle → s.hen.ctl.state = .idle →
    ∃ top, ∃ code : Symbol → List Bool, DetMerges 0 (leavesFrom 0 (freqTable xs)) top ∧
      (∀ x ∈ xs, codeFor (codesOf (top.map QNode.tree)) x = some (code x)) ∧
      (fitsCap s.cap Config.maxNodes = false ∨ fitsCap s.cap (xs.flatMap code).length = false →
        exec .hufEncode s = .refused .beyondCapacity) ∧
      (fitsCap s.cap Config.maxNodes = true → fitsCap s.cap (xs.flatMap code).length = true →
        ∃ t, exec .hufEncode s = .next t ∧ t = { s with htb := t.htb, hen := t.hen } ∧
          t.htb.ops = s.htb.ops ∧ Done t.htb.ctl ∧ Done t.hen.ctl ∧
          (∀ tbl, Stored tbl t.htb.res.treeOut → treeOf tbl t.htb.res.root.toNat = .ok (top.map QNode.tree)) ∧
          t.hen.res.bitOut = xs.flatMap code ∧
          t.hen.res.outLen = BitVec.ofNat 64 (xs.flatMap code).length ∧
          t.hen.res.ratioNum = BitVec.ofNat 64 (8 * xs.length) ∧
          t.hen.res.ratioDen = BitVec.ofNat 64 (xs.flatMap code).length ∧
          EncoderOperands t xs t.htb.res.ctabOut)

/-- R252, R253, R254, R257: `LZE.ENC` emits codes that read as strings whose concatenation is the input, each the longest match. -/
def Obligations.LzeEncEmitsLongestMatches : Prop :=
  ∀ (s : State) (b : List Symbol), StreamOperand s.cap Config.maxIn s.lze.ops.inLen s.lze.ops.symIn b →
    s.lze.ctl.state = .idle →
    ∃ t strings, exec .lzeEnc s = .next t ∧ OnlyUnit .lze s t ∧ Done t.lze.ctl ∧
      LzwStrings (t.lze.res.lzcOut.map BitVec.toNat) strings ∧ LzwGreedy strings ∧ strings.flatten = b ∧
      t.lze.res.outLen = BitVec.ofNat 64 t.lze.res.lzcOut.length ∧
      t.lze.res.ratioNum = BitVec.ofNat 64 b.length ∧
      t.lze.res.ratioDen = BitVec.ofNat 64 t.lze.res.lzcOut.length

/-- R253, R255: how many codes `LZE.ENC` emits and how large they are. -/
def Obligations.LzwDictionaryGrowthIsBounded : Prop :=
  ∀ (s t : State) (b : List Symbol), StreamOperand s.cap Config.maxIn s.lze.ops.inLen s.lze.ops.symIn b →
    exec .lzeEnc s = .next t →
    t.lze.res.lzcOut.length ≤ b.length ∧ (b ≠ [] → 1 ≤ t.lze.res.lzcOut.length) ∧
    (∀ k ∈ t.lze.res.lzcOut, k.toNat ≤ 255 + (b.length - 1)) ∧
    (∀ j (h : j < t.lze.res.lzcOut.length), 256 ≤ t.lze.res.lzcOut[j].toNat → t.lze.res.lzcOut[j].toNat < 256 + j) ∧
    (b.length = 1 → t.lze.res.lzcOut.map BitVec.toNat = b.map BitVec.toNat)

/-- R272 to R275, R277, R302: `LZD.DEC` on at least one code: in range, the strings of the codes are concatenated; out of range,
`InvalidCode`, also where the strings before the bad code would not fit a capacity that is set (assumption log 24). -/
def Obligations.LzdDecConcatenatesStrings : Prop :=
  ∀ (s : State) (codes : List (BitVec 64)), StreamOperand s.cap Config.maxIn s.lzd.ops.inLen s.lzd.ops.lzcIn codes →
    s.lzd.ctl.state = .idle → codes ≠ [] →
    (CodesInRange (codes.map BitVec.toNat) → ∃ strings, LzwStrings (codes.map BitVec.toNat) strings ∧
      (fitsCap s.cap strings.flatten.length = true →
        ∃ t, exec .lzdDec s = .next t ∧ OnlyUnit .lzd s t ∧ Done t.lzd.ctl ∧ t.lzd.res.symOut = strings.flatten ∧
          t.lzd.res.outLen.toNat = strings.flatten.length) ∧
      (fitsCap s.cap strings.flatten.length = false → exec .lzdDec s = .refused .beyondCapacity)) ∧
    (¬ CodesInRange (codes.map BitVec.toNat) →
      ∃ t, exec .lzdDec s = .next t ∧ OnlyUnit .lzd s t ∧ Faulted .invalidCode t.lzd.ctl)

/-- R310: `CLEAR` on every unit, in every state it may be in, and what ends a `FAULT`. -/
def Obligations.ClearReturnsToIdle : Prop :=
  (∀ (s : State) (u : UnitId) (b : BitVec 8), (control s u).state = .done ∨ (control s u).state = .fault →
    ∃ t, exec (.clear u b) s = .next t ∧ OnlyUnit u s t ∧ (control t u).state = .idle ∧ (control t u).fault = .none ∧
      readReg t u 1 = 0 ∧
      ∀ r, resultRegister u r = true → readReg t u r = Config.freeRegister (unitNumber u) (control t u).draws r) ∧
  (∀ (s : State) (u : UnitId) (b : BitVec 8), (control s u).state = .idle → exec (.clear u b) s = .next s) ∧
  (∀ (s : State) (u : UnitId) (b : BitVec 8), isBusy s u = true → exec (.clear u b) s = .refused .clearWhileBusy) ∧
  (∀ (s t : State) (u : UnitId), step s = .next t → (control s u).state = .fault → control t u ≠ control s u →
    (control t u).state = .idle ∧ (control t u).fault = .none ∧ ∃ e rest, s.pending = e :: rest ∧
      (e = .reset ∨ ∃ w b, ctrlWrite s e = some (u, w) ∧ decodeCtrl u w = .run (.clear u b)))

/-! ### Round trips -/

/-- R178: run-length coding returns the raster, both ways. -/
def Obligations.RunLengthRoundTrip : Prop :=
  ∀ (s t d : State) (r : List Symbol) (w h : BitVec 64), RasterOperands s r w h →
    1 ≤ w.toInt → 1 ≤ h.toInt → (r.length : Int) = w.toInt * h.toInt → d.rld.ctl.state = .idle →
    fitsCap d.cap r.length = true →
    (exec .rleEncs s = .next t → PairOperands d t.rle.res.pairOut w h →
      ∃ e, exec .rldDecs d = .next e ∧ Done e.rld.ctl ∧ e.rld.res.symOut = r) ∧
    (exec .rleEncb s = .next t → PlaneOperands d t.rle.res.planeOut w h →
      ∃ e, exec .rldDecb d = .next e ∧ Done e.rld.ctl ∧ e.rld.res.symOut = r)

/-- R236: Huffman coding returns the stream: through the tables as `HTB.BUILD` writes them, and for every tree the source's
relation admits (policy `any`), with the code table of that tree. -/
def Obligations.HuffmanRoundTrip : Prop :=
  (∀ (a b c d f : State) (xs : List Symbol), StreamOperand a.cap Config.maxIn a.htb.ops.inLen a.htb.ops.symIn xs →
    exec .htbBuild a = .next b → EncoderOperands c xs b.htb.res.ctabOut → exec .henEnc c = .next d →
    StreamOperand f.cap Config.maxIn f.hde.ops.inLen f.hde.ops.bitIn d.hen.res.bitOut →
    Stored f.hde.ops.treeIn b.htb.res.treeOut → RegHolds f.hde.ops.root b.htb.res.root → f.hde.ctl.state = .idle →
    fitsCap f.cap Config.maxNodes = true →
    ∃ e, exec .hdeDec f = .next e ∧ Done e.hde.ctl ∧ e.hde.res.symOut = xs) ∧
  (∀ (c d f : State) (xs : List Symbol) (tree : Option HTree), AdmittedTree xs tree →
    EncoderOperands c xs (codeTable (codesOf tree)) → exec .henEnc c = .next d →
    DecoderOperands f d.hen.res.bitOut tree → f.hde.ctl.state = .idle →
    ∃ e, exec .hdeDec f = .next e ∧ Done e.hde.ctl ∧ e.hde.res.symOut = xs)

/-- R278: LZW returns every non-empty byte stream; the empty one gives no codes, which `LZD.DEC` faults. -/
def Obligations.LzwRoundTrip : Prop :=
  ∀ (s t d : State) (b : List Symbol), StreamOperand s.cap Config.maxIn s.lze.ops.inLen s.lze.ops.symIn b →
    exec .lzeEnc s = .next t →
    StreamOperand d.cap Config.maxIn d.lzd.ops.inLen d.lzd.ops.lzcIn t.lze.res.lzcOut → d.lzd.ctl.state = .idle →
    fitsCap d.cap b.length = true →
    ∃ e, exec .lzdDec d = .next e ∧
      (b ≠ [] → Done e.lzd.ctl ∧ e.lzd.res.symOut = b) ∧ (b = [] → Faulted .emptyStream e.lzd.ctl)

/-! ### Faults and refusals -/

/-- R305: which operation can raise which fault; and the run-length encoders do not fault on a valid raster. -/
def Obligations.FaultMatrix : Prop :=
  (∀ (i : Instr) (s : State) (f : FaultCode), f ≠ .none → Raises i s f → f ∈ mayRaise i) ∧
  (∀ (i : Instr) (f : FaultCode), f ∈ mayRaise i → ∃ s, Raises i s f) ∧
  (∀ (s : State) (r : List Symbol) (w h : BitVec 64) (i : Instr) (f : FaultCode), RasterOperands s r w h →
    1 ≤ w.toInt → 1 ≤ h.toInt → (r.length : Int) = w.toInt * h.toInt → i = .rleEncs ∨ i = .rleEncb → f ≠ .none →
    ¬ Raises i s f)

/-- R302: `InvalidCode`, every cause. That all codes must be there, also those after the offending one, is the model's reading of R342
(assumption log 11); that the fault comes also where the strings before it would not fit a capacity that is set is assumption log 24. -/
def Obligations.InvalidCodeEveryCause : Prop :=
  ∀ (i : Instr) (s : State), Raises i s .invalidCode ↔
    i = .lzdDec ∧ s.lzd.ctl.state = .idle ∧
    ∃ codes : List (BitVec 64), StreamOperand s.cap Config.maxIn s.lzd.ops.inLen s.lzd.ops.lzcIn codes ∧
      ((∃ k rest, codes = k :: rest ∧ 256 ≤ k.toNat) ∨
        ∃ pos, ∃ h : pos < codes.length, 1 ≤ pos ∧ 256 + pos - 1 < codes[pos].toNat)

/-- R276, R303: `EmptyStream`, every cause, and what the other decoders do on empty input. That `MalformedStream` is raised also where
`W * H` is above a capacity that is set, a result length R348 refuses, is the model's choice (assumption log 24). -/
def Obligations.EmptyStreamEveryCause : Prop :=
  (∀ (i : Instr) (s : State), Raises i s .emptyStream ↔
    i = .lzdDec ∧ s.lzd.ctl.state = .idle ∧ s.lzd.ops.inLen.written = true ∧ s.lzd.ops.inLen.value = 0) ∧
  (∀ (s : State) (w h : BitVec 64), PairOperands s [] w h → s.rld.ctl.state = .idle → 1 ≤ w.toInt → 1 ≤ h.toInt →
    w.toNat * h.toNat ≤ Config.maxIn → ∃ t, exec .rldDecs s = .next t ∧ Faulted .malformedStream t.rld.ctl) ∧
  (∀ (s : State) (planes : Vector (List Bool) 8) (p : Fin 8) (w h : BitVec 64), PlaneOperands s planes w h →
    planes[p] = [] → s.rld.ctl.state = .idle → 1 ≤ w.toInt → 1 ≤ h.toInt → w.toNat * h.toNat ≤ Config.maxIn →
    ∃ t, exec .rldDecb s = .next t ∧ Faulted .malformedStream t.rld.ctl) ∧
  (∀ (s : State) (tree : Option HTree), DecoderOperands s [] tree → s.hde.ctl.state = .idle →
    ∃ t, exec .hdeDec s = .next t ∧ Done t.hde.ctl ∧ t.hde.res.symOut = [])

/-- R304: `InvalidDimensions`, every cause. That all operands must be written and in range before the check is the model's reading of
R342 and R348 (assumption log 11). -/
def Obligations.InvalidDimensionsEveryCause : Prop :=
  ∀ (i : Instr) (s : State), Raises i s .invalidDimensions ↔
    (i = .rleEncs ∨ i = .rleEncb) ∧ s.rle.ctl.state = .idle ∧
      (∃ r w h, RasterOperands s r w h ∧ (w.toInt ≤ 0 ∨ h.toInt ≤ 0 ∨ (r.length : Int) ≠ w.toInt * h.toInt)) ∨
    i = .rldDecs ∧ s.rld.ctl.state = .idle ∧
      (∃ pairs w h, PairOperands s pairs w h ∧ (w.toInt ≤ 0 ∨ h.toInt ≤ 0)) ∨
    i = .rldDecb ∧ s.rld.ctl.state = .idle ∧
      (∃ planes w h, PlaneOperands s planes w h ∧ (w.toInt ≤ 0 ∨ h.toInt ≤ 0))

/-- R306: the dimension check comes first in the run-length decoders, whatever the stream is. -/
def Obligations.DimensionsWinOverMalformed : Prop :=
  (∀ (s : State) (pairs : List PairElem) (w h : BitVec 64), PairOperands s pairs w h → s.rld.ctl.state = .idle →
    w.toInt ≤ 0 ∨ h.toInt ≤ 0 → ∃ t, exec .rldDecs s = .next t ∧ OnlyUnit .rld s t ∧ Faulted .invalidDimensions t.rld.ctl) ∧
  (∀ (s : State) (planes : Vector (List Bool) 8) (w h : BitVec 64), PlaneOperands s planes w h →
    s.rld.ctl.state = .idle → w.toInt ≤ 0 ∨ h.toInt ≤ 0 →
    ∃ t, exec .rldDecb s = .next t ∧ OnlyUnit .rld s t ∧ Faulted .invalidDimensions t.rld.ctl)

/-- R307: fault entry writes `STATUS` and nothing else the host can rely on: operands and the other units are kept, and every
result register and "out" element of the unit reads as a free value. -/
def Obligations.FaultEntry : Prop :=
  ∀ (i : Instr) (s t : State) (f : FaultCode), exec i s = .next t → f ≠ .none → (control t (instrUnit i)).fault = f →
    (control s (instrUnit i)).state = .idle → (control s (instrUnit i)).fault = .none →
    (control t (instrUnit i)).state = .fault ∧ OnlyUnit (instrUnit i) s t ∧
    readReg t (instrUnit i) 1 = BitVec.ofNat 64 (3 + 16 * (faultCode f).toNat) ∧
    (∀ r, resultRegister (instrUnit i) r = true →
      readReg t (instrUnit i) r = Config.freeRegister (unitNumber (instrUnit i)) (control t (instrUnit i)).draws r) ∧
    (instrUnit i = .rle → ∀ k, readPlace t (.pair k) = .ok (.pair ((freeElement .rle t.rle.ctl 8 k).setWidth 40)) ∧
      ∀ p : Fin 8, readPlace t (.plane p k) = .ok (.bit ((freeElement .rle t.rle.ctl p.val k).getLsbD 0))) ∧
    (instrUnit i = .rld → ∀ k, readPlace t (.sym .rld k) = .ok (.sym ((freeElement .rld t.rld.ctl 0 k).setWidth 8))) ∧
    (instrUnit i = .hde → ∀ k, readPlace t (.sym .hde k) = .ok (.sym ((freeElement .hde t.hde.ctl 0 k).setWidth 8))) ∧
    (instrUnit i = .lzd → ∀ k, readPlace t (.sym .lzd k) = .ok (.sym ((freeElement .lzd t.lzd.ctl 0 k).setWidth 8)))

/-- R341, R342: a `START` of which some operand was not written since reset (a register, an element below its length, an entry of the
code table, an entry the tree reaches) is refused, for every operation and the pseudo-operation; by the name `operandNotWritten` when its
operands are in range, and after reset in any case. That this refusal comes before any fault, and in `LZD.DEC` also after a bad code, is
assumption log 11. -/
def Obligations.UnwrittenOperandsAreRefused : Prop :=
  (∀ (s : State) (i : Instr), NothingWritten s → (∀ u b, i ≠ .clear u b) → (control s (instrUnit i)).state = .idle →
    exec i s = .refused .operandNotWritten) ∧
  (∀ (s : State) (i : Instr), (control s (instrUnit i)).state = .idle → OperandMissing s i → Refused (exec i s)) ∧
  (∀ (s : State) (i : Instr), (control s (instrUnit i)).state = .idle → OperandMissing s i → OperandsInRange s i →
    exec i s = .refused .operandNotWritten)

/-- R348: operands above their admitted ranges are refused, and so is every use of a sequence or a fixed table (511 or 256 entries, R6,
R71) that a capacity does not admit. Which refusal names a `START` that meets several is assumption
log 11; that the tree table counts whole, whichever entries are reached, is assumption log 8. -/
def Obligations.OperandsAboveRangeAreRefused : Prop :=
  (∀ s : State, s.lze.ctl.state = .idle → s.lze.ops.inLen.written = true →
    Config.maxIn < s.lze.ops.inLen.value.toNat → exec .lzeEnc s = .refused .aboveAdmittedRange) ∧
  (∀ s : State, s.lzd.ctl.state = .idle → s.lzd.ops.inLen.written = true →
    Config.maxIn < s.lzd.ops.inLen.value.toNat → exec .lzdDec s = .refused .aboveAdmittedRange) ∧
  (∀ s : State, s.htb.ctl.state = .idle → s.htb.ops.inLen.written = true →
    Config.maxIn < s.htb.ops.inLen.value.toNat →
    exec .htbBuild s = .refused .aboveAdmittedRange ∧ exec .hufEncode s = .refused .aboveAdmittedRange) ∧
  (∀ s : State, s.rle.ctl.state = .idle → s.rle.ops.width.written = true → s.rle.ops.height.written = true →
    s.rle.ops.inLen.written = true → Config.maxIn < s.rle.ops.inLen.value.toNat →
    exec .rleEncs s = .refused .aboveAdmittedRange ∧ exec .rleEncb s = .refused .aboveAdmittedRange) ∧
  (∀ (s : State) (pairs : List PairElem) (w h : BitVec 64), PairOperands s pairs w h → s.rld.ctl.state = .idle →
    1 ≤ w.toInt → 1 ≤ h.toInt → Config.maxIn < w.toNat * h.toNat → exec .rldDecs s = .refused .aboveAdmittedRange) ∧
  (∀ (s : State) (planes : Vector (List Bool) 8) (w h : BitVec 64), PlaneOperands s planes w h →
    s.rld.ctl.state = .idle → 1 ≤ w.toInt → 1 ≤ h.toInt → Config.maxIn < w.toNat * h.toNat →
    exec .rldDecb s = .refused .aboveAdmittedRange) ∧
  (∀ (s : State) (bits : List Bool), StreamOperand s.cap Config.maxIn s.hde.ops.inLen s.hde.ops.bitIn bits →
    s.hde.ctl.state = .idle → s.hde.ops.root.written = true → 512 ≤ s.hde.ops.root.value.toNat →
    exec .hdeDec s = .refused .mustBeZeroSet) ∧
  (∀ s : State, s.bre.ctl.state = .idle → s.bre.ops.inLen.written = true →
    Config.maxIn < s.bre.ops.inLen.value.toNat → exec .brePut s = .refused .aboveAdmittedRange) ∧
  (∀ s : State, s.hen.ctl.state = .idle → s.hen.ops.inLen.written = true →
    Config.maxIn < s.hen.ops.inLen.value.toNat → exec .henEnc s = .refused .aboveAdmittedRange) ∧
  (∀ s : State, s.hde.ctl.state = .idle → s.hde.ops.inLen.written = true →
    Config.maxIn < s.hde.ops.inLen.value.toNat → exec .hdeDec s = .refused .aboveAdmittedRange) ∧
  (∀ s : State, s.rld.ctl.state = .idle → s.rld.ops.width.written = true → s.rld.ops.height.written = true →
    s.rld.ops.inLen.written = true → Config.maxIn < s.rld.ops.inLen.value.toNat →
    exec .rldDecs s = .refused .aboveAdmittedRange) ∧
  (∀ (s : State) (p : Fin 8), s.rld.ctl.state = .idle → s.rld.ops.width.written = true →
    s.rld.ops.height.written = true → s.rld.ops.planeLen[p].written = true →
    Config.maxPlaneLen < s.rld.ops.planeLen[p].value.toNat →
    Refused (exec .rldDecb s) ∧
    ((∀ q : Fin 8, q < p → ∃ bits,
        StreamOperand s.cap Config.maxPlaneLen s.rld.ops.planeLen[q] s.rld.ops.planeIn[q] bits) →
      exec .rldDecb s = .refused .aboveAdmittedRange)) ∧
  (∀ (s : State) (xs : List Symbol), StreamOperand s.cap Config.maxIn s.hen.ops.inLen s.hen.ops.symIn xs →
    s.hen.ctl.state = .idle → fitsCap s.cap Config.numCodes = false → exec .henEnc s = .refused .beyondCapacity) ∧
  (∀ (s : State) (bits : List Bool), StreamOperand s.cap Config.maxIn s.hde.ops.inLen s.hde.ops.bitIn bits →
    s.hde.ctl.state = .idle → s.hde.ops.root.written = true → s.hde.ops.root.value.toNat < 512 →
    fitsCap s.cap Config.maxNodes = false → exec .hdeDec s = .refused .beyondCapacity) ∧
  (∀ (s : State) (xs : List Symbol), StreamOperand s.cap Config.maxIn s.htb.ops.inLen s.htb.ops.symIn xs →
    s.htb.ctl.state = .idle → fitsCap s.cap Config.maxNodes = false →
    exec .htbBuild s = .refused .beyondCapacity ∧ exec .hufEncode s = .refused .beyondCapacity) ∧
  (∀ (s : State) (p : Place) (v : HostValue) (i : Nat), fitsCap s.cap (i + 1) = false → p.writable = true →
    p = .tree i ∨ p = .ctab i ∨ p = .lzc i ∨ p = .pair i ∨ (∃ u, p = .sym u i) ∨ (∃ u, p = .bit u i) ∨ (∃ q, p = .plane q i) →
    Refused (hostWrite p v s)) ∧
  (∀ (s : State) (i : Instr), (control s (instrUnit i)).state = .idle → LengthBeyondCapacity s i → Refused (exec i s))

/-! ### The machine as a whole -/

/-- R77, R286, R317: an operation or a `CLEAR` reads and writes its own unit only, and not the unit's operands. -/
def Obligations.OperationsTouchOnlyTheirUnit : Prop :=
  ∀ (i : Instr) (s t : State), i ≠ .hufEncode → exec i s = .next t → OnlyUnit (instrUnit i) s t

/-- R43, R317: the outcome of an operation is a function of its unit's operands alone: not of other units, not of what earlier
operations left in results or working registers. `ELAPSED` and the unspecified registers, which R49 leaves to a draw, agree as well only
because the model's draw is a function of the unit and its own counter (assumption log 7), and the counters are assumed equal. -/
def Obligations.OutcomeDependsOnOperandsAlone : Prop :=
  ∀ (i : Instr) (s t : State), IsOperation i → s.cap = t.cap → SameInput (instrUnit i) s t →
    (∀ r, exec i s = .refused r → exec i t = .refused r) ∧
    (∀ a, exec i s = .next a → ∃ b, exec i t = .next b ∧ SameUnit (instrUnit i) a b)

/-- R317: operations on different units may be run in either order. That `ELAPSED` and the unspecified registers, a draw by R49 and
R295, are the same in both orders is the model's choice: a draw is a function of the unit and its own counter (assumption log 7). -/
def Obligations.DifferentUnitsCommute : Prop :=
  ∀ (i j : Instr) (s a b : State), i ≠ .hufEncode → j ≠ .hufEncode → instrUnit i ≠ instrUnit j →
    exec i s = .next a → exec j a = .next b → ∃ c, exec j s = .next c ∧ exec i c = .next b

/-- R7, R44: an operation that is left `BUSY` and takes its step later ends exactly as one that is run at once. That `ELAPSED` and the
unspecified registers, a draw by R295, are the same both ways is the model's choice: a draw is a function of the unit and its own
counter, which moves only when the operation ends (assumption log 7); the event that leaves a unit `BUSY` is assumption log 2. -/
def Obligations.BusyThenStepIsOneStep : Prop :=
  ∀ (s b : State) (u : UnitId) (w : BitVec 64) (i : Instr), decodeCtrl u w = .run i → IsOperation i →
    startSlow u w s = .next b → (control b u).state = .busy (ctrlFunc w) ∧ OnlyUnit u s b ∧
      ((control s u).fault = .none → readReg b u 1 = 1) ∧ unitStep u b = writeCtrl u w s

/-- R8, R351: no operation waits for ever: with nothing more to do for the host, each step ends the operation of one `BUSY` unit. -/
def Obligations.BusyUnitsTerminate : Prop :=
  ∀ s : State, Inv s → s.pending = [] →
    (busyCount s = 0 → step s = .next s) ∧
    (busyCount s ≠ 0 → ∃ t, step s = .next t ∧ busyCount t + 1 = busyCount s ∧ t.pending = [] ∧ t.reads = s.reads)

/-- The invariant holds after reset. -/
def Obligations.InvariantAtReset : Prop := Inv State.reset ∧ ResultsCounted State.reset

/-- Every step keeps the invariant: buffers in canonical form and inside their tables (R71), a fault code exactly in `FAULT`
(R300, R307, R310), a `BUSY` unit's operation certain to end (R8), and no record of a `STATUS` read from a draw counter still to
come (assumption log 25). -/
def Obligations.EveryStepKeepsTheInvariant : Prop :=
  ∀ s t : State, Inv s → step s = .next t → Inv t

/-- Every step keeps the length registers of a `DONE` unit equal to what its operation delivered (R50, R51, R282). -/
def Obligations.EveryStepKeepsResultsCounted : Prop :=
  ∀ s t : State, ResultsCounted s → step s = .next t → ResultsCounted t

/-- R290 to R293: the ratio of every encoding operation: positive for a non-empty input, at least 1 for `RLE.ENCS` and `LZE.ENC`,
between 8/255 and 8 for `HEN.ENC`, and no value at all for the empty input. -/
def Obligations.CompressionRatios : Prop :=
  (∀ (s t : State), exec .rleEncs s = .next t → Done t.rle.ctl →
    ∃ q, compressionRatio t.rle.res.ratioNum t.rle.res.ratioDen = some q ∧ 1 ≤ q) ∧
  (∀ (s t : State), exec .rleEncb s = .next t → Done t.rle.ctl →
    256 ≤ t.rle.res.ratioDen.toNat ∧ ∃ q, compressionRatio t.rle.res.ratioNum t.rle.res.ratioDen = some q ∧ 0 < q) ∧
  (∀ (s t : State), exec .henEnc s = .next t →
    (s.hen.ops.inLen.value = 0 → t.hen.res.ratioNum = 0 ∧ t.hen.res.ratioDen = 0 ∧
      compressionRatio t.hen.res.ratioNum t.hen.res.ratioDen = none) ∧
    (s.hen.ops.inLen.value ≠ 0 → ∃ q, compressionRatio t.hen.res.ratioNum t.hen.res.ratioDen = some q ∧
      (8 : Rat) / 255 ≤ q ∧ q ≤ 8)) ∧
  (∀ (s t : State), exec .lzeEnc s = .next t →
    (s.lze.ops.inLen.value = 0 → compressionRatio t.lze.res.ratioNum t.lze.res.ratioDen = none) ∧
    (s.lze.ops.inLen.value ≠ 0 → ∃ q, compressionRatio t.lze.res.ratioNum t.lze.res.ratioDen = some q ∧ 1 ≤ q))

/-- R104: the 32-bit field, its bit order, its value, and that the two are inverse. -/
def Obligations.RunLengthFieldFormat : Prop :=
  (∀ (n : BitVec 32), (field32 n).length = 32 ∧ ∀ j, j < 32 → (field32 n)[j]? = some (n.getLsbD (31 - j))) ∧
  (∀ f : List Bool, f.length = 32 →
    value32 f = ((List.range 32).map fun j => (f.getD j false).toNat * 2 ^ (31 - j)).sum ∧ value32 f < 2 ^ 32) ∧
  (∀ n : BitVec 32, value32 (field32 n) = n.toNat) ∧
  (∀ f : List Bool, f.length = 32 → field32 (BitVec.ofNat 32 (value32 f)) = f)

/-- R106, R108, R109: the layouts of a pair, a tree-table entry and a code-table entry, read back from what was written. -/
def Obligations.ElementFormats : Prop :=
  (∀ (v : Symbol) (n : Nat), n < 2 ^ 32 → (mkPair v n).toNat = v.toNat * 2 ^ 32 + n ∧
    pairValue (mkPair v n) = v ∧ pairCount (mkPair v n) = n) ∧
  (∀ (valid leaf : Bool) (sym : Symbol) (freq left right : Nat), freq < 2 ^ 32 → left < 512 → right < 512 →
    (nodeEntry valid leaf sym freq left right).toNat =
      valid.toNat + 2 * leaf.toNat + 2 ^ 2 * sym.toNat + 2 ^ 10 * freq + 2 ^ 42 * left + 2 ^ 51 * right ∧
    entryValid (nodeEntry valid leaf sym freq left right) = valid ∧
    entryLeaf (nodeEntry valid leaf sym freq left right) = leaf ∧
    entrySym (nodeEntry valid leaf sym freq left right) = sym ∧
    entryFreq (nodeEntry valid leaf sym freq left right) = freq ∧
    entryLeft (nodeEntry valid leaf sym freq left right) = left ∧
    entryRight (nodeEntry valid leaf sym freq left right) = right) ∧
  (∀ code : List Bool, code.length ≤ 255 → entryCodeLen (codeEntry code) = code.length ∧
    entryCode (codeEntry code) = code ∧
    (∀ j (h : j < code.length), (codeEntry code).getLsbD (262 - j) = code[j]) ∧
    ∀ j, 8 ≤ j → j < 263 - code.length → (codeEntry code).getLsbD j = false)

/-- R108, R231: a table that is well formed below its `ROOT` and written there is accepted, and read by its fields: the tree operand
is the one whose nodes stand in the entries reached, and the operation completes. -/
def Obligations.WellFormedTablesAreRead : Prop :=
  ∀ (s : State) (bits : List Bool), StreamOperand s.cap Config.maxIn s.hde.ops.inLen s.hde.ops.bitIn bits →
    s.hde.ctl.state = .idle → s.hde.ops.root.written = true → s.hde.ops.root.value.toNat < 511 →
    fitsCap s.cap Config.maxNodes = true → TableShape s.hde.ops.treeIn s.hde.ops.root.value.toNat →
    TableWritten s.hde.ops.treeIn s.hde.ops.root.value.toNat →
    ∃ tree t, TableHolds s.hde.ops.treeIn s.hde.ops.root.value.toNat tree ∧ DecoderOperands s bits (some tree) ∧
      exec .hdeDec s = .next t

/-- R45, R343: a `START` that leaves its unit `BUSY` gives the working registers the initial values of the operation's rule (R152,
R155, R172, R175, R191, R222, R232, R251, R271). Registers to which the rule gives none begin at 0 or empty (assumption log 5). -/
def Obligations.BusyUnitsStartFromInitialValues : Prop :=
  (∀ (s : State) (r : List Symbol) (w h : BitVec 64), RasterOperands s r w h → s.rle.ctl.state = .idle →
    1 ≤ w.toInt → 1 ≤ h.toInt → (r.length : Int) = w.toInt * h.toInt → fitsCap s.cap (32 * (r.length + 1)) = true →
    (∃ t, startSlow .rle 0x100#64 s = .next t ∧ t.rle.ctl.state = .busy 0 ∧ t.rle.work.r = 0 ∧ t.rle.work.c = 1 ∧
      some t.rle.work.cur = r.head? ∧ t.rle.work.cnt = 1) ∧
    ∃ t, startSlow .rle 0x101#64 s = .next t ∧ t.rle.ctl.state = .busy 1 ∧ t.rle.work.cur = 0 ∧ t.rle.work.cnt = 0) ∧
  (∀ s t : State, startSlow .rld 0x110#64 s = .next t ∨ startSlow .rld 0x111#64 s = .next t →
    t.rld.work.pos = 0 ∧ t.rld.work.cur = false) ∧
  (∀ s t : State, startSlow .htb 0x130#64 s = .next t →
    t.htb.work.freq = List.replicate 256 0 ∧ t.htb.work.queue = [] ∧ t.htb.work.k = 0 ∧ t.htb.work.stack = []) ∧
  (∀ s t : State, startSlow .hen 0x140#64 s = .next t → t.hen.work.pos = 0) ∧
  (∀ (s t : State) (bits : List Bool) (tree : Option HTree), DecoderOperands s bits tree →
    startSlow .hde 0x150#64 s = .next t → t.hde.work.pos = 0 ∧ t.hde.work.node = tree) ∧
  (∀ s t : State, startSlow .lze 0x160#64 s = .next t → t.lze.work.nextCode = 256 ∧ t.lze.work.w = [] ∧
    t.lze.work.pos = 0 ∧ t.lze.work.dict.length = 256 ∧ ∀ x : Symbol, t.lze.work.dict.lookup [x] = some x.toNat) ∧
  (∀ s t : State, startSlow .lzd 0x170#64 s = .next t → t.lzd.work.nextCode = 256 ∧ t.lzd.work.ddict.length = 256 ∧
    ∀ x : Symbol, t.lzd.work.ddict[x.toNat]? = some [x])

end
end

