-- ==== Sys2Proof/Laws/Buffers.lean ====
section
/-! SUPPORT. The laws of "in" buffers: a read after a write, the canonical form, and what a stored sequence reads as. -/

namespace Sys2Proof.Machine

variable {α : Type}

theorem bufGet_bufSet_same (b : Buf α) (i : Nat) (v : α) : bufGet (bufSet b i v) i = some v := by
  induction b with
  | nil => simp [bufSet, bufGet]
  | cons e rest ih =>
    obtain ⟨j, x⟩ := e
    simp only [bufSet]
    split
    · simp [bufGet]
    · split
      · simp [bufGet]
      · simp [bufGet, *]

theorem bufGet_bufSet_other (b : Buf α) (i k : Nat) (v : α) (h : k ≠ i) : bufGet (bufSet b i v) k = bufGet b k := by
  induction b with
  | nil => simp [bufSet, bufGet, h]
  | cons e rest ih =>
    obtain ⟨j, x⟩ := e
    simp only [bufSet]
    split
    · simp [bufGet, h]
    · split
      · next hij => subst hij; simp [bufGet, h]
      · simp [bufGet, ih]

/-- A read after a write: the value written at its own index, the old element everywhere else. -/
theorem bufGet_bufSet (b : Buf α) (i k : Nat) (v : α) :
    bufGet (bufSet b i v) k = if k = i then some v else bufGet b k := by
  split
  · next h => subst h; exact bufGet_bufSet_same ..
  · next h => exact bufGet_bufSet_other _ _ _ _ h

theorem mem_bufSet (b : Buf α) (i : Nat) (v : α) (e : Nat × α) (h : e ∈ bufSet b i v) : e = (i, v) ∨ e ∈ b := by
  induction b with
  | nil => simpa [bufSet] using h
  | cons f rest ih =>
    obtain ⟨j, x⟩ := f
    simp only [bufSet] at h
    split at h
    · simpa using h
    · split at h
      · rcases List.mem_cons.1 h with h | h
        · exact .inl h
        · exact .inr (List.mem_cons_of_mem _ h)
      · rcases List.mem_cons.1 h with h | h
        · exact .inr (by simp [h])
        · rcases ih h with h | h
          · exact .inl h
          · exact .inr (List.mem_cons_of_mem _ h)

/-- A write keeps the canonical form. -/
theorem bufWf_bufSet (b : Buf α) (i : Nat) (v : α) (h : bufWf b) : bufWf (bufSet b i v) := by
  induction b with
  | nil => simp [bufSet, bufWf]
  | cons e rest ih =>
    obtain ⟨j, x⟩ := e
    have h' := List.pairwise_cons.1 (show (j :: rest.map Prod.fst).Pairwise (· < ·) from h)
    simp only [bufSet]
    split
    · next hij =>
      refine List.pairwise_cons.2 ⟨fun k hk => ?_, h⟩
      rcases List.mem_cons.1 hk with rfl | hk
      · exact hij
      · exact lt_trans hij (h'.1 k hk)
    · split
      · next hij => subst hij; exact h
      · next h1 h2 =>
        refine List.pairwise_cons.2 ⟨fun k hk => ?_, ih h'.2⟩
        obtain ⟨e, he, rfl⟩ := List.mem_map.1 hk
        rcases mem_bufSet _ _ _ _ he with rfl | he
        · show j < i; omega
        · exact h'.1 _ (List.mem_map_of_mem he)

/-- A write below a bound keeps every element below it. -/
theorem bufBelow_bufSet (n : Nat) (b : Buf α) (i : Nat) (v : α) (hi : i < n) (h : bufBelow n b) :
    bufBelow n (bufSet b i v) := by
  intro e he
  rcases mem_bufSet _ _ _ _ he with rfl | he
  · exact hi
  · exact h e he

theorem bufWf_bufWriteList (xs : List α) : ∀ (b : Buf α) (i : Nat), bufWf b → bufWf (bufWriteList b i xs) := by
  induction xs with
  | nil => intro b i h; exact h
  | cons x xs ih => intro b i h; exact ih _ _ (bufWf_bufSet _ _ _ h)

theorem bufBelow_bufWriteList (n : Nat) (xs : List α) :
    ∀ (b : Buf α) (i : Nat), i + xs.length ≤ n → bufBelow n b → bufBelow n (bufWriteList b i xs) := by
  induction xs with
  | nil => intro b i _ h; exact h
  | cons x xs ih =>
    intro b i hi h
    have : i + (xs.length + 1) ≤ n := hi
    exact ih _ _ (by omega) (bufBelow_bufSet _ _ _ _ (by omega) h)

/-- What a written sequence reads as: its own elements at its own indexes, the old ones everywhere else. -/
theorem bufGet_bufWriteList (xs : List α) : ∀ (b : Buf α) (i k : Nat),
    bufGet (bufWriteList b i xs) k =
      if h : i ≤ k ∧ k < i + xs.length then some (xs[k - i]'(by omega)) else bufGet b k := by
  induction xs with
  | nil => intro b i k; simp [bufWriteList]
  | cons x xs ih =>
    intro b i k
    rw [bufWriteList, ih, bufGet_bufSet]
    by_cases hk : k = i
    · subst hk; simp
    · by_cases h1 : i + 1 ≤ k ∧ k < i + 1 + xs.length
      · have h2 : i ≤ k ∧ k < i + (x :: xs).length := by simp; omega
        rw [dif_pos h1, dif_pos h2]
        have : k - i = (k - (i + 1)) + 1 := by omega
        simp [this]
      · have h2 : ¬ (i ≤ k ∧ k < i + (x :: xs).length) := by simp at h1 ⊢; omega
        rw [dif_neg h1, dif_neg h2, if_neg hk]

theorem Stored_bufWriteList (b : Buf α) (xs : List α) : Stored (bufWriteList b 0 xs) xs := by
  intro i h
  rw [bufGet_bufWriteList, dif_pos (by omega)]
  simp

theorem bufRead_eq_some (b : Buf α) (n : Nat) : ∀ (i : Nat) (xs : List α),
    bufRead b i n = some xs ↔ xs.length = n ∧ ∀ k (h : k < xs.length), bufGet b (i + k) = some xs[k] := by
  induction n with
  | zero =>
    intro i xs
    rw [bufRead]
    constructor
    · intro h; cases h; simp
    · rintro ⟨h, -⟩; rw [List.length_eq_zero_iff] at h; rw [h]
  | succ n ih =>
    intro i xs
    rw [bufRead]
    constructor
    · intro h
      split at h
      · cases h
      · next x hx =>
        obtain ⟨ys, hy, rfl⟩ := Option.map_eq_some_iff.1 h
        obtain ⟨hl, hg⟩ := (ih _ _).1 hy
        refine ⟨by simp [hl], fun k hk => ?_⟩
        cases k with
        | zero => simpa using hx
        | succ k => simpa [Nat.add_assoc, Nat.add_comm 1] using hg k (by simpa using hk)
    · rintro ⟨hl, hg⟩
      cases xs with
      | nil => simp at hl
      | cons x xs =>
        have h0 := hg 0 (by simp)
        simp only [Nat.add_zero, List.getElem_cons_zero] at h0
        rw [h0]
        have : bufRead b (i + 1) n = some xs := (ih _ _).2 ⟨by simpa using hl, fun k hk => by
          have := hg (k + 1) (by simpa using hk)
          rw [List.getElem_cons_succ] at this
          rwa [Nat.add_assoc, Nat.add_comm 1]⟩
        simp [this]

/-- Reading a buffer from its start gives a sequence exactly when the sequence is stored there. -/
theorem bufRead_zero_eq_some (b : Buf α) (n : Nat) (xs : List α) :
    bufRead b 0 n = some xs ↔ xs.length = n ∧ Stored b xs := by
  simp [bufRead_eq_some, Stored]

/-- A buffer with an element missing cannot be read whole. -/
theorem bufRead_missing {α : Type} {b : Buf α} {n i : Nat} (hi : i < n) (h : bufGet b i = none) : bufRead b 0 n = none := by
  cases hr : bufRead b 0 n with
  | none => rfl
  | some xs =>
    obtain ⟨hl, hs⟩ := (bufRead_zero_eq_some _ _ _).1 hr
    rw [hs i (by omega)] at h
    cases h

end Sys2Proof.Machine
end

