-- ==== Sys2Proof/Laws/Sampling.lean ====
section
/-! SUPPORT. Operand assembly: when each sampling function answers, and with what. -/

namespace Sys2Proof.Machine

theorem sampleReg_ok {r : OpReg} {v : BitVec 64} : sampleReg r = .ok v ↔ RegHolds r v := by
  simp only [sampleReg, RegHolds]
  split <;> simp [*]

theorem sampleLow_ok {n : Nat} {r : OpReg} {k : Nat} :
    sampleLow n r = .ok k ↔ r.written = true ∧ r.value.toNat < 2 ^ n ∧ r.value.toNat = k := by
  simp only [sampleLow, sampleReg]
  by_cases h : r.written = true
  · by_cases h2 : r.value.toNat < 2 ^ n <;> simp [h, h2]
  · simp [h]

theorem sampleLength_ok {bound : Nat} {r : OpReg} {n : Nat} :
    sampleLength bound r = .ok n ↔ r.written = true ∧ r.value.toNat = n ∧ n ≤ bound := by
  simp only [sampleLength, sampleReg]
  by_cases h : r.written = true
  · by_cases h2 : r.value.toNat ≤ bound
    · simp only [h, h2, if_true, Except.ok.injEq, true_and]
      constructor
      · rintro rfl; exact ⟨rfl, h2⟩
      · rintro ⟨h, -⟩; exact h
    · simp only [h, h2, if_true, if_false, reduceCtorEq, true_and, false_iff, not_and]
      rintro rfl; exact h2
  · simp [h]

theorem sampleBuf_ok {α : Type} {cap : Option Nat} {b : Buf α} {n : Nat} {xs : List α} :
    sampleBuf cap b n = .ok xs ↔ fitsCap cap n = true ∧ xs.length = n ∧ Stored b xs := by
  simp only [sampleBuf]
  by_cases h : fitsCap cap n = true
  · simp only [h, if_true, true_and]
    rw [← bufRead_zero_eq_some]
    cases bufRead b 0 n <;> simp
  · simp [h]

/-- A length register and its buffer are sampled exactly when they are the operand sequence. -/
theorem sampleStream_ok {α : Type} {cap : Option Nat} {bound : Nat} {len : OpReg} {b : Buf α} {xs : List α} :
    sampleStream cap bound len b = .ok xs ↔ StreamOperand cap bound len b xs := by
  simp only [sampleStream]
  constructor
  · intro h
    cases hl : sampleLength bound len with
    | error e => rw [hl] at h; cases h
    | ok n =>
      rw [hl] at h
      obtain ⟨hw, hv, hb⟩ := sampleLength_ok.1 hl
      obtain ⟨hc, hlen, hs⟩ := sampleBuf_ok.1 h
      exact ⟨hw, by omega, by omega, by rw [hlen]; exact hc, hs⟩
  · rintro ⟨hw, hc, ha, hf, hs⟩
    rw [sampleLength_ok.2 ⟨hw, hc, ha⟩]
    exact sampleBuf_ok.2 ⟨hf, rfl, hs⟩

/-- The operand sequence is determined by the registers and the buffer. -/
theorem StreamOperand.unique {α : Type} {cap : Option Nat} {bound : Nat} {len : OpReg} {b : Buf α} {xs ys : List α}
    (hx : StreamOperand cap bound len b xs) (hy : StreamOperand cap bound len b ys) : xs = ys := by
  have h1 := sampleStream_ok.2 hx
  rw [sampleStream_ok.2 hy] at h1
  exact (Except.ok.inj h1).symm

theorem sampleRaster_ok {s : State} {r : List Symbol} {w h : BitVec 64} :
    sampleRaster s.cap s.rle.ops = .ok (w, h, r) ↔ RasterOperands s r w h := by
  simp only [sampleRaster]
  constructor
  · intro hh
    cases hw : sampleReg s.rle.ops.width <;> cases hh' : sampleReg s.rle.ops.height <;>
      cases hs : sampleStream s.cap Config.maxIn s.rle.ops.inLen s.rle.ops.symIn <;>
      simp only [hw, hh', hs, reduceCtorEq, Except.ok.injEq, Prod.mk.injEq] at hh
    obtain ⟨rfl, rfl, rfl⟩ := hh
    exact ⟨sampleReg_ok.1 hw, sampleReg_ok.1 hh', sampleStream_ok.1 hs⟩
  · rintro ⟨hw, hh, hs⟩
    rw [sampleReg_ok.2 hw, sampleReg_ok.2 hh, sampleStream_ok.2 hs]

theorem samplePlanes_ok {cap : Option Nat} : ∀ {l : List (OpReg × Buf Bool)} {xs : List (List Bool)},
    samplePlanes cap l = .ok xs ↔
      List.Forall₂ (fun (p : OpReg × Buf Bool) x => StreamOperand cap Config.maxPlaneLen p.1 p.2 x) l xs := by
  intro l
  induction l with
  | nil => intro xs; cases xs <;> simp [samplePlanes]
  | cons p rest ih =>
    intro xs
    obtain ⟨len, b⟩ := p
    simp only [samplePlanes]
    cases h1 : sampleStream cap Config.maxPlaneLen len b with
    | error e =>
      simp only [reduceCtorEq, false_iff]
      intro h; cases h with
      | cons h _ => rw [sampleStream_ok.2 h] at h1; cases h1
    | ok x =>
      cases h2 : samplePlanes cap rest with
      | error e =>
        simp only [reduceCtorEq, false_iff]
        intro h; cases h with
        | cons _ h => rw [ih.2 h] at h2; cases h2
      | ok ys =>
        simp only [Except.ok.injEq]
        constructor
        · rintro rfl; exact .cons (sampleStream_ok.1 h1) (ih.1 h2)
        · intro h; cases h with
          | cons h h' =>
            rw [sampleStream_ok.2 h] at h1
            rw [ih.2 h'] at h2
            cases h1; cases h2; rfl

/-- A capacity that admits a length admits every smaller one. -/
theorem fitsCap_mono {cap : Option Nat} {m n : Nat} (h : m ≤ n) (hc : fitsCap cap n = true) : fitsCap cap m = true := by
  cases cap with
  | none => rfl
  | some c => exact decide_eq_true (h.trans (of_decide_eq_true hc))

theorem sampleCodeTable_ok {cap : Option Nat} {b : Buf CodeElem} {tab : List CodeElem} :
    sampleCodeTable cap b = .ok tab ↔ fitsCap cap Config.numCodes = true ∧ tab.length = Config.numCodes ∧ Stored b tab :=
  sampleBuf_ok

theorem sampleTree_ok {cap : Option Nat} {o : HdeOps} {t : Option HTree} :
    sampleTree cap o = .ok t ↔ o.root.written = true ∧ o.root.value.toNat < 2 ^ 9 ∧
      fitsCap cap Config.maxNodes = true ∧ treeOf o.treeIn o.root.value.toNat = .ok t := by
  simp only [sampleTree]
  cases h : sampleLow 9 o.root with
  | error e =>
    simp only [reduceCtorEq, false_iff]
    rintro ⟨h1, h2, -⟩
    rw [sampleLow_ok.2 ⟨h1, h2, rfl⟩] at h; cases h
  | ok k =>
    obtain ⟨h1, h2, rfl⟩ := sampleLow_ok.1 h
    by_cases hc : fitsCap cap Config.maxNodes = true
    · simp only [hc, if_true]
      exact ⟨fun h => ⟨h1, h2, trivial, h⟩, fun h => h.2.2.2⟩
    · simp [hc]

theorem deliver_ok {R : Type} {fits : Bool} {r : R} {e : Ending R} :
    deliver fits r = .ok e ↔ fits = true ∧ e = .results r := by
  simp only [deliver]
  cases fits <;> simp [eq_comm]

/-! ### What is missing or out of range is refused (R341, R342, R348) -/

@[simp] theorem sampleReg_unwritten {r : OpReg} (h : r.written = false) : sampleReg r = .error .operandNotWritten := by
  simp [sampleReg, h]

theorem sampleLength_above {bound : Nat} {r : OpReg} (h : r.written = true) (hb : bound < r.value.toNat) :
    sampleLength bound r = .error .aboveAdmittedRange := by
  simp [sampleLength, sampleReg, h, Nat.not_le.2 hb]

theorem sampleStream_above {α : Type} {cap : Option Nat} {bound : Nat} {len : OpReg} {b : Buf α} (h : len.written = true)
    (hb : bound < len.value.toNat) : sampleStream cap bound len b = .error .aboveAdmittedRange := by
  simp [sampleStream, sampleLength_above h hb]

theorem sampleCodeTable_missing {cap : Option Nat} {b : Buf CodeElem} {i : Nat} (hc : fitsCap cap Config.numCodes = true)
    (hi : i < Config.numCodes) (h : bufGet b i = none) :
    sampleCodeTable cap b = .error .operandNotWritten := by
  simp [sampleCodeTable, sampleBuf, hc, bufRead_missing hi h]

/-- Tables beyond the capacity (R6, R348). -/
theorem sampleCodeTable_beyond {cap : Option Nat} {b : Buf CodeElem} (hc : fitsCap cap Config.numCodes = false) :
    sampleCodeTable cap b = .error .beyondCapacity := by
  simp [sampleCodeTable, sampleBuf, hc]

theorem sampleTree_beyond {cap : Option Nat} {o : HdeOps} (hw : o.root.written = true) (hr : o.root.value.toNat < 2 ^ 9)
    (hc : fitsCap cap Config.maxNodes = false) : sampleTree cap o = .error .beyondCapacity := by
  simp [sampleTree, sampleLow_ok.2 ⟨hw, hr, rfl⟩, hc]

/-- A stream with something missing is refused, by that name when its length is admitted. -/
theorem sampleStream_missing {α : Type} {cap : Option Nat} {bound : Nat} {len : OpReg} {b : Buf α}
    (h : len.written = false ∨ MissingElement len b) :
    ∃ why, sampleStream cap bound len b = .error why ∧ (LengthAdmitted cap bound len → why = .operandNotWritten) := by
  by_cases hw : len.written = true
  · obtain ⟨i, hi, hb⟩ := h.resolve_left (by simp [hw])
    by_cases hl : len.value.toNat ≤ bound
    · by_cases hc : fitsCap cap len.value.toNat = true
      · exact ⟨_, by simp [sampleStream, sampleLength_ok.2 ⟨hw, rfl, hl⟩, sampleBuf, hc, bufRead_missing hi hb], fun _ => rfl⟩
      · exact ⟨.beyondCapacity, by simp [sampleStream, sampleLength_ok.2 ⟨hw, rfl, hl⟩, sampleBuf, hc], fun ha => absurd ha.2 hc⟩
    · exact ⟨_, sampleStream_above hw (Nat.lt_of_not_le hl), fun ha => absurd ha.1 hl⟩
  · exact ⟨.operandNotWritten, by simp [sampleStream, sampleLength, hw], fun _ => rfl⟩
end Sys2Proof.Machine
end

