-- ==== Sys2Proof/Laws/State.lean ====
section
/-! SUPPORT. One lemma for each field of each update of a unit or of the whole state, so that no proof unfolds a record update. -/

namespace Sys2Proof.Machine

variable {O R W : Type}

/-! ### A unit that ends an operation -/

@[simp] theorem completeUnit_state (rest : W) (r : R) (x : CodecUnit O R W) : (completeUnit rest r x).ctl.state = .done := rfl
@[simp] theorem completeUnit_fault (rest : W) (r : R) (x : CodecUnit O R W) : (completeUnit rest r x).ctl.fault = .none := rfl
@[simp] theorem completeUnit_draws (rest : W) (r : R) (x : CodecUnit O R W) :
    (completeUnit rest r x).ctl.draws = x.ctl.draws + 1 := rfl
@[simp] theorem completeUnit_ops (rest : W) (r : R) (x : CodecUnit O R W) : (completeUnit rest r x).ops = x.ops := rfl
@[simp] theorem completeUnit_res (rest : W) (r : R) (x : CodecUnit O R W) : (completeUnit rest r x).res = r := rfl
@[simp] theorem completeUnit_work (rest : W) (r : R) (x : CodecUnit O R W) : (completeUnit rest r x).work = rest := rfl

@[simp] theorem raiseFault_state (u : Nat → R) (rest : W) (f : FaultCode) (x : CodecUnit O R W) :
    (raiseFault u rest f x).ctl.state = .fault := rfl
@[simp] theorem raiseFault_fault (u : Nat → R) (rest : W) (f : FaultCode) (x : CodecUnit O R W) :
    (raiseFault u rest f x).ctl.fault = f := rfl
@[simp] theorem raiseFault_draws (u : Nat → R) (rest : W) (f : FaultCode) (x : CodecUnit O R W) :
    (raiseFault u rest f x).ctl.draws = x.ctl.draws + 1 := rfl
@[simp] theorem raiseFault_ops (u : Nat → R) (rest : W) (f : FaultCode) (x : CodecUnit O R W) :
    (raiseFault u rest f x).ops = x.ops := rfl
@[simp] theorem raiseFault_res (u : Nat → R) (rest : W) (f : FaultCode) (x : CodecUnit O R W) :
    (raiseFault u rest f x).res = u x.ctl.draws := rfl
@[simp] theorem raiseFault_work (u : Nat → R) (rest : W) (f : FaultCode) (x : CodecUnit O R W) :
    (raiseFault u rest f x).work = rest := rfl

@[simp] theorem endOperation_results (u : Nat → R) (rest : W) (x : CodecUnit O R W) (r : R) :
    endOperation u rest x (.results r) = completeUnit rest r x := rfl
@[simp] theorem endOperation_raises (u : Nat → R) (rest : W) (x : CodecUnit O R W) (f : FaultCode) :
    endOperation u rest x (.raises f) = raiseFault u rest f x := rfl
@[simp] theorem endOperation_ops (u : Nat → R) (rest : W) (x : CodecUnit O R W) (e : Ending R) :
    (endOperation u rest x e).ops = x.ops := by cases e <;> rfl
@[simp] theorem endOperation_draws (u : Nat → R) (rest : W) (x : CodecUnit O R W) (e : Ending R) :
    (endOperation u rest x e).ctl.draws = x.ctl.draws + 1 := by cases e <;> rfl

/-! ### A unit after reset -/

@[simp] theorem resetUnit_state (fresh x : CodecUnit O R W) : (resetUnit fresh x).ctl.state = fresh.ctl.state := rfl
@[simp] theorem resetUnit_fault (fresh x : CodecUnit O R W) : (resetUnit fresh x).ctl.fault = fresh.ctl.fault := rfl
@[simp] theorem resetUnit_draws (fresh x : CodecUnit O R W) : (resetUnit fresh x).ctl.draws = x.ctl.draws := rfl
@[simp] theorem resetUnit_ops (fresh x : CodecUnit O R W) : (resetUnit fresh x).ops = fresh.ops := rfl
@[simp] theorem resetUnit_res (fresh x : CodecUnit O R W) : (resetUnit fresh x).res = fresh.res := rfl
@[simp] theorem resetUnit_work (fresh x : CodecUnit O R W) : (resetUnit fresh x).work = fresh.work := rfl

@[simp] theorem resetCore_cap (s : State) : (resetCore s).cap = s.cap := rfl
@[simp] theorem resetCore_pending (s : State) : (resetCore s).pending = s.pending := rfl
@[simp] theorem resetCore_reads (s : State) : (resetCore s).reads = s.reads := rfl
@[simp] theorem resetCore_seen (s : State) : (resetCore s).seen = Vector.replicate 8 none := rfl

/-! ### The control of a unit, read by its name -/

@[simp] theorem control_rle (s : State) : control s .rle = s.rle.ctl := rfl
@[simp] theorem control_rld (s : State) : control s .rld = s.rld.ctl := rfl
@[simp] theorem control_bre (s : State) : control s .bre = s.bre.ctl := rfl
@[simp] theorem control_htb (s : State) : control s .htb = s.htb.ctl := rfl
@[simp] theorem control_hen (s : State) : control s .hen = s.hen.ctl := rfl
@[simp] theorem control_hde (s : State) : control s .hde = s.hde.ctl := rfl
@[simp] theorem control_lze (s : State) : control s .lze = s.lze.ctl := rfl
@[simp] theorem control_lzd (s : State) : control s .lzd = s.lzd.ctl := rfl

/-! ### The host's record and queue -/

/-- A read of `STATUS` changes the host's record of it and nothing else. -/
theorem noteStatus_eq (u : UnitId) (s : State) : noteStatus u s = { s with seen := (noteStatus u s).seen } := by
  unfold noteStatus
  split <;> rfl

/-- A read changes the host's record of `STATUS` and nothing else (R74). -/
theorem noteRead_eq (p : Place) (s : State) : noteRead p s = { s with seen := (noteRead p s).seen } := by
  unfold noteRead
  split
  · split
    · exact noteStatus_eq _ s
    · rfl
  · rfl

@[simp] theorem noteRead_reg_status (u : UnitId) (s : State) : noteRead (.reg (regNumber u 1)) s = noteStatus u s := by
  cases u <;> rfl

/-- Once `STATUS` has returned `DONE`, results are defined (R346). -/
theorem resultsDefined_noteStatus {u : UnitId} {s : State} (h : (control s u).state = .done) :
    resultsDefined (noteStatus u s) u = true := by
  rw [noteStatus, if_pos h]
  cases u <;> simp [resultsDefined, control, unitIndex] at h ⊢ <;> exact h

/-- Outside `DONE` no results are defined (R346). -/
theorem resultsDefined_notDone {u : UnitId} {s : State} (h : (control s u).state ≠ .done) : resultsDefined s u = false := by
  simp [resultsDefined, h]

/-- A poll changes the host's two records and nothing else. -/
theorem pollStatus_eq (u : UnitId) (s : State) :
    pollStatus u s = { s with seen := (pollStatus u s).seen, reads := (pollStatus u s).reads } := by
  rw [pollStatus, noteStatus_eq]

@[simp] theorem pollStatus_control (u v : UnitId) (s : State) : control (pollStatus u s) v = control s v := by
  rw [pollStatus_eq]
  cases v <;> rfl
@[simp] theorem pollStatus_cap (u : UnitId) (s : State) : (pollStatus u s).cap = s.cap := by rw [pollStatus_eq]
@[simp] theorem pollStatus_pending (u : UnitId) (s : State) : (pollStatus u s).pending = s.pending := by rw [pollStatus_eq]

theorem pollAll_eq (us : List UnitId) : ∀ s : State,
    pollAll us s = { s with seen := (pollAll us s).seen, reads := (pollAll us s).reads } := by
  induction us with
  | nil => intro s; rfl
  | cons u us ih =>
    intro s
    show pollAll us (pollStatus u s) =
      { s with seen := (pollAll us (pollStatus u s)).seen, reads := (pollAll us (pollStatus u s)).reads }
    have h := ih (pollStatus u s)
    generalize pollAll us (pollStatus u s) = t at h ⊢
    rw [pollStatus_eq] at h
    exact h

@[simp] theorem carryToEncoder_htb (s : State) : (carryToEncoder s).htb = s.htb := rfl
@[simp] theorem carryToEncoder_cap (s : State) : (carryToEncoder s).cap = s.cap := rfl
@[simp] theorem carryToEncoder_henCtl (s : State) : (carryToEncoder s).hen.ctl = s.hen.ctl := rfl

/-! ### Register numbers (R50) -/

@[simp] theorem regUnit_regNumber (u : UnitId) (r : Nat) : regUnit (regNumber u r) = u := by
  have h : (regNumber u r).toNat / 32 = unitNumber u := by
    have := Nat.mod_lt r (show 0 < 32 by omega)
    simp only [regNumber, BitVec.toNat_ofNat]
    cases u <;> simp only [unitNumber] <;> omega
  rw [regUnit, h]
  cases u <;> rfl

theorem regIndex_regNumber (u : UnitId) (r : Nat) (h : r < 32) : regIndex (regNumber u r) = r := by
  unfold regIndex regNumber
  cases u <;> simp only [unitNumber, BitVec.toNat_ofNat] <;> omega

/-- A host write to a register other than `CTRL` is a write to the register bank. -/
theorem hostWrite_reg (s : State) (u : UnitId) (r : Nat) (v : BitVec 64) (h : r < 32) (h0 : r ≠ 0) :
    hostWrite (.reg (regNumber u r)) (.word v) s = answer (writeReg s u r v) := by
  simp [hostWrite, writePlace, regIndex_regNumber u r h, h0]

/-- A host write to `CTRL` is a command. -/
theorem hostWrite_ctrl (s : State) (u : UnitId) (w : BitVec 64) :
    hostWrite (.reg (regNumber u 0)) (.word w) s = writeCtrl u w s := by
  simp [hostWrite, regIndex_regNumber u 0 (by omega)]

end Sys2Proof.Machine
end

