-- ==== Sys2Proof/Laws/Operations.lean ====
section
/-! SUPPORT. What each shared operation can do, said once: an operation that is started, that ends, a cleared unit, and the
one shape of `exec`. -/

namespace Sys2Proof.Machine

variable {O R W : Type}

theorem Except.map_eq_ok {ε α β : Type} {f : α → β} {e : Except ε α} {b : β} :
    e.map f = .ok b ↔ ∃ a, e = .ok a ∧ f a = b := by
  cases e <;> simp [Except.map]

theorem Except.map_eq_error {ε α β : Type} {f : α → β} {e : Except ε α} {r : ε} :
    e.map f = .error r ↔ e = .error r := by
  cases e <;> simp [Except.map]

theorem answer_eq_next {e : Except Refusal State} {t : State} : answer e = .next t ↔ e = .ok t := by
  cases e <;> simp [answer]

theorem answer_eq_refused {e : Except Refusal State} {r : Refusal} : answer e = .refused r ↔ e = .error r := by
  cases e <;> simp [answer]

/-- A unit ends an operation: its operation answered an ending, and that is how it ends. -/
theorem finishOn_ok {unspec : Nat → R} {rest : W} {op : Operation O R W} {cap : Option Nat} {x y : CodecUnit O R W} :
    finishOn unspec rest op cap x = .ok y ↔ ∃ e, op cap x = .ok e ∧ y = endOperation unspec rest x e := by
  simp only [finishOn, Except.map_eq_ok, @eq_comm _ y]

/-- A unit that runs an operation was `IDLE`. -/
theorem runOn_ok {unspec : Nat → R} {rest : W} {op : Operation O R W} {cap : Option Nat} {x y : CodecUnit O R W} :
    runOn unspec rest op cap x = .ok y ↔
      x.ctl.state = .idle ∧ ∃ e, op cap x = .ok e ∧ y = endOperation unspec rest x e := by
  simp only [runOn]
  split
  · next h => simp [finishOn_ok, h]
  · next h => simp [h]

theorem runOn_idle {unspec : Nat → R} {rest : W} {op : Operation O R W} {cap : Option Nat} {x : CodecUnit O R W}
    {e : Ending R} (hi : x.ctl.state = .idle) (h : op cap x = .ok e) :
    runOn unspec rest op cap x = .ok (endOperation unspec rest x e) :=
  runOn_ok.2 ⟨hi, e, h, rfl⟩

theorem runOn_notIdle {unspec : Nat → R} {rest : W} {op : Operation O R W} {cap : Option Nat} {x : CodecUnit O R W}
    (hi : x.ctl.state ≠ .idle) : runOn unspec rest op cap x = .error .startNotIdle := by
  simp [runOn, hi]

theorem runOn_refused {unspec : Nat → R} {rest : W} {op : Operation O R W} {cap : Option Nat} {x : CodecUnit O R W}
    {r : Refusal} (hi : x.ctl.state = .idle) (h : op cap x = .error r) : runOn unspec rest op cap x = .error r := by
  simp [runOn, hi, finishOn, h, Except.map]

/-- A unit that only starts was `IDLE`, its operation will end, and it is `BUSY` with its operands kept. -/
theorem beginOn_ok {init : CodecUnit O R W → W} {func : BitVec 4} {op : Operation O R W} {cap : Option Nat}
    {x y : CodecUnit O R W} :
    beginOn init func op cap x = .ok y ↔
      x.ctl.state = .idle ∧ (∃ e, op cap x = .ok e) ∧
        y = { x with ctl := { x.ctl with state := .busy func }, work := init x } := by
  simp only [beginOn]
  split
  · next h => simp only [Except.map_eq_ok, h, true_and]
              constructor
              · rintro ⟨a, h1, h2⟩; exact ⟨⟨a, h1⟩, h2.symm⟩
              · rintro ⟨⟨a, h1⟩, h2⟩; exact ⟨a, h1, h2.symm⟩
  · next h => simp [h]

/-- What `CLEAR` does to a unit: nothing in `IDLE`, back to `IDLE` from `DONE` and `FAULT`. -/
theorem clearUnit_ok {unspec : Nat → R} {rest : W} {x y : CodecUnit O R W} :
    clearUnit unspec rest x = .ok y ↔
      (x.ctl.state = .idle ∧ y = x) ∨
      ((x.ctl.state = .done ∨ x.ctl.state = .fault) ∧
        y = { ctl := { state := .idle, fault := .none, draws := x.ctl.draws + 1 }, ops := x.ops,
              res := unspec x.ctl.draws, work := rest }) := by
  unfold clearUnit
  cases x.ctl.state <;> simp [eq_comm]

theorem clearUnit_busy {unspec : Nat → R} {rest : W} {x : CodecUnit O R W} {f : BitVec 4}
    (h : x.ctl.state = .busy f) : clearUnit unspec rest x = .error .clearWhileBusy := by
  simp [clearUnit, h]

theorem writeOperand_ok {x y : CodecUnit O R W} {f : O → O} :
    writeOperand x f = .ok y ↔ (∀ g, x.ctl.state ≠ .busy g) ∧ y = { x with ops := f x.ops } := by
  unfold writeOperand
  cases x.ctl.state <;> simp [eq_comm]

/-! ### The one shape of `exec`: one unit is replaced, or the step is refused -/

theorem exec_rleEncs_next {s t : State} :
    exec .rleEncs s = .next t ↔
      ∃ x, runOn RleRes.unspecified .atRest rleEncsOp s.cap s.rle = .ok x ∧ t = { s with rle := x } := by
  simp only [exec, execRleEncs, answer_eq_next, Except.map_eq_ok, @eq_comm _ t]

theorem exec_rleEncb_next {s t : State} :
    exec .rleEncb s = .next t ↔
      ∃ x, runOn RleRes.unspecified .atRest rleEncbOp s.cap s.rle = .ok x ∧ t = { s with rle := x } := by
  simp only [exec, execRleEncb, answer_eq_next, Except.map_eq_ok, @eq_comm _ t]

theorem exec_rldDecs_next {s t : State} :
    exec .rldDecs s = .next t ↔
      ∃ x, runOn (SymRes.unspecified 1) .atRest rldDecsOp s.cap s.rld = .ok x ∧ t = { s with rld := x } := by
  simp only [exec, execRldDecs, answer_eq_next, Except.map_eq_ok, @eq_comm _ t]

theorem exec_rldDecb_next {s t : State} :
    exec .rldDecb s = .next t ↔
      ∃ x, runOn (SymRes.unspecified 1) .atRest rldDecbOp s.cap s.rld = .ok x ∧ t = { s with rld := x } := by
  simp only [exec, execRldDecb, answer_eq_next, Except.map_eq_ok, @eq_comm _ t]

theorem exec_brePut_next {s t : State} :
    exec .brePut s = .next t ↔
      ∃ x, runOn BreRes.unspecified {} brePutOp s.cap s.bre = .ok x ∧ t = { s with bre := x } := by
  simp only [exec, execBrePut, answer_eq_next, Except.map_eq_ok, @eq_comm _ t]

theorem exec_htbBuild_next {s t : State} :
    exec .htbBuild s = .next t ↔
      ∃ x, runOn HtbRes.unspecified .atRest htbBuildOp s.cap s.htb = .ok x ∧ t = { s with htb := x } := by
  simp only [exec, execHtbBuild, answer_eq_next, Except.map_eq_ok, @eq_comm _ t]

theorem exec_henEnc_next {s t : State} :
    exec .henEnc s = .next t ↔
      ∃ x, runOn HenRes.unspecified .atRest henEncOp s.cap s.hen = .ok x ∧ t = { s with hen := x } := by
  simp only [exec, execHenEnc, answer_eq_next, Except.map_eq_ok, @eq_comm _ t]

theorem exec_hdeDec_next {s t : State} :
    exec .hdeDec s = .next t ↔
      ∃ x, runOn (SymRes.unspecified 5) .atRest hdeDecOp s.cap s.hde = .ok x ∧ t = { s with hde := x } := by
  simp only [exec, execHdeDec, answer_eq_next, Except.map_eq_ok, @eq_comm _ t]

theorem exec_lzeEnc_next {s t : State} :
    exec .lzeEnc s = .next t ↔
      ∃ x, runOn LzeRes.unspecified .atRest lzeEncOp s.cap s.lze = .ok x ∧ t = { s with lze := x } := by
  simp only [exec, execLzeEnc, answer_eq_next, Except.map_eq_ok, @eq_comm _ t]

theorem exec_lzdDec_next {s t : State} :
    exec .lzdDec s = .next t ↔
      ∃ x, runOn (SymRes.unspecified 7) .atRest lzdDecOp s.cap s.lzd = .ok x ∧ t = { s with lzd := x } := by
  simp only [exec, execLzdDec, answer_eq_next, Except.map_eq_ok, @eq_comm _ t]

/-- `HUF.ENCODE` is its two halves with the host's copy between them. -/
theorem exec_hufEncode_next {s t : State} :
    exec .hufEncode s = .next t ↔
      ∃ s1, exec .htbBuild s = .next s1 ∧ exec .henEnc (carryToEncoder s1) = .next t := by
  simp only [exec, execHufEncode]
  cases execHtbBuild s <;> simp

/-! ### When each operation answers, and with what

An operation that answers had its operands; and with its operands it answers what its rule says. -/

theorem brePutOp_operands {s : State} {e : Ending BreRes} (h : brePutOp s.cap s.bre = .ok e) :
    (∃ b, StreamOperand s.cap Config.maxIn s.bre.ops.inLen s.bre.ops.bitIn b) ∧
      s.bre.ops.arg.written = true ∧ s.bre.ops.arg.value.toNat < 2 ^ 32 := by
  simp only [brePutOp] at h
  split at h
  · cases h
  · cases h
  · next b n h1 h2 =>
    obtain ⟨h3, h4, -⟩ := sampleLow_ok.1 h2
    exact ⟨⟨b, sampleStream_ok.1 h1⟩, h3, h4⟩

theorem brePutOp_eq {s : State} {b : List Bool} (h : StreamOperand s.cap Config.maxIn s.bre.ops.inLen s.bre.ops.bitIn b)
    (hw : s.bre.ops.arg.written = true) (hn : s.bre.ops.arg.value.toNat < 2 ^ 32) :
    brePutOp s.cap s.bre = deliver (fitsCap s.cap (b.length + 32))
      { outLen := counter (b.length + 32)
        bitOut := b ++ field32 (BitVec.ofNat 32 s.bre.ops.arg.value.toNat) } := by
  simp only [brePutOp, sampleStream_ok.2 h, sampleLow_ok.2 ⟨hw, hn, rfl⟩]

theorem rleEncsOp_operands {s : State} {e : Ending RleRes} (h : rleEncsOp s.cap s.rle = .ok e) :
    ∃ r w ht, RasterOperands s r w ht := by
  simp only [rleEncsOp] at h
  split at h
  · cases h
  · next w ht r h1 => exact ⟨r, w, ht, sampleRaster_ok.1 h1⟩

theorem rleEncsOp_eq {s : State} {r : List Symbol} {w ht : BitVec 64} (h : RasterOperands s r w ht) :
    rleEncsOp s.cap s.rle =
      if badRaster w ht r.length then .ok (.raises .invalidDimensions)
      else deliver (fitsCap s.cap (rasterRuns w.toNat ht.toNat r).length)
        { RleRes.unspecified s.rle.ctl.draws with
          outLen := counter (rasterRuns w.toNat ht.toNat r).length
          ratioNum := counter (w.toNat * ht.toNat)
          ratioDen := counter (rasterRuns w.toNat ht.toNat r).length
          elapsed := Config.elapsed 0 s.rle.ctl.draws
          pairOut := (rasterRuns w.toNat ht.toNat r).map fun p => mkPair p.1 p.2 } := by
  simp only [rleEncsOp, sampleRaster_ok.2 h]

theorem rleEncbOp_operands {s : State} {e : Ending RleRes} (h : rleEncbOp s.cap s.rle = .ok e) :
    ∃ r w ht, RasterOperands s r w ht := by
  simp only [rleEncbOp] at h
  split at h
  · cases h
  · next w ht r h1 => exact ⟨r, w, ht, sampleRaster_ok.1 h1⟩

theorem rleEncbOp_eq {s : State} {r : List Symbol} {w ht : BitVec 64} (h : RasterOperands s r w ht) :
    rleEncbOp s.cap s.rle =
      if badRaster w ht r.length then .ok (.raises .invalidDimensions)
      else deliver ((encodePlanes r).toList.all fun bits => fitsCap s.cap bits.length)
        { RleRes.unspecified s.rle.ctl.draws with
          ratioNum := counter (8 * (w.toNat * ht.toNat))
          ratioDen := counter (planesLength (encodePlanes r))
          elapsed := Config.elapsed 0 s.rle.ctl.draws
          planeLen := (encodePlanes r).map fun bits => counter bits.length
          planeOut := encodePlanes r } := by
  simp only [rleEncbOp, sampleRaster_ok.2 h]

theorem rldDecsOp_operands {s : State} {e : Ending SymRes} (h : rldDecsOp s.cap s.rld = .ok e) :
    ∃ pairs w ht, PairOperands s pairs w ht := by
  simp only [rldDecsOp] at h
  split at h
  · cases h
  · cases h
  · cases h
  · next w ht pairs h1 h2 h3 => exact ⟨pairs, w, ht, sampleReg_ok.1 h1, sampleReg_ok.1 h2, sampleStream_ok.1 h3⟩

theorem rldDecsOp_eq {s : State} {pairs : List PairElem} {w ht : BitVec 64} (h : PairOperands s pairs w ht) :
    rldDecsOp s.cap s.rld =
      if badDimensions w ht then .ok (.raises .invalidDimensions)
      else if Config.maxIn < w.toNat * ht.toNat then .error .aboveAdmittedRange
      else
        match replayPairs (w.toNat * ht.toNat) 0 (pairs.map fun e => (pairValue e, pairCount e)) with
        | none => .ok (.raises .malformedStream)
        | some out => deliver (fitsCap s.cap out.length) { outLen := counter out.length, symOut := out } := by
  simp only [rldDecsOp, sampleReg_ok.2 h.width, sampleReg_ok.2 h.height, sampleStream_ok.2 h.stream] <;> rfl

/-- The eight planes are sampled exactly when they are the operands. -/
theorem samplePlanes_eight {s : State} {planes : Vector (List Bool) 8} :
    samplePlanes s.cap (s.rld.ops.planeLen.toList.zip s.rld.ops.planeIn.toList) = .ok planes.toList ↔
      ∀ p : Fin 8, StreamOperand s.cap Config.maxPlaneLen s.rld.ops.planeLen[p] s.rld.ops.planeIn[p] planes[p] := by
  rw [samplePlanes_ok, List.forall₂_iff_get]
  constructor
  · rintro ⟨-, h⟩ p
    have := h p.val (by simp) (by simp)
    simpa using this
  · intro h
    refine ⟨by simp, fun i h1 h2 => ?_⟩
    have hi : i < 8 := by simpa using h2
    have := h ⟨i, hi⟩
    simpa using this

theorem rldDecbOp_operands {s : State} {e : Ending SymRes} (h : rldDecbOp s.cap s.rld = .ok e) :
    ∃ planes w ht, PlaneOperands s planes w ht := by
  simp only [rldDecbOp] at h
  split at h
  · cases h
  · cases h
  · cases h
  · next w ht planes h1 h2 h3 =>
    have hl : planes.length = 8 := by
      have := (samplePlanes_ok.1 h3).length_eq
      simpa using this.symm
    have hp : planes = (⟨planes.toArray, by simpa using hl⟩ : Vector (List Bool) 8).toList := by simp
    rw [hp] at h3
    exact ⟨_, w, ht, sampleReg_ok.1 h1, sampleReg_ok.1 h2, samplePlanes_eight.1 h3⟩

theorem rldDecbOp_eq {s : State} {planes : Vector (List Bool) 8} {w ht : BitVec 64} (h : PlaneOperands s planes w ht) :
    rldDecbOp s.cap s.rld =
      if badDimensions w ht then .ok (.raises .invalidDimensions)
      else if Config.maxIn < w.toNat * ht.toNat then .error .aboveAdmittedRange
      else
        match decodePlanes (w.toNat * ht.toNat) planes.toList with
        | none => .ok (.raises .malformedStream)
        | some out => deliver (fitsCap s.cap out.length) { outLen := counter out.length, symOut := out } := by
  simp only [rldDecbOp, sampleReg_ok.2 h.width, sampleReg_ok.2 h.height, samplePlanes_eight.2 h.stream] <;> rfl

theorem htbBuildOp_ok {s : State} {e : Ending HtbRes} :
    htbBuildOp s.cap s.htb = .ok e ↔
      ∃ xs, StreamOperand s.cap Config.maxIn s.htb.ops.inLen s.htb.ops.symIn xs ∧
        fitsCap s.cap Config.maxNodes = true ∧ e = .results (htbResults s.htb.ctl.draws xs) := by
  simp only [htbBuildOp]
  constructor
  · intro h
    split at h
    · cases h
    · next xs h1 => exact ⟨xs, sampleStream_ok.1 h1, deliver_ok.1 h⟩
  · rintro ⟨xs, h1, h2⟩
    rw [sampleStream_ok.2 h1]
    exact deliver_ok.2 h2

/-- A stream that is there, with a capacity that the tables exceed. -/
theorem htbBuildOp_beyond {s : State} {xs : List Symbol}
    (h : StreamOperand s.cap Config.maxIn s.htb.ops.inLen s.htb.ops.symIn xs) (hc : fitsCap s.cap Config.maxNodes = false) :
    htbBuildOp s.cap s.htb = .error .beyondCapacity := by
  simp [htbBuildOp, sampleStream_ok.2 h, deliver, hc]

theorem henEncOp_operands {s : State} {e : Ending HenRes} (h : henEncOp s.cap s.hen = .ok e) :
    ∃ xs tab, EncoderOperands s xs tab := by
  simp only [henEncOp] at h
  split at h
  · cases h
  · cases h
  · next xs tab h1 h2 =>
    obtain ⟨h3, h4, h5⟩ := sampleCodeTable_ok.1 h2
    exact ⟨xs, tab, sampleStream_ok.1 h1, h3, h4, h5⟩

theorem henEncOp_eq {s : State} {xs : List Symbol} {tab : List CodeElem} (h : EncoderOperands s xs tab) :
    henEncOp s.cap s.hen =
      match encodeSymbols tab xs with
      | none => .error .symbolWithoutCode
      | some bits => deliver (fitsCap s.cap bits.length)
          { outLen := counter bits.length
            ratioNum := counter (8 * xs.length)
            ratioDen := counter bits.length
            elapsed := Config.elapsed 4 s.hen.ctl.draws
            bitOut := bits } := by
  simp only [henEncOp, sampleStream_ok.2 h.stream, sampleCodeTable_ok.2 ⟨h.capacity, h.entries, h.table⟩] <;> rfl

theorem hdeDecOp_operands {s : State} {e : Ending SymRes} (h : hdeDecOp s.cap s.hde = .ok e) :
    ∃ bits tree, DecoderOperands s bits tree := by
  simp only [hdeDecOp] at h
  split at h
  · cases h
  · cases h
  · next bits tree h1 h2 =>
    obtain ⟨h3, h4, h5, h6⟩ := sampleTree_ok.1 h2
    exact ⟨bits, tree, sampleStream_ok.1 h1, ⟨h3, h4⟩, h5, h6⟩

theorem hdeDecOp_eq {s : State} {bits : List Bool} {tree : Option HTree} (h : DecoderOperands s bits tree) :
    hdeDecOp s.cap s.hde =
      match decodeBits tree bits with
      | none => .ok (.raises .malformedStream)
      | some out => deliver (fitsCap s.cap out.length) { outLen := counter out.length, symOut := out } := by
  simp only [hdeDecOp, sampleStream_ok.2 h.stream, sampleTree_ok.2 ⟨h.root.1, h.root.2, h.capacity, h.tree⟩] <;> rfl

theorem lzeEncOp_ok {s : State} {e : Ending LzeRes} :
    lzeEncOp s.cap s.lze = .ok e ↔
      ∃ b, StreamOperand s.cap Config.maxIn s.lze.ops.inLen s.lze.ops.symIn b ∧
        deliver (fitsCap s.cap (lzwEncode b).length)
          { outLen := counter (lzwEncode b).length
            ratioNum := counter b.length
            ratioDen := counter (lzwEncode b).length
            elapsed := Config.elapsed 6 s.lze.ctl.draws
            lzcOut := (lzwEncode b).map fun k => BitVec.ofNat 64 k } = .ok e := by
  simp only [lzeEncOp]
  constructor
  · intro h
    split at h
    · cases h
    · next b h1 => exact ⟨b, sampleStream_ok.1 h1, h⟩
  · rintro ⟨b, h1, h2⟩
    rw [sampleStream_ok.2 h1]
    exact h2

theorem lzdDecOp_operands {s : State} {e : Ending SymRes} (h : lzdDecOp s.cap s.lzd = .ok e) :
    ∃ codes, StreamOperand s.cap Config.maxIn s.lzd.ops.inLen s.lzd.ops.lzcIn codes := by
  simp only [lzdDecOp] at h
  split at h
  · cases h
  · next codes h1 => exact ⟨codes, sampleStream_ok.1 h1⟩

theorem lzdDecOp_eq {s : State} {codes : List (BitVec 64)}
    (h : StreamOperand s.cap Config.maxIn s.lzd.ops.inLen s.lzd.ops.lzcIn codes) :
    lzdDecOp s.cap s.lzd =
      match lzwDecode (codes.map BitVec.toNat) with
      | .error f => .ok (.raises f)
      | .ok out => deliver (fitsCap s.cap out.length) { outLen := counter out.length, symOut := out } := by
  simp only [lzdDecOp, sampleStream_ok.2 h] <;> rfl

end Sys2Proof.Machine
end

