-- ==== Sys2Proof/Laws/RunLength.lean ====
section
/-! SUPPORT. The values of run-length coding: maximal runs, the replay of pairs, 32-bit fields, plane runs and their replay. -/

namespace Sys2Proof.Machine

/-! ### Scalar runs -/

theorem scanRow_eq_cons (cur : Symbol) (cnt : Nat) (s : List Symbol) : ∃ n rest, scanRow cur cnt s = (cur, n) :: rest := by
  induction s generalizing cnt with
  | nil => exact ⟨_, _, rfl⟩
  | cons v vs ih =>
    simp only [scanRow]
    split
    · exact ih _
    · exact ⟨_, _, rfl⟩

theorem scanRow_maximal (s : List Symbol) : ∀ (cur : Symbol) (cnt : Nat), 1 ≤ cnt →
    MaximalRuns (scanRow cur cnt s) (List.replicate cnt cur ++ s) := by
  induction s with
  | nil => intro cur cnt h; exact ⟨by simpa [scanRow] using h, by simp [scanRow], by simp [scanRow]⟩
  | cons v vs ih =>
    intro cur cnt h
    simp only [scanRow]
    split
    · next hv =>
      subst hv
      obtain ⟨h1, h2, h3⟩ := ih v (cnt + 1) (by omega)
      exact ⟨h1, h2, by rw [h3, List.replicate_succ', List.append_assoc]; rfl⟩
    · next hv =>
      obtain ⟨h1, h2, h3⟩ := ih v 1 (by omega)
      refine ⟨?_, ?_, ?_⟩
      · intro p hp
        rcases List.mem_cons.1 hp with rfl | hp
        · exact h
        · exact h1 p hp
      · obtain ⟨n, rest, hr⟩ := scanRow_eq_cons v 1 vs
        rw [hr] at h2 ⊢
        exact .cons_cons (fun h => hv h.symm) h2
      · simp [h3]

/-- The runs of a row are its maximal-run decomposition. -/
theorem rowRuns_maximal (s : List Symbol) : MaximalRuns (rowRuns s) s := by
  cases s with
  | nil => exact ⟨by simp [rowRuns], by simp [rowRuns], by simp [rowRuns]⟩
  | cons v vs => exact scanRow_maximal vs v 1 (by omega)

theorem scanRow_length (s : List Symbol) : ∀ (cur : Symbol) (cnt : Nat), (scanRow cur cnt s).length ≤ s.length + 1 := by
  induction s with
  | nil => intro cur cnt; simp [scanRow]
  | cons v vs ih =>
    intro cur cnt
    simp only [scanRow]
    split
    · exact (ih _ _).trans (by simp)
    · simpa using ih v 1

theorem rowRuns_length (s : List Symbol) : (rowRuns s).length ≤ s.length := by
  cases s with
  | nil => simp [rowRuns]
  | cons v vs => exact scanRow_length vs v 1

theorem rowRuns_pos (s : List Symbol) (h : s ≠ []) : 1 ≤ (rowRuns s).length := by
  cases s with
  | nil => exact absurd rfl h
  | cons v vs =>
    obtain ⟨n, rest, hr⟩ := scanRow_eq_cons v 1 vs
    simp [rowRuns, hr]

/-- The runs of a raster are those of its rows, in row order. -/
theorem rasterRuns_eq (w : Nat) (h : Nat) : ∀ r : List Symbol,
    rasterRuns w h r = (List.range h).flatMap fun k => rowRuns ((r.drop (k * w)).take w) := by
  induction h with
  | zero => intro r; simp [rasterRuns]
  | succ h ih =>
    intro r
    rw [rasterRuns, ih, List.range_succ_eq_map, List.flatMap_cons, List.flatMap_map]
    simp [Nat.succ_mul, Nat.add_comm]

theorem rasterRuns_replay (w : Nat) (h : Nat) : ∀ r : List Symbol, r.length = w * h →
    (rasterRuns w h r).flatMap (fun p => List.replicate p.2 p.1) = r := by
  induction h with
  | zero => intro r hr; obtain rfl : r = [] := List.length_eq_zero_iff.1 (by simpa using hr); rfl
  | succ h ih =>
    intro r hr
    rw [rasterRuns, List.flatMap_append, (rowRuns_maximal _).replay, ih _ (by simp [hr, Nat.mul_succ]),
      List.take_append_drop]

theorem rasterRuns_length_le (w : Nat) (h : Nat) : ∀ r : List Symbol, (rasterRuns w h r).length ≤ w * h := by
  induction h with
  | zero => intro r; simp [rasterRuns]
  | succ h ih =>
    intro r
    rw [rasterRuns, List.length_append, Nat.mul_succ]
    have := rowRuns_length (r.take w)
    have := ih (r.drop w)
    have : (r.take w).length ≤ w := by simp
    omega

theorem rasterRuns_length_ge (w : Nat) (h : Nat) (hw : 1 ≤ w) : ∀ r : List Symbol, r.length = w * h →
    h ≤ (rasterRuns w h r).length := by
  induction h with
  | zero => intro r _; simp
  | succ h ih =>
    intro r hr
    rw [rasterRuns, List.length_append]
    have h1 := ih (r.drop w) (by simp [hr, Nat.mul_succ])
    have h2 := rowRuns_pos (r.take w) (by
      intro h0
      have h3 := congrArg List.length h0
      rw [List.length_take, hr, Nat.mul_succ] at h3
      simp at h3
      omega)
    omega

theorem mem_rasterRuns_le (w : Nat) (h : Nat) : ∀ (r : List Symbol) (p : Symbol × Nat), p ∈ rasterRuns w h r →
    1 ≤ p.2 ∧ p.2 ≤ w := by
  induction h with
  | zero => intro r p hp; simp [rasterRuns] at hp
  | succ h ih =>
    intro r p hp
    rw [rasterRuns, List.mem_append] at hp
    rcases hp with hp | hp
    · have hm := rowRuns_maximal (r.take w)
      refine ⟨hm.positive p hp, ?_⟩
      have h1 : (List.replicate p.2 p.1).length ≤ (r.take w).length := by
        conv_rhs => rw [← hm.replay]
        rw [List.length_flatMap]
        exact List.single_le_sum (by simp) _ (List.mem_map.2 ⟨p, hp, rfl⟩)
      simp at h1
      omega
    · exact ih _ _ hp

/-! ### Pairs -/

theorem pairValue_mkPair (v : Symbol) (n : Nat) : pairValue (mkPair v n) = v := by
  apply BitVec.eq_of_getLsbD_eq
  intro i hi
  have h : (mkPair v n).getLsbD (32 + i) = if 32 + i < 32 then (BitVec.ofNat 32 n).getLsbD (32 + i) else v.getLsbD (32 + i - 32) :=
    BitVec.getLsbD_append
  rw [pairValue, BitVec.getLsbD_extractLsb', h]
  simp [hi]

theorem pairCount_mkPair (v : Symbol) (n : Nat) (h : n < 2 ^ 32) : pairCount (mkPair v n) = n := by
  have : (mkPair v n).extractLsb' 0 32 = BitVec.ofNat 32 n := by
    apply BitVec.eq_of_getLsbD_eq
    intro i hi
    have h : (mkPair v n).getLsbD (0 + i) = if 0 + i < 32 then (BitVec.ofNat 32 n).getLsbD (0 + i) else v.getLsbD (0 + i - 32) :=
      BitVec.getLsbD_append
    rw [BitVec.getLsbD_extractLsb', h]
    simp [hi]
  rw [pairCount, this, BitVec.toNat_ofNat, Nat.mod_eq_of_lt h]

/-- The replay of pairs: the total decides, and the runs are concatenated. -/
theorem replayPairs_eq (n : Nat) (pairs : List (Symbol × Nat)) : ∀ pos, pos ≤ n →
    replayPairs n pos pairs =
      if pos + (pairs.map Prod.snd).sum = n then some (pairs.flatMap fun p => List.replicate p.2 p.1) else none := by
  induction pairs with
  | nil => intro pos _; simp [replayPairs]
  | cons p rest ih =>
    obtain ⟨v, c⟩ := p
    intro pos hpos
    rw [replayPairs]
    simp only [List.map_cons, List.sum_cons, List.flatMap_cons]
    by_cases h : n < pos + c
    · rw [if_pos h, if_neg (by omega)]
    · rw [if_neg h, ih _ (by omega), Nat.add_assoc]
      split <;> simp

theorem replayPairs_length (n : Nat) (pairs : List (Symbol × Nat)) (out : List Symbol)
    (h : replayPairs n 0 pairs = some out) : out.length = n := by
  rw [replayPairs_eq n pairs 0 (by omega)] at h
  split at h
  · next hs =>
    cases h
    rw [List.length_flatMap]
    simpa using hs
  · cases h

/-! ### The 32-bit field -/

@[simp] theorem field32_length (n : BitVec 32) : (field32 n).length = 32 := by simp [field32]

theorem bitsValue_append (f : List Bool) (b : Bool) : bitsValue (f ++ [b]) = 2 * bitsValue f + b.toNat := by
  simp [bitsValue, List.foldl_append]

theorem bitsValue_topBits (n : BitVec 32) (k : Nat) (hk : k ≤ 32) :
    bitsValue ((List.range k).map fun j => n.getLsbD (31 - j)) = n.toNat / 2 ^ (32 - k) := by
  induction k with
  | zero =>
    have := n.isLt
    simp [bitsValue, Nat.div_eq_of_lt this]
  | succ k ih =>
    rw [List.range_succ, List.map_append, List.map_singleton, bitsValue_append, ih (by omega)]
    have h1 : 32 - k = (32 - (k + 1)) + 1 := by omega
    have h2 : 31 - k = 32 - (k + 1) := by omega
    rw [h1, h2, BitVec.getLsbD, Nat.pow_succ, ← Nat.div_div_eq_div_mul, Nat.testBit_eq_decide_div_mod_eq]
    generalize n.toNat / 2 ^ (32 - (k + 1)) = m
    rcases Nat.mod_two_eq_zero_or_one m with h | h <;> simp [h] <;> omega

/-- `value32(field32(n)) = n` (R104). -/
theorem value32_field32 (n : BitVec 32) : value32 (field32 n) = n.toNat := by
  have := bitsValue_topBits n 32 (le_refl _)
  simpa [value32, field32] using this

theorem value32_field32_ofNat (n : Nat) (h : n < 2 ^ 32) : value32 (field32 (BitVec.ofNat 32 n)) = n := by
  rw [value32_field32, BitVec.toNat_ofNat, Nat.mod_eq_of_lt h]

@[simp] theorem fieldBits_nil : fieldBits [] = [] := rfl

theorem fieldBits_cons (n : Nat) (ns : List Nat) :
    fieldBits (n :: ns) = field32 (BitVec.ofNat 32 n) ++ fieldBits ns := by simp [fieldBits]

theorem fieldBits_length (ns : List Nat) : (fieldBits ns).length = 32 * ns.length := by
  induction ns with
  | nil => rfl
  | cons n ns ih => rw [fieldBits_cons, List.length_append, ih, field32_length, List.length_cons]; omega

/-- The fields of a plane sequence are the numbers it was made of. -/
theorem fieldValues_fieldBits (ns : List Nat) (h : ∀ n ∈ ns, n < 2 ^ 32) : fieldValues ns.length (fieldBits ns) = ns := by
  induction ns with
  | nil => rfl
  | cons n ns ih =>
    rw [List.length_cons, fieldBits_cons, fieldValues, List.take_left' (by simp), List.drop_left' (by simp),
      value32_field32_ofNat n (h n (by simp)), ih fun m hm => h m (by simp [hm])]

theorem bitsValue_lt (f : List Bool) : bitsValue f < 2 ^ f.length := by
  induction f using List.reverseRecOn with
  | nil => simp [bitsValue]
  | append_singleton f b ih =>
    rw [bitsValue_append, List.length_append, List.length_singleton, Nat.pow_succ]
    have := b.toNat_lt
    omega

theorem fieldValues_length (n : Nat) : ∀ e : List Bool, (fieldValues n e).length = n := by
  induction n with
  | zero => intro e; rfl
  | succ n ih => intro e; simp [fieldValues, ih]

theorem bitsValue_testBit (f : List Bool) : ∀ j, j < f.length → (bitsValue f).testBit j = f[f.length - 1 - j]! := by
  induction f using List.reverseRecOn with
  | nil => intro j hj; simp at hj
  | append_singleton f b ih =>
    intro j hj
    rw [bitsValue_append]
    cases j with
    | zero => cases b <;> simp
    | succ j =>
      have hj' : j < f.length := by simpa using hj
      have h1 : (2 * bitsValue f + b.toNat).testBit (j + 1) = (bitsValue f).testBit j := by
        rw [Nat.testBit_succ]
        congr 1
        have := b.toNat_lt
        omega
      rw [h1, ih j hj']
      have h2 : (f ++ [b]).length - 1 - (j + 1) = f.length - 1 - j := by simp; omega
      rw [h2]
      simp [List.getElem?_append, show f.length - 1 - j < f.length by omega]

/-- `field32(value32(f)) = f` (R104). -/
theorem field32_value32 (f : List Bool) (h : f.length = 32) : field32 (BitVec.ofNat 32 (value32 f)) = f := by
  apply List.ext_getElem
  · simp [h]
  · intro j h1 h2
    have hj : j < 32 := by simpa using h1
    simp only [field32, List.getElem_map, List.getElem_range, BitVec.getLsbD_ofNat]
    have := bitsValue_testBit f (31 - j) (by omega)
    rw [value32, this, h]
    simp [show 31 - j < 32 by omega, show 32 - 1 - (31 - j) = j by omega, h2]

/-- A plane sequence of whole fields is the concatenation of its fields. -/
theorem fieldBits_fieldValues (n : Nat) : ∀ e : List Bool, e.length = 32 * n → fieldBits (fieldValues n e) = e := by
  induction n with
  | zero => intro e h; simpa [fieldValues, eq_comm] using h
  | succ n ih =>
    intro e h
    rw [fieldValues, fieldBits_cons, field32_value32 _ (by simp; omega), ih _ (by simp; omega), List.take_append_drop]

theorem fieldValues_lt (n : Nat) : ∀ e : List Bool, ∀ v ∈ fieldValues n e, v < 2 ^ 32 := by
  induction n with
  | zero => intro e v h; simp [fieldValues] at h
  | succ n ih =>
    intro e v h
    rcases List.mem_cons.1 h with rfl | h
    · refine (bitsValue_lt _).trans_le (Nat.pow_le_pow_right (by omega) ?_)
      simp
    · exact ih _ _ h

/-! ### Planes -/

/-- The bits that runs of alternating value describe, the first run of value `cur`. -/
def alternate : Bool → List Nat → List Bool
  | _, [] => []
  | cur, n :: ns => List.replicate n cur ++ alternate (!cur) ns

@[simp] theorem alternate_length (cur : Bool) (ns : List Nat) : (alternate cur ns).length = ns.sum := by
  induction ns generalizing cur with
  | nil => rfl
  | cons n ns ih => simp [alternate, ih]

/-- The replay of a plane: the total decides, and the runs alternate. -/
theorem replayPlane_eq (n : Nat) (ns : List Nat) : ∀ pos cur, pos ≤ n →
    replayPlane n pos cur ns = if pos + ns.sum = n then some (alternate cur ns) else none := by
  induction ns with
  | nil => intro pos cur _; simp [replayPlane, alternate]
  | cons c rest ih =>
    intro pos cur hpos
    rw [replayPlane]
    by_cases h : n < pos + c
    · rw [if_pos h, if_neg (by rw [List.sum_cons]; omega)]
    · rw [if_neg h, ih _ _ (by omega)]
      by_cases h2 : pos + c + rest.sum = n
      · rw [if_pos h2, if_pos (by rw [List.sum_cons]; omega)]; rfl
      · rw [if_neg h2, if_neg (by rw [List.sum_cons]; omega)]; rfl

theorem alternate_get (ns : List Nat) : ∀ cur j (h : j < (alternate cur ns).length) k,
    (ns.take k).sum ≤ j → j < (ns.take (k + 1)).sum → (alternate cur ns)[j] = (cur ^^ decide (k % 2 = 1)) := by
  induction ns with
  | nil => intro cur j h; simp at h
  | cons n ns ih =>
    intro cur j h k h1 h2
    cases k with
    | zero =>
      have hj : j < n := by simpa using h2
      simp [alternate, hj]
    | succ k =>
      simp only [List.take_succ_cons, List.sum_cons] at h1 h2
      have hj : ¬ j < n := by omega
      have hlen : j - n < (alternate (!cur) ns).length := by
        simp only [alternate_length, List.sum_cons] at h ⊢; omega
      have := ih (!cur) (j - n) hlen k (by omega) (by omega)
      simp only [alternate, List.getElem_append, List.length_replicate, hj, dite_false, this]
      rcases Nat.mod_two_eq_zero_or_one k with hk | hk
      · have hk' : (k + 1) % 2 = 1 := by omega
        rw [hk, hk']; cases cur <;> rfl
      · have hk' : (k + 1) % 2 = 0 := by omega
        rw [hk, hk']; cases cur <;> rfl

/-- Runs that alternate from 0 describe their bits. -/
theorem alternate_planeRuns (ns : List Nat) : PlaneRuns ns (alternate false ns) :=
  ⟨by simp, fun j k h h1 h2 => by simpa using alternate_get ns false j h k h1 h2⟩

/-- Every position below the total lies in one run. -/
theorem exists_run (ns : List Nat) : ∀ j, j < ns.sum → ∃ k, (ns.take k).sum ≤ j ∧ j < (ns.take (k + 1)).sum := by
  induction ns with
  | nil => intro j h; simp at h
  | cons n ns ih =>
    intro j h
    by_cases hj : j < n
    · exact ⟨0, by simp, by simpa using hj⟩
    · obtain ⟨k, h1, h2⟩ := ih (j - n) (by simp at h; omega)
      exact ⟨k + 1, by simp; omega, by simp; omega⟩

/-- The fields determine the bits. -/
theorem PlaneRuns.eq_alternate {ns : List Nat} {bits : List Bool} (h : PlaneRuns ns bits) : bits = alternate false ns := by
  apply List.ext_getElem
  · simp [h.total]
  · intro j h1 h2
    obtain ⟨k, hk1, hk2⟩ := exists_run ns j (by rw [h.total]; exact h1)
    rw [h.value j k h1 hk1 hk2, (alternate_planeRuns ns).value j k h2 hk1 hk2]

theorem scanPlane_alternate (bits : List Bool) : ∀ cur cnt,
    alternate cur (scanPlane cur cnt bits) = List.replicate cnt cur ++ bits := by
  induction bits with
  | nil => intro cur cnt; simp [scanPlane, alternate]
  | cons b bs ih =>
    intro cur cnt
    rw [scanPlane]
    split
    · next h => subst h; rw [ih, List.replicate_succ', List.append_assoc]; rfl
    · next h =>
      have hb : (!cur) = b := by revert h; cases b <;> cases cur <;> simp
      rw [alternate, hb, ih]; simp

theorem scanPlane_cons (bits : List Bool) : ∀ cur cnt, ∃ n rest, scanPlane cur cnt bits = n :: rest ∧ cnt ≤ n ∧
    ∀ m ∈ rest, 1 ≤ m := by
  induction bits with
  | nil => intro cur cnt; exact ⟨cnt, [], rfl, le_refl _, by simp⟩
  | cons b bs ih =>
    intro cur cnt
    rw [scanPlane]
    split
    · obtain ⟨n, rest, h1, h2, h3⟩ := ih cur (cnt + 1)
      exact ⟨n, rest, h1, by omega, h3⟩
    · obtain ⟨n, rest, h1, h2, h3⟩ := ih b 1
      refine ⟨cnt, _, rfl, le_refl _, ?_⟩
      rw [h1]
      intro m hm
      rcases List.mem_cons.1 hm with rfl | hm
      · exact h2
      · exact h3 m hm

theorem scanPlane_length (bits : List Bool) : ∀ cur cnt, (scanPlane cur cnt bits).length ≤ bits.length + 1 := by
  induction bits with
  | nil => intro cur cnt; simp [scanPlane]
  | cons b bs ih =>
    intro cur cnt
    rw [scanPlane]
    split
    · exact (ih _ _).trans (by simp)
    · simpa using ih b 1

/-- The fields of a plane describe it, are at least one, and are positive after the first. -/
theorem planeRuns_spec (bits : List Bool) :
    PlaneRuns (planeRuns bits) bits ∧ planeRuns bits ≠ [] ∧ (∀ m ∈ (planeRuns bits).tail, 1 ≤ m) ∧
      (planeRuns bits).length ≤ bits.length + 1 := by
  obtain ⟨n, rest, h1, -, h3⟩ := scanPlane_cons bits false 0
  have h : alternate false (planeRuns bits) = bits := by simpa [planeRuns] using scanPlane_alternate bits false 0
  refine ⟨?_, ?_, ?_, scanPlane_length bits false 0⟩
  · have := alternate_planeRuns (planeRuns bits)
    rwa [h] at this
  · simp [planeRuns, h1]
  · simpa [planeRuns, h1] using h3

theorem planeRuns_le (bits : List Bool) : ∀ m ∈ planeRuns bits, m ≤ bits.length := by
  intro m hm
  rw [← (planeRuns_spec bits).1.total]
  exact List.single_le_sum (by simp) m hm

theorem encodePlane_eq (bits : List Bool) : encodePlane bits = fieldBits (planeRuns bits) := rfl

theorem encodePlane_length (bits : List Bool) :
    32 ≤ (encodePlane bits).length ∧ (encodePlane bits).length ≤ 32 * (bits.length + 1) := by
  rw [encodePlane_eq, fieldBits_length]
  obtain ⟨-, h1, -, h2⟩ := planeRuns_spec bits
  have := List.length_pos_iff.2 h1
  omega

/-- The plane decoder: whole fields whose sum is the size, and the bits they describe. -/
theorem decodePlane_eq (n : Nat) (e : List Bool) :
    decodePlane n e =
      if e.length % 32 = 0 ∧ (fieldValues (e.length / 32) e).sum = n
      then some (alternate false (fieldValues (e.length / 32) e)) else none := by
  rw [decodePlane]
  by_cases h : e.length % 32 = 0
  · rw [if_pos h, replayPlane_eq n _ 0 false (by omega)]
    simp [h]
  · simp [h]

/-- A plane that was encoded decodes to its bits. -/
theorem decodePlane_encodePlane (bits : List Bool) (h : bits.length < 2 ^ 32) :
    decodePlane bits.length (encodePlane bits) = some bits := by
  have h1 : (encodePlane bits).length = 32 * (planeRuns bits).length := by rw [encodePlane_eq, fieldBits_length]
  have h2 : fieldValues ((encodePlane bits).length / 32) (encodePlane bits) = planeRuns bits := by
    rw [h1, Nat.mul_div_cancel_left _ (by omega), encodePlane_eq]
    exact fieldValues_fieldBits _ fun m hm => (planeRuns_le bits m hm).trans_lt h
  have h3 := (planeRuns_spec bits).1
  rw [decodePlane_eq, h2, if_pos ⟨by omega, h3.total⟩, ← h3.eq_alternate]

@[simp] theorem bitPlane_length (p : Nat) (r : List Symbol) : (bitPlane p r).length = r.length := by simp [bitPlane]

theorem orPlane_length (p : Nat) (out : List Symbol) (bits : List Bool) (h : bits.length = out.length) :
    (orPlane p out bits).length = out.length := by simp [orPlane, h]

theorem bitPlane_orPlane (p q : Nat) (out : List Symbol) (bits : List Bool) (h : bits.length = out.length) (hq : q < 8) :
    bitPlane q (orPlane p out bits) =
      if q = p then List.zipWith (fun b o => o || b) bits (bitPlane q out) else bitPlane q out := by
  apply List.ext_getElem
  · split <;> simp [orPlane, h]
  · intro i h1 h2
    have hi : i < out.length := by simpa [orPlane, h] using h1
    have hb : i < bits.length := by omega
    have e1 : (bitPlane q (orPlane p out bits))[i] = (out[i].getLsbD q || (bits[i] && decide (q = p))) := by
      simp only [bitPlane, orPlane, List.getElem_map, List.getElem_zipWith]
      cases bits[i]
      · simp
      · by_cases hqp : q = p
        · subst hqp; simp [hq]
        · by_cases hlt : q < p
          · simp [hqp, hlt]
          · have : q - p ≠ 0 := by omega
            simp [hqp, hq, hlt, this]
    rw [e1]
    split
    · next hqp => simp [hqp, bitPlane]
    · next hqp => simp [hqp, bitPlane]

/-- The recombination (R176): what the planes decoded from `p` on give, and when they fail. -/
theorem decodePlanesFrom_spec (n : Nat) (es : List (List Bool)) : ∀ (p : Nat) (out : List Symbol), out.length = n →
    p + es.length ≤ 8 →
    (∀ q, q < 8 → p ≤ q → bitPlane q out = List.replicate n false) →
    (decodePlanesFrom n p es out = none ∧ ∃ e ∈ es, decodePlane n e = none) ∨
    ∃ t, decodePlanesFrom n p es out = some t ∧ t.length = n ∧
      (∀ k (h : k < es.length), decodePlane n es[k] = some (bitPlane (p + k) t)) ∧
      (∀ q, q < 8 → (q < p ∨ p + es.length ≤ q) → bitPlane q t = bitPlane q out) := by
  induction es with
  | nil => intro p out hl hp hz; exact .inr ⟨out, rfl, hl, by simp, by simp⟩
  | cons e rest ih =>
    intro p out hl hp hz
    rw [List.length_cons] at hp
    rw [decodePlanesFrom]
    cases hd : decodePlane n e with
    | none => exact .inl ⟨rfl, e, by simp, hd⟩
    | some bits =>
      have hb : bits.length = n := by
        rw [decodePlane_eq] at hd
        split at hd
        · next hs => cases hd; rw [alternate_length, hs.2]
        · cases hd
      have hlen : (orPlane p out bits).length = n := by rw [orPlane_length _ _ _ (by omega), hl]
      rcases ih (p + 1) (orPlane p out bits) hlen (by omega) (fun q hq hpq => by
          rw [bitPlane_orPlane _ _ _ _ (by omega) hq, if_neg (by omega)]
          exact hz q hq (by omega)) with ⟨h1, f, hf, h2⟩ | ⟨t, h1, h2, h3, h4⟩
      · exact .inl ⟨h1, f, by simp [hf], h2⟩
      · refine .inr ⟨t, h1, h2, fun k hk => ?_, fun q hq hr => ?_⟩
        · cases k with
          | zero =>
            have hp8 : p < 8 := by omega
            have : bitPlane p t = bits := by
              rw [h4 p hp8 (by omega), bitPlane_orPlane _ _ _ _ (by omega) hp8, if_pos rfl, hz p hp8 (le_refl _)]
              apply List.ext_getElem
              · simp [hb]
              · simp
            simp [this, hd]
          | succ k =>
            have := h3 k (by simpa using hk)
            rw [Nat.add_right_comm] at this
            simpa [Nat.add_assoc] using this
        · rw [h4 q hq (by simp at hr; omega), bitPlane_orPlane _ _ _ _ (by omega) hq, if_neg (by simp at hr; omega)]

/-- The plane decoder as a whole: it fails when a plane fails, and else every bit plane of its output is the plane's bits. -/
theorem decodePlanes_spec (n : Nat) (es : List (List Bool)) (h : es.length = 8) :
    (decodePlanes n es = none ∧ ∃ e ∈ es, decodePlane n e = none) ∨
    ∃ t, decodePlanes n es = some t ∧ t.length = n ∧
      ∀ k (h : k < es.length), decodePlane n es[k] = some (bitPlane k t) := by
  rcases decodePlanesFrom_spec n es 0 (List.replicate n 0) (by simp) (by omega)
    (fun q _ _ => by simp [bitPlane]) with h1 | ⟨t, h1, h2, h3, -⟩
  · exact .inl h1
  · exact .inr ⟨t, h1, h2, fun k hk => by simpa using h3 k hk⟩

/-- A stream is determined by its eight bit planes. -/
theorem eq_of_bitPlanes {s t : List Symbol} (h : ∀ p, p < 8 → bitPlane p s = bitPlane p t) : s = t := by
  have hl : s.length = t.length := by simpa using congrArg List.length (h 0 (by omega))
  apply List.ext_getElem hl
  intro i h1 h2
  apply BitVec.eq_of_getLsbD_eq
  intro p hp
  have := congrArg (fun l : List Bool => l[i]?) (h p hp)
  simpa [bitPlane, h1, h2] using this

end Sys2Proof.Machine
end

