-- ==== Sys2Proof/Laws/Huffman.lean ====
section
/-! SUPPORT. The values of Huffman coding: the codes of a tree, the decoder's walk, the merge loop under both policies, the tree
and code tables, and the round trip. -/

namespace Sys2Proof.Machine

/-! ### Trees and their codes -/

theorem walkCodes_syms (t : HTree) : ∀ path, (walkCodes t path).map Prod.fst = leafSyms t := by
  induction t with
  | leaf s f => intro path; rfl
  | node f l r ihl ihr => intro path; simp [walkCodes, leafSyms, ihl, ihr]

/-- The walk with a path so far only puts that path before every code. -/
theorem walkCodes_path (t : HTree) : ∀ path,
    walkCodes t path = (walkCodes t []).map fun p => (p.1, path ++ p.2) := by
  induction t with
  | leaf s f => intro path; simp [walkCodes]
  | node f l r ihl ihr =>
    intro path
    simp only [walkCodes]
    rw [ihl (path ++ [false]), ihr (path ++ [true]), ihl ([] ++ [false]), ihr ([] ++ [true])]
    simp [Function.comp_def]

theorem mem_walkCodes_node {f : Nat} {l r : HTree} {p : Symbol × List Bool} :
    p ∈ walkCodes (.node f l r) [] ↔
      (∃ c, (p.1, c) ∈ walkCodes l [] ∧ p.2 = false :: c) ∨ (∃ c, (p.1, c) ∈ walkCodes r [] ∧ p.2 = true :: c) := by
  obtain ⟨s, code⟩ := p
  simp only [walkCodes]
  rw [List.mem_append, walkCodes_path l, walkCodes_path r]
  constructor
  · rintro (h | h)
    · obtain ⟨⟨s', c⟩, h1, h2⟩ := List.mem_map.1 h
      simp at h2; exact .inl ⟨c, by rw [← h2.1]; exact h1, h2.2.symm⟩
    · obtain ⟨⟨s', c⟩, h1, h2⟩ := List.mem_map.1 h
      simp at h2; exact .inr ⟨c, by rw [← h2.1]; exact h1, h2.2.symm⟩
  · rintro (⟨c, h1, h2⟩ | ⟨c, h1, h2⟩)
    · exact .inl (List.mem_map.2 ⟨_, h1, by simp [h2]⟩)
    · exact .inr (List.mem_map.2 ⟨_, h1, by simp [h2]⟩)

/-- A code that is a beginning of another code of the same tree is that code, with the same leaf. -/
theorem walkCodes_prefixFree (t : HTree) : ∀ p ∈ walkCodes t [], ∀ q ∈ walkCodes t [], p.2 <+: q.2 → p = q := by
  induction t with
  | leaf s f =>
    intro p hp q hq _
    simp only [walkCodes, List.mem_singleton] at hp hq
    rw [hp, hq]
  | node f l r ihl ihr =>
    intro p hp q hq h
    obtain ⟨s, c⟩ := p
    obtain ⟨s', c'⟩ := q
    rcases mem_walkCodes_node.1 hp with ⟨d, h1, h2⟩ | ⟨d, h1, h2⟩ <;>
      rcases mem_walkCodes_node.1 hq with ⟨d', h3, h4⟩ | ⟨d', h3, h4⟩ <;> simp only at h1 h2 h3 h4 h <;> subst h2 h4
    · have := ihl _ h1 _ h3 (by simpa using h)
      simp at this; simp [this]
    · simp at h
    · simp at h
    · have := ihr _ h1 _ h3 (by simpa using h)
      simp at this; simp [this]

theorem leafSyms_pos (t : HTree) : 1 ≤ (leafSyms t).length := by
  induction t with
  | leaf s f => simp [leafSyms]
  | node f l r ihl ihr => simp [leafSyms]; omega

/-- A tree with `d` leaves has no code longer than `d - 1`. -/
theorem walkCodes_length (t : HTree) : ∀ p ∈ walkCodes t [], p.2.length + 1 ≤ (leafSyms t).length := by
  induction t with
  | leaf s f => intro p hp; simp only [walkCodes, List.mem_singleton] at hp; simp [hp, leafSyms]
  | node f l r ihl ihr =>
    intro p hp
    have := leafSyms_pos l
    have := leafSyms_pos r
    rcases mem_walkCodes_node.1 hp with ⟨d, h1, h2⟩ | ⟨d, h1, h2⟩
    · have := ihl _ h1
      rw [h2]; simp [leafSyms] at this ⊢; omega
    · have := ihr _ h1
      rw [h2]; simp [leafSyms] at this ⊢; omega

/-- Under a node every code has at least one bit. -/
theorem walkCodes_node_pos {f : Nat} {l r : HTree} {p : Symbol × List Bool} (h : p ∈ walkCodes (.node f l r) []) :
    p.2 ≠ [] := by
  rcases mem_walkCodes_node.1 h with ⟨d, -, h2⟩ | ⟨d, -, h2⟩ <;> simp [h2]

theorem codesOf_syms (t : Option HTree) : (codesOf t).map Prod.fst = (t.map leafSyms).getD [] := by
  cases t with
  | none => rfl
  | some t => cases t with
    | leaf s f => rfl
    | node f l r => exact walkCodes_syms _ _

theorem lookup_eq_some_of_nodup {α β : Type} [BEq α] [LawfulBEq α] {l : List (α × β)} (hn : (l.map Prod.fst).Nodup)
    {a : α} {b : β} (h : (a, b) ∈ l) : l.lookup a = some b := by
  induction l with
  | nil => simp at h
  | cons p l ih =>
    obtain ⟨x, y⟩ := p
    rw [List.map_cons, List.nodup_cons] at hn
    rcases List.mem_cons.1 h with h1 | h1
    · cases h1; simp
    · have : a ≠ x := fun hx => hn.1 (List.mem_map.2 ⟨(a, b), h1, hx⟩)
      rw [List.lookup_cons, beq_false_of_ne this]
      exact ih hn.2 h1

theorem mem_of_lookup {α β : Type} [BEq α] [LawfulBEq α] {l : List (α × β)} {a : α} {b : β} (h : l.lookup a = some b) :
    (a, b) ∈ l := by
  induction l with
  | nil => simp at h
  | cons p l ih =>
    obtain ⟨x, y⟩ := p
    rw [List.lookup_cons] at h
    by_cases hx : a = x
    · subst hx; simp at h; simp [h]
    · rw [beq_false_of_ne hx] at h; exact List.mem_cons_of_mem _ (ih h)

/-- In a tree whose leaves are distinct, the code table holds exactly the leaves' codes. -/
theorem codeFor_eq_some {t : Option HTree} (hn : ((t.map leafSyms).getD []).Nodup) {s : Symbol} {c : List Bool} :
    codeFor (codesOf t) s = some c ↔ (s, c) ∈ codesOf t :=
  ⟨mem_of_lookup, lookup_eq_some_of_nodup (by rwa [codesOf_syms])⟩

/-- A symbol has a code exactly when it is a leaf. -/
theorem codeFor_isSome (t : Option HTree) (s : Symbol) :
    (codeFor (codesOf t) s).isSome = true ↔ s ∈ (t.map leafSyms).getD [] := by
  rw [← codesOf_syms]
  constructor
  · intro h
    obtain ⟨c, hc⟩ := Option.isSome_iff_exists.1 h
    exact List.mem_map.2 ⟨_, mem_of_lookup hc, rfl⟩
  · intro h
    obtain ⟨⟨s', c⟩, h1, rfl⟩ := List.mem_map.1 h
    by_contra hc
    have : (codesOf t).lookup s' = none := Option.not_isSome_iff_eq_none.1 hc
    rw [List.lookup_eq_none_iff] at this
    simpa using this _ h1

/-! ### The decoder's walk -/

/-- Inside a subtree the walk follows a leaf's path to that leaf, emits its symbol and restarts. -/
theorem walkBits_path (root : HTree) (f : Nat) (l r : HTree) : ∀ (c : List Bool) (s : Symbol) (rest : List Bool)
    (at? : Option HTree), (s, c) ∈ walkCodes (.node f l r) [] → at?.getD root = .node f l r →
    walkBits root at? (c ++ rest) = (walkBits root none rest).map fun out => s :: out := by
  intro c
  induction c generalizing f l r with
  | nil => intro s rest at? h _; exact absurd rfl (walkCodes_node_pos h)
  | cons b c ih =>
    intro s rest at? h hat
    have hstep : ∃ t : HTree, (if b then r else l) = t ∧ (s, c) ∈ walkCodes t [] := by
      rcases mem_walkCodes_node.1 h with ⟨d, h1, h2⟩ | ⟨d, h1, h2⟩
      · simp only [List.cons.injEq] at h2
        obtain ⟨rfl, rfl⟩ := h2
        exact ⟨l, by simp, h1⟩
      · simp only [List.cons.injEq] at h2
        obtain ⟨rfl, rfl⟩ := h2
        exact ⟨r, by simp, h1⟩
    obtain ⟨t, ht, hmem⟩ := hstep
    rw [List.cons_append, walkBits, hat]
    · simp only [ht]
      cases t with
      | leaf s' f' =>
        simp only [walkCodes, List.mem_singleton, Prod.mk.injEq] at hmem
        obtain ⟨rfl, rfl⟩ := hmem
        rfl
      | node f' l' r' => exact ih f' l' r' s rest _ hmem rfl

/-- The walk along a concatenation of codes gives the symbols of the codes. -/
theorem walkBits_codes (f : Nat) (l r : HTree) (steps : List (Symbol × List Bool))
    (h : ∀ p ∈ steps, p ∈ walkCodes (.node f l r) []) :
    walkBits (.node f l r) none (steps.flatMap Prod.snd) = some (steps.map Prod.fst) := by
  induction steps with
  | nil => rfl
  | cons p steps ih =>
    rw [List.flatMap_cons, walkBits_path _ f l r p.2 p.1 _ none (h p (by simp)) rfl, ih fun q hq => h q (by simp [hq])]
    rfl

/-- A walk that succeeds read a concatenation of codes; the first of them may already be under way. -/
theorem walkBits_some (root : HTree) : ∀ (bits : List Bool) (at? : Option HTree) (out : List Symbol),
    walkBits root at? bits = some out →
    (at? = none ∧ bits = [] ∧ out = []) ∨
    ∃ c s rest out', bits = c ++ rest ∧ out = s :: out' ∧ (s, c) ∈ walkCodes (at?.getD root) [] ∧ c ≠ [] ∧
      walkBits root none rest = some out' := by
  intro bits
  induction bits with
  | nil =>
    intro at? out h
    cases at? with
    | none => left; simpa [walkBits] using h.symm
    | some t => simp [walkBits] at h
  | cons b bs ih =>
    intro at? out h
    right
    cases ht : at?.getD root with
    | leaf s f => rw [walkBits, ht] at h; simp at h
    | node f l r =>
      have key : ∀ t : HTree, (if b then r else l) = t →
          ∀ s c, (s, c) ∈ walkCodes t [] → (s, b :: c) ∈ walkCodes (.node f l r) [] := by
        intro t htt s c hc
        cases b
        · simp only [Bool.false_eq_true, if_false] at htt; subst htt
          exact mem_walkCodes_node.2 (.inl ⟨c, hc, rfl⟩)
        · simp only [if_true] at htt; subst htt
          exact mem_walkCodes_node.2 (.inr ⟨c, hc, rfl⟩)
      rw [walkBits, ht] at h
      · simp only at h
        cases hc : (if b then r else l) with
        | leaf s f' =>
          simp only [hc] at h
          obtain ⟨out', h1, rfl⟩ := Option.map_eq_some_iff.1 h
          exact ⟨[b], s, bs, out', rfl, rfl, key _ hc s [] (by simp [walkCodes]), by simp, h1⟩
        | node f' l' r' =>
          simp only [hc] at h
          rcases ih _ _ h with ⟨h1, -, -⟩ | ⟨c, s, rest, out', h1, h2, h3, h4, h5⟩
          · cases h1
          · exact ⟨b :: c, s, rest, out', by simp [h1], h2, key _ hc s c h3, by simp, h5⟩

/-- The walk succeeds exactly on concatenations of codes. -/
theorem walkBits_iff (f : Nat) (l r : HTree) (bits : List Bool) (out : List Symbol) :
    walkBits (.node f l r) none bits = some out ↔
      ∃ steps : List (Symbol × List Bool), (∀ p ∈ steps, p ∈ walkCodes (.node f l r) []) ∧
        bits = steps.flatMap Prod.snd ∧ out = steps.map Prod.fst := by
  constructor
  · intro h
    induction hn : bits.length using Nat.strong_induction_on generalizing bits out with
    | _ n ih =>
      rcases walkBits_some _ _ _ _ h with ⟨-, rfl, rfl⟩ | ⟨c, s, rest, out', rfl, rfl, h3, h4, h5⟩
      · exact ⟨[], by simp, rfl, rfl⟩
      · have hc := List.length_pos_iff.2 h4
        obtain ⟨steps, h6, rfl, rfl⟩ := ih rest.length (by simp at hn; omega) rest out' h5 rfl
        exact ⟨(s, c) :: steps, by simpa using ⟨h3, fun a b => h6 (a, b)⟩, by simp, by simp⟩
  · rintro ⟨steps, h1, rfl, rfl⟩
    exact walkBits_codes f l r steps h1

theorem decodeBits_length (t : Option HTree) (bits : List Bool) (out : List Symbol) (h : decodeBits t bits = some out) :
    out.length ≤ bits.length := by
  unfold decodeBits at h
  split at h
  · cases h; simp
  · cases h
  · cases h; simp
  · obtain ⟨steps, h1, h2, rfl⟩ := (walkBits_iff _ _ _ _ _).1 h
    rw [h2, List.length_map, List.length_flatMap]
    have hl : ∀ p ∈ steps, 1 ≤ p.2.length := fun p hp => List.length_pos_iff.2 (walkCodes_node_pos (h1 p hp))
    clear h h1 h2
    induction steps with
    | nil => simp
    | cons p steps ih =>
      have := ih fun q hq => hl q (by simp [hq])
      have := hl p (by simp)
      simp; omega

/-- What was encoded with the codes of a tree decodes with that tree (R236). -/
theorem decodeBits_codes (t : Option HTree) (xs : List Symbol) (code : Symbol → List Bool)
    (h : ∀ x ∈ xs, (x, code x) ∈ codesOf t) : decodeBits t (xs.flatMap code) = some xs := by
  cases t with
  | none =>
    cases xs with
    | nil => rfl
    | cons x xs => simpa [codesOf] using h x (by simp)
  | some t =>
    cases t with
    | leaf s f =>
      have hx : ∀ x ∈ xs, x = s ∧ code x = [false] := by
        intro x hx
        simpa [codesOf] using h x hx
      have h1 : xs = List.replicate xs.length s := List.eq_replicate_of_mem fun x hx' => (hx x hx').1
      have h2 : (xs.flatMap code).length = xs.length := by
        rw [List.length_flatMap]
        clear h h1
        induction xs with
        | nil => rfl
        | cons x xs ih =>
          have := ih fun y hy => hx y (by simp [hy])
          have := (hx x (by simp)).2
          simp [*]; omega
      cases hb : xs.flatMap code with
      | nil =>
        rw [hb] at h2
        rw [List.length_eq_zero_iff.1 h2.symm]
        rfl
      | cons b bs =>
        rw [hb] at h2
        rw [decodeBits, h2]
        exact congrArg some h1.symm
    | node f l r =>
      have h1 := walkBits_codes f l r (xs.map fun x => (x, code x)) (by
        intro p hp
        obtain ⟨x, hx, rfl⟩ := List.mem_map.1 hp
        exact h x hx)
      rw [List.flatMap_map, List.map_map] at h1
      simp only [Function.comp_def, List.map_id'] at h1
      cases hb : xs.flatMap code with
      | nil =>
        rw [hb] at h1
        simpa [walkBits, decodeBits] using h1
      | cons b bs =>
        rw [hb] at h1
        exact h1

/-! ### The queue order (R194) -/

theorem queueBefore_iff (a b : QNode) :
    queueBefore a b = true ↔ a.freq < b.freq ∨ (a.freq = b.freq ∧ a.seq < b.seq) := by
  simp [queueBefore]

theorem queueBefore_freq {a b : QNode} (h : queueBefore a b = true) : a.freq ≤ b.freq := by
  rw [queueBefore_iff] at h; omega

theorem queueBefore_trans {a b c : QNode} (h1 : queueBefore a b = true) (h2 : queueBefore b c = true) :
    queueBefore a c = true := by
  rw [queueBefore_iff] at *; omega

theorem queueBefore_of_not {a b : QNode} (h : a.seq ≠ b.seq) (h1 : ¬ queueBefore a b = true) : queueBefore b a = true := by
  rw [queueBefore_iff] at *; omega

theorem queueInsert_perm (x : QNode) (q : List QNode) : (queueInsert x q).Perm (x :: q) := by
  induction q with
  | nil => exact List.Perm.refl _
  | cons y ys ih =>
    rw [queueInsert]
    split
    · exact List.Perm.refl _
    · exact (ih.cons y).trans (List.Perm.swap x y ys)

/-- A queue in order: each node before every later one. -/
abbrev QueueSorted (q : List QNode) : Prop := q.Pairwise fun a b => queueBefore a b = true

theorem queueInsert_sorted (x : QNode) (q : List QNode) (h : QueueSorted q) (hx : ∀ y ∈ q, x.seq ≠ y.seq) :
    QueueSorted (queueInsert x q) := by
  induction q with
  | nil => simp [queueInsert, QueueSorted]
  | cons y ys ih =>
    obtain ⟨h1, h2⟩ := List.pairwise_cons.1 h
    rw [queueInsert]
    split
    · next hxy =>
      refine List.pairwise_cons.2 ⟨fun z hz => ?_, h⟩
      rcases List.mem_cons.1 hz with rfl | hz
      · exact hxy
      · exact queueBefore_trans hxy (h1 z hz)
    · next hxy =>
      refine List.pairwise_cons.2 ⟨fun z hz => ?_, ih h2 fun z hz => hx z (by simp [hz])⟩
      rcases List.mem_cons.1 ((queueInsert_perm x ys).mem_iff.1 hz) with rfl | hz
      · exact queueBefore_of_not (hx y (by simp)) hxy
      · exact h1 z hz

/-! ### The seeded queue (R192) -/

theorem mem_leavesFrom {freqs : List Nat} : ∀ {b : Nat} {n : QNode},
    n ∈ leavesFrom b freqs ↔
      ∃ i, ∃ h : i < freqs.length, freqs[i] ≠ 0 ∧
        n = { freq := freqs[i], seq := b + i, tree := .leaf (BitVec.ofNat 8 (b + i)) freqs[i] } := by
  induction freqs with
  | nil => intro b n; simp [leavesFrom]
  | cons f fs ih =>
    intro b n
    have hrec : n ∈ leavesFrom (b + 1) fs ↔
        ∃ i, ∃ h : i + 1 < (f :: fs).length, (f :: fs)[i + 1] ≠ 0 ∧
          n = { freq := (f :: fs)[i + 1], seq := b + (i + 1), tree := .leaf (BitVec.ofNat 8 (b + (i + 1))) (f :: fs)[i + 1] } := by
      rw [ih]
      constructor
      · rintro ⟨i, h, h1, h2⟩
        exact ⟨i, by simpa using h, h1, by rw [h2]; simp [Nat.add_assoc, Nat.add_comm 1]⟩
      · rintro ⟨i, h, h1, h2⟩
        exact ⟨i, by simpa using h, h1, by rw [h2]; simp [Nat.add_assoc, Nat.add_comm 1]⟩
    rw [leavesFrom]
    split
    · next hf =>
      rw [hrec]
      constructor
      · rintro ⟨i, h⟩; exact ⟨i + 1, h⟩
      · rintro ⟨i, h, h1, h2⟩
        cases i with
        | zero => exact absurd hf h1
        | succ i => exact ⟨i, h, h1, h2⟩
    · next hf =>
      rw [List.mem_cons, hrec]
      constructor
      · rintro (rfl | ⟨i, h⟩)
        · exact ⟨0, by simp, hf, rfl⟩
        · exact ⟨i + 1, h⟩
      · rintro ⟨i, h, h1, h2⟩
        cases i with
        | zero => exact .inl h2
        | succ i => exact .inr ⟨i, h, h1, h2⟩

theorem leavesFrom_seqs (freqs : List Nat) : ∀ b, ((leavesFrom b freqs).map QNode.seq).Pairwise (· < ·) := by
  induction freqs with
  | nil => intro b; simp [leavesFrom]
  | cons f fs ih =>
    intro b
    rw [leavesFrom]
    split
    · exact ih _
    · refine List.pairwise_cons.2 ⟨fun s hs => ?_, ih _⟩
      obtain ⟨n, hn, rfl⟩ := List.mem_map.1 hs
      obtain ⟨i, -, -, rfl⟩ := mem_leavesFrom.1 hn
      show b < b + 1 + i
      omega

theorem leavesFrom_seqs_nodup (b : Nat) (freqs : List Nat) : ((leavesFrom b freqs).map QNode.seq).Nodup :=
  (leavesFrom_seqs freqs b).imp fun h => Nat.ne_of_lt h

theorem leavesFrom_length (freqs : List Nat) : ∀ b, (leavesFrom b freqs).length ≤ freqs.length := by
  induction freqs with
  | nil => intro b; simp [leavesFrom]
  | cons f fs ih =>
    intro b
    rw [leavesFrom]
    have := ih (b + 1)
    split <;> simp <;> omega

theorem leavesFrom_sum (freqs : List Nat) : ∀ b, ((leavesFrom b freqs).map QNode.freq).sum = freqs.sum := by
  induction freqs with
  | nil => intro b; rfl
  | cons f fs ih =>
    intro b
    rw [leavesFrom]
    split
    · next h => simp [h, ih]
    · simp [ih]

theorem foldr_queueInsert_perm (q : List QNode) : (q.foldr queueInsert []).Perm q := by
  induction q with
  | nil => exact List.Perm.refl _
  | cons x q ih => exact (queueInsert_perm x _).trans (ih.cons x)

theorem seedQueue_perm (freqs : List Nat) : (seedQueue freqs).Perm (leavesFrom 0 freqs) := foldr_queueInsert_perm _

theorem foldr_queueInsert_sorted (q : List QNode) (h : (q.map QNode.seq).Nodup) : QueueSorted (q.foldr queueInsert []) := by
  induction q with
  | nil => exact List.Pairwise.nil
  | cons x q ih =>
    rw [List.map_cons, List.nodup_cons] at h
    refine queueInsert_sorted x _ (ih h.2) fun y hy hxy => h.1 ?_
    rw [hxy]
    exact List.mem_map_of_mem ((foldr_queueInsert_perm q).mem_iff.1 hy)

theorem seedQueue_sorted (freqs : List Nat) : QueueSorted (seedQueue freqs) :=
  foldr_queueInsert_sorted _ (leavesFrom_seqs_nodup 0 freqs)

/-! ### The merge loop (R193, R194) -/

/-- What the merge loop needs of its queue: in order, with distinct sequence numbers below the next one. -/
structure QueueReady (k : Nat) (q : List QNode) : Prop where
  sorted : QueueSorted q
  distinct : (q.map QNode.seq).Nodup
  below : ∀ n ∈ q, n.seq < 256 + k

theorem QueueReady.merged {k : Nat} {a b : QNode} {rest : List QNode} (h : QueueReady k (a :: b :: rest)) :
    QueueReady (k + 1) (queueInsert (mergedNode k a b) rest) := by
  obtain ⟨h1, h2, h3⟩ := h
  have hlt : ∀ n ∈ rest, n.seq < 256 + k := fun n hn => h3 n (by simp [hn])
  have hp := queueInsert_perm (mergedNode k a b) rest
  refine ⟨queueInsert_sorted _ _ (List.pairwise_cons.1 (List.pairwise_cons.1 h1).2).2 fun y hy => ?_, ?_, ?_⟩
  · have := hlt y hy
    show 256 + k ≠ y.seq
    omega
  · refine ((hp.map QNode.seq).nodup_iff).2 (List.nodup_cons.2 ⟨fun hm => ?_, ?_⟩)
    · obtain ⟨y, hy, hys⟩ := List.mem_map.1 hm
      have := hlt y hy
      have hys' : y.seq = 256 + k := hys
      omega
    · exact (List.nodup_cons.1 (List.nodup_cons.1 h2).2).2
  · intro n hn
    rcases List.mem_cons.1 (hp.mem_iff.1 hn) with rfl | hn
    · show 256 + k < 256 + (k + 1); omega
    · have := hlt n hn; omega

theorem queueInsert_length (x : QNode) (q : List QNode) : (queueInsert x q).length = q.length + 1 :=
  (queueInsert_perm x q).length_eq

/-- The entry of a merge. -/
theorem mergeLoop_cons (fuel k : Nat) (a b : QNode) (rest : List QNode) :
    mergeLoop (fuel + 1) k (a :: b :: rest) =
      ((mergeLoop fuel (k + 1) (queueInsert (mergedNode k a b) rest)).1,
        nodeEntry true false 0 (a.freq + b.freq) a.seq b.seq ::
          (mergeLoop fuel (k + 1) (queueInsert (mergedNode k a b) rest)).2) := rfl

theorem DetMergeLog.of_perm {k : Nat} {q q' : List QNode} {merges : List (QNode × QNode)} {top : Option QNode}
    (h : DetMergeLog k q merges top) (hp : q'.Perm q) : DetMergeLog k q' merges top := by
  match h with
  | .empty k => rw [List.perm_nil.1 hp]; exact .empty k
  | .single k n => rw [List.perm_singleton.1 hp]; exact .single k n
  | .merge k _ rest a b merges top perm aLeast bLeast next =>
    exact .merge k q' rest a b merges top (hp.trans perm) aLeast bLeast next

/-- The loop read with its merges is the loop. -/
theorem DetMergeLog.detMerges {k : Nat} {q : List QNode} {merges : List (QNode × QNode)} {top : Option QNode}
    (h : DetMergeLog k q merges top) : DetMerges k q top := by
  induction h with
  | empty k => exact .empty k
  | single k n => exact .single k n
  | merge k q rest a b merges top perm aLeast bLeast next ih => exact .merge k q rest a b top perm aLeast bLeast ih

/-- The merge loop follows policy `det`, and its entries are those of its merges, in order. -/
theorem mergeLoop_log (fuel : Nat) : ∀ (k : Nat) (q : List QNode), QueueReady k q → q.length ≤ fuel →
    ∃ merges, DetMergeLog k q merges (mergeLoop fuel k q).1 ∧
      (mergeLoop fuel k q).2 = merges.map fun m => nodeEntry true false 0 (m.1.freq + m.2.freq) m.1.seq m.2.seq := by
  induction fuel with
  | zero =>
    intro k q _ hl
    rw [List.length_eq_zero_iff.1 (Nat.le_zero.1 hl)]
    exact ⟨[], .empty k, rfl⟩
  | succ fuel ih =>
    intro k q hq hl
    match q, hq, hl with
    | [], _, _ => exact ⟨[], .empty k, rfl⟩
    | [n], _, _ => exact ⟨[], .single k n, rfl⟩
    | a :: b :: rest, hq, hl =>
      have h1 := List.pairwise_cons.1 hq.sorted
      have h2 := List.pairwise_cons.1 h1.2
      obtain ⟨merges, h3, h4⟩ := ih (k + 1) _ hq.merged (by rw [queueInsert_length]; simp at hl; omega)
      refine ⟨(a, b) :: merges, .merge k _ rest a b merges _ (List.Perm.refl _) h1.1 h2.1
        (h3.of_perm (queueInsert_perm _ _).symm), ?_⟩
      rw [mergeLoop_cons, h4]
      rfl

/-- Policy `det` is one of the behaviours policy `any` admits (R194). -/
theorem DetMerges.mergesTo {k : Nat} {q : List QNode} {top : Option QNode} (h : DetMerges k q top) :
    (∀ n ∈ q, treeFreq n.tree = n.freq) → MergesTo (q.map QNode.tree) (top.map QNode.tree) := by
  induction h with
  | empty k => intro _; exact .empty
  | single k n => intro _; exact .single _
  | merge k q rest a b top perm aLeast bLeast next ih =>
    intro hf
    have ha := hf a (perm.mem_iff.2 (by simp))
    have hb := hf b (perm.mem_iff.2 (by simp))
    have hr : ∀ n ∈ rest, treeFreq n.tree = n.freq := fun n hn => hf n (perm.mem_iff.2 (by simp [hn]))
    refine .merge _ (rest.map QNode.tree) a.tree b.tree a.tree b.tree _ (perm.map QNode.tree) ?_ ?_ (.inl ⟨rfl, rfl⟩) ?_
    · intro x hx
      rcases List.mem_cons.1 hx with rfl | hx
      · rw [ha, hb]; exact queueBefore_freq (aLeast b (by simp))
      · obtain ⟨n, hn, rfl⟩ := List.mem_map.1 hx
        rw [ha, hr n hn]; exact queueBefore_freq (aLeast n (by simp [hn]))
    · intro x hx
      obtain ⟨n, hn, rfl⟩ := List.mem_map.1 hx
      rw [hb, hr n hn]; exact queueBefore_freq (bLeast n hn)
    · have := ih (by
        intro n hn
        rcases List.mem_cons.1 hn with rfl | hn
        · rfl
        · exact hr n hn)
      rw [ha, hb]
      exact this

theorem seedQueue_ready (s : List Symbol) : QueueReady 0 (seedQueue (freqTable s)) := by
  have hp := seedQueue_perm (freqTable s)
  refine ⟨seedQueue_sorted _, ((hp.map QNode.seq).nodup_iff).2 (leavesFrom_seqs_nodup 0 _), fun n hn => ?_⟩
  obtain ⟨i, hi, -, rfl⟩ := mem_leavesFrom.1 (hp.mem_iff.1 hn)
  have : i < 256 := by simpa [freqTable] using hi
  show 0 + i < 256 + 0
  omega

/-- `HTB.BUILD` merges under policy `det`, and writes one entry per merge (R194, R200). -/
theorem buildTree_log (s : List Symbol) : ∃ merges, DetMergeLog 0 (leavesFrom 0 (freqTable s)) merges (buildTree s).1 ∧
    (buildTree s).2 = merges.map fun m => nodeEntry true false 0 (m.1.freq + m.2.freq) m.1.seq m.2.seq := by
  obtain ⟨merges, h, h'⟩ := mergeLoop_log _ 0 _ (seedQueue_ready s) (le_refl _)
  exact ⟨merges, h.of_perm (seedQueue_perm _).symm, h'⟩

theorem buildTree_det (s : List Symbol) : DetMerges 0 (leavesFrom 0 (freqTable s)) (buildTree s).1 :=
  have ⟨_, h, _⟩ := buildTree_log s
  h.detMerges

theorem buildTree_admitted (s : List Symbol) : AdmittedTree s ((buildTree s).1.map QNode.tree) :=
  (buildTree_det s).mergesTo fun n hn => by
    obtain ⟨i, -, -, rfl⟩ := mem_leavesFrom.1 hn
    rfl

/-! ### What every admitted tree satisfies (R193) -/

theorem MergesTo.leaves {q : List HTree} {t : Option HTree} (h : MergesTo q t) :
    ((t.map leafSyms).getD []).Perm (q.flatMap leafSyms) := by
  induction h with
  | empty => exact List.Perm.refl _
  | single t => simp
  | merge q rest a b l r t perm aMin bMin sides next ih =>
    refine ih.trans (List.Perm.trans ?_ (perm.flatMap_right leafSyms).symm)
    rcases sides with ⟨rfl, rfl⟩ | ⟨rfl, rfl⟩
    · simp [leafSyms]
    · simp only [List.flatMap_cons, leafSyms, ← List.append_assoc]
      exact List.Perm.append_right _ List.perm_append_comm

theorem MergesTo.freqs {q : List HTree} {t : Option HTree} (h : MergesTo q t) :
    (t.map treeFreq).getD 0 = (q.map treeFreq).sum ∧ ((∀ x ∈ q, FreqsAdd x) → ∀ x ∈ t, FreqsAdd x) := by
  induction h with
  | empty => exact ⟨rfl, by simp⟩
  | single t => simp
  | merge q rest a b l r t perm aMin bMin sides next ih =>
    obtain ⟨ih1, ih2⟩ := ih
    refine ⟨?_, fun hq => ih2 ?_⟩
    · rw [ih1, (perm.map treeFreq).sum_eq]
      simp [treeFreq, Nat.add_assoc]
    · intro x hx
      rcases List.mem_cons.1 hx with rfl | hx
      · have ha := hq a (perm.mem_iff.2 (by simp))
        have hb := hq b (perm.mem_iff.2 (by simp))
        rcases sides with ⟨rfl, rfl⟩ | ⟨rfl, rfl⟩
        · exact ⟨rfl, ha, hb⟩
        · exact ⟨Nat.add_comm _ _, hb, ha⟩
      · exact hq x (perm.mem_iff.2 (by simp [hx]))

theorem freqTable_get (s : List Symbol) (i : Nat) (h : i < (freqTable s).length) :
    (freqTable s)[i] = s.count (BitVec.ofNat 8 i) := by simp [freqTable]

@[simp] theorem freqTable_length (s : List Symbol) : (freqTable s).length = 256 := by simp [freqTable]

/-- The leaves of an admitted tree are the symbols that occur, each once (R192). -/
theorem AdmittedTree.leaves {s : List Symbol} {t : Option HTree} (h : AdmittedTree s t) :
    ((t.map leafSyms).getD []).Nodup ∧ ∀ x, x ∈ (t.map leafSyms).getD [] ↔ x ∈ s := by
  have hp := MergesTo.leaves h
  have hq : ((leavesFrom 0 (freqTable s)).map QNode.tree).flatMap leafSyms =
      (leavesFrom 0 (freqTable s)).map fun n => BitVec.ofNat 8 n.seq := by
    rw [List.flatMap_map, List.map_eq_flatMap]
    apply List.flatMap_congr
    intro n hn
    obtain ⟨i, -, -, rfl⟩ := mem_leavesFrom.1 hn
    rfl
  rw [hq] at hp
  constructor
  · rw [hp.nodup_iff]
    have h1 := leavesFrom_seqs_nodup 0 (freqTable s)
    rw [List.nodup_map_iff_inj_on (List.Nodup.of_map _ h1)]
    intro x hx y hy hxy
    rw [List.nodup_map_iff_inj_on (List.Nodup.of_map _ h1)] at h1
    refine h1 x hx y hy ?_
    obtain ⟨i, hi, -, rfl⟩ := mem_leavesFrom.1 hx
    obtain ⟨j, hj, -, rfl⟩ := mem_leavesFrom.1 hy
    have := congrArg BitVec.toNat hxy
    simp only [freqTable_length] at hi hj
    simp only [BitVec.toNat_ofNat] at this
    show 0 + i = 0 + j
    omega
  · intro x
    rw [hp.mem_iff]
    constructor
    · intro hx
      obtain ⟨n, hn, rfl⟩ := List.mem_map.1 hx
      obtain ⟨i, hi, h1, rfl⟩ := mem_leavesFrom.1 hn
      rw [freqTable_get] at h1
      simpa using List.count_pos_iff.1 (Nat.pos_of_ne_zero h1)
    · intro hx
      have hi : x.toNat < (freqTable s).length := by simpa using x.isLt
      refine List.mem_map.2 ⟨_, mem_leavesFrom.2 ⟨x.toNat, hi, ?_, rfl⟩, by simp⟩
      rw [freqTable_get]
      have := List.count_pos_iff.2 hx
      rw [BitVec.ofNat_toNat, BitVec.setWidth_eq]
      omega

theorem AdmittedTree.size {s : List Symbol} {t : Option HTree} (h : AdmittedTree s t) :
    ((t.map leafSyms).getD []).length ≤ 256 := by
  have := (MergesTo.leaves h).length_eq
  have h1 := (leavesFrom_length (freqTable s) 0)
  have hq : (((leavesFrom 0 (freqTable s)).map QNode.tree).flatMap leafSyms).length = (leavesFrom 0 (freqTable s)).length := by
    rw [List.flatMap_map, List.length_flatMap, List.map_congr_left (g := fun _ => 1)]
    · simp
    · intro n hn
      obtain ⟨i, -, -, rfl⟩ := mem_leavesFrom.1 hn
      rfl
  simp at h1
  omega

/-! ### Tree-table entries (R108) -/

theorem nodeEntry_bits (v l : Bool) (s : Symbol) (f a b i : Nat) :
    (nodeEntry v l s f a b).getLsbD i =
      if i < 1 then (BitVec.ofBool v).getLsbD i
      else if i < 2 then (BitVec.ofBool l).getLsbD (i - 1)
      else if i < 10 then s.getLsbD (i - 2)
      else if i < 42 then (BitVec.ofNat 32 f).getLsbD (i - 10)
      else if i < 51 then (BitVec.ofNat 9 a).getLsbD (i - 42)
      else (BitVec.ofNat 9 b).getLsbD (i - 51) := by
  have h : (nodeEntry v l s f a b).getLsbD i =
    (BitVec.ofNat 9 b ++ BitVec.ofNat 9 a ++ BitVec.ofNat 32 f ++ s ++ BitVec.ofBool l ++ BitVec.ofBool v).getLsbD i := rfl
  rw [h]
  simp only [BitVec.getLsbD_append, Nat.sub_sub]
  by_cases h1 : i < 1
  · simp [h1]
  · by_cases h2 : i < 2
    · simp [h1, h2, show i - 1 < 1 by omega]
    · by_cases h3 : i < 10
      · simp [h1, h2, h3, show ¬ i - 1 < 1 by omega, show i - (1 + 1) < 8 by omega]
      · by_cases h4 : i < 42
        · simp [h1, h2, h3, h4, show ¬ i - 1 < 1 by omega, show ¬ i - (1 + 1) < 8 by omega, show i - (1 + (1 + 8)) < 32 by omega]
        · by_cases h5 : i < 51
          · simp [h1, h2, h3, h4, h5, show ¬ i - 1 < 1 by omega, show ¬ i - (1 + 1) < 8 by omega,
              show ¬ i - (1 + (1 + 8)) < 32 by omega, show i - (1 + (1 + (8 + 32))) < 9 by omega]
          · simp [h1, h2, h3, h4, h5, show ¬ i - 1 < 1 by omega, show ¬ i - (1 + 1) < 8 by omega,
              show ¬ i - (1 + (1 + 8)) < 32 by omega, show ¬ i - (1 + (1 + (8 + 32))) < 9 by omega]

@[simp] theorem entryValid_nodeEntry (v l : Bool) (s : Symbol) (f a b : Nat) : entryValid (nodeEntry v l s f a b) = v := by
  rw [entryValid, nodeEntry_bits]; simp

@[simp] theorem entryLeaf_nodeEntry (v l : Bool) (s : Symbol) (f a b : Nat) : entryLeaf (nodeEntry v l s f a b) = l := by
  rw [entryLeaf, nodeEntry_bits]; simp

@[simp] theorem entrySym_nodeEntry (v l : Bool) (s : Symbol) (f a b : Nat) : entrySym (nodeEntry v l s f a b) = s := by
  apply BitVec.eq_of_getLsbD_eq
  intro i hi
  rw [entrySym, BitVec.getLsbD_extractLsb', nodeEntry_bits]
  simp [hi, show ¬ 2 + i < 1 by omega, show ¬ 2 + i < 2 by omega, show 2 + i < 10 by omega]

theorem entryFreq_nodeEntry (v l : Bool) (s : Symbol) (f a b : Nat) (h : f < 2 ^ 32) :
    entryFreq (nodeEntry v l s f a b) = f := by
  have : (nodeEntry v l s f a b).extractLsb' 10 32 = BitVec.ofNat 32 f := by
    apply BitVec.eq_of_getLsbD_eq
    intro i hi
    rw [BitVec.getLsbD_extractLsb', nodeEntry_bits]
    simp [hi, show ¬ 10 + i < 1 by omega, show ¬ 10 + i < 2 by omega, show 10 + i < 42 by omega]
  rw [entryFreq, this, BitVec.toNat_ofNat, Nat.mod_eq_of_lt h]

theorem entryLeft_nodeEntry (v l : Bool) (s : Symbol) (f a b : Nat) (h : a < 512) :
    entryLeft (nodeEntry v l s f a b) = a := by
  have : (nodeEntry v l s f a b).extractLsb' 42 9 = BitVec.ofNat 9 a := by
    apply BitVec.eq_of_getLsbD_eq
    intro i hi
    rw [BitVec.getLsbD_extractLsb', nodeEntry_bits]
    simp [hi, show ¬ 42 + i < 1 by omega, show ¬ 42 + i < 2 by omega, show ¬ 42 + i < 10 by omega,
      show 42 + i < 51 by omega]
  rw [entryLeft, this, BitVec.toNat_ofNat, Nat.mod_eq_of_lt (by omega)]

theorem entryRight_nodeEntry (v l : Bool) (s : Symbol) (f a b : Nat) (h : b < 512) :
    entryRight (nodeEntry v l s f a b) = b := by
  have : (nodeEntry v l s f a b).extractLsb' 51 9 = BitVec.ofNat 9 b := by
    apply BitVec.eq_of_getLsbD_eq
    intro i hi
    rw [BitVec.getLsbD_extractLsb', nodeEntry_bits]
    simp [hi, show ¬ 51 + i < 1 by omega, show ¬ 51 + i < 2 by omega, show ¬ 51 + i < 10 by omega,
      show ¬ 51 + i < 42 by omega]
  rw [entryRight, this, BitVec.toNat_ofNat, Nat.mod_eq_of_lt (by omega)]

theorem entryValid_invalidEntry (draw i : Nat) : entryValid (invalidEntry draw i) = false := by
  simp [entryValid, invalidEntry]

/-! ### The tree a table holds -/

/-- The indexes of a tree in a table, in the order of the walk. -/
def treeIndexes (tbl : Buf NodeElem) : Nat → HTree → List Nat
  | i, .leaf _ _ => [i]
  | i, .node _ l r =>
    match bufGet tbl i with
    | none => [i]
    | some e => i :: (treeIndexes tbl (entryLeft e) l ++ treeIndexes tbl (entryRight e) r)

theorem treeIndexes_pos (tbl : Buf NodeElem) (i : Nat) (t : HTree) : 1 ≤ (treeIndexes tbl i t).length := by
  cases t with
  | leaf s f => simp [treeIndexes]
  | node f l r => rw [treeIndexes]; split <;> simp

/-- The walk of a table that holds a tree at indexes that are new and admitted gives the tree. -/
theorem treeWalk_holds (tbl : Buf NodeElem) (t : HTree) : ∀ (i fuel : Nat) (seen : List Nat), TableHolds tbl i t →
    (treeIndexes tbl i t ++ seen).Nodup → (∀ j ∈ treeIndexes tbl i t, j < Config.maxNodes) →
    (treeIndexes tbl i t).length ≤ fuel →
    treeWalk tbl fuel i seen = .ok (t, (treeIndexes tbl i t).reverse ++ seen) := by
  induction t with
  | leaf s f =>
    intro i fuel seen h hn hb hf
    obtain ⟨e, h1, h2, h3, h4, h5⟩ := h
    cases fuel with
    | zero => simp [treeIndexes] at hf
    | succ fuel =>
      have hi : i < Config.maxNodes := hb i (by simp [treeIndexes])
      have hs : i ∉ seen := by simp [treeIndexes] at hn; exact hn.1
      rw [treeWalk, if_neg (by rintro (h | h); · omega
                               · exact hs h), h1]
      simp [h2, h3, h4, h5, treeIndexes]
  | node f l r ihl ihr =>
    intro i fuel seen h hn hb hf
    obtain ⟨e, h1, h2, h3, h4, h5, h6⟩ := h
    have hidx : treeIndexes tbl i (.node f l r) =
        i :: (treeIndexes tbl (entryLeft e) l ++ treeIndexes tbl (entryRight e) r) := by
      rw [treeIndexes, h1]
    rw [hidx] at hn hb hf ⊢
    cases fuel with
    | zero => simp at hf
    | succ fuel =>
      have hi : i < Config.maxNodes := hb i (by simp)
      have hn' := List.nodup_cons.1 hn
      have hs : i ∉ seen := fun hm => hn'.1 (List.mem_append_right _ hm)
      have hlen : (treeIndexes tbl (entryLeft e) l ++ treeIndexes tbl (entryRight e) r).length ≤ fuel := by
        simpa using hf
      rw [List.length_append] at hlen
      have hl := ihl (entryLeft e) fuel (i :: seen) h5 (by
          have hp : (treeIndexes tbl (entryLeft e) l ++ (i :: seen)).Sublist
              (treeIndexes tbl (entryLeft e) l ++ (i :: (treeIndexes tbl (entryRight e) r ++ seen))) :=
            List.Sublist.append_left ((List.sublist_append_right _ _).cons_cons i) _
          refine hp.nodup ?_
          rw [List.nodup_middle]
          simpa [List.append_assoc] using hn)
        (fun j hj => hb j (by simp [hj])) (by omega)
      have hr := ihr (entryRight e) fuel ((treeIndexes tbl (entryLeft e) l).reverse ++ (i :: seen)) h6 (by
          have hp : (treeIndexes tbl (entryRight e) r ++ ((treeIndexes tbl (entryLeft e) l).reverse ++ (i :: seen))).Perm
              (i :: (treeIndexes tbl (entryLeft e) l ++ treeIndexes tbl (entryRight e) r) ++ seen) := by
            have h1 : ((treeIndexes tbl (entryLeft e) l).reverse ++ (i :: seen)).Perm
                (i :: (treeIndexes tbl (entryLeft e) l ++ seen)) :=
              ((List.reverse_perm _).append_right _).trans List.perm_middle
            refine (h1.append_left _).trans (List.perm_middle.trans ?_)
            rw [List.cons_append]
            refine List.Perm.cons i ?_
            rw [← List.append_assoc]
            exact (List.perm_append_comm).append_right _
          exact hp.nodup_iff.2 hn)
        (fun j hj => hb j (by simp [hj])) (by omega)
      rw [treeWalk, if_neg (by rintro (h | h); · omega
                               · exact hs h), h1]
      simp [h2, h3, h4, hl, hr]

/-- A table that holds a tree at distinct admitted indexes is well formed, and its value is the tree (R108). -/
theorem treeOf_holds (tbl : Buf NodeElem) (t : HTree) (i : Nat) (h : TableHolds tbl i t)
    (hn : (treeIndexes tbl i t).Nodup) (hb : ∀ j ∈ treeIndexes tbl i t, j < Config.maxNodes) :
    treeOf tbl i = .ok (some t) := by
  have hi : i < Config.maxNodes := hb i (by cases t with
    | leaf s f => simp [treeIndexes]
    | node f l r => rw [treeIndexes]; split <;> simp)
  have hl : (treeIndexes tbl i t).length ≤ Config.maxNodes := by
    have : (treeIndexes tbl i t).toFinset ⊆ Finset.range Config.maxNodes := by
      intro j hj; simpa using hb j (by simpa using hj)
    have := Finset.card_le_card this
    rwa [List.toFinset_card_of_nodup hn, Finset.card_range] at this
  rw [treeOf, if_neg (by omega), treeWalk_holds tbl t i Config.maxNodes [] h (by simpa using hn) hb hl]

/-! ### Every table is well formed or refused (R108, R231, R342) -/

theorem childAt_node {tbl : Buf NodeElem} {i : Nat} {e : NodeElem} (hi : i < Config.maxNodes) (he : bufGet tbl i = some e)
    (hv : entryValid e = true) (hl : entryLeaf e = false) (right : Bool) :
    childAt tbl i right = some (if right then entryRight e else entryLeft e) := by
  simp [childAt, hi, he, hv, hl]

theorem childAt_eq_some {tbl : Buf NodeElem} {i j : Nat} {right : Bool} (h : childAt tbl i right = some j) :
    i < Config.maxNodes ∧ ∃ e, bufGet tbl i = some e ∧ entryValid e = true ∧ entryLeaf e = false ∧
      j = if right then entryRight e else entryLeft e := by
  unfold childAt at h
  split at h
  · next hi =>
    split at h
    · next e he =>
      split at h
      · next hc =>
        simp only [Bool.and_eq_true, Bool.not_eq_true'] at hc
        exact ⟨hi, e, he, hc.1, hc.2, (Option.some.inj h).symm⟩
      · cases h
    · cases h
  · cases h

theorem reachedAt_append {tbl : Buf NodeElem} (p q : List Bool) : ∀ i j, reachedAt tbl i p = some j →
    reachedAt tbl i (p ++ q) = reachedAt tbl j q := by
  induction p with
  | nil => intro i j h; cases h; rfl
  | cons b p ih =>
    intro i j h
    simp only [reachedAt, List.cons_append] at h ⊢
    cases hc : childAt tbl i b with
    | none => rw [hc] at h; cases h
    | some k => rw [hc] at h; exact ih k j h

theorem reachedAt_take {tbl : Buf NodeElem} (p : List Bool) : ∀ i j k, reachedAt tbl i p = some j →
    ∃ m, reachedAt tbl i (p.take k) = some m := by
  induction p with
  | nil => intro i j k _; exact ⟨i, by simp [reachedAt]⟩
  | cons b p ih =>
    intro i j k h
    cases k with
    | zero => exact ⟨i, rfl⟩
    | succ k =>
      simp only [reachedAt, List.take_succ_cons] at h ⊢
      cases hc : childAt tbl i b with
      | none => rw [hc] at h; cases h
      | some m => rw [hc] at h; exact ih m j k h

/-- A path in a table of good shape is shorter than the table is long. -/
theorem TableShape.path_lt {tbl : Buf NodeElem} {root : Nat} (h : TableShape tbl root) {p : List Bool} {i : Nat}
    (hp : reachedAt tbl root p = some i) : p.length < Config.maxNodes := by
  by_contra hc
  choose f hf using fun k => reachedAt_take p root i k hp
  have hinj : Set.InjOn f (Finset.range (p.length + 1) : Finset Nat) := by
    intro a ha b hb hab
    have ha' : a ≤ p.length := by have : a < p.length + 1 := by simpa using ha
                                  omega
    have hb' : b ≤ p.length := by have : b < p.length + 1 := by simpa using hb
                                  omega
    have := congrArg List.length (h.once _ _ _ (hf a) (by rw [hab]; exact hf b))
    simp only [List.length_take] at this
    omega
  have hm : ∀ a ∈ Finset.range (p.length + 1), f a ∈ Finset.range Config.maxNodes := fun a _ => by
    simpa using h.inTable _ _ (hf a)
  have := Finset.card_le_card_of_injOn f hm hinj
  simp only [Finset.card_range] at this
  omega

/-- The walk of a table of good shape gives the tree that stands in it, or stops at an entry never written. -/
theorem treeWalk_shape {tbl : Buf NodeElem} {root : Nat} (h : TableShape tbl root) (fuel : Nat) :
    ∀ (p : List Bool) (i : Nat) (seen : List Nat), reachedAt tbl root p = some i → Config.maxNodes ≤ p.length + fuel →
    (∀ j ∈ seen, ∃ q, reachedAt tbl root q = some j ∧ ¬ p <+: q) →
    (∃ t seen', treeWalk tbl fuel i seen = .ok (t, seen') ∧ TableHolds tbl i t ∧
      ∀ j ∈ seen', j ∈ seen ∨ ∃ q, reachedAt tbl root q = some j ∧ p <+: q) ∨
    (treeWalk tbl fuel i seen = .error .operandNotWritten ∧ ¬ TableWritten tbl root) := by
  induction fuel with
  | zero =>
    intro p i seen hp hf _
    have := h.path_lt hp
    omega
  | succ fuel ih =>
    intro p i seen hp hf hs
    have hi := h.inTable p i hp
    have hn : ¬ (Config.maxNodes ≤ i ∨ i ∈ seen) := by
      rintro (hc | hc)
      · omega
      · obtain ⟨q, hq, hpq⟩ := hs i hc
        rw [h.once p q i hp hq] at hpq
        exact hpq (List.prefix_refl q)
    rw [treeWalk, if_neg hn]
    cases he : bufGet tbl i with
    | none => exact .inr ⟨rfl, fun hw => hw p i hp hi he⟩
    | some e =>
      have hv := h.valid p i e hp he
      simp only [hv, Bool.true_eq_false, if_false]
      by_cases hl : entryLeaf e = true
      · refine .inl ⟨.leaf (entrySym e) (entryFreq e), i :: seen, by rw [if_pos hl], ⟨e, he, hv, hl, rfl, rfl⟩, fun j hj => ?_⟩
        rcases List.mem_cons.1 hj with rfl | hj
        · exact .inr ⟨p, hp, List.prefix_refl p⟩
        · exact .inl hj
      · have hl' : entryLeaf e = false := by simpa using hl
        have hstep : ∀ b, reachedAt tbl root (p ++ [b]) = some (if b then entryRight e else entryLeft e) := fun b => by
          rw [reachedAt_append p [b] root i hp]
          simp only [reachedAt, childAt_node hi he hv hl' b]
        have hlen : ∀ b, Config.maxNodes ≤ (p ++ [b]).length + fuel := fun b => by
          simp only [List.length_append, List.length_singleton]; omega
        have hfresh : ∀ b, ∀ j ∈ i :: seen, ∃ q, reachedAt tbl root q = some j ∧ ¬ (p ++ [b]) <+: q := by
          intro b j hj
          rcases List.mem_cons.1 hj with rfl | hj
          · exact ⟨p, hp, fun hc => by have := hc.length_le; simp at this⟩
          · obtain ⟨q, hq, hpq⟩ := hs j hj
            exact ⟨q, hq, fun hc => hpq ((List.prefix_append p [b]).trans hc)⟩
        rw [if_neg hl]
        rcases ih (p ++ [false]) (entryLeft e) (i :: seen) (hstep false) (hlen false) (hfresh false) with
          ⟨l, seen1, h1, h2, h3⟩ | ⟨h1, h2⟩
        · rw [h1]
          have hfresh' : ∀ j ∈ seen1, ∃ q, reachedAt tbl root q = some j ∧ ¬ (p ++ [true]) <+: q := by
            intro j hj
            rcases h3 j hj with hj | ⟨q, hq, hpq⟩
            · exact hfresh true j hj
            · refine ⟨q, hq, fun hc => ?_⟩
              obtain ⟨a, rfl⟩ := hpq
              obtain ⟨c, hc⟩ := hc
              simp at hc
          rcases ih (p ++ [true]) (entryRight e) seen1 (hstep true) (hlen true) hfresh' with
            ⟨r, seen2, h4, h5, h6⟩ | ⟨h4, h5⟩
          · refine .inl ⟨.node (entryFreq e) l r, seen2, by simp only [h4], ⟨e, he, hv, hl', rfl, h2, h5⟩, fun j hj => ?_⟩
            rcases h6 j hj with hj | ⟨q, hq, hpq⟩
            · rcases h3 j hj with hj | ⟨q, hq, hpq⟩
              · rcases List.mem_cons.1 hj with rfl | hj
                · exact .inr ⟨p, hp, List.prefix_refl p⟩
                · exact .inl hj
              · exact .inr ⟨q, hq, (List.prefix_append p [false]).trans hpq⟩
            · exact .inr ⟨q, hq, (List.prefix_append p [true]).trans hpq⟩
          · exact .inr ⟨by simp only [h4], h5⟩
        · exact .inr ⟨by rw [h1], h2⟩

/-- A walk that succeeds has met only written, valid entries of the table, each once, and they are all that is reached. -/
theorem treeWalk_sound {tbl : Buf NodeElem} (fuel : Nat) : ∀ (i : Nat) (seen : List Nat) (t : HTree) (seen' : List Nat),
    treeWalk tbl fuel i seen = .ok (t, seen') →
    ∃ new, seen' = new ++ seen ∧ (∀ j ∈ new, j ∉ seen) ∧ (∀ p j, reachedAt tbl i p = some j → j ∈ new) ∧
      TableShape tbl i ∧ TableWritten tbl i := by
  induction fuel with
  | zero => intro i seen t seen' h; cases h
  | succ fuel ih =>
    intro i seen t seen' h
    rw [treeWalk] at h
    split at h
    · cases h
    next hc =>
    simp only [not_or, not_le] at hc
    obtain ⟨hi, hs⟩ := hc
    cases he : bufGet tbl i with
    | none => rw [he] at h; cases h
    | some e =>
      rw [he] at h
      dsimp only at h
      split at h
      · cases h
      next hv =>
      have hv : entryValid e = true := by simpa using hv
      split at h
      · next hl =>
        cases h
        have hr : ∀ p j, reachedAt tbl i p = some j → p = [] ∧ j = i := by
          intro p j hp
          cases p with
          | nil => exact ⟨rfl, (Option.some.inj hp).symm⟩
          | cons b p =>
            exfalso
            simp only [reachedAt] at hp
            cases hb : childAt tbl i b with
            | none => rw [hb] at hp; cases hp
            | some k =>
              obtain ⟨-, e', he', -, hl', -⟩ := childAt_eq_some hb
              rw [he] at he'; cases he'
              rw [hl] at hl'; cases hl'
        refine ⟨[i], rfl, by simpa using hs, fun p j hp => by simp [(hr p j hp).2], ⟨?_, ?_, ?_⟩, ?_⟩
        · intro p j hp; rw [(hr p j hp).2]; exact hi
        · intro p j e' hp he'; rw [(hr p j hp).2, he] at he'; cases he'; exact hv
        · intro p q j hp hq; rw [(hr p j hp).1, (hr q j hq).1]
        · intro p j hp _; rw [(hr p j hp).2, he]; simp
      · next hl =>
        have hl : entryLeaf e = false := by simpa using hl
        cases h1 : treeWalk tbl fuel (entryLeft e) (i :: seen) with
        | error r => rw [h1] at h; cases h
        | ok x =>
          obtain ⟨l, seen1⟩ := x
          rw [h1] at h
          dsimp only at h
          cases h2 : treeWalk tbl fuel (entryRight e) seen1 with
          | error r => rw [h2] at h; cases h
          | ok y =>
            obtain ⟨r, seen2⟩ := y
            rw [h2] at h
            cases h
            obtain ⟨new1, rfl, a1, a2, a3, a4⟩ := ih _ _ _ _ h1
            obtain ⟨new2, rfl, b1, b2, b3, b4⟩ := ih _ _ _ _ h2
            have hleft : ∀ p, reachedAt tbl i (false :: p) = reachedAt tbl (entryLeft e) p := fun p => by
              simp [reachedAt, childAt_node hi he hv hl]
            have hright : ∀ p, reachedAt tbl i (true :: p) = reachedAt tbl (entryRight e) p := fun p => by
              simp [reachedAt, childAt_node hi he hv hl]
            have n1 : ∀ j ∈ new1, j ≠ i := fun j hj hji => a1 j hj (by simp [hji])
            have n2 : ∀ j ∈ new2, j ≠ i := fun j hj hji => b1 j hj (by simp [hji])
            have n3 : ∀ j ∈ new2, j ∉ new1 := fun j hj hm => b1 j hj (by simp [hm])
            refine ⟨new2 ++ (new1 ++ [i]), by simp, ?_, ?_, ⟨?_, ?_, ?_⟩, ?_⟩
            · intro j hj
              simp only [List.mem_append, List.mem_singleton] at hj
              rcases hj with hj | hj | rfl
              · exact fun hm => b1 j hj (by simp [hm])
              · exact fun hm => a1 j hj (by simp [hm])
              · exact hs
            · intro p j hp
              match p, hp with
              | [], hp => cases hp; simp
              | false :: p, hp => rw [hleft] at hp; simp [a2 p j hp]
              | true :: p, hp => rw [hright] at hp; simp [b2 p j hp]
            · intro p j hp
              match p, hp with
              | [], hp => cases hp; exact hi
              | false :: p, hp => rw [hleft] at hp; exact a3.inTable p j hp
              | true :: p, hp => rw [hright] at hp; exact b3.inTable p j hp
            · intro p j e' hp he'
              match p, hp with
              | [], hp => cases hp; rw [he] at he'; cases he'; exact hv
              | false :: p, hp => rw [hleft] at hp; exact a3.valid p j e' hp he'
              | true :: p, hp => rw [hright] at hp; exact b3.valid p j e' hp he'
            · intro p q j hp hq
              match p, q, hp, hq with
              | [], [], _, _ => rfl
              | [], false :: q, hp, hq => cases hp; rw [hleft] at hq; exact absurd rfl (n1 _ (a2 q _ hq))
              | [], true :: q, hp, hq => cases hp; rw [hright] at hq; exact absurd rfl (n2 _ (b2 q _ hq))
              | false :: p, [], hp, hq => cases hq; rw [hleft] at hp; exact absurd rfl (n1 _ (a2 p _ hp))
              | true :: p, [], hp, hq => cases hq; rw [hright] at hp; exact absurd rfl (n2 _ (b2 p _ hp))
              | false :: p, false :: q, hp, hq =>
                rw [hleft] at hp hq; rw [a3.once p q j hp hq]
              | true :: p, true :: q, hp, hq =>
                rw [hright] at hp hq; rw [b3.once p q j hp hq]
              | false :: p, true :: q, hp, hq =>
                rw [hleft] at hp; rw [hright] at hq; exact absurd (a2 p j hp) (n3 j (b2 q j hq))
              | true :: p, false :: q, hp, hq =>
                rw [hright] at hp; rw [hleft] at hq; exact absurd (a2 q j hq) (n3 j (b2 p j hp))
            · intro p j hp hj
              match p, hp with
              | [], hp => cases hp; rw [he]; simp
              | false :: p, hp => rw [hleft] at hp; exact a4 p j hp hj
              | true :: p, hp => rw [hright] at hp; exact b4 p j hp hj

/-- Where everything reached was written, a walk can only stop because the table is not well formed. -/
theorem treeWalk_written {tbl : Buf NodeElem} (fuel : Nat) : ∀ (i : Nat) (seen : List Nat) (why : Refusal), TableWritten tbl i →
    treeWalk tbl fuel i seen = .error why → why = .treeNotWellFormed := by
  induction fuel with
  | zero => intro i seen why _ h; cases h; rfl
  | succ fuel ih =>
    intro i seen why hw h
    rw [treeWalk] at h
    split at h
    · cases h; rfl
    next hc =>
    simp only [not_or, not_le] at hc
    cases he : bufGet tbl i with
    | none => exact absurd he (hw [] i rfl hc.1)
    | some e =>
      rw [he] at h
      dsimp only at h
      split at h
      · cases h; rfl
      next hv =>
      have hv : entryValid e = true := by simpa using hv
      split at h
      · cases h
      · next hl =>
        have hl : entryLeaf e = false := by simpa using hl
        have hchild : ∀ b : Bool, TableWritten tbl (if b then entryRight e else entryLeft e) := fun b p j hp hj =>
          hw (b :: p) j (by simpa [reachedAt, childAt_node hc.1 he hv hl b] using hp) hj
        cases h1 : treeWalk tbl fuel (entryLeft e) (i :: seen) with
        | error r => rw [h1] at h; cases h; exact ih _ _ _ (hchild false) h1
        | ok x =>
          rw [h1] at h
          dsimp only at h
          cases h2 : treeWalk tbl fuel (entryRight e) x.2 with
          | error r => rw [h2] at h; cases h; exact ih _ _ _ (hchild true) h2
          | ok y => rw [h2] at h; cases h

/-- What the tree operand is (R108, R231, R342): the tree in the table where it is well formed and written; else a refusal. -/
theorem treeOf_cases (tbl : Buf NodeElem) (root : Nat) (hr : root ≠ Config.maxNodes) :
    (TableShape tbl root ∧ TableWritten tbl root ∧ ∃ t, treeOf tbl root = .ok (some t) ∧ TableHolds tbl root t) ∨
    (TableShape tbl root ∧ ¬ TableWritten tbl root ∧ treeOf tbl root = .error .operandNotWritten) ∨
    (¬ TableShape tbl root ∧ ∃ why, treeOf tbl root = .error why ∧
      (TableWritten tbl root → why = .treeNotWellFormed)) := by
  rw [treeOf, if_neg hr]
  by_cases hs : TableShape tbl root
  · rcases treeWalk_shape hs Config.maxNodes [] root [] rfl (by simp) (by simp) with ⟨t, seen', h1, h2, -⟩ | ⟨h1, h2⟩
    · obtain ⟨-, -, -, -, -, hw⟩ := treeWalk_sound _ _ _ _ _ h1
      exact .inl ⟨hs, hw, t, by rw [h1], h2⟩
    · exact .inr (.inl ⟨hs, h2, by rw [h1]⟩)
  · refine .inr (.inr ⟨hs, ?_⟩)
    cases h1 : treeWalk tbl Config.maxNodes root [] with
    | ok x =>
      obtain ⟨-, -, -, -, h, -⟩ := treeWalk_sound _ _ _ _ _ h1
      exact absurd h hs
    | error why => exact ⟨why, rfl, fun hw => treeWalk_written _ _ _ _ hw h1⟩

/-! ### The table HTB.BUILD writes (R200) -/

theorem mergeLoop_entries (fuel : Nat) : ∀ (k : Nat) (q : List QNode), q.length ≤ fuel →
    (mergeLoop fuel k q).2.length = q.length - 1 := by
  induction fuel with
  | zero => intro k q h; rw [List.length_eq_zero_iff.1 (Nat.le_zero.1 h)]; rfl
  | succ fuel ih =>
    intro k q h
    match q, h with
    | [], _ => rfl
    | [n], _ => rfl
    | a :: b :: rest, h =>
      rw [mergeLoop_cons]
      have := ih (k + 1) (queueInsert (mergedNode k a b) rest) (by rw [queueInsert_length]; simp at h; omega)
      rw [queueInsert_length] at this
      simp [this]

/-- The table holds every tree of the queue, and no entry serves two of them. -/
structure TableReady (tbl : Buf NodeElem) (k : Nat) (q : List QNode) : Prop where
  holds : ∀ n ∈ q, TableHolds tbl n.seq n.tree
  distinct : (q.flatMap fun n => treeIndexes tbl n.seq n.tree).Nodup
  below : ∀ n ∈ q, ∀ i ∈ treeIndexes tbl n.seq n.tree, i < 256 + k
  freqs : ∀ n ∈ q, treeFreq n.tree = n.freq
  total : (q.map QNode.freq).sum < 2 ^ 32

theorem seq_mem_treeIndexes (tbl : Buf NodeElem) (i : Nat) (t : HTree) : i ∈ treeIndexes tbl i t := by
  cases t with
  | leaf s f => simp [treeIndexes]
  | node f l r => rw [treeIndexes]; split <;> simp

/-- The merge loop leaves a table that holds its result, wherever the table has the entries of its merges. -/
theorem mergeLoop_table (tbl : Buf NodeElem) (fuel : Nat) : ∀ (k : Nat) (q : List QNode), TableReady tbl k q →
    q.length ≤ fuel → k + q.length ≤ 256 →
    (∀ j (h : j < (mergeLoop fuel k q).2.length), bufGet tbl (256 + k + j) = some (mergeLoop fuel k q).2[j]) →
    ∀ n, (mergeLoop fuel k q).1 = some n → TableReady tbl 255 [n] := by
  induction fuel with
  | zero =>
    intro k q _ hl _ _ n hn
    rw [List.length_eq_zero_iff.1 (Nat.le_zero.1 hl)] at hn
    cases hn
  | succ fuel ih =>
    intro k q hq hl hk ht n hn
    match q, hq, hl, hk, ht, hn with
    | [], _, _, _, _, hn => cases hn
    | [m], hq, _, hk, _, hn =>
      cases hn
      exact ⟨hq.holds, hq.distinct, fun n hn i hi => by
        have := hq.below n hn i hi
        simp at hk; omega, hq.freqs, hq.total⟩
    | a :: b :: rest, hq, hl, hk, ht, hn =>
      rw [mergeLoop_cons] at hn ht
      have hp := queueInsert_perm (mergedNode k a b) rest
      have ha := hq.below a (by simp) _ (seq_mem_treeIndexes tbl a.seq a.tree)
      have hb := hq.below b (by simp) _ (seq_mem_treeIndexes tbl b.seq b.tree)
      simp only [List.length_cons] at hk hl
      have h0 := ht 0 (by simp)
      simp only [Nat.add_zero, List.getElem_cons_zero] at h0
      have htot := hq.total
      simp only [List.map_cons, List.sum_cons] at htot
      have hidx : treeIndexes tbl (256 + k) (mergedNode k a b).tree =
          (256 + k) :: (treeIndexes tbl a.seq a.tree ++ treeIndexes tbl b.seq b.tree) := by
        simp only [mergedNode, treeIndexes, h0]
        rw [entryLeft_nodeEntry _ _ _ _ _ _ (by omega), entryRight_nodeEntry _ _ _ _ _ _ (by omega)]
      have hdis := hq.distinct
      simp only [List.flatMap_cons] at hdis
      refine ih (k + 1) _ ⟨?_, ?_, ?_, ?_, ?_⟩ (by rw [queueInsert_length]; omega) (by rw [queueInsert_length]; omega)
        (fun j hj => ?_) n hn
      · intro m hm
        rcases List.mem_cons.1 (hp.mem_iff.1 hm) with rfl | hm
        · refine ⟨_, h0, by simp, by simp, entryFreq_nodeEntry _ _ _ _ _ _ (by omega), ?_, ?_⟩
          · rw [entryLeft_nodeEntry _ _ _ _ _ _ (by omega)]; exact hq.holds a (by simp)
          · rw [entryRight_nodeEntry _ _ _ _ _ _ (by omega)]; exact hq.holds b (by simp)
        · exact hq.holds m (by simp [hm])
      · rw [(hp.flatMap_right _).nodup_iff, List.flatMap_cons]
        show (treeIndexes tbl (256 + k) (mergedNode k a b).tree ++ _).Nodup
        rw [hidx, List.cons_append, List.nodup_cons, List.append_assoc]
        refine ⟨fun hm => ?_, hdis⟩
        simp only [List.mem_append, List.mem_flatMap] at hm
        rcases hm with hm | hm | ⟨m, hm, hi⟩
        · have := hq.below a (by simp) _ hm; omega
        · have := hq.below b (by simp) _ hm; omega
        · have := hq.below m (by simp [hm]) _ hi; omega
      · intro m hm i hi
        rcases List.mem_cons.1 (hp.mem_iff.1 hm) with rfl | hm
        · have hi' : i ∈ treeIndexes tbl (256 + k) (mergedNode k a b).tree := hi
          rw [hidx, List.mem_cons, List.mem_append] at hi'
          rcases hi' with rfl | hi | hi
          · omega
          · have := hq.below a (by simp) _ hi; omega
          · have := hq.below b (by simp) _ hi; omega
        · have := hq.below m (by simp [hm]) _ hi; omega
      · intro m hm
        rcases List.mem_cons.1 (hp.mem_iff.1 hm) with rfl | hm
        · rfl
        · exact hq.freqs m (by simp [hm])
      · rw [(hp.map QNode.freq).sum_eq]
        simp only [List.map_cons, List.sum_cons]
        show a.freq + b.freq + _ < _
        omega
      · have := ht (j + 1) (by simpa using hj)
        rw [List.getElem_cons_succ] at this
        rw [← this]
        congr 1
        omega

theorem freqTable_sum (s : List Symbol) : (freqTable s).sum = s.length := by
  induction s with
  | nil =>
    refine List.sum_eq_zero_iff.2 fun y hy => ?_
    obtain ⟨b, -, rfl⟩ := List.mem_map.1 hy
    rfl
  | cons x s ih =>
    have key : ∀ l : List Nat, (∀ b ∈ l, b < 256) → (l.map fun b => (x :: s).count (BitVec.ofNat 8 b)).sum =
        (l.map fun b => s.count (BitVec.ofNat 8 b)).sum + (l.map fun b => if b = x.toNat then 1 else 0).sum := by
      intro l hl
      induction l with
      | nil => rfl
      | cons b l ihl =>
        have h1 := ihl fun c hc => hl c (by simp [hc])
        have hb' : b < 256 := hl b (by simp)
        have h2 : (x :: s).count (BitVec.ofNat 8 b) = s.count (BitVec.ofNat 8 b) + if b = x.toNat then 1 else 0 := by
          rw [List.count_cons]
          by_cases hx : b = x.toNat
          · rw [if_pos hx, if_pos (by rw [hx, BitVec.ofNat_toNat, BitVec.setWidth_eq]; exact beq_self_eq_true x)]
          · have hne : x ≠ BitVec.ofNat 8 b := by
              intro hxb
              rw [hxb, BitVec.toNat_ofNat, Nat.mod_eq_of_lt hb'] at hx
              exact hx rfl
            rw [if_neg hx, if_neg (by rw [beq_false_of_ne hne]; exact Bool.false_ne_true)]
        rw [List.map_cons, List.map_cons, List.map_cons, List.sum_cons, List.sum_cons, List.sum_cons, h1, h2]
        omega
    have h : (freqTable (x :: s)).sum = (freqTable s).sum + ((List.range 256).map fun b => if b = x.toNat then 1 else 0).sum :=
      key (List.range 256) fun b hb => List.mem_range.1 hb
    rw [h, ih, List.length_cons]
    have hx : x.toNat < 256 := x.isLt
    have h1 : ∀ n m, m < n → ((List.range n).map fun b => if b = m then 1 else 0).sum = 1 := by
      intro n
      induction n with
      | zero => intro m h; omega
      | succ n ihn =>
        intro m hm
        rw [List.range_succ, List.map_append, List.sum_append]
        by_cases hmn : m = n
        · subst hmn
          have : ((List.range m).map fun b => if b = m then 1 else 0).sum = 0 := by
            rw [List.sum_eq_zero_iff]
            intro y hy
            obtain ⟨b, hb, rfl⟩ := List.mem_map.1 hy
            have : b < m := by simpa using hb
            simp; omega
          simp [this]
        · rw [ihn m (by omega)]
          simp [Ne.symm hmn]
    rw [h1 256 x.toNat hx]

theorem leavesFrom_ready (tbl : Buf NodeElem) (s : List Symbol) (hs : s.length < 2 ^ 32)
    (ht : ∀ i (h : i < (freqTable s).length), (freqTable s)[i] ≠ 0 →
      bufGet tbl i = some (nodeEntry true true (BitVec.ofNat 8 i) (freqTable s)[i] 0 0)) :
    TableReady tbl 0 (leavesFrom 0 (freqTable s)) := by
  have hsum : ((leavesFrom 0 (freqTable s)).map QNode.freq).sum < 2 ^ 32 := by
    rw [leavesFrom_sum, freqTable_sum]; exact hs
  have hidx : ∀ n ∈ leavesFrom 0 (freqTable s), treeIndexes tbl n.seq n.tree = [n.seq] := by
    intro n hn
    obtain ⟨i, -, -, rfl⟩ := mem_leavesFrom.1 hn
    rfl
  refine ⟨fun n hn => ?_, ?_, fun n hn i hi => ?_, fun n hn => ?_, hsum⟩
  · obtain ⟨i, hi, h1, rfl⟩ := mem_leavesFrom.1 hn
    simp only [Nat.zero_add]
    refine ⟨_, ht i hi h1, by simp, by simp, by simp, entryFreq_nodeEntry _ _ _ _ _ _ ?_⟩
    have h2 : (freqTable s)[i] ≤ (freqTable s).sum := List.single_le_sum (by simp) _ (List.getElem_mem _)
    rw [freqTable_sum] at h2
    omega
  · have : (leavesFrom 0 (freqTable s)).flatMap (fun n => treeIndexes tbl n.seq n.tree) =
        (leavesFrom 0 (freqTable s)).map QNode.seq := by
      rw [List.map_eq_flatMap]
      exact List.flatMap_congr hidx
    rw [this]
    exact leavesFrom_seqs_nodup 0 _
  · rw [hidx n hn, List.mem_singleton] at hi
    obtain ⟨j, hj, -, rfl⟩ := mem_leavesFrom.1 hn
    have : j < 256 := by simpa using hj
    show i < 256 + 0
    rw [hi]
    show 0 + j < 256 + 0
    omega
  · obtain ⟨i, -, -, rfl⟩ := mem_leavesFrom.1 hn
    rfl

theorem TableReady.of_perm {tbl : Buf NodeElem} {k : Nat} {q q' : List QNode} (h : TableReady tbl k q) (hp : q'.Perm q) :
    TableReady tbl k q' :=
  ⟨fun n hn => h.holds n (hp.mem_iff.1 hn), (hp.flatMap_right _).nodup_iff.2 h.distinct,
    fun n hn => h.below n (hp.mem_iff.1 hn), fun n hn => h.freqs n (hp.mem_iff.1 hn),
    by rw [(hp.map QNode.freq).sum_eq]; exact h.total⟩

theorem treeTable_get (draw : Nat) (freqs : List Nat) (merges : List NodeElem) (i : Nat)
    (h : i < (treeTable draw freqs merges).length) :
    (treeTable draw freqs merges)[i] =
      if i < 256 then
        if freqs.getD i 0 = 0 then invalidEntry draw i
        else nodeEntry true true (BitVec.ofNat 8 i) (freqs.getD i 0) 0 0
      else (merges[i - 256]?).getD (invalidEntry draw i) := by simp [treeTable]

@[simp] theorem treeTable_length (draw : Nat) (freqs : List Nat) (merges : List NodeElem) :
    (treeTable draw freqs merges).length = Config.maxNodes := by simp [treeTable]

@[simp] theorem codeTable_length (tab : List (Symbol × List Bool)) : (codeTable tab).length = Config.numCodes := by
  simp [codeTable]

/-- The table of a stream holds the tree of the stream under its root index, and the root index is in range. -/
theorem treeTable_ready (draw : Nat) (s : List Symbol) (hs : s.length < 2 ^ 32) (tbl : Buf NodeElem)
    (ht : Stored tbl (treeTable draw (freqTable s) (buildTree s).2)) (n : QNode) (hn : (buildTree s).1 = some n) :
    TableReady tbl 255 [n] := by
  have hq := (leavesFrom_ready tbl s hs (fun i hi h0 => by
    have hi' : i < 256 := by simpa using hi
    have h1 := ht i (by simp [Config.maxNodes]; omega)
    rw [treeTable_get, if_pos hi'] at h1
    simpa [hi', h0] using h1)).of_perm (seedQueue_perm (freqTable s))
  have hlen : (seedQueue (freqTable s)).length ≤ 256 := by
    rw [(seedQueue_perm _).length_eq]
    simpa using leavesFrom_length (freqTable s) 0
  refine mergeLoop_table tbl _ 0 _ hq (le_refl _) (by omega) (fun j hj => ?_) n hn
  have hj' : j < 255 := by
    rw [mergeLoop_entries _ _ _ (le_refl _)] at hj; omega
  have h1 := ht (256 + 0 + j) (by simp [Config.maxNodes]; omega)
  rw [treeTable_get, if_neg (by omega)] at h1
  have h2 : 256 + 0 + j - 256 = j := by omega
  rw [h1, h2]
  show some (((mergeLoop _ 0 (seedQueue (freqTable s))).2[j]?).getD _) = _
  rw [List.getElem?_eq_getElem hj]
  rfl

/-- The value of the tree table that `HTB.BUILD` writes is the tree it built (R108, R200). -/
theorem treeOf_treeTable (draw : Nat) (s : List Symbol) (hs : s.length < 2 ^ 32) (tbl : Buf NodeElem)
    (ht : Stored tbl (treeTable draw (freqTable s) (buildTree s).2)) :
    treeOf tbl (rootIndex (buildTree s).1) = .ok ((buildTree s).1.map QNode.tree) := by
  cases hn : (buildTree s).1 with
  | none => rfl
  | some n =>
    have h := treeTable_ready draw s hs tbl ht n hn
    refine treeOf_holds tbl n.tree n.seq (h.holds n (by simp)) (by simpa using h.distinct) fun j hj => ?_
    have := h.below n (by simp) j hj
    simp only [Config.maxNodes]; omega

theorem rootIndex_le (s : List Symbol) (hs : s.length < 2 ^ 32) : rootIndex (buildTree s).1 ≤ 511 := by
  cases hn : (buildTree s).1 with
  | none => simp [rootIndex, Config.maxNodes]
  | some n =>
    have h := treeTable_ready 0 s hs _ (Stored_bufWriteList [] _) n hn
    have := h.below n (by simp) _ (seq_mem_treeIndexes _ _ _)
    simp only [rootIndex]; omega

/-! ### Code-table entries (R109) -/

theorem entryCodeLen_codeEntry (c : List Bool) (h : c.length ≤ 255) : entryCodeLen (codeEntry c) = c.length := by
  have h1 : 2 ^ (263 - c.length) = 2 ^ 8 * 2 ^ (255 - c.length) := by
    rw [← Nat.pow_add]; congr 1; omega
  rw [entryCodeLen, codeEntry, BitVec.extractLsb'_toNat, BitVec.toNat_ofNat, h1, Nat.shiftRight_zero,
    Nat.mod_mod_of_dvd _ (Nat.pow_dvd_pow 2 (by omega)), Nat.mul_comm (bitsValue c), Nat.mul_assoc, Nat.add_mul_mod_self_left,
    Nat.mod_eq_of_lt (by omega)]

theorem entryCode_codeEntry (c : List Bool) (h : c.length ≤ 255) : entryCode (codeEntry c) = c := by
  apply List.ext_getElem
  · simp [entryCode, entryCodeLen_codeEntry c h]
  · intro j h1 h2
    simp only [entryCode, List.getElem_map, List.getElem_range, codeEntry, BitVec.getLsbD_ofNat]
    have hlt : c.length < 2 ^ (263 - c.length) :=
      (show c.length < 2 ^ 8 by omega).trans_le (Nat.pow_le_pow_right (by omega) (by omega))
    rw [Nat.add_comm, Nat.mul_comm, Nat.testBit_two_pow_mul_add _ hlt, if_neg (by omega)]
    have h3 : 262 - j - (263 - c.length) = c.length - 1 - j := by omega
    rw [h3, bitsValue_testBit c _ (by omega)]
    have h4 : c.length - 1 - (c.length - 1 - j) = j := by omega
    rw [h4]
    simp [h2, show 262 - j < 263 by omega]

/-- The code a code table gives a symbol (R109): the one it was made from. -/
theorem tableCode_codeTable (tab : List (Symbol × List Bool)) (h : ∀ p ∈ tab, p.2 ≠ [] ∧ p.2.length ≤ 255) (s : Symbol) :
    tableCode (codeTable tab) s = codeFor tab s := by
  have hs : s.toNat < 256 := s.isLt
  have hs' : s.toNat < Config.numCodes := hs
  have hget : (codeTable tab)[s.toNat]? = some (codeEntry ((codeFor tab s).getD [])) := by
    rw [codeTable, List.getElem?_map, List.getElem?_range hs', Option.map_some, BitVec.ofNat_toNat, BitVec.setWidth_eq]
  rw [tableCode, hget]
  simp only
  cases hc : codeFor tab s with
  | none => rw [Option.getD_none, entryCodeLen_codeEntry [] (by simp)]; simp
  | some c =>
    obtain ⟨h1, h2⟩ := h _ (mem_of_lookup hc)
    rw [Option.getD_some, entryCodeLen_codeEntry c h2, entryCode_codeEntry c h2, if_neg]
    exact fun h0 => h1 (List.length_eq_zero_iff.1 h0)

theorem codesOf_bounds (t : Option HTree) (h : ((t.map leafSyms).getD []).length ≤ 256) :
    ∀ p ∈ codesOf t, p.2 ≠ [] ∧ p.2.length ≤ 255 := by
  intro p hp
  cases t with
  | none => simp [codesOf] at hp
  | some t =>
    cases t with
    | leaf s f => simp only [codesOf, List.mem_singleton] at hp; simp [hp]
    | node f l r =>
      have := walkCodes_length _ p hp
      have h' : (leafSyms (.node f l r)).length ≤ 256 := h
      exact ⟨walkCodes_node_pos (f := f) hp, by omega⟩

/-! ### HEN.ENC -/

/-- Every symbol coded: the codes are concatenated; and if the encoding succeeds, every symbol is coded. -/
theorem encodeSymbols_eq (tab : List CodeElem) (xs : List Symbol) (code : Symbol → List Bool)
    (h : ∀ x ∈ xs, tableCode tab x = some (code x)) : encodeSymbols tab xs = some (xs.flatMap code) := by
  induction xs with
  | nil => rfl
  | cons x xs ih => rw [encodeSymbols, h x (by simp), ih fun y hy => h y (by simp [hy])]; rfl

theorem encodeSymbols_none (tab : List CodeElem) (xs : List Symbol) (x : Symbol) (hx : x ∈ xs)
    (h : tableCode tab x = none) : encodeSymbols tab xs = none := by
  induction xs with
  | nil => simp at hx
  | cons y xs ih =>
    rw [encodeSymbols]
    rcases List.mem_cons.1 hx with rfl | hx
    · rw [h]
    · cases tableCode tab y with
      | none => rfl
      | some c => simp [ih hx]

theorem tableCode_length (tab : List CodeElem) (s : Symbol) (c : List Bool) (h : tableCode tab s = some c) :
    1 ≤ c.length ∧ c.length ≤ 255 := by
  rw [tableCode] at h
  split at h
  · cases h
  · next e _ =>
    split at h
    · cases h
    · next h0 =>
      cases h
      have : entryCodeLen e < 2 ^ 8 := BitVec.isLt _
      simp [entryCode]; omega

theorem encodeSymbols_length (tab : List CodeElem) (xs : List Symbol) : ∀ bits, encodeSymbols tab xs = some bits →
    xs.length ≤ bits.length ∧ bits.length ≤ 255 * xs.length := by
  induction xs with
  | nil => intro bits h; cases h; simp
  | cons x xs ih =>
    intro bits h
    rw [encodeSymbols] at h
    split at h
    · cases h
    · next c hc =>
      obtain ⟨b, hb, rfl⟩ := Option.map_eq_some_iff.1 h
      have := ih b hb
      have := tableCode_length tab x c hc
      simp; omega

/-- The table `HTB.BUILD` derives from a stream codes every symbol of the stream (R199 (a), R221). -/
theorem encodeSymbols_buildTree (s : List Symbol) : ∃ code : Symbol → List Bool,
    (∀ x ∈ s, (x, code x) ∈ codesOf ((buildTree s).1.map QNode.tree)) ∧
    encodeSymbols (codeTable (codesOf ((buildTree s).1.map QNode.tree))) s = some (s.flatMap code) := by
  have ha := buildTree_admitted s
  obtain ⟨h1, h2⟩ := ha.leaves
  refine ⟨fun x => (codeFor (codesOf ((buildTree s).1.map QNode.tree)) x).getD [], fun x hx => ?_, ?_⟩
  · obtain ⟨c, hc⟩ := Option.isSome_iff_exists.1 ((codeFor_isSome _ x).2 ((h2 x).2 hx))
    show (x, (codeFor (codesOf ((buildTree s).1.map QNode.tree)) x).getD []) ∈ _
    rw [hc]
    exact mem_of_lookup hc
  · refine encodeSymbols_eq _ _ _ fun x hx => ?_
    rw [tableCode_codeTable _ (codesOf_bounds _ ha.size)]
    obtain ⟨c, hc⟩ := Option.isSome_iff_exists.1 ((codeFor_isSome _ x).2 ((h2 x).2 hx))
    rw [hc]
    rfl

end Sys2Proof.Machine
end

