-- ==== Sys2Proof/Laws/Lzw.lean ====
section
/-! SUPPORT. The values of LZW: the strings of a code stream, the encoder and the decoder read as strings, and the round trip. -/

namespace Sys2Proof.Machine

/-! ### The entries that strings define -/

/-- Entry `256 + m` of both dictionaries (R254, R277): the string of code `m` with the first byte of the next string. -/
def lzwEntries (strings : List (List Symbol)) : List (List Symbol) :=
  List.zipWith (fun a b => a ++ b.take 1) strings strings.tail

theorem lzwEntries_length (t : List (List Symbol)) : (lzwEntries t).length = t.length - 1 := by
  simp [lzwEntries]

theorem lzwEntries_get (t : List (List Symbol)) (m : Nat) (h : m < (lzwEntries t).length)
    (h1 : m < t.length) (h2 : m + 1 < t.length) : (lzwEntries t)[m] = t[m] ++ t[m + 1].take 1 := by
  simp [lzwEntries]

/-- One more string defines one more entry. -/
theorem lzwEntries_snoc (t : List (List Symbol)) (w x : List Symbol) :
    lzwEntries (t ++ [w] ++ [x]) = lzwEntries (t ++ [w]) ++ [w ++ x.take 1] := by
  induction t with
  | nil => rfl
  | cons a t ih =>
    have h : ∀ (u : List (List Symbol)) (b : List Symbol), lzwEntries (a :: (u ++ [b])) =
        (a ++ ((u ++ [b]).head (by simp)).take 1) :: lzwEntries (u ++ [b]) := by
      intro u b
      cases u <;> rfl
    have e1 : a :: t ++ [w] ++ [x] = a :: ((t ++ [w]) ++ [x]) := rfl
    have e2 : a :: t ++ [w] = a :: (t ++ [w]) := rfl
    rw [e1, e2, h, h, ih]
    simp [List.head_append]

theorem lzwEntries_last (t : List (List Symbol)) (w v : List Symbol) (h : w.take 1 = v.take 1) :
    lzwEntries (t ++ [w]) = lzwEntries (t ++ [v]) := by
  induction t using List.reverseRecOn with
  | nil => rfl
  | append_singleton t a _ => rw [lzwEntries_snoc, lzwEntries_snoc, h]

/-! ### Strings of a code stream -/

theorem LzwStrings.nil : LzwStrings [] [] := ⟨rfl, by simp, by simp, by simp⟩

/-- A code stream read as strings, extended by one code. -/
theorem LzwStrings.snoc {codes : List Nat} {strings : List (List Symbol)} (h : LzwStrings codes strings) {k : Nat}
    {w : List Symbol} (hw : w ≠ [])
    (hk : (k < Config.numSeed ∧ w = [BitVec.ofNat 8 k]) ∨
      (∃ m, ∃ hm : m < strings.length, k = Config.numSeed + m ∧
        w = strings[m] ++ ((strings ++ [w])[m + 1]'(by simp; omega)).take 1)) :
    LzwStrings (codes ++ [k]) (strings ++ [w]) := by
  obtain ⟨h1, h2, h3, h4⟩ := h
  refine ⟨by simp [h1], ?_, ?_, ?_⟩
  · intro s hs
    rcases List.mem_append.1 hs with hs | hs
    · exact h2 s hs
    · rw [List.mem_singleton.1 hs]; exact hw
  · intro j hj hj' hlt
    by_cases hjl : j < codes.length
    · have hjl' : j < strings.length := by omega
      rw [List.getElem_append_left hjl'] 
      rw [List.getElem_append_left hjl] at hlt ⊢
      exact h3 j hjl hjl' hlt
    · have hje : j = codes.length := by simp at hj; omega
      subst hje
      have e2 : (strings ++ [w])[codes.length]'hj' = w := by
        rw [List.getElem_append_right (by omega)]; simp
      simp only [List.getElem_concat_length] at hlt ⊢
      rw [e2]
      rcases hk with ⟨-, hk⟩ | ⟨m, -, hk, -⟩
      · exact hk
      · omega
  · intro j hj hj' hge
    by_cases hjl : j < codes.length
    · have hjl' : j < strings.length := by omega
      rw [List.getElem_append_left hjl] at hge ⊢
      obtain ⟨m, hm, e1, e2⟩ := h4 j hjl hjl' hge
      refine ⟨m, hm, e1, ?_⟩
      rw [List.getElem_append_left hjl', List.getElem_append_left (show m < strings.length by omega),
        List.getElem_append_left (show m + 1 < strings.length by omega)]
      exact e2
    · have hje : j = codes.length := by simp at hj; omega
      subst hje
      have e2 : (strings ++ [w])[codes.length]'hj' = w := by
        rw [List.getElem_append_right (by omega)]; simp
      simp only [List.getElem_concat_length] at hge ⊢
      rw [e2]
      rcases hk with ⟨hk, -⟩ | ⟨m, hm, hk, hw'⟩
      · omega
      · refine ⟨m, by omega, hk, ?_⟩
        rw [List.getElem_append_left hm]
        exact hw'

/-! ### The encoder -/

theorem seedDict_lookup (b : Symbol) : seedDict.lookup [b] = some b.toNat := by
  have : ∀ n, b.toNat < n → ((List.range n).map fun b => ([BitVec.ofNat 8 b], b)).lookup [b] = some b.toNat ∨ 256 < n := by
    intro n
    induction n with
    | zero => intro h; omega
    | succ n ih =>
      intro h
      by_cases hn : 256 < n + 1
      · exact .inr hn
      · left
        rw [List.range_succ, List.map_append, List.lookup_append]
        by_cases hb : b.toNat < n
        · rcases ih hb with h1 | h1
          · rw [h1]; rfl
          · omega
        · have hb' : b.toNat = n := by omega
          have h1 : ((List.range n).map fun b => ([BitVec.ofNat 8 b], b)).lookup [b] = none := by
            rw [List.lookup_eq_none_iff]
            intro p hp
            obtain ⟨c, hc, rfl⟩ := List.mem_map.1 hp
            have hc' : c < n := List.mem_range.1 hc
            refine bne_iff_ne.2 fun h2 => ?_
            have h3 : b = BitVec.ofNat 8 c := by simpa using h2
            rw [h3, BitVec.toNat_ofNat, Nat.mod_eq_of_lt (by omega)] at hb'
            omega
          rw [h1]
          have h2 : b = BitVec.ofNat 8 n := by rw [← hb']; simp
          simp [← h2, hb']
  rcases this 256 b.isLt with h | h
  · exact h
  · omega

theorem seedDict_mem {w : List Symbol} {k : Nat} (h : (w, k) ∈ seedDict) :
    k < Config.numSeed ∧ w = [BitVec.ofNat 8 k] := by
  obtain ⟨b, hb, h1⟩ := List.mem_map.1 h
  cases h1
  exact ⟨List.mem_range.1 hb, rfl⟩

/-- The encoder's dictionary after the strings `done`, with `w` under way (R254). -/
def encoderDict (done : List (List Symbol)) (w : List Symbol) : List (List Symbol × Nat) :=
  seedDict ++ (lzwEntries (done ++ [w])).zipIdx Config.numSeed

theorem encoderDict_mem {done : List (List Symbol)} {w v : List Symbol} {k : Nat} (h : (v, k) ∈ encoderDict done w) :
    (k < Config.numSeed ∧ v = [BitVec.ofNat 8 k]) ∨
      ∃ m, ∃ hm : m < done.length, k = Config.numSeed + m ∧
        v = done[m] ++ ((done ++ [w])[m + 1]'(by simp; omega)).take 1 := by
  rcases List.mem_append.1 h with h | h
  · exact .inl (seedDict_mem h)
  · right
    obtain ⟨h1, h2, h3⟩ := List.mem_zipIdx h
    have hlen : (lzwEntries (done ++ [w])).length = done.length := by rw [lzwEntries_length]; simp
    have hm : k - Config.numSeed < done.length := by omega
    refine ⟨k - Config.numSeed, hm, by omega, ?_⟩
    rw [h3, lzwEntries_get _ _ _ (by simp; omega) (by simp; omega), List.getElem_append_left hm]

theorem encoderDict_snoc (done : List (List Symbol)) (w : List Symbol) (c : Symbol) :
    encoderDict done w ++ [(w ++ [c], Config.numSeed + done.length)] = encoderDict (done ++ [w]) [c] := by
  rw [encoderDict, encoderDict, lzwEntries_snoc, List.zipIdx_append, List.append_assoc, lzwEntries_length]
  simp

theorem lookup_isSome_of_mem {α β : Type} [BEq α] [LawfulBEq α] {l : List (α × β)} {a : α} {b : β} (h : (a, b) ∈ l) :
    ∃ c, l.lookup a = some c := by
  cases hl : l.lookup a with
  | some c => exact ⟨c, rfl⟩
  | none =>
    rw [List.lookup_eq_none_iff] at hl
    simpa using hl _ h

theorem greedy_snoc {done : List (List Symbol)} {w : List Symbol} {c : Symbol} (hg : LzwGreedy (done ++ [w]))
    (hn : (encoderDict done w).lookup (w ++ [c]) = none) : LzwGreedy (done ++ [w] ++ [[c]]) := by
  intro j hj m hm
  have hlen : (lzwEntries (done ++ [w])).length = done.length := by rw [lzwEntries_length]; simp
  by_cases hj' : j < done.length
  · have h1 := hg j (by simp; omega) m hm
    rw [List.getElem_append_left (show j < (done ++ [w]).length by simp; omega),
      List.getElem_append_left (show j + 1 < (done ++ [w]).length by simp; omega),
      List.getElem_append_left (show m < (done ++ [w]).length by simp; omega),
      List.getElem_append_left (show m + 1 < (done ++ [w]).length by simp; omega)]
    exact h1
  · have hje : j = done.length := by simp at hj; omega
    subst hje
    have e1 : (done ++ [w] ++ [[c]])[done.length] = w := by simp
    have e2 : (done ++ [w] ++ [[c]])[done.length + 1] = [c] := by
      rw [List.getElem_append_right (by simp)]; simp
    rw [e1, e2]
    rw [List.getElem_append_left (show m < (done ++ [w]).length by simp; omega),
      List.getElem_append_left (show m + 1 < (done ++ [w]).length by simp; omega)]
    intro heq
    have heq' : w ++ [c] = (lzwEntries (done ++ [w]))[m]'(by omega) := by
      rw [lzwEntries_get _ _ _ (by simp; omega) (by simp; omega)]
      exact heq
    have hmem : (w ++ [c], Config.numSeed + m) ∈ encoderDict done w := by
      refine List.mem_append_right _ ?_
      rw [heq', List.mk_add_mem_zipIdx_iff_getElem?]
      simp [show m < (lzwEntries (done ++ [w])).length by omega]
    obtain ⟨k, hk⟩ := lookup_isSome_of_mem hmem
    rw [hk] at hn
    cases hn

/-- The encoder from any point on: its codes are read as strings that end the byte stream, each the longest match. -/
theorem lzwEncodeFrom_strings (input : List Symbol) : ∀ (codes : List Nat) (done : List (List Symbol)) (w : List Symbol),
    LzwStrings codes done → w ≠ [] → (∃ k, (encoderDict done w).lookup w = some k) → LzwGreedy (done ++ [w]) →
    ∃ strings, LzwStrings (codes ++ lzwEncodeFrom (encoderDict done w) (Config.numSeed + done.length) w input) strings ∧
      LzwGreedy strings ∧ strings.flatten = done.flatten ++ w ++ input := by
  induction input with
  | nil =>
    intro codes done w hs hw ⟨k, hk⟩ hg
    refine ⟨done ++ [w], ?_, hg, by simp⟩
    rw [lzwEncodeFrom, if_neg hw, dictCode, hk, Option.getD_some]
    exact hs.snoc hw (encoderDict_mem (mem_of_lookup hk))
  | cons c rest ih =>
    intro codes done w hs hw ⟨k, hk⟩ hg
    have htake : (w ++ [c]).take 1 = w.take 1 := by cases w with
      | nil => exact absurd rfl hw
      | cons a w => rfl
    rw [lzwEncodeFrom]
    cases hl : (encoderDict done w).lookup (w ++ [c]) with
    | some k' =>
      have hd : encoderDict done (w ++ [c]) = encoderDict done w := by
        rw [encoderDict, encoderDict, lzwEntries_last done _ _ htake]
      have hg' : LzwGreedy (done ++ [w ++ [c]]) := by
        intro j hj m hm
        have hj' : j < done.length := by simpa using hj
        have := hg j (by simpa using hj') m hm
        have hget : ∀ i (h1 : i < (done ++ [w]).length) (h2 : i < (done ++ [w ++ [c]]).length),
            ((done ++ [w ++ [c]])[i]).take 1 = ((done ++ [w])[i]).take 1 := by
          intro i h1 h2
          by_cases hi : i < done.length
          · rw [List.getElem_append_left hi, List.getElem_append_left hi]
          · have : i = done.length := by simp at h1; omega
            subst this
            simp [htake]
        rw [hget (j + 1) (by simp; omega) (by simp; omega), hget (m + 1) (by simp; omega) (by simp; omega),
          List.getElem_append_left hj', List.getElem_append_left (show m < done.length by omega)]
        rw [List.getElem_append_left hj', List.getElem_append_left (show m < done.length by omega)] at this
        exact this
      obtain ⟨strings, h1, h2, h3⟩ := ih codes done (w ++ [c]) hs (by simp) ⟨k', by rw [hd]; exact hl⟩ hg'
      rw [hd] at h1
      exact ⟨strings, h1, h2, by rw [h3]; simp⟩
    | none =>
      have hs' := hs.snoc hw (encoderDict_mem (mem_of_lookup hk))
      obtain ⟨strings, h1, h2, h3⟩ := ih (codes ++ [k]) (done ++ [w]) [c] hs' (by simp)
        ⟨c.toNat, by rw [encoderDict, List.lookup_append, seedDict_lookup]; rfl⟩ (greedy_snoc hg hl)
      refine ⟨strings, ?_, h2, by rw [h3]; simp⟩
      rw [← encoderDict_snoc, List.length_append, List.length_singleton, List.append_assoc] at h1
      rw [dictCode, hk, Option.getD_some]
      exact h1

/-- The code stream of a byte stream, read as strings: they are the byte stream, each the longest match (R252, R254). -/
theorem lzwEncode_strings (b : List Symbol) : ∃ strings, LzwStrings (lzwEncode b) strings ∧ LzwGreedy strings ∧
    strings.flatten = b := by
  cases b with
  | nil => exact ⟨[], LzwStrings.nil, by intro j hj; simp at hj, rfl⟩
  | cons c rest =>
    have hd : encoderDict [] [c] = seedDict := by simp [encoderDict, lzwEntries]
    have h := lzwEncodeFrom_strings rest [] [] [c] LzwStrings.nil (by simp)
      ⟨c.toNat, by rw [hd]; exact seedDict_lookup c⟩ (by intro j hj; simp at hj)
    rw [hd] at h
    have e : lzwEncode (c :: rest) = lzwEncodeFrom seedDict Config.numSeed [c] rest := by
      rw [lzwEncode, lzwEncodeFrom, List.nil_append, seedDict_lookup]
    rw [e]
    simpa using h

/-! ### The decoder -/

theorem seedStrings_get (k : Nat) (h : k < seedStrings.length) : seedStrings[k] = [BitVec.ofNat 8 k] := by
  simp [seedStrings]

@[simp] theorem seedStrings_length : seedStrings.length = Config.numSeed := by simp [seedStrings]

/-- The decoder's dictionary after the strings `done` (R277). -/
def decoderDict (done : List (List Symbol)) : List (List Symbol) := seedStrings ++ lzwEntries done

theorem decoderDict_length (done : List (List Symbol)) (w : List Symbol) :
    (decoderDict (done ++ [w])).length = Config.numSeed + done.length := by
  rw [decoderDict, List.length_append, seedStrings_length, lzwEntries_length]; simp

theorem decoderDict_snoc (done : List (List Symbol)) (w e : List Symbol) :
    decoderDict (done ++ [w]) ++ [w ++ e.take 1] = decoderDict (done ++ [w] ++ [e]) := by
  rw [decoderDict, decoderDict, lzwEntries_snoc, List.append_assoc]

/-- The entry a code in range names is a non-empty string that extends the strings read so far. -/
theorem lzwEntry_snoc {codes : List Nat} {done : List (List Symbol)} {w : List Symbol}
    (h : LzwStrings codes (done ++ [w])) (k : Nat) (hk : k ≤ Config.numSeed + done.length) :
    ∃ e, lzwEntry (decoderDict (done ++ [w])) w k = some e ∧ LzwStrings (codes ++ [k]) (done ++ [w] ++ [e]) := by
  have hw : w ≠ [] := h.nonEmpty w (by simp)
  have hdl : ∀ v ∈ done, v ≠ [] := fun v hv => h.nonEmpty v (by simp [hv])
  have hlen := decoderDict_length done w
  by_cases h1 : k < Config.numSeed
  · refine ⟨[BitVec.ofNat 8 k], ?_, h.snoc (by simp) (.inl ⟨h1, rfl⟩)⟩
    rw [lzwEntry, if_pos (by omega), decoderDict, List.getElem?_append_left (by simpa using h1),
      List.getElem?_eq_getElem (by simpa using h1), seedStrings_get]
  · by_cases h2 : k < Config.numSeed + done.length
    · have hm : k - Config.numSeed < done.length := by omega
      have he : (lzwEntries (done ++ [w])).length = done.length := by rw [lzwEntries_length]; simp
      refine ⟨(lzwEntries (done ++ [w]))[k - Config.numSeed]'(by omega), ?_, h.snoc ?_ (.inr ⟨k - Config.numSeed, by simp; omega, by omega, ?_⟩)⟩
      · rw [lzwEntry, if_pos (by omega), decoderDict, List.getElem?_append_right (by simp; omega), seedStrings_length,
          List.getElem?_eq_getElem]
      · rw [lzwEntries_get _ _ _ (by simp; omega) (by simp; omega), List.getElem_append_left hm]
        simp [hdl _ (List.getElem_mem hm)]
      · rw [lzwEntries_get _ _ _ (by simp; omega) (by simp; omega)]
        rw [List.getElem_append_left (show k - Config.numSeed + 1 < (done ++ [w]).length by simp; omega)]
    · have hke : k = Config.numSeed + done.length := by omega
      refine ⟨w ++ w.take 1, ?_, h.snoc (by simp [hw]) (.inr ⟨done.length, by simp, hke, ?_⟩)⟩
      · rw [lzwEntry, if_neg (by omega), if_pos (by omega)]
      · have htake : (w ++ w.take 1).take 1 = w.take 1 := by cases w with
          | nil => rfl
          | cons a w => rfl
        have e1 : (done ++ [w] ++ [w ++ w.take 1])[done.length + 1]'(by simp) = w ++ w.take 1 := by
          rw [List.getElem_append_right (by simp)]; simp
        rw [e1, htake]
        simp

/-- The decoder from any point on: codes in range are read as strings, and a code out of range fails. -/
theorem lzwDecodeFrom_strings (rest : List Nat) : ∀ (codes : List Nat) (done : List (List Symbol)) (w : List Symbol),
    LzwStrings codes (done ++ [w]) →
    ((∀ j (h : j < rest.length), rest[j] ≤ Config.numSeed + done.length + j) →
      ∃ more, lzwDecodeFrom (decoderDict (done ++ [w])) w rest = some more.flatten ∧
        LzwStrings (codes ++ rest) (done ++ [w] ++ more)) ∧
    ((∃ j, ∃ h : j < rest.length, Config.numSeed + done.length + j < rest[j]) →
      lzwDecodeFrom (decoderDict (done ++ [w])) w rest = none) := by
  induction rest with
  | nil =>
    intro codes done w h
    exact ⟨fun _ => ⟨[], rfl, by simpa using h⟩, by simp⟩
  | cons k rest ih =>
    intro codes done w h
    rw [lzwDecodeFrom]
    by_cases hk : k ≤ Config.numSeed + done.length
    · obtain ⟨e, he, hs⟩ := lzwEntry_snoc h k hk
      obtain ⟨ih1, ih2⟩ := ih (codes ++ [k]) (done ++ [w]) e hs
      rw [he]
      simp only [decoderDict_snoc]
      constructor
      · intro hr
        obtain ⟨more, h1, h2⟩ := ih1 fun j hj => by
          have := hr (j + 1) (by simpa using hj)
          simp at this ⊢
          omega
        exact ⟨e :: more, by rw [h1]; rfl, by simpa using h2⟩
      · rintro ⟨j, hj, hlt⟩
        cases j with
        | zero => simp at hlt; omega
        | succ j =>
          rw [ih2 ⟨j, by simpa using hj, by simp at hlt ⊢; omega⟩]
          rfl
    · have hn : lzwEntry (decoderDict (done ++ [w])) w k = none := by
        have := decoderDict_length done w
        rw [lzwEntry, if_neg (by omega), if_neg (by omega)]
      rw [hn]
      exact ⟨fun hr => absurd (hr 0 (by simp)) (by simpa using hk), fun _ => rfl⟩

/-- The decoder as a whole. -/
theorem lzwDecode_strings (codes : List Nat) (hne : codes ≠ []) :
    (CodesInRange codes → ∃ strings, LzwStrings codes strings ∧ lzwDecode codes = .ok strings.flatten) ∧
    (¬ CodesInRange codes → lzwDecode codes = .error .invalidCode) := by
  cases codes with
  | nil => exact absurd rfl hne
  | cons k rest =>
    rw [lzwDecode]
    by_cases hk : Config.numSeed ≤ k
    · rw [if_pos hk]
      refine ⟨fun h => ?_, fun _ => rfl⟩
      have := h 0 (by simp)
      simp at this
      omega
    · rw [if_neg hk]
      have h0 : LzwStrings [k] ([] ++ [[BitVec.ofNat 8 k]]) :=
        LzwStrings.nil.snoc (by simp) (.inl ⟨by omega, rfl⟩)
      have hd : decoderDict ([] ++ [[BitVec.ofNat 8 k]]) = seedStrings := by simp [decoderDict, lzwEntries]
      obtain ⟨h1, h2⟩ := lzwDecodeFrom_strings rest [k] [] [BitVec.ofNat 8 k] h0
      rw [hd] at h1 h2
      constructor
      · intro h
        obtain ⟨more, h3, h4⟩ := h1 fun j hj => by
          have := h (j + 1) (by simpa using hj)
          simp at this ⊢
          omega
        exact ⟨_, by simpa using h4, by rw [h3]; rfl⟩
      · intro h
        rw [h2]
        by_contra hc
        apply h
        intro j hj
        cases j with
        | zero => simp; omega
        | succ j =>
          simp only [Nat.add_eq_zero_iff, one_ne_zero, and_false, if_false, List.getElem_cons_succ]
          by_contra hlt
          exact hc ⟨j, by simpa using hj, by simp; omega⟩

/-- The strings of a code stream are determined by it. -/
theorem LzwStrings.unique {codes : List Nat} {s t : List (List Symbol)} (hs : LzwStrings codes s) (ht : LzwStrings codes t) :
    s = t := by
  have hsl := hs.sameLength
  have htl := ht.sameLength
  have key : ∀ j, ∀ (h1 : j < s.length) (h2 : j < t.length), s[j] = t[j] := by
    intro j
    induction j using Nat.strong_induction_on with
    | _ j ih =>
      intro h1 h2
      by_cases hk : codes[j] < Config.numSeed
      · rw [hs.seed j (by omega) h1 hk, ht.seed j (by omega) h2 hk]
      · obtain ⟨m, hm, e1, e2⟩ := hs.entry j (by omega) h1 (by omega)
        obtain ⟨m', hm', e1', e2'⟩ := ht.entry j (by omega) h2 (by omega)
        obtain rfl : m = m' := by omega
        have hmeq := ih m hm (by omega) (by omega)
        by_cases hmj : m + 1 = j
        · subst hmj
          have hne := hs.nonEmpty s[m] (List.getElem_mem _)
          have hhead : ∀ (a b : List Symbol), a ≠ [] → b = a ++ b.take 1 → b = a ++ a.take 1 := by
            intro a b ha hb
            cases a with
            | nil => exact absurd rfl ha
            | cons x a =>
              have : b.take 1 = [x] := by rw [hb]; rfl
              rw [this] at hb
              exact hb
          rw [hhead _ _ hne e2, hhead _ _ (by rw [← hmeq]; exact hne) e2', hmeq]
        · rw [e2, e2', hmeq, ih (m + 1) (by omega) (by omega) (by omega)]
  exact List.ext_getElem (by omega) key

/-- A code stream that reads as strings is in range. -/
theorem LzwStrings.inRange {codes : List Nat} {s : List (List Symbol)} (hs : LzwStrings codes s) : CodesInRange codes := by
  intro j hj
  have hl := hs.sameLength
  by_cases hk : codes[j] < Config.numSeed
  · split
    · exact hk
    · omega
  · obtain ⟨m, hm, e, -⟩ := hs.entry j hj (by omega) (by omega)
    rw [if_neg (by omega)]
    omega

/-- The string of the code at index `j` has at most `j + 1` bytes (R282). -/
theorem LzwStrings.string_length {codes : List Nat} {s : List (List Symbol)} (hs : LzwStrings codes s) :
    ∀ j (h : j < s.length), s[j].length ≤ j + 1 := by
  intro j
  induction j using Nat.strong_induction_on with
  | _ j ih =>
    intro h
    have hl := hs.sameLength
    by_cases hk : codes[j] < Config.numSeed
    · rw [hs.seed j (by omega) h hk]; simp
    · obtain ⟨m, hm, -, e⟩ := hs.entry j (by omega) h (by omega)
      have := ih m hm (by omega)
      rw [e, List.length_append, List.length_take]
      omega

theorem LzwStrings.total_length {codes : List Nat} {s : List (List Symbol)} (hs : LzwStrings codes s) :
    codes.length ≤ s.flatten.length ∧ 2 * s.flatten.length ≤ codes.length * (codes.length + 1) := by
  rw [← hs.sameLength]
  constructor
  · have := hs.nonEmpty
    clear hs
    induction s with
    | nil => simp
    | cons a s ih =>
      have h1 := ih fun v hv => this v (by simp [hv])
      have h2 := List.length_pos_iff.2 (this a (by simp))
      simp; simp at h1; omega
  · have h := hs.string_length
    clear hs
    induction s using List.reverseRecOn with
    | nil => simp
    | append_singleton s a ih =>
      have h1 := ih fun j hj => by
        have := h j (by simp; omega)
        rwa [List.getElem_append_left hj] at this
      have h2 := h s.length (by simp)
      simp at h2
      rw [List.flatten_append, List.length_append, List.length_append]
      simp only [List.flatten_cons, List.flatten_nil, List.append_nil, List.length_singleton]
      nlinarith

/-- What the encoder emits, the decoder reads back (R278). -/
theorem lzwDecode_lzwEncode (b : List Symbol) (h : b ≠ []) : lzwDecode (lzwEncode b) = .ok b := by
  obtain ⟨strings, h1, -, h3⟩ := lzwEncode_strings b
  have hne : lzwEncode b ≠ [] := by
    intro h0
    rw [h0] at h1
    have := List.length_eq_zero_iff.1 h1.sameLength
    rw [this] at h3
    exact h h3.symm
  obtain ⟨t, h4, h5⟩ := (lzwDecode_strings _ hne).1 h1.inRange
  rw [h5, h4.unique h1, h3]

end Sys2Proof.Machine
end

