-- ==== Sys2Proof/Laws/PerInstr.lean ====
section
/-! SUPPORT. What holds of every instruction as syntax, one lemma for each constructor: its command word (R100, R101, R113). -/

namespace Sys2Proof.Laws.CommandWord

open Sys2Proof

/-- The command word of an instruction, if it has one, goes to the instruction's unit, has its reserved bits 0, exactly one of
`START` and `CLEAR` set, and with `START` the number of its unit in the `UNIT` field. -/
def Statement (i : Instr) : Prop :=
  ∀ u w, encode i = some (u, w) →
    u = instrUnit i ∧ ctrlReserved w = 0 ∧ ctrlClear w = !ctrlStart w ∧
    (ctrlStart w = true → (ctrlOpcode w).toNat / 16 = unitNumber u)

theorem rleEncs : Statement .rleEncs := by intro u w h; cases h; decide
theorem rleEncb : Statement .rleEncb := by intro u w h; cases h; decide
theorem rldDecs : Statement .rldDecs := by intro u w h; cases h; decide
theorem rldDecb : Statement .rldDecb := by intro u w h; cases h; decide
theorem brePut : Statement .brePut := by intro u w h; cases h; decide
theorem htbBuild : Statement .htbBuild := by intro u w h; cases h; decide
theorem henEnc : Statement .henEnc := by intro u w h; cases h; decide
theorem hdeDec : Statement .hdeDec := by intro u w h; cases h; decide
theorem lzeEnc : Statement .lzeEnc := by intro u w h; cases h; decide
theorem lzdDec : Statement .lzdDec := by intro u w h; cases h; decide
theorem hufEncode : Statement .hufEncode := by intro u w h; cases h

theorem clear (v : UnitId) (b : BitVec 8) : Statement (.clear v b) := by
  intro u w h
  cases h
  have h1 : ctrlReserved (0x200#64 ||| b.setWidth 64) = 0 := by
    apply BitVec.eq_of_getLsbD_eq
    intro i hi
    have h2 : (0x200#64).getLsbD (10 + i) = false := by
      rw [BitVec.getLsbD_ofNat]
      have : Nat.testBit 0x200 (10 + i) = false :=
        Nat.testBit_lt_two_pow (lt_of_lt_of_le (by decide : 0x200 < 2 ^ 10) (Nat.pow_le_pow_right (by decide) (by omega)))
      simp [this]
    have h3 : b.getLsbD (10 + i) = false := BitVec.getLsbD_of_ge _ _ (by omega)
    simp only [ctrlReserved, BitVec.getLsbD_extractLsb', BitVec.getLsbD_or, h2, BitVec.getLsbD_setWidth, h3]
    simp
  have h4 : ctrlStart (0x200#64 ||| b.setWidth 64) = false := by
    simp [ctrlStart]
  have h5 : ctrlClear (0x200#64 ||| b.setWidth 64) = true := by
    simp [ctrlClear]
  exact ⟨rfl, h1, by rw [h4, h5]; rfl, by rw [h4]; simp⟩

end Sys2Proof.Laws.CommandWord
end

