-- ==== Sys2Proof/Laws/Steps.lean ====
section
/-! SUPPORT. What one step can do, said once (`step_kind`), and what a host write of an operand can do. -/

namespace Sys2Proof.Machine

/-! ### The eight units and the capacity, without the host's queue and record -/

/-- Two states agree in the eight units and in the capacity; the host's queue and records may differ. -/
structure SameCore (s t : State) : Prop where
  rle : t.rle = s.rle
  rld : t.rld = s.rld
  bre : t.bre = s.bre
  htb : t.htb = s.htb
  hen : t.hen = s.hen
  hde : t.hde = s.hde
  lze : t.lze = s.lze
  lzd : t.lzd = s.lzd
  cap : t.cap = s.cap

theorem SameCore.refl (s : State) : SameCore s s := ⟨rfl, rfl, rfl, rfl, rfl, rfl, rfl, rfl, rfl⟩

theorem SameCore.control {s t : State} (h : SameCore s t) (u : UnitId) : control t u = control s u := by
  cases u <;> simp [h.rle, h.rld, h.bre, h.htb, h.hen, h.hde, h.lze, h.lzd]

/-- A read sees the units and the host's record of `STATUS`, not the queue. -/
theorem readPlace_pending (s : State) (rest : List Event) (p : Place) :
    readPlace { s with pending := rest } p = readPlace s p := rfl

theorem SameCore.trans {s t w : State} (h : SameCore s t) (h' : SameCore t w) : SameCore s w :=
  ⟨h'.rle.trans h.rle, h'.rld.trans h.rld, h'.bre.trans h.bre, h'.htb.trans h.htb, h'.hen.trans h.hen, h'.hde.trans h.hde,
    h'.lze.trans h.lze, h'.lzd.trans h.lzd, h'.cap.trans h.cap⟩

theorem sameCore_noteRead (p : Place) (s : State) : SameCore s (noteRead p s) := by
  rw [noteRead_eq]
  exact ⟨rfl, rfl, rfl, rfl, rfl, rfl, rfl, rfl, rfl⟩

theorem sameCore_pollStatus (u : UnitId) (s : State) : SameCore s (pollStatus u s) := by
  rw [pollStatus_eq]
  exact ⟨rfl, rfl, rfl, rfl, rfl, rfl, rfl, rfl, rfl⟩

theorem sameCore_pollAll (us : List UnitId) (s : State) : SameCore s (pollAll us s) := by
  rw [pollAll_eq]
  exact ⟨rfl, rfl, rfl, rfl, rfl, rfl, rfl, rfl, rfl⟩

/-- What one step can do, said once. `s'` is the state with the host's queue and record as they are when the effect comes. -/
inductive StepKind (s t : State) : Prop where
  /-- only the host's queue and record change: reads, polls, a command without effect, an idle machine -/
  | host (same : SameCore s t)
  /-- the host writes an operand -/
  | operand (s' : State) (p : Place) (v : HostValue) (same : SameCore s s') (write : writePlace s' p v = .ok t)
      (notCtrl : ∀ n, p = .reg n → regIndex n ≠ 0)
  /-- a command that a write to `CTRL` asks for runs -/
  | command (s' : State) (u : UnitId) (w : BitVec 64) (i : Instr) (same : SameCore s s') (e : Event) (rest : List Event)
      (queue : s.pending = e :: rest) (wrote : ctrlWrite s e = some (u, w)) (decoded : decodeCtrl u w = .run i)
      (run : exec i s' = .next t)
  /-- the pseudo-operation runs -/
  | pseudo (s' : State) (same : SameCore s s') (run : exec .hufEncode s' = .next t)
  /-- an operation starts and its unit stays `BUSY` -/
  | start (s' : State) (u : UnitId) (w : BitVec 64) (i : Instr) (same : SameCore s s') (decoded : decodeCtrl u w = .run i)
      (isOp : IsOperation i) (run : beginOperation i (ctrlFunc w) s' = .ok t)
  /-- a `BUSY` unit takes the step of its operation -/
  | finish (s' : State) (u : UnitId) (f : BitVec 4) (i : Instr) (same : SameCore s s') (busy : (control s' u).state = .busy f)
      (op : opOfFunc u f = some i) (run : finishOperation i s' = .ok t)
  /-- reset -/
  | reset (s' : State) (same : SameCore s s') (rest : List Event) (queue : s.pending = .reset :: rest)
      (eq : t = resetCore s')

theorem hostWrite_next {s t : State} {p : Place} {v : HostValue} (h : hostWrite p v s = .next t) :
    (∃ n w, p = .reg n ∧ v = .word w ∧ regIndex n = 0 ∧ writeCtrl (regUnit n) w s = .next t) ∨
    (writePlace s p v = .ok t ∧ ∀ n, p = .reg n → regIndex n ≠ 0) := by
  unfold hostWrite at h
  split at h
  · next n w =>
    split at h
    · next h0 => exact .inl ⟨n, w, rfl, rfl, h0, h⟩
    · next h0 => exact .inr ⟨answer_eq_next.1 h, fun m hm => by cases hm; exact h0⟩
  · next hp =>
    have h' := answer_eq_next.1 h
    refine .inr ⟨h', fun n hn => ?_⟩
    subst hn
    cases v with
    | word w => exact absurd rfl (hp n w rfl)
    | _ => simp [writePlace] at h'

theorem writeCtrl_next {s t : State} {u : UnitId} {w : BitVec 64} (h : writeCtrl u w s = .next t) :
    t = s ∨ ∃ i, decodeCtrl u w = .run i ∧ exec i s = .next t := by
  unfold writeCtrl at h
  split at h
  · next i hi => exact .inr ⟨i, hi, h⟩
  · cases h; exact .inl rfl
  · cases h

theorem startSlow_next {s t : State} {u : UnitId} {w : BitVec 64} (h : startSlow u w s = .next t) :
    t = s ∨ (∃ v b, decodeCtrl u w = .run (.clear v b) ∧ exec (.clear v b) s = .next t) ∨
      ∃ i, decodeCtrl u w = .run i ∧ (∀ v b, i ≠ .clear v b) ∧ beginOperation i (ctrlFunc w) s = .ok t := by
  unfold startSlow at h
  split at h
  · next v b hi => exact .inr (.inl ⟨v, b, hi, h⟩)
  · next i hne hi => exact .inr (.inr ⟨i, hi, fun v b hb => by subst hb; exact hne v b rfl, answer_eq_next.1 h⟩)
  · cases h; exact .inl rfl
  · cases h

theorem unitStep_next {s t : State} {u : UnitId} (h : unitStep u s = .next t) :
    t = s ∨ ∃ f i, (control s u).state = .busy f ∧ opOfFunc u f = some i ∧ finishOperation i s = .ok t := by
  unfold unitStep at h
  split at h
  · next f hf =>
    split at h
    · next i hi => exact .inr ⟨f, i, hf, hi, answer_eq_next.1 h⟩
    · cases h; exact .inl rfl
  · cases h; exact .inl rfl

/-- The decoder never answers the pseudo-operation. -/
theorem decodeCtrl_ne_hufEncode (u : UnitId) (w : BitVec 64) : decodeCtrl u w ≠ .run .hufEncode := by
  unfold decodeCtrl
  split
  · simp
  · split
    · split
      · next v i hm =>
        split
        · intro h
          cases h
          unfold opcodeMap at hm
          split at hm <;> simp at hm
        · simp
      · simp
    · simp
    · simp
    · simp

theorem step_kind {s t : State} (h : step s = .next t) : StepKind s t := by
  unfold step at h
  split at h
  · next e rest hne =>
    have hq : ∃ tail, s.pending = e :: tail ∧ rest = { s with pending := tail } := by
      unfold nextEvent at hne
      split at hne
      · cases hne
      · next e' tail hp => cases hne; exact ⟨tail, hp, rfl⟩
    obtain ⟨tail, hp, rfl⟩ := hq
    have hsame : SameCore s { s with pending := tail } := ⟨rfl, rfl, rfl, rfl, rfl, rfl, rfl, rfl, rfl⟩
    cases e with
    | write p v =>
      rcases hostWrite_next (show hostWrite p v { s with pending := tail } = .next t from h) with ⟨n, w, rfl, rfl, h0, h1⟩ | ⟨h1, h2⟩
      · rcases writeCtrl_next h1 with rfl | ⟨i, h2, h3⟩
        · exact .host hsame
        · exact .command _ _ w i hsame _ _ hp (by simp [ctrlWrite, h0]) h2 h3
      · exact .operand _ p v hsame h1 h2
    | read p =>
      simp only [runEvent, hostRead] at h
      split at h
      · cases h
        have h1 := hsame.trans (sameCore_noteRead p { s with pending := tail })
        exact .host ⟨h1.rle, h1.rld, h1.bre, h1.htb, h1.hen, h1.hde, h1.lze, h1.lzd, h1.cap⟩
      · cases h
    | copy src dst =>
      simp only [runEvent, hostCopy] at h
      split at h
      · next v hv =>
        have hsame := hsame.trans (sameCore_noteRead src { s with pending := tail })
        rcases hostWrite_next h with ⟨n, w, rfl, rfl, h0, h1⟩ | ⟨h1, h2⟩
        · rcases writeCtrl_next h1 with rfl | ⟨i, h2, h3⟩
          · exact .host hsame
          · have hv' : readPlace s src = .ok (.word w) := hv
            exact .command _ _ w i hsame _ _ hp (by simp [ctrlWrite, hv', h0]) h2 h3
        · exact .operand _ dst v hsame h1 h2
      · cases h
    | startSlow u w =>
      rcases startSlow_next (show startSlow u w { s with pending := tail } = .next t from h) with rfl | ⟨v, b, h1, h2⟩ | ⟨i, h1, h2, h3⟩
      · exact .host hsame
      · exact .command _ u w _ hsame _ _ hp rfl h1 h2
      · exact .start _ u w i hsame h1 ⟨fun hi => decodeCtrl_ne_hufEncode u w (by rw [h1, hi]), h2⟩ h3
    | unitStep u =>
      rcases unitStep_next (show unitStep u { s with pending := tail } = .next t from h) with rfl | ⟨f, i, h1, h2, h3⟩
      · exact .host hsame
      · exact .finish _ u f i hsame h1 h2 h3
    | hufEncode => exact .pseudo _ hsame h
    | collect i =>
      simp only [runEvent, collectResults] at h
      split at h
      · next u _ =>
        have hpoll := sameCore_pollStatus u s
        rcases unitStep_next h with rfl | ⟨f, j, h1, h2, h3⟩
        · exact .host hpoll
        · exact .finish _ _ f j hpoll h1 h2 h3
      · have hp := hsame.trans (sameCore_pollAll (polledUnits i) { s with pending := tail })
        split at h
        · cases h; exact .host ⟨hp.rle, hp.rld, hp.bre, hp.htb, hp.hen, hp.hde, hp.lze, hp.lzd, hp.cap⟩
        · cases h
          split
          · exact .host ⟨hp.rle, hp.rld, hp.bre, hp.htb, hp.hen, hp.hde, hp.lze, hp.lzd, hp.cap⟩
          · exact .host hp
    | reset =>
      cases h
      exact .reset _ hsame _ hp rfl
  · unfold idleStep at h
    split at h
    · next u hu =>
      rcases unitStep_next h with rfl | ⟨f, i, h1, h2, h3⟩
      · exact .host (.refl _)
      · exact .finish _ u f i (.refl _) h1 h2 h3
    · cases h; exact .host (.refl _)

/-! ### An operand write -/

/-- The operands of one unit that is not `BUSY` are replaced, or nothing changes. -/
inductive OperandWritten (s t : State) : Prop where
  | nothing (eq : t = s)
  | rle (o : RleOps) (free : ∀ g, s.rle.ctl.state ≠ .busy g) (eq : t = { s with rle := { s.rle with ops := o } })
  | rld (o : RldOps) (free : ∀ g, s.rld.ctl.state ≠ .busy g) (eq : t = { s with rld := { s.rld with ops := o } })
  | bre (o : BreOps) (free : ∀ g, s.bre.ctl.state ≠ .busy g) (eq : t = { s with bre := { s.bre with ops := o } })
  | htb (o : HtbOps) (free : ∀ g, s.htb.ctl.state ≠ .busy g) (eq : t = { s with htb := { s.htb with ops := o } })
  | hen (o : HenOps) (free : ∀ g, s.hen.ctl.state ≠ .busy g) (eq : t = { s with hen := { s.hen with ops := o } })
  | hde (o : HdeOps) (free : ∀ g, s.hde.ctl.state ≠ .busy g) (eq : t = { s with hde := { s.hde with ops := o } })
  | lze (o : LzeOps) (free : ∀ g, s.lze.ctl.state ≠ .busy g) (eq : t = { s with lze := { s.lze with ops := o } })
  | lzd (o : LzdOps) (free : ∀ g, s.lzd.ctl.state ≠ .busy g) (eq : t = { s with lzd := { s.lzd with ops := o } })

/-- What a register write gives: the unit as it was, or with new operands, when it is not `BUSY`. -/
def OpsReplaced {O R W : Type} (x y : CodecUnit O R W) : Prop :=
  y = x ∨ ((∀ g, x.ctl.state ≠ .busy g) ∧ ∃ o, y = { x with ops := o })

theorem opsReplaced_writeOperand {O R W : Type} {x y : CodecUnit O R W} {f : O → O} (h : writeOperand x f = .ok y) :
    OpsReplaced x y :=
  let ⟨h1, h2⟩ := writeOperand_ok.1 h
  .inr ⟨h1, _, h2⟩

theorem writeElement_ok {O R W : Type} {cap : Option Nat} {x y : CodecUnit O R W} {i : Nat} {f : O → O} :
    writeElement cap x i f = .ok y ↔ fitsCap cap (i + 1) = true ∧ writeOperand x f = .ok y := by
  unfold writeElement
  split <;> simp [*]

theorem writeEntry_ok {O R W : Type} {cap : Option Nat} {n : Nat} {x y : CodecUnit O R W} {i : Nat} {f : O → O} :
    writeEntry cap n x i f = .ok y ↔ i < n ∧ fitsCap cap (i + 1) = true ∧ writeOperand x f = .ok y := by
  unfold writeEntry
  split <;> simp [*, writeElement_ok]

theorem rleWriteReg_ok {x y : CodecUnit RleOps RleRes RleWork} {r : Nat} {v : BitVec 64} (h : rleWriteReg x r v = .ok y) :
    OpsReplaced x y ∧ y.ops.symIn = x.ops.symIn := by
  unfold rleWriteReg at h
  split at h
  · exact ⟨opsReplaced_writeOperand h, by rw [(writeOperand_ok.1 h).2]⟩
  · exact ⟨opsReplaced_writeOperand h, by rw [(writeOperand_ok.1 h).2]⟩
  · exact ⟨opsReplaced_writeOperand h, by rw [(writeOperand_ok.1 h).2]⟩
  · split at h
    · cases h
    · cases h; exact ⟨.inl rfl, rfl⟩

theorem rldWriteReg_ok {x y : CodecUnit RldOps SymRes RldWork} {r : Nat} {v : BitVec 64} (h : rldWriteReg x r v = .ok y) :
    OpsReplaced x y ∧ y.ops.pairIn = x.ops.pairIn ∧ y.ops.planeIn = x.ops.planeIn := by
  unfold rldWriteReg at h
  split at h
  · cases h
  · exact ⟨opsReplaced_writeOperand h, by rw [(writeOperand_ok.1 h).2]; exact ⟨rfl, rfl⟩⟩
  · exact ⟨opsReplaced_writeOperand h, by rw [(writeOperand_ok.1 h).2]; exact ⟨rfl, rfl⟩⟩
  · exact ⟨opsReplaced_writeOperand h, by rw [(writeOperand_ok.1 h).2]; exact ⟨rfl, rfl⟩⟩
  · cases h
  · split at h
    · exact ⟨opsReplaced_writeOperand h, by rw [(writeOperand_ok.1 h).2]; exact ⟨rfl, rfl⟩⟩
    · cases h; exact ⟨.inl rfl, rfl, rfl⟩

theorem breWriteReg_ok {x y : CodecUnit BreOps BreRes NoWork} {r : Nat} {v : BitVec 64} (h : breWriteReg x r v = .ok y) :
    OpsReplaced x y ∧ y.ops.bitIn = x.ops.bitIn := by
  unfold breWriteReg at h
  split at h
  · cases h
  · exact ⟨opsReplaced_writeOperand h, by rw [(writeOperand_ok.1 h).2]⟩
  · cases h
  · exact ⟨opsReplaced_writeOperand h, by rw [(writeOperand_ok.1 h).2]⟩
  · cases h; exact ⟨.inl rfl, rfl⟩

theorem htbWriteReg_ok {x y : CodecUnit HtbOps HtbRes HtbWork} {r : Nat} {v : BitVec 64} (h : htbWriteReg x r v = .ok y) :
    OpsReplaced x y ∧ y.ops.symIn = x.ops.symIn := by
  unfold htbWriteReg at h
  split at h
  · cases h
  · exact ⟨opsReplaced_writeOperand h, by rw [(writeOperand_ok.1 h).2]⟩
  · cases h
  · cases h
  · cases h; exact ⟨.inl rfl, rfl⟩

theorem henWriteReg_ok {x y : CodecUnit HenOps HenRes HenWork} {r : Nat} {v : BitVec 64} (h : henWriteReg x r v = .ok y) :
    OpsReplaced x y ∧ y.ops.symIn = x.ops.symIn ∧ y.ops.ctabIn = x.ops.ctabIn := by
  unfold henWriteReg at h
  split at h
  · cases h
  · exact ⟨opsReplaced_writeOperand h, by rw [(writeOperand_ok.1 h).2]; exact ⟨rfl, rfl⟩⟩
  · split at h
    · cases h
    · cases h; exact ⟨.inl rfl, rfl, rfl⟩

theorem hdeWriteReg_ok {x y : CodecUnit HdeOps SymRes HdeWork} {r : Nat} {v : BitVec 64} (h : hdeWriteReg x r v = .ok y) :
    OpsReplaced x y ∧ y.ops.bitIn = x.ops.bitIn ∧ y.ops.treeIn = x.ops.treeIn := by
  unfold hdeWriteReg at h
  split at h
  · cases h
  · exact ⟨opsReplaced_writeOperand h, by rw [(writeOperand_ok.1 h).2]; exact ⟨rfl, rfl⟩⟩
  · cases h
  · exact ⟨opsReplaced_writeOperand h, by rw [(writeOperand_ok.1 h).2]; exact ⟨rfl, rfl⟩⟩
  · cases h; exact ⟨.inl rfl, rfl, rfl⟩

theorem lzeWriteReg_ok {x y : CodecUnit LzeOps LzeRes LzeWork} {r : Nat} {v : BitVec 64} (h : lzeWriteReg x r v = .ok y) :
    OpsReplaced x y ∧ y.ops.symIn = x.ops.symIn := by
  unfold lzeWriteReg at h
  split at h
  · cases h
  · exact ⟨opsReplaced_writeOperand h, by rw [(writeOperand_ok.1 h).2]⟩
  · split at h
    · cases h
    · cases h; exact ⟨.inl rfl, rfl⟩

theorem lzdWriteReg_ok {x y : CodecUnit LzdOps SymRes LzdWork} {r : Nat} {v : BitVec 64} (h : lzdWriteReg x r v = .ok y) :
    OpsReplaced x y ∧ y.ops.lzcIn = x.ops.lzcIn := by
  unfold lzdWriteReg at h
  split at h
  · cases h
  · exact ⟨opsReplaced_writeOperand h, by rw [(writeOperand_ok.1 h).2]⟩
  · cases h
  · cases h; exact ⟨.inl rfl, rfl⟩

theorem writeReg_written {s t : State} {u : UnitId} {r : Nat} {v : BitVec 64} (h : writeReg s u r v = .ok t) :
    OperandWritten s t := by
  cases u <;> simp only [writeReg] at h <;> obtain ⟨x, hx, rfl⟩ := Except.map_eq_ok.1 h
  · rcases (rleWriteReg_ok hx).1 with rfl | ⟨hf, o, rfl⟩
    · exact .nothing rfl
    · exact .rle o hf rfl
  · rcases (rldWriteReg_ok hx).1 with rfl | ⟨hf, o, rfl⟩
    · exact .nothing rfl
    · exact .rld o hf rfl
  · rcases (breWriteReg_ok hx).1 with rfl | ⟨hf, o, rfl⟩
    · exact .nothing rfl
    · exact .bre o hf rfl
  · rcases (htbWriteReg_ok hx).1 with rfl | ⟨hf, o, rfl⟩
    · exact .nothing rfl
    · exact .htb o hf rfl
  · rcases (henWriteReg_ok hx).1 with rfl | ⟨hf, o, rfl⟩
    · exact .nothing rfl
    · exact .hen o hf rfl
  · rcases (hdeWriteReg_ok hx).1 with rfl | ⟨hf, o, rfl⟩
    · exact .nothing rfl
    · exact .hde o hf rfl
  · rcases (lzeWriteReg_ok hx).1 with rfl | ⟨hf, o, rfl⟩
    · exact .nothing rfl
    · exact .lze o hf rfl
  · rcases (lzdWriteReg_ok hx).1 with rfl | ⟨hf, o, rfl⟩
    · exact .nothing rfl
    · exact .lzd o hf rfl

/-- An operand write replaces the operands of one unit that is not `BUSY`, or changes nothing. -/
theorem writePlace_written {s t : State} {p : Place} {v : HostValue} (h : writePlace s p v = .ok t) : OperandWritten s t := by
  unfold writePlace at h
  split at h
  · exact writeReg_written h
  · split at h
    · obtain ⟨x, hx, rfl⟩ := Except.map_eq_ok.1 h
      obtain ⟨h1, rfl⟩ := writeOperand_ok.1 (writeElement_ok.1 hx).2
      exact .rle _ h1 rfl
    · obtain ⟨x, hx, rfl⟩ := Except.map_eq_ok.1 h
      obtain ⟨h1, rfl⟩ := writeOperand_ok.1 (writeElement_ok.1 hx).2
      exact .htb _ h1 rfl
    · obtain ⟨x, hx, rfl⟩ := Except.map_eq_ok.1 h
      obtain ⟨h1, rfl⟩ := writeOperand_ok.1 (writeElement_ok.1 hx).2
      exact .hen _ h1 rfl
    · obtain ⟨x, hx, rfl⟩ := Except.map_eq_ok.1 h
      obtain ⟨h1, rfl⟩ := writeOperand_ok.1 (writeElement_ok.1 hx).2
      exact .lze _ h1 rfl
    · cases h
  · obtain ⟨x, hx, rfl⟩ := Except.map_eq_ok.1 h
    obtain ⟨h1, rfl⟩ := writeOperand_ok.1 (writeElement_ok.1 hx).2
    exact .rld _ h1 rfl
  · split at h
    · obtain ⟨x, hx, rfl⟩ := Except.map_eq_ok.1 h
      obtain ⟨h1, rfl⟩ := writeOperand_ok.1 (writeElement_ok.1 hx).2
      exact .bre _ h1 rfl
    · obtain ⟨x, hx, rfl⟩ := Except.map_eq_ok.1 h
      obtain ⟨h1, rfl⟩ := writeOperand_ok.1 (writeElement_ok.1 hx).2
      exact .hde _ h1 rfl
    · cases h
  · obtain ⟨x, hx, rfl⟩ := Except.map_eq_ok.1 h
    obtain ⟨h1, rfl⟩ := writeOperand_ok.1 (writeElement_ok.1 hx).2
    exact .rld _ h1 rfl
  · obtain ⟨x, hx, rfl⟩ := Except.map_eq_ok.1 h
    obtain ⟨h1, rfl⟩ := writeOperand_ok.1 (writeEntry_ok.1 hx).2.2
    exact .hde _ h1 rfl
  · obtain ⟨x, hx, rfl⟩ := Except.map_eq_ok.1 h
    obtain ⟨h1, rfl⟩ := writeOperand_ok.1 (writeEntry_ok.1 hx).2.2
    exact .hen _ h1 rfl
  · obtain ⟨x, hx, rfl⟩ := Except.map_eq_ok.1 h
    obtain ⟨h1, rfl⟩ := writeOperand_ok.1 (writeElement_ok.1 hx).2
    exact .lzd _ h1 rfl
  · cases h

theorem OperandWritten.control {s t : State} (h : OperandWritten s t) (u : UnitId) : control t u = control s u := by
  cases h with
  | nothing eq => rw [eq]
  | rle o free eq => rw [eq]; cases u <;> rfl
  | rld o free eq => rw [eq]; cases u <;> rfl
  | bre o free eq => rw [eq]; cases u <;> rfl
  | htb o free eq => rw [eq]; cases u <;> rfl
  | hen o free eq => rw [eq]; cases u <;> rfl
  | hde o free eq => rw [eq]; cases u <;> rfl
  | lze o free eq => rw [eq]; cases u <;> rfl
  | lzd o free eq => rw [eq]; cases u <;> rfl

/-- An operand write keeps every "in" buffer in canonical form and the tables inside their sizes. -/
theorem writePlace_buffers {s t : State} {p : Place} {v : HostValue} (h : writePlace s p v = .ok t) (hb : BuffersWf s) :
    BuffersWf t := by
  obtain ⟨b1, b2, b3, b4, b5, b6, b7, b8, b9, b10, b11, b12, b13⟩ := hb
  unfold writePlace at h
  split at h
  · next n w =>
    cases hu : regUnit n <;> simp only [hu, writeReg] at h <;> obtain ⟨x, hx, rfl⟩ := Except.map_eq_ok.1 h
    · have := (rleWriteReg_ok hx).2
      exact ⟨by rw [this]; exact b1, b2, b3, b4, b5, b6, b7, b8, b9, b10, b11, b12, b13⟩
    · obtain ⟨-, h1, h2⟩ := rldWriteReg_ok hx
      exact ⟨b1, by rw [h1]; exact b2, by rw [h2]; exact b3, b4, b5, b6, b7, b8, b9, b10, b11, b12, b13⟩
    · have := (breWriteReg_ok hx).2
      exact ⟨b1, b2, b3, by rw [this]; exact b4, b5, b6, b7, b8, b9, b10, b11, b12, b13⟩
    · have := (htbWriteReg_ok hx).2
      exact ⟨b1, b2, b3, b4, by rw [this]; exact b5, b6, b7, b8, b9, b10, b11, b12, b13⟩
    · obtain ⟨-, h1, h2⟩ := henWriteReg_ok hx
      exact ⟨b1, b2, b3, b4, b5, by rw [h1]; exact b6, by rw [h2]; exact b7, b8, b9, b10, b11, by rw [h2]; exact b12, b13⟩
    · obtain ⟨-, h1, h2⟩ := hdeWriteReg_ok hx
      exact ⟨b1, b2, b3, b4, b5, b6, b7, by rw [h1]; exact b8, by rw [h2]; exact b9, b10, b11, b12, by rw [h2]; exact b13⟩
    · have := (lzeWriteReg_ok hx).2
      exact ⟨b1, b2, b3, b4, b5, b6, b7, b8, b9, by rw [this]; exact b10, b11, b12, b13⟩
    · have := (lzdWriteReg_ok hx).2
      exact ⟨b1, b2, b3, b4, b5, b6, b7, b8, b9, b10, by rw [this]; exact b11, b12, b13⟩
  · split at h
    · obtain ⟨x, hx, rfl⟩ := Except.map_eq_ok.1 h
      obtain ⟨h1, rfl⟩ := writeOperand_ok.1 (writeElement_ok.1 hx).2
      exact ⟨bufWf_bufSet _ _ _ b1, b2, b3, b4, b5, b6, b7, b8, b9, b10, b11, b12, b13⟩
    · obtain ⟨x, hx, rfl⟩ := Except.map_eq_ok.1 h
      obtain ⟨h1, rfl⟩ := writeOperand_ok.1 (writeElement_ok.1 hx).2
      exact ⟨b1, b2, b3, b4, bufWf_bufSet _ _ _ b5, b6, b7, b8, b9, b10, b11, b12, b13⟩
    · obtain ⟨x, hx, rfl⟩ := Except.map_eq_ok.1 h
      obtain ⟨h1, rfl⟩ := writeOperand_ok.1 (writeElement_ok.1 hx).2
      exact ⟨b1, b2, b3, b4, b5, bufWf_bufSet _ _ _ b6, b7, b8, b9, b10, b11, b12, b13⟩
    · obtain ⟨x, hx, rfl⟩ := Except.map_eq_ok.1 h
      obtain ⟨h1, rfl⟩ := writeOperand_ok.1 (writeElement_ok.1 hx).2
      exact ⟨b1, b2, b3, b4, b5, b6, b7, b8, b9, bufWf_bufSet _ _ _ b10, b11, b12, b13⟩
    · cases h
  · obtain ⟨x, hx, rfl⟩ := Except.map_eq_ok.1 h
    obtain ⟨h1, rfl⟩ := writeOperand_ok.1 (writeElement_ok.1 hx).2
    exact ⟨b1, bufWf_bufSet _ _ _ b2, b3, b4, b5, b6, b7, b8, b9, b10, b11, b12, b13⟩
  · split at h
    · obtain ⟨x, hx, rfl⟩ := Except.map_eq_ok.1 h
      obtain ⟨h1, rfl⟩ := writeOperand_ok.1 (writeElement_ok.1 hx).2
      exact ⟨b1, b2, b3, bufWf_bufSet _ _ _ b4, b5, b6, b7, b8, b9, b10, b11, b12, b13⟩
    · obtain ⟨x, hx, rfl⟩ := Except.map_eq_ok.1 h
      obtain ⟨h1, rfl⟩ := writeOperand_ok.1 (writeElement_ok.1 hx).2
      exact ⟨b1, b2, b3, b4, b5, b6, b7, bufWf_bufSet _ _ _ b8, b9, b10, b11, b12, b13⟩
    · cases h
  · next q i v =>
    obtain ⟨x, hx, rfl⟩ := Except.map_eq_ok.1 h
    obtain ⟨h1, rfl⟩ := writeOperand_ok.1 (writeElement_ok.1 hx).2
    refine ⟨b1, b2, fun p => ?_, b4, b5, b6, b7, b8, b9, b10, b11, b12, b13⟩
    show bufWf ((s.rld.ops.planeIn.set q.val (bufSet s.rld.ops.planeIn[q] i v) q.isLt)[p.val])
    rw [Vector.getElem_set]
    split
    · exact bufWf_bufSet _ _ _ (b3 q)
    · exact b3 p
  · obtain ⟨x, hx, rfl⟩ := Except.map_eq_ok.1 h
    obtain ⟨hi, -, hx⟩ := writeEntry_ok.1 hx
    obtain ⟨h1, rfl⟩ := writeOperand_ok.1 hx
    exact ⟨b1, b2, b3, b4, b5, b6, b7, b8, bufWf_bufSet _ _ _ b9, b10, b11, b12, bufBelow_bufSet _ _ _ _ hi b13⟩
  · obtain ⟨x, hx, rfl⟩ := Except.map_eq_ok.1 h
    obtain ⟨hi, -, hx⟩ := writeEntry_ok.1 hx
    obtain ⟨h1, rfl⟩ := writeOperand_ok.1 hx
    exact ⟨b1, b2, b3, b4, b5, b6, bufWf_bufSet _ _ _ b7, b8, b9, b10, b11, bufBelow_bufSet _ _ _ _ hi b12, b13⟩
  · obtain ⟨x, hx, rfl⟩ := Except.map_eq_ok.1 h
    obtain ⟨h1, rfl⟩ := writeOperand_ok.1 (writeElement_ok.1 hx).2
    exact ⟨b1, b2, b3, b4, b5, b6, b7, b8, b9, b10, bufWf_bufSet _ _ _ b11, b12, b13⟩
  · cases h

/-- A step whose event is a host write of a word to a unit's `CTRL`. -/
theorem step_ctrlWrite {s : State} {u : UnitId} {w : BitVec 64} {rest : List Event}
    (h : s.pending = .write (.reg (regNumber u 0)) (.word w) :: rest) :
    step s = writeCtrl u w { s with pending := rest } := by
  simp only [step, nextEvent, h, runEvent]
  exact hostWrite_ctrl _ u w

/-- A step that runs event `e` is `runEvent` on the state without it. -/
theorem step_event {s : State} {e : Event} {rest : List Event} (h : s.pending = e :: rest) :
    step s = runEvent e s { s with pending := rest } := by
  simp only [step, nextEvent, h]

end Sys2Proof.Machine
end

