-- ==== Sys2Proof/Laws/Record.lean ====
section
/-! SUPPORT. How the host's record of `STATUS` reads (R346) and the results of a unit change in one step, said once. -/

namespace Sys2Proof.Machine

/-- The control and the results of unit `u` are the same. -/
def SameResults (u : UnitId) (s t : State) : Prop :=
  match u with
  | .rle => t.rle.ctl = s.rle.ctl ∧ t.rle.res = s.rle.res
  | .rld => t.rld.ctl = s.rld.ctl ∧ t.rld.res = s.rld.res
  | .bre => t.bre.ctl = s.bre.ctl ∧ t.bre.res = s.bre.res
  | .htb => t.htb.ctl = s.htb.ctl ∧ t.htb.res = s.htb.res
  | .hen => t.hen.ctl = s.hen.ctl ∧ t.hen.res = s.hen.res
  | .hde => t.hde.ctl = s.hde.ctl ∧ t.hde.res = s.hde.res
  | .lze => t.lze.ctl = s.lze.ctl ∧ t.lze.res = s.lze.res
  | .lzd => t.lzd.ctl = s.lzd.ctl ∧ t.lzd.res = s.lzd.res

theorem SameResults.refl (u : UnitId) (s : State) : SameResults u s s := by cases u <;> exact ⟨rfl, rfl⟩

theorem SameResults.control {u : UnitId} {s t : State} (h : SameResults u s t) : control t u = control s u := by
  cases u <;> exact h.1

theorem SameCore.results {s t : State} (h : SameCore s t) (u : UnitId) : SameResults u s t := by
  cases u <;> simp [SameResults, h.rle, h.rld, h.bre, h.htb, h.hen, h.hde, h.lze, h.lzd]

theorem OperandWritten.results {s t : State} (h : OperandWritten s t) (u : UnitId) : SameResults u s t := by
  cases h with
  | nothing eq => rw [eq]; exact .refl u s
  | rle o free eq => rw [eq]; cases u <;> exact ⟨rfl, rfl⟩
  | rld o free eq => rw [eq]; cases u <;> exact ⟨rfl, rfl⟩
  | bre o free eq => rw [eq]; cases u <;> exact ⟨rfl, rfl⟩
  | htb o free eq => rw [eq]; cases u <;> exact ⟨rfl, rfl⟩
  | hen o free eq => rw [eq]; cases u <;> exact ⟨rfl, rfl⟩
  | hde o free eq => rw [eq]; cases u <;> exact ⟨rfl, rfl⟩
  | lze o free eq => rw [eq]; cases u <;> exact ⟨rfl, rfl⟩
  | lzd o free eq => rw [eq]; cases u <;> exact ⟨rfl, rfl⟩

theorem OperandWritten.seen {s t : State} (h : OperandWritten s t) : t.seen = s.seen := by
  cases h <;> next eq => rw [eq]

/-- What a step can do to a unit: its control and results stay; or its draw counter moves on, from `DONE` by a `CLEAR` only; or it
becomes `BUSY`. -/
inductive UnitMove (cleared : Prop) (u : UnitId) (s t : State) : Prop where
  | same (same : SameResults u s t)
  | ended (draws : (control s u).draws < (control t u).draws)
      (fromDone : (control s u).state = .done → cleared ∧ (control t u).state = .idle)
  | begun (draws : (control t u).draws = (control s u).draws) (fromDone : (control s u).state = .done → cleared)
      (toDone : (control t u).state ≠ .done)

variable {O R W : Type}

theorem runOn_draws {unspec : Nat → R} {rest : W} {op : Operation O R W} {cap : Option Nat} {x y : CodecUnit O R W}
    (h : runOn unspec rest op cap x = .ok y) : x.ctl.state = .idle ∧ x.ctl.draws < y.ctl.draws := by
  obtain ⟨hi, e, -, rfl⟩ := runOn_ok.1 h
  exact ⟨hi, by rw [endOperation_draws]; omega⟩

theorem finishOn_draws {unspec : Nat → R} {rest : W} {op : Operation O R W} {cap : Option Nat} {x y : CodecUnit O R W}
    (h : finishOn unspec rest op cap x = .ok y) : x.ctl.draws < y.ctl.draws := by
  obtain ⟨e, -, rfl⟩ := finishOn_ok.1 h
  rw [endOperation_draws]
  omega

theorem beginOn_draws {init : CodecUnit O R W → W} {func : BitVec 4} {op : Operation O R W} {cap : Option Nat} {x y : CodecUnit O R W}
    (h : beginOn init func op cap x = .ok y) :
    x.ctl.state = .idle ∧ y.ctl.draws = x.ctl.draws ∧ y.ctl.state = .busy func := by
  obtain ⟨hi, -, rfl⟩ := beginOn_ok.1 h
  exact ⟨hi, rfl, rfl⟩

/-- A unit in `IDLE` that runs an operation. -/
theorem UnitMove.run {p : Prop} {u : UnitId} {s t : State}
    (h : (control s u).state = .idle ∧ (control s u).draws < (control t u).draws) : UnitMove p u s t :=
  .ended h.2 fun hd => by rw [h.1] at hd; cases hd

/-- `CLEAR` brings its unit to `IDLE` and moves its draw counter, or finds it in `IDLE`; nothing else changes. -/
theorem execClear_move {u : UnitId} {b : BitVec 8} {s t : State} (h : exec (.clear u b) s = .next t) :
    t.seen = s.seen ∧ (control t u).state = .idle ∧ ∀ v, UnitMove (v = u) v s t := by
  have h := answer_eq_next.1 (show answer _ = .next t from h)
  cases u <;> obtain ⟨x, hx, rfl⟩ := Except.map_eq_ok.1 h <;>
    (rcases clearUnit_ok.1 hx with ⟨h1, rfl⟩ | ⟨-, rfl⟩
     · exact ⟨rfl, h1, fun v => .same (.refl v s)⟩
     · refine ⟨rfl, rfl, fun v => ?_⟩
       cases v <;> first
         | exact .same ⟨rfl, rfl⟩
         | exact .ended (Nat.lt_succ_self _) fun _ => ⟨rfl, rfl⟩)

/-- The host's record is not touched by an instruction, and from `DONE` only `CLEAR` moves a unit. -/
theorem exec_move {i : Instr} {s t : State} (h : exec i s = .next t) :
    t.seen = s.seen ∧ ∀ u, UnitMove (∃ b, i = .clear u b) u s t := by
  cases i with
  | clear u b =>
    obtain ⟨h1, -, h3⟩ := execClear_move h
    refine ⟨h1, fun v => ?_⟩
    cases h3 v with
    | same h => exact .same h
    | ended h h' => exact .ended h fun hd => ⟨⟨b, by rw [(h' hd).1]⟩, (h' hd).2⟩
    | begun h h' h'' => exact .begun h (fun hd => ⟨b, by rw [h' hd]⟩) h''
  | hufEncode =>
    obtain ⟨s1, h1, h2⟩ := exec_hufEncode_next.1 h
    obtain ⟨x, hx, rfl⟩ := exec_htbBuild_next.1 h1
    obtain ⟨y, hy, rfl⟩ := exec_henEnc_next.1 h2
    have hb := runOn_draws hx
    have he := runOn_draws hy
    refine ⟨rfl, fun u => ?_⟩
    cases u with
    | htb => exact .run hb
    | hen => exact .run (s := s) he
    | _ => exact .same ⟨rfl, rfl⟩
  | rleEncs =>
    obtain ⟨x, hx, rfl⟩ := exec_rleEncs_next.1 h
    exact ⟨rfl, fun u => match u with
      | .rle => .run (runOn_draws hx)
      | .rld | .bre | .htb | .hen | .hde | .lze | .lzd => .same ⟨rfl, rfl⟩⟩
  | rleEncb =>
    obtain ⟨x, hx, rfl⟩ := exec_rleEncb_next.1 h
    exact ⟨rfl, fun u => match u with
      | .rle => .run (runOn_draws hx)
      | .rld | .bre | .htb | .hen | .hde | .lze | .lzd => .same ⟨rfl, rfl⟩⟩
  | rldDecs =>
    obtain ⟨x, hx, rfl⟩ := exec_rldDecs_next.1 h
    exact ⟨rfl, fun u => match u with
      | .rld => .run (runOn_draws hx)
      | .rle | .bre | .htb | .hen | .hde | .lze | .lzd => .same ⟨rfl, rfl⟩⟩
  | rldDecb =>
    obtain ⟨x, hx, rfl⟩ := exec_rldDecb_next.1 h
    exact ⟨rfl, fun u => match u with
      | .rld => .run (runOn_draws hx)
      | .rle | .bre | .htb | .hen | .hde | .lze | .lzd => .same ⟨rfl, rfl⟩⟩
  | brePut =>
    obtain ⟨x, hx, rfl⟩ := exec_brePut_next.1 h
    exact ⟨rfl, fun u => match u with
      | .bre => .run (runOn_draws hx)
      | .rle | .rld | .htb | .hen | .hde | .lze | .lzd => .same ⟨rfl, rfl⟩⟩
  | htbBuild =>
    obtain ⟨x, hx, rfl⟩ := exec_htbBuild_next.1 h
    exact ⟨rfl, fun u => match u with
      | .htb => .run (runOn_draws hx)
      | .rle | .rld | .bre | .hen | .hde | .lze | .lzd => .same ⟨rfl, rfl⟩⟩
  | henEnc =>
    obtain ⟨x, hx, rfl⟩ := exec_henEnc_next.1 h
    exact ⟨rfl, fun u => match u with
      | .hen => .run (runOn_draws hx)
      | .rle | .rld | .bre | .htb | .hde | .lze | .lzd => .same ⟨rfl, rfl⟩⟩
  | hdeDec =>
    obtain ⟨x, hx, rfl⟩ := exec_hdeDec_next.1 h
    exact ⟨rfl, fun u => match u with
      | .hde => .run (runOn_draws hx)
      | .rle | .rld | .bre | .htb | .hen | .lze | .lzd => .same ⟨rfl, rfl⟩⟩
  | lzeEnc =>
    obtain ⟨x, hx, rfl⟩ := exec_lzeEnc_next.1 h
    exact ⟨rfl, fun u => match u with
      | .lze => .run (runOn_draws hx)
      | .rle | .rld | .bre | .htb | .hen | .hde | .lzd => .same ⟨rfl, rfl⟩⟩
  | lzdDec =>
    obtain ⟨x, hx, rfl⟩ := exec_lzdDec_next.1 h
    exact ⟨rfl, fun u => match u with
      | .lzd => .run (runOn_draws hx)
      | .rle | .rld | .bre | .htb | .hen | .hde | .lze => .same ⟨rfl, rfl⟩⟩

/-- A `START` that leaves its unit `BUSY`. -/
theorem beginOperation_move {i : Instr} {f : BitVec 4} {s t : State} (h : beginOperation i f s = .ok t) :
    t.seen = s.seen ∧ ∀ u, UnitMove False u s t := by
  cases i <;> simp only [beginOperation] at h <;> first
    | (obtain ⟨x, hx, rfl⟩ := Except.map_eq_ok.1 h
       obtain ⟨h1, h2, h3⟩ := beginOn_draws hx
       refine ⟨rfl, fun u => ?_⟩
       cases u <;> first
         | exact .begun h2 (fun hd => by cases h1.symm.trans hd) fun hd => by cases h3.symm.trans hd
         | exact .same ⟨rfl, rfl⟩)
    | (cases h; exact ⟨rfl, fun u => .same (.refl u s)⟩)

theorem opcodeMap_unit {n : BitVec 8} {u : UnitId} {i : Instr} (h : opcodeMap n = some (u, i)) : instrUnit i = u := by
  unfold opcodeMap at h
  split at h <;> simp at h <;> obtain ⟨rfl, rfl⟩ := h <;> rfl

/-- A `BUSY` unit runs an operation of its own. -/
theorem opOfFunc_unit {u : UnitId} {f : BitVec 4} {i : Instr} (h : opOfFunc u f = some i) : instrUnit i = u := by
  unfold opOfFunc at h
  split at h
  · next v j hv =>
    split at h
    · next huv => cases h; rw [opcodeMap_unit hv, huv]
    · cases h
  · cases h

/-- The step of a `BUSY` unit. -/
theorem finishOperation_move {i : Instr} {v : UnitId} {f : BitVec 4} {s t : State} (h : finishOperation i s = .ok t)
    (hb : (control s v).state = .busy f) (ho : opOfFunc v f = some i) :
    t.seen = s.seen ∧ ∀ u, UnitMove False u s t := by
  have hv := opOfFunc_unit ho
  subst hv
  cases i <;> simp only [finishOperation] at h <;> first
    | (obtain ⟨x, hx, rfl⟩ := Except.map_eq_ok.1 h
       have h1 := finishOn_draws hx
       refine ⟨rfl, fun u => ?_⟩
       cases u <;> first
         | exact .ended h1 fun hd => by cases hb.symm.trans hd
         | exact .same ⟨rfl, rfl⟩)
    | (cases h; exact ⟨rfl, fun u => .same (.refl u s)⟩)

theorem resetCore_move (u : UnitId) (s : State) : UnitMove True u s (resetCore s) := by
  cases u <;> exact .begun rfl (fun _ => trivial) nofun

/-! ### The host's record -/

/-- What an event that reads `STATUS` leaves in the record of unit `u`: what was there, or the draw counter of a unit in `DONE`. -/
def Noted (reads : Prop) (u : UnitId) (s t : State) : Prop :=
  t.seen[unitIndex u] = s.seen[unitIndex u] ∨
    reads ∧ (control s u).state = .done ∧ t.seen[unitIndex u] = some (control s u).draws

theorem unitIndex_injective {u v : UnitId} (h : unitIndex u = unitIndex v) : u = v := by
  cases u <;> cases v <;> first | rfl | cases h

theorem noteStatus_noted (u v : UnitId) (s : State) : Noted (u = v) v s (noteStatus u s) := by
  unfold noteStatus Noted
  split
  · next hd =>
    rcases Decidable.em (u = v) with rfl | hne
    · exact .inr ⟨rfl, hd, by simp⟩
    · refine .inl ?_
      have : (unitIndex u).val ≠ (unitIndex v).val := fun e => hne (unitIndex_injective (Fin.ext e))
      simp [this]
  · exact .inl rfl

theorem Noted.mono {p q : Prop} {u : UnitId} {s t : State} (h : Noted p u s t) (hpq : p → q) : Noted q u s t :=
  h.imp id fun h => ⟨hpq h.1, h.2⟩

theorem Noted.trans {p : Prop} {u : UnitId} {s t w : State} (h : Noted p u s t) (h' : Noted p u t w)
    (hc : control t u = control s u) : Noted p u s w := by
  rcases h' with h' | ⟨hp, h1, h2⟩
  · rcases h with h | ⟨hp, h1, h2⟩
    · exact .inl (h'.trans h)
    · exact .inr ⟨hp, h1, h'.trans h2⟩
  · rw [hc] at h1 h2
    exact .inr ⟨hp, h1, h2⟩

theorem noteRead_noted (p : Place) (v : UnitId) (s : State) : Noted (readsStatus v (.read p) = true) v s (noteRead p s) := by
  unfold noteRead
  split
  · next n =>
    split
    · next h1 => exact (noteStatus_noted _ v s).mono fun e => decide_eq_true ⟨e, h1⟩
    · exact .inl rfl
  · exact .inl rfl

theorem pollStatus_noted (u v : UnitId) (s : State) : Noted (u = v) v s (pollStatus u s) := noteStatus_noted u v s

theorem pollAll_noted (us : List UnitId) (v : UnitId) : ∀ s : State, Noted (v ∈ us) v s (pollAll us s) := by
  induction us with
  | nil => intro s; exact .inl rfl
  | cons u us ih =>
    intro s
    exact ((pollStatus_noted u v s).mono fun e => by rw [e]; exact List.mem_cons_self).trans
      ((ih (pollStatus u s)).mono fun e => List.mem_cons_of_mem _ e) (pollStatus_control u v s)

/-- A second read of the same `STATUS` adds nothing to the host's record. -/
theorem noteStatus_noteStatus (u : UnitId) (s : State) : noteStatus u (noteStatus u s) = noteStatus u s := by
  by_cases h : (control s u).state = .done
  · have hc : control (noteStatus u s) u = control s u := by rw [noteStatus_eq]; cases u <;> rfl
    conv_lhs => rw [noteStatus, hc, if_pos h]
    simp [noteStatus, h]
  · have : noteStatus u s = s := if_neg h
    rw [this, this]

theorem noteRead_noteRead (p : Place) (s : State) : noteRead p (noteRead p s) = noteRead p s := by
  cases p with
  | reg n =>
    simp only [noteRead]
    split
    · exact noteStatus_noteStatus _ s
    · rfl
  | _ => rfl

/-- A place reads the same once it has been read (R74). -/
theorem readPlace_noteRead (p : Place) (s : State) : readPlace (noteRead p s) p = readPlace s p := by
  cases p with
  | reg n =>
    simp only [noteRead]
    split
    · next h1 =>
      have : control (noteStatus (regUnit n) s) (regUnit n) = control s (regUnit n) := by
        rw [noteStatus_eq]; cases regUnit n <;> rfl
      simp [readPlace, readReg, h1, this]
    · rfl
  | _ => rfl

/-! ### One step -/

/-- The draw counter of a unit never moves back. -/
theorem UnitMove.draws_le {p : Prop} {u : UnitId} {s t : State} (h : UnitMove p u s t) :
    (control s u).draws ≤ (control t u).draws := by
  cases h with
  | same h => rw [h.control]
  | ended h _ => exact Nat.le_of_lt h
  | begun h _ _ => exact h.ge

theorem SameCore.move {p q : Prop} {u : UnitId} {s s' t : State} (h : SameCore s s') (hm : UnitMove p u s' t) (hpq : p → q) :
    UnitMove q u s t := by
  have hc := h.control u
  cases hm with
  | same hs =>
    refine .same ?_
    have h' := h.results u
    cases u <;> exact ⟨hs.1.trans h'.1, hs.2.trans h'.2⟩
  | ended hd hf =>
    rw [hc] at hd hf
    exact .ended hd fun e => ⟨hpq (hf e).1, (hf e).2⟩
  | begun hd hf ht =>
    rw [hc] at hd hf
    exact .begun hd (fun e => hpq (hf e)) ht

theorem decodeCtrl_clear {u v : UnitId} {w : BitVec 64} {b : BitVec 8} (h : decodeCtrl u w = .run (.clear v b)) : v = u := by
  unfold decodeCtrl at h
  split at h
  · cases h
  · split at h
    · split at h
      · next i hm =>
        split at h
        · cases h
          unfold opcodeMap at hm
          split at hm <;> simp at hm
        · cases h
      · cases h
    · cases h; rfl
    · cases h
    · cases h

/-- How a step moves a unit: what was `DONE` leaves `DONE` by a `CLEAR` or by reset only. -/
theorem step_move {s t : State} (h : step s = .next t) (u : UnitId) : UnitMove (EndsResults s u) u s t := by
  cases step_kind h with
  | host same => exact .same (same.results u)
  | operand s' p v same write _ => exact same.move (.same ((writePlace_written write).results u)) False.elim
  | command s' v w i same e rest queue wrote decoded run =>
    refine same.move ((exec_move run).2 u) ?_
    rintro ⟨b, rfl⟩
    have := decodeCtrl_clear decoded
    subst this
    exact ⟨e, rest, queue, .inr ⟨w, b, wrote, decoded⟩⟩
  | pseudo s' same run => exact same.move ((exec_move run).2 u) nofun
  | start s' v w i same _ _ run => exact same.move ((beginOperation_move run).2 u) False.elim
  | finish s' v f i same busy op run => exact same.move ((finishOperation_move run busy op).2 u) False.elim
  | reset s' same rest queue eq =>
    subst eq
    exact same.move (resetCore_move u s') fun _ => ⟨_, rest, queue, .inl rfl⟩

theorem hostWrite_seen {p : Place} {v : HostValue} {s t : State} (h : hostWrite p v s = .next t) : t.seen = s.seen := by
  rcases hostWrite_next h with ⟨n, w, rfl, rfl, -, h1⟩ | ⟨h1, -⟩
  · rcases writeCtrl_next h1 with rfl | ⟨i, -, h2⟩
    · rfl
    · exact (exec_move h2).1
  · cases writePlace_written h1 <;> next eq => rw [eq]

theorem unitStep_seen {v : UnitId} {s t : State} (h : unitStep v s = .next t) : t.seen = s.seen := by
  rcases unitStep_next h with rfl | ⟨f, i, h1, h2, h3⟩
  · rfl
  · exact (finishOperation_move h3 h1 h2).1

/-- What a step leaves in the host's record of a unit: what was there, or the `DONE` of a `STATUS` read, or nothing after reset. -/
theorem step_seen {s t : State} (h : step s = .next t) (u : UnitId) :
    Noted (∃ e rest, s.pending = e :: rest ∧ readsStatus u e = true) u s t ∨
      t.seen[unitIndex u] = none ∧ (control t u).state = .idle := by
  have keep : t.seen = s.seen → Noted (∃ e rest, s.pending = e :: rest ∧ readsStatus u e = true) u s t := fun e => .inl (by rw [e])
  unfold step at h
  split at h
  · next e rest hne =>
    unfold nextEvent at hne
    split at hne
    · cases hne
    next e' tail hp =>
    cases hne
    have now : readsStatus u e = true → ∃ e rest, s.pending = e :: rest ∧ readsStatus u e = true := fun hr => ⟨e, tail, hp, hr⟩
    cases e with
    | write p v => exact .inl (keep (hostWrite_seen (s := { s with pending := tail }) h))
    | read p =>
      simp only [runEvent, hostRead] at h
      split at h
      · cases h; exact .inl ((noteRead_noted p u { s with pending := tail }).mono now)
      · cases h
    | copy src dst =>
      simp only [runEvent, hostCopy] at h
      split at h
      · have h1 := hostWrite_seen h
        have h2 := noteRead_noted src u { s with pending := tail }
        refine .inl (Noted.mono ?_ now)
        unfold Noted at h2 ⊢
        rw [h1]
        cases src <;> exact h2
      · cases h
    | startSlow v w =>
      rcases startSlow_next (show startSlow v w _ = .next t from h) with rfl | ⟨v, b, -, h2⟩ | ⟨i, -, -, h3⟩
      · exact .inl (keep rfl)
      · exact .inl (keep (exec_move h2).1)
      · exact .inl (keep (beginOperation_move h3).1)
    | unitStep v => exact .inl (keep (unitStep_seen (s := { s with pending := tail }) h))
    | hufEncode => exact .inl (keep (exec_move (i := .hufEncode) h).1)
    | collect i =>
      simp only [runEvent, collectResults] at h
      split at h
      · next v hv =>
        refine .inl (Noted.mono ?_ now)
        have h2 := (pollStatus_noted v u s).mono fun e => decide_eq_true (e ▸ List.mem_of_find?_eq_some hv)
        unfold Noted at h2 ⊢
        rw [unitStep_seen h]
        exact h2
      · have h2 := (pollAll_noted (polledUnits i) u { s with pending := tail }).mono fun e => decide_eq_true e
        refine .inl (Noted.mono ?_ now)
        split at h
        · cases h; exact h2
        · cases h
          split <;> exact h2
    | reset =>
      cases h
      exact .inr ⟨by cases u <;> rfl, by cases u <;> rfl⟩
  · unfold idleStep at h
    split at h
    · exact .inl (keep (unitStep_seen h))
    · cases h; exact .inl (keep rfl)

end Sys2Proof.Machine
end

