-- ==== Sys2Proof/Tests/Slice0.lean ====
section
/-! SUPPORT. The model's own tests: ill-formed terms the checks refuse, command words written out from the spec's opcode map, one
step on the spec's own examples, and for every obligation with hypotheses a state and operands that meet them. -/

namespace Sys2Proof.Machine.Tests

/-! ### Small states -/

/-- A register the host wrote. -/
def reg (n : Nat) : OpReg := { value := BitVec.ofNat 64 n, written := true }

/-- A buffer the host wrote. -/
def buf {α : Type} (xs : List α) : Buf α := bufWriteList [] 0 xs

def rleState (r : List Symbol) (w h : BitVec 64) : State :=
  { State.reset with rle := { State.reset.rle with ops :=
    { width := writtenReg w, height := writtenReg h, inLen := reg r.length, symIn := buf r } } }

def decsState (pairs : List PairElem) (w h : BitVec 64) : State :=
  { State.reset with rld := { State.reset.rld with ops := { State.reset.rld.ops with
    width := writtenReg w, height := writtenReg h, inLen := reg pairs.length, pairIn := buf pairs } } }

def decbState (planes : Vector (List Bool) 8) (w h : BitVec 64) : State :=
  { State.reset with rld := { State.reset.rld with ops := { State.reset.rld.ops with
    width := writtenReg w, height := writtenReg h, planeLen := planes.map fun e => reg e.length,
    planeIn := planes.map buf } } }

def breState (b : List Bool) (n : BitVec 64) : State :=
  { State.reset with bre := { State.reset.bre with ops := { inLen := reg b.length, arg := writtenReg n, bitIn := buf b } } }

def htbState (xs : List Symbol) : State :=
  { State.reset with htb := { State.reset.htb with ops := { inLen := reg xs.length, symIn := buf xs } } }

def henState (xs : List Symbol) (tab : List CodeElem) : State :=
  { State.reset with hen := { State.reset.hen with ops := { inLen := reg xs.length, symIn := buf xs, ctabIn := buf tab } } }

def hdeState (bits : List Bool) (tree : Buf NodeElem) (root : Nat) : State :=
  { State.reset with hde := { State.reset.hde with ops :=
    { inLen := reg bits.length, root := reg root, bitIn := buf bits, treeIn := tree } } }

def lzeState (b : List Symbol) : State :=
  { State.reset with lze := { State.reset.lze with ops := { inLen := reg b.length, symIn := buf b } } }

def lzdState (codes : List (BitVec 64)) : State :=
  { State.reset with lzd := { State.reset.lzd with ops := { inLen := reg codes.length, lzcIn := buf codes } } }

/-- The next state of an outcome. -/
def next? (o : Host.Outcome State Fault Refusal) : Option State :=
  match o with
  | .next t => some t
  | _ => none

/-- The refusal of an outcome. -/
def refusal? (o : Host.Outcome State Fault Refusal) : Option Refusal :=
  match o with
  | .refused r => some r
  | _ => none

theorem next_of_isSome {o : Host.Outcome State Fault Refusal} (h : (next? o).isSome = true) : ∃ t, o = .next t := by
  cases o with
  | next t => exact ⟨t, rfl⟩
  | fault f => cases h
  | refused r => cases h

theorem next_of_map {β : Type} {o : Host.Outcome State Fault Refusal} {f : State → β} {v : β}
    (h : (next? o).map f = some v) : ∃ t, o = .next t ∧ f t = v := by
  cases o with
  | next t => exact ⟨t, rfl, Option.some.inj h⟩
  | fault f => cases h
  | refused r => cases h

/-- The tree of the spec's example `A:5, B:2, C:1` (R201): C and B under the left child of the root, A to its right. -/
def exampleTree : Buf NodeElem :=
  [(65, nodeEntry true true 65 5 0 0), (66, nodeEntry true true 66 2 0 0), (67, nodeEntry true true 67 1 0 0),
    (256, nodeEntry true false 0 3 67 66), (257, nodeEntry true false 0 8 256 65)]

/-- The code table of that example: `A = 1`, `B = 01`, `C = 00`. -/
@[irreducible] def exampleTable : List CodeElem :=
  codeTable [(67, [false, false]), (66, [false, true]), (65, [true])]

theorem exampleTable_length : exampleTable.length = 256 := by unfold exampleTable; exact codeTable_length _

/-! ### WellFormed refuses what does not exist -/

theorem test_pseudo_is_no_command : Instr.wellFormed .hufEncode = false := by decide
theorem test_read_in_buffer : Event.wellFormed (.read (.sym .rle 0)) = false := by decide
theorem test_read_bits_of_unit_without : Event.wellFormed (.read (.bit .lze 0)) = false := by decide
theorem test_read_tree_511 : Event.wellFormed (.read (.tree 511)) = false := by decide
theorem test_read_code_256 : Event.wellFormed (.read (.ctab 256)) = false := by decide
theorem test_write_out_buffer : Event.wellFormed (.write (.sym .lzd 0) (.sym 1)) = false := by decide
theorem test_write_bits_of_unit_without : Event.wellFormed (.write (.bit .htb 0) (.bit true)) = false := by decide
theorem test_write_tree_511 : Event.wellFormed (.write (.tree 511) (.node 0)) = false := by decide
theorem test_write_wrong_width : Event.wellFormed (.write (.pair 0) (.word 1)) = false := by decide
theorem test_copy_into_out_buffer : Event.wellFormed (.copy (.lzc 0) (.sym .rld 0)) = false := by decide
theorem test_ill_formed_write_is_refused :
    refusal? (step { State.reset with pending := [.write (.sym .lzd 0) (.sym 1)] }) = some .noSuchAccess := by decide
theorem test_ill_formed_read_is_refused :
    refusal? (step { State.reset with pending := [.read (.tree 511)] }) = some .noSuchAccess := by decide

/-! ### Command words from the opcode map (R100, R101), bit by bit: START is bit 8, CLEAR bit 9 -/

theorem test_decode_RLE_ENCS : decodeCtrl .rle 0b0100000000#64 = .run .rleEncs := by decide
theorem test_decode_RLE_ENCB : decodeCtrl .rle 0b0100000001#64 = .run .rleEncb := by decide
theorem test_decode_RLD_DECS : decodeCtrl .rld 0b0100010000#64 = .run .rldDecs := by decide
theorem test_decode_RLD_DECB : decodeCtrl .rld 0b0100010001#64 = .run .rldDecb := by decide
theorem test_decode_BRE_PUT : decodeCtrl .bre 0b0100100000#64 = .run .brePut := by decide
theorem test_decode_HTB_BUILD : decodeCtrl .htb 0b0100110000#64 = .run .htbBuild := by decide
theorem test_decode_HEN_ENC : decodeCtrl .hen 0b0101000000#64 = .run .henEnc := by decide
theorem test_decode_HDE_DEC : decodeCtrl .hde 0b0101010000#64 = .run .hdeDec := by decide
theorem test_decode_LZE_ENC : decodeCtrl .lze 0b0101100000#64 = .run .lzeEnc := by decide
theorem test_decode_LZD_DEC : decodeCtrl .lzd 0b0101110000#64 = .run .lzdDec := by decide
theorem test_decode_CLEAR : decodeCtrl .hde 0b1000000000#64 = .run (.clear .hde 0) := by decide
theorem test_decode_CLEAR_ignores_opcode : decodeCtrl .hde 0b1011111111#64 = .run (.clear .hde 0xFF) := by decide
theorem test_decode_nothing : decodeCtrl .rle 0b0011111111#64 = .noEffect := by decide
theorem test_decode_undefined_opcode : decodeCtrl .rle 0b0100000010#64 = .reserved .undefinedOpcode := by decide
theorem test_decode_other_unit : decodeCtrl .rld 0b0100000000#64 = .reserved .otherUnit := by decide
theorem test_decode_start_and_clear : decodeCtrl .rle 0b1100000000#64 = .reserved .startAndClear := by decide
theorem test_decode_bit_10 : decodeCtrl .rle 0b10100000000#64 = .reserved .bitsAboveCommand := by decide

/-! ### One step on the spec's examples -/

/-- R141: `B = b'1'`, `n = 5`. -/
theorem test_BRE_PUT : (next? (exec .brePut (breState [true] 5))).map (fun t => (t.bre.res.outLen, t.bre.res.bitOut)) =
    some (33, [true] ++ List.replicate 29 false ++ [true, false, true]) := by decide

/-- R152: the row `[10,10,10,20,20]`. -/
theorem test_RLE_ENCS : (next? (exec .rleEncs (rleState [10, 10, 10, 20, 20] 5 1))).map
    (fun t => (t.rle.res.pairOut.map pairValue, t.rle.res.pairOut.map pairCount, t.rle.res.ratioNum, t.rle.res.ratioDen)) =
    some ([10, 20], [3, 2], 5, 2) := by decide

/-- R152: a run never crosses a row boundary. -/
theorem test_RLE_ENCS_rows : (next? (exec .rleEncs (rleState [7, 7, 7, 7] 2 2))).map
    (fun t => t.rle.res.pairOut.map pairCount) = some [2, 2] := by decide

/-- R155: `R = [1,0]`, `W = 2`, `H = 1`. -/
theorem test_RLE_ENCB : (next? (exec .rleEncb (rleState [1, 0] 2 1))).map
    (fun t => (t.rle.res.planeOut[0], t.rle.res.planeOut[1], t.rle.res.ratioNum, t.rle.res.ratioDen)) =
    some (field32 0 ++ field32 1 ++ field32 1, field32 2, 16, 320) := by decide

/-- R172: `[(10,3),(20,2)]`, `W = 5`, `H = 1`. -/
theorem test_RLD_DECS : (next? (exec .rldDecs (decsState [mkPair 10 3, mkPair 20 2] 5 1))).map
    (fun t => t.rld.res.symOut) = some [10, 10, 10, 20, 20] := by decide

/-- R306: `W = 0` with an empty pair list is `InvalidDimensions`. -/
theorem test_RLD_DECS_dimensions : (next? (exec .rldDecs (decsState [] 0 1))).map (fun t => t.rld.ctl.fault) =
    some .invalidDimensions := by decide

/-- R175: `planes[0] = f[0,1,1]`, the others `f[2]`, `W = 2`, `H = 1`. -/
theorem test_RLD_DECB : (next? (exec .rldDecb (decbState
    #v[fieldBits [0, 1, 1], fieldBits [2], fieldBits [2], fieldBits [2], fieldBits [2], fieldBits [2], fieldBits [2],
      fieldBits [2]] 2 1))).map (fun t => t.rld.res.symOut) = some [1, 0] := by decide +kernel

/-- R201: the frequencies `A:5, B:2, C:1`. -/
theorem test_HTB_BUILD : (next? (exec .htbBuild (htbState [65, 65, 65, 65, 65, 66, 66, 67]))).map
    (fun t => (t.htb.res.root, t.htb.res.ctabOut[65]?, t.htb.res.ctabOut[66]?, t.htb.res.ctabOut[67]?)) =
    some (257, some (codeEntry [true]), some (codeEntry [false, true]), some (codeEntry [false, false])) := by decide +kernel

/-- R196: the empty stream. -/
theorem test_HTB_BUILD_empty : (next? (exec .htbBuild (htbState []))).map (fun t => t.htb.res.root) = some 511 := by
  decide +kernel

/-- R232: `bits = b'100'` gives `[65,67]`. -/
theorem test_HDE_DEC : (next? (exec .hdeDec (hdeState [true, false, false] exampleTree 257))).map
    (fun t => t.hde.res.symOut) = some [65, 67] := by decide +kernel

/-- R232: `bits = b'10'` is exhausted inside a code. -/
theorem test_HDE_DEC_truncated : (next? (exec .hdeDec (hdeState [true, false] exampleTree 257))).map
    (fun t => t.hde.ctl.fault) = some .malformedStream := by decide +kernel

/-- R253: `"AAAA"`. -/
theorem test_LZE_ENC : (next? (exec .lzeEnc (lzeState [65, 65, 65, 65]))).map
    (fun t => (t.lze.res.lzcOut, t.lze.res.ratioNum, t.lze.res.ratioDen)) = some ([65, 256, 65], 4, 3) := by decide +kernel

/-- R274: `[65, 66, 256, 258]`, the last code self-referential. -/
theorem test_LZD_DEC : (next? (exec .lzdDec (lzdState [65, 66, 256, 258]))).map (fun t => t.lzd.res.symOut) =
    some [65, 66, 65, 66, 65, 66, 65] := by decide +kernel

/-- R273: a first code of 256. -/
theorem test_LZD_DEC_first : (next? (exec .lzdDec (lzdState [256]))).map (fun t => t.lzd.ctl.fault) =
    some .invalidCode := by decide +kernel

/-- R310: after a fault, `CLEAR`, and the operands are kept. -/
theorem test_CLEAR : ((next? (exec .lzdDec (lzdState []))).bind fun t => next? (exec (.clear .lzd 0) t)).map
    (fun t => (t.lzd.ctl.state, t.lzd.ctl.fault, t.lzd.ops.inLen.written)) = some (.idle, .none, true) := by decide

/-- R224: the scenario `A A A A A B B C`. -/
theorem test_HUF_ENCODE : (next? (exec .hufEncode (htbState [65, 65, 65, 65, 65, 66, 66, 67]))).map
    (fun t => (t.hen.res.bitOut, t.htb.res.root)) =
    some ([true, true, true, true, true, false, true, false, true, false, false], 257) := by decide +kernel

/-- R102: after a completed operation a second `START` is refused. -/
theorem test_start_in_done : ((next? (exec .lzdDec (lzdState []))).bind fun t => refusal? (exec .lzdDec t)) =
    some .startNotIdle := by decide

/-- R341: the first `START` after reset finds no operand written. -/
theorem test_first_start_after_reset : refusal? (step (State.reset.withFetchWord 16 0x100)) = some .operandNotWritten := by decide

/-- R310: `CLEAR` in `IDLE` has no effect. -/
theorem test_first_clear_after_reset : step (State.reset.withFetchWord 16 0x2A0) = .next State.reset := rfl

/-- R45, R152: `RLE.ENCS` begins with the first row's run open at column 1. -/
theorem test_RLE_ENCS_initial : (next? (startSlow .rle 0x100#64 (rleState [9, 7] 2 1))).map
    (fun t => (t.rle.work.r, t.rle.work.c, t.rle.work.cur, t.rle.work.cnt)) = some (0, 1, 9, 1) := by decide

/-- R346: what the host copies out of a unit 3 that never ran is a free value. -/
theorem test_collect_shows_free_root (s : State) (h : s.htb.ctl.state = .idle) :
    (resultValues .hufEncode s)[0]? = some (.word (Config.freeRegister 3 s.htb.ctl.draws 10)) := by
  have h1 : readReg s .htb 10 = resultShown .htb (resultsDefined s .htb) s.htb.ctl 10 s.htb.res.root := rfl
  have hd : resultsDefined s .htb = false := resultsDefined_notDone (by rw [control_htb, h]; nofun)
  have h2 : readReg s .htb 10 = Config.freeRegister 3 s.htb.ctl.draws 10 := by rw [h1, hd]; rfl
  exact congrArg (fun w => some (HostValue.word w)) h2

/-- R112, R113: the polling of the pseudo-operation's two lines reads `STATUS` of unit 3 and of unit 4. -/
theorem test_collect_polls_both_units : (next? (step { State.reset with pending := [.collect .hufEncode] })).map State.reads =
    some [.word 0, .word 0] := by decide

/-- R346: `RLE.ENCS` is `DONE`; before the `STATUS` read `OUT_LEN` is a free value, after it the number of pairs. -/
theorem test_unpolled_result : (next? (exec .rleEncs (rleState [9] 1 1))).map (fun t => (resultsDefined t .rle, t.rle.ctl.state)) =
    some (false, .done) := by decide

theorem test_polled_result : ((next? (exec .rleEncs (rleState [9] 1 1))).bind fun t => next? (hostRead (.reg 1) t)).map
    (fun t => (t.reads, readReg t .rle 5)) = some ([.word 2], 1) := by decide

/-- R346: the record of one operation does not hold for the next one of the unit. -/
theorem test_record_ends_with_clear :
    ((((next? (exec .lzdDec (lzdState [65]))).bind fun t => next? (hostRead (.reg 225) t)).bind
      fun t => next? (exec (.clear .lzd 0) t)).bind fun t => next? (exec .lzdDec t)).map
    (fun t => (resultsDefined t .lzd, t.lzd.ctl.state)) = some (false, .done) := by decide +kernel

/-- R6, R71: with a capacity of 511 the last tree entry is writable, with 510 it is beyond the capacity. -/
theorem test_table_within_capacity : (next? (hostWrite (.tree 510) (.node 1) { State.reset with cap := some 511 })).map
    (fun t => t.hde.ops.treeIn) = some [(510, 1)] ∧
    refusal? (hostWrite (.tree 510) (.node 1) { State.reset with cap := some 510 }) = some .beyondCapacity := by decide

/-- R6, R71: `HTB.BUILD` with a capacity one short of its 511 tree entries. -/
theorem test_HTB_BUILD_capacity : refusal? (exec .htbBuild { htbState [65] with cap := some 510 }) = some .beyondCapacity ∧
    (next? (exec .htbBuild { htbState [65] with cap := some 511 })).isSome = true := by decide +kernel

/-! ### Operands that are there -/

theorem stream_buf {α : Type} (bound : Nat) (xs : List α) (h : xs.length ≤ bound) (h64 : xs.length < 2 ^ 64) :
    StreamOperand none bound (reg xs.length) (buf xs) xs :=
  ⟨rfl, by simp only [reg, BitVec.toNat_ofNat]; omega, h, rfl, Stored_bufWriteList [] xs⟩

theorem raster_rleState (r : List Symbol) (w h : BitVec 64) (hr : r.length ≤ Config.maxIn) :
    RasterOperands (rleState r w h) r w h :=
  ⟨⟨rfl, rfl⟩, ⟨rfl, rfl⟩, stream_buf _ r hr (by simp only [Config.maxIn] at hr; omega)⟩

theorem pairs_decsState (pairs : List PairElem) (w h : BitVec 64) (hp : pairs.length ≤ Config.maxIn) :
    PairOperands (decsState pairs w h) pairs w h :=
  ⟨⟨rfl, rfl⟩, ⟨rfl, rfl⟩, stream_buf _ pairs hp (by simp only [Config.maxIn] at hp; omega)⟩

theorem planes_decbState (planes : Vector (List Bool) 8) (w h : BitVec 64)
    (hp : ∀ p : Fin 8, planes[p].length ≤ Config.maxPlaneLen) : PlaneOperands (decbState planes w h) planes w h := by
  refine ⟨⟨rfl, rfl⟩, ⟨rfl, rfl⟩, fun p => ?_⟩
  have h1 : (decbState planes w h).rld.ops.planeLen[p] = reg planes[p].length := by simp [decbState]
  have h2 : (decbState planes w h).rld.ops.planeIn[p] = buf planes[p] := by simp [decbState]
  rw [h1, h2]
  have := hp p
  exact stream_buf _ _ this (by simp only [Config.maxPlaneLen] at this; omega)

theorem encoder_henState (xs : List Symbol) (tab : List CodeElem) (hx : xs.length ≤ Config.maxIn) (ht : tab.length = 256) :
    EncoderOperands (henState xs tab) xs tab :=
  ⟨stream_buf _ xs hx (by simp only [Config.maxIn] at hx; omega), rfl, ht, Stored_bufWriteList [] tab⟩

theorem encoder_capped (xs : List Symbol) (tab : List CodeElem) (c : Nat) (hx : xs.length ≤ Config.maxIn) (ht : tab.length = 256)
    (hc : xs.length ≤ c) (hc' : 256 ≤ c) : EncoderOperands { henState xs tab with cap := some c } xs tab :=
  ⟨⟨rfl, (encoder_henState xs tab hx ht).stream.counted, hx, decide_eq_true hc, Stored_bufWriteList [] xs⟩, decide_eq_true hc', ht,
    Stored_bufWriteList [] tab⟩

theorem decoder_hdeState (bits : List Bool) (tbl : Buf NodeElem) (root : Nat) (tree : Option HTree)
    (hb : bits.length ≤ Config.maxIn) (hr : root < 512) (ht : treeOf tbl root = .ok tree) :
    DecoderOperands (hdeState bits tbl root) bits tree := by
  have h : (BitVec.ofNat 64 root).toNat = root := by rw [BitVec.toNat_ofNat, Nat.mod_eq_of_lt (by omega)]
  refine ⟨stream_buf _ bits hb (by simp only [Config.maxIn] at hb; omega), ⟨rfl, ?_⟩, rfl, ?_⟩
  · show (BitVec.ofNat 64 root).toNat < 2 ^ 9
    omega
  · show treeOf tbl (BitVec.ofNat 64 root).toNat = _
    rw [h, ht]

/-- R222: the stream `A A A A A B B C` of the example; 64 bits become 11. -/
theorem test_HEN_ENC : ∃ t, exec .henEnc (henState [65, 65, 65, 65, 65, 66, 66, 67] exampleTable) = .next t ∧
    t.hen.res.bitOut = [true, true, true, true, true, false, true, false, true, false, false] ∧
    t.hen.res.ratioNum = 64 ∧ t.hen.res.ratioDen = 11 := by
  have h := henEncOp_eq (encoder_henState [65, 65, 65, 65, 65, 66, 66, 67] exampleTable (by decide) exampleTable_length)
  have e : encodeSymbols exampleTable [65, 65, 65, 65, 65, 66, 66, 67] =
      some [true, true, true, true, true, false, true, false, true, false, false] := by decide +kernel
  rw [e] at h
  exact ⟨_, exec_henEnc_next.2 ⟨_, runOn_idle (e := .results _) rfl (h.trans rfl), rfl⟩, rfl, by decide, by decide⟩

/-- What the host carries for an empty stream is an operand of `HEN.ENC`. -/
theorem encoder_carry (b : State) (hl : b.htb.ops.inLen.value = 0) (hc : b.cap = none) (ht : b.htb.res.ctabOut.length = 256) :
    EncoderOperands (carryToEncoder b) [] b.htb.res.ctabOut :=
  ⟨⟨rfl, by show b.htb.ops.inLen.value.toNat = 0; rw [hl]; rfl, Nat.zero_le _, by show fitsCap b.cap 0 = true; rw [hc]; rfl,
    fun i h => absurd h (Nat.not_lt_zero i)⟩, by show fitsCap b.cap _ = true; rw [hc]; rfl, ht, Stored_bufWriteList _ _⟩

theorem stream_htbState (xs : List Symbol) (h : xs.length ≤ Config.maxIn) :
    StreamOperand (htbState xs).cap Config.maxIn (htbState xs).htb.ops.inLen (htbState xs).htb.ops.symIn xs :=
  stream_buf _ xs h (by simp only [Config.maxIn] at h; omega)

theorem stream_lzeState (xs : List Symbol) (h : xs.length ≤ Config.maxIn) :
    StreamOperand (lzeState xs).cap Config.maxIn (lzeState xs).lze.ops.inLen (lzeState xs).lze.ops.symIn xs :=
  stream_buf _ xs h (by simp only [Config.maxIn] at h; omega)

theorem stream_lzdState (xs : List (BitVec 64)) (h : xs.length ≤ Config.maxIn) :
    StreamOperand (lzdState xs).cap Config.maxIn (lzdState xs).lzd.ops.inLen (lzdState xs).lzd.ops.lzcIn xs :=
  stream_buf _ xs h (by simp only [Config.maxIn] at h; omega)

theorem stream_breState (b : List Bool) (n : BitVec 64) (h : b.length ≤ Config.maxIn) :
    StreamOperand (breState b n).cap Config.maxIn (breState b n).bre.ops.inLen (breState b n).bre.ops.bitIn b :=
  stream_buf _ b h (by simp only [Config.maxIn] at h; omega)

/-- A lone leaf, and the table with its entry only. -/
def leafTree : Buf NodeElem := [(7, nodeEntry true true 7 3 0 0)]

def exampleHTree : HTree := .node 8 (.node 3 (.leaf 67 1) (.leaf 66 2)) (.leaf 65 5)

theorem treeOf_exampleTree : treeOf exampleTree 257 = .ok (some exampleHTree) := by decide +kernel
theorem treeOf_leafTree : treeOf leafTree 7 = .ok (some (.leaf 7 3)) := by decide +kernel

/-- A unit put into a state. -/
def withState {O R W : Type} (st : UnitState) (f : FaultCode) (x : CodecUnit O R W) : CodecUnit O R W :=
  { x with ctl := { x.ctl with state := st, fault := f } }

def busyLzd : State := { State.reset with lzd := withState (.busy 0) .none State.reset.lzd }
def doneLzd : State := { State.reset with lzd := withState .done .none State.reset.lzd }
def faultLzd : State := { State.reset with lzd := withState .fault .emptyStream State.reset.lzd }

/-- A state in which unit 7 is `BUSY` with an operation whose operands are there. -/
def runningLzd : State := { lzdState [65] with lzd := withState (.busy 0) .none (lzdState [65]).lzd }

/-- The host has read `DONE` of each unit at draw counter 1, where the first operation of a unit ends. -/
def seenOnce : Vector (Option Nat) 8 := Vector.replicate 8 (some 1)

/-- Unit 7 in `DONE` with one symbol, and `STATUS` read. -/
def polledLzd : State :=
  { State.reset with seen := seenOnce, lzd := completeUnit .atRest { outLen := 1, symOut := [65] } State.reset.lzd }

theorem buffersWf_reset : BuffersWf State.reset := by constructor <;> decide

theorem inv_doneLzd : Inv { doneLzd with pending := [.read (.reg 225)] } :=
  ⟨by constructor <;> decide, fun u => (by cases u <;> decide), fun u f h => (by cases u <;> cases h),
    fun u n h => (by cases u <;> cases h)⟩

/-! ### Witnesses: for every obligation with hypotheses, a state and operands that meet them, clause by clause -/

theorem witness_DecodeOfEncodeIsIdentity : Instr.wellFormed (.clear .lzd 255) = true := by decide

theorem witness_StepRunsTheDecodedInstruction :
    (∃ s : State, s.pending = .write (.reg (regNumber .lzd 0)) (.word 0x170#64) :: [] ∧
      decodeCtrl .lzd 0x170#64 = .run .lzdDec) ∧
    (∃ s : State, s.pending = .write (.reg (regNumber .lzd 0)) (.word 0xFF#64) :: [] ∧ decodeCtrl .lzd 0xFF#64 = .noEffect) ∧
    decodeTableWord 16 0x170 = some .lzdDec ∧ (∃ s : State, s.pending = .hufEncode :: []) :=
  ⟨⟨{ State.reset with pending := _ }, rfl, by decide⟩, ⟨{ State.reset with pending := _ }, rfl, by decide⟩, by decide,
    ⟨{ State.reset with pending := _ }, rfl⟩⟩

theorem witness_ReservedWritesAreRefused :
    (ctrlStart 0x102#64 = true ∧ ∀ i, opcodeMap (ctrlOpcode 0x102#64) ≠ some (.rle, i)) ∧
    (ctrlStart 0x100#64 = true ∧ ∀ i, opcodeMap (ctrlOpcode 0x100#64) ≠ some (.rld, i)) ∧
    (ctrlStart 0x300#64 = true ∧ ctrlClear 0x300#64 = true) ∧ ctrlReserved 0x400#64 ≠ 0 ∧
    (ctrlStart 0x170#64 = true ∧ (control doneLzd .lzd).state ≠ .idle) ∧
    (ctrlClear 0x200#64 = true ∧ isBusy busyLzd .lzd = true) :=
  ⟨⟨by decide, fun i h => by cases h⟩, ⟨by decide, fun i h => by cases h⟩, by decide, by decide, by decide, by decide⟩

theorem witness_StartOnlyInIdle :
    (IsOperation .lzdDec ∧ (control doneLzd .lzd).state ≠ .idle ∧ (control faultLzd .lzd).state ≠ .idle ∧
      (control busyLzd .lzd).state ≠ .idle) ∧
    (∃ s : State, s.htb.ctl.state ≠ .idle) ∧ ∃ s t, exec .hufEncode s = .next t := by
  refine ⟨⟨⟨by decide, fun u b h => by cases h⟩, by decide, by decide, by decide⟩,
    ⟨{ State.reset with htb := withState .done .none State.reset.htb }, by decide⟩,
    htbState [], ?_⟩
  obtain ⟨b, hb, hv⟩ := next_of_map (o := exec .htbBuild (htbState []))
    (f := fun t => (t.htb.ops.inLen.value, t.cap, t.htb.res.ctabOut.length, t.hen.ctl.state)) (v := (0, none, 256, .idle))
    (by decide +kernel)
  simp only [Prod.mk.injEq] at hv
  have hd := henEncOp_eq (encoder_carry b hv.1 hv.2.1 hv.2.2.1)
  have hf : fitsCap (carryToEncoder b).cap ([] : List Bool).length = true := by
    show fitsCap b.cap 0 = true
    rw [hv.2.1]
    rfl
  simp only [encodeSymbols, deliver, hf, if_true] at hd
  exact ⟨_, exec_hufEncode_next.2 ⟨b, hb, exec_henEnc_next.2 ⟨_, runOn_idle (e := .results _) hv.2.2.2 hd, rfl⟩⟩⟩

theorem witness_OperandRegistersKeepTheHostsValue :
    operandRegister .rld 16 = true ∧ operandRegister .rld 23 = true ∧ operandRegister .bre 9 = true ∧
    operandRegister .hde 10 = true ∧ isBusy State.reset .rld = false ∧ isBusy doneLzd .lzd = false ∧
    isBusy faultLzd .lzd = false := by decide

theorem witness_RegistersThatReadAsFixed :
    reservedRegister .rle 9 = true ∧ reservedRegister .rle 15 = true ∧ reservedRegister .rle 24 = true ∧
    reservedRegister .rle 31 = true ∧ reservedRegister .lzd 2 = true ∧ reservedRegister .htb 16 = true := by decide

theorem witness_ResultsAreReadInDone :
    (control doneLzd .lzd).state = .done ∧
    (∃ s t : State, Inv s ∧ step s = .next t ∧ resultsDefined s .lzd = false ∧ resultsDefined t .lzd = true) ∧
    (∃ s t : State, step s = .next t ∧ resultsDefined s .lzd = true ∧ EndsResults s .lzd) ∧
    (∃ s t : State, step s = .next t ∧ resultsDefined s .lzd = true ∧ s.pending = []) ∧
    (resultPlace (.reg 23) = true ∧ resultPlace (.tree 510) = true ∧ resultsDefined State.reset .rle = false ∧
      resultsDefined State.reset (readUnit (.tree 510)) = false ∧ BeyondDelivered polledLzd (.sym .lzd 1)) ∧
    (∃ s : State, resultsDefined s .rle = true ∧ 0 < s.rle.res.pairOut.length ∧ 0 < s.rle.res.planeOut[0].length) ∧
    (∃ s : State, resultsDefined s .rld = true ∧ 0 < s.rld.res.symOut.length) ∧
    (∃ s : State, resultsDefined s .bre = true ∧ 0 < s.bre.res.bitOut.length) ∧
    (∃ s : State, resultsDefined s .htb = true ∧ 0 < s.htb.res.treeOut.length ∧ 0 < s.htb.res.ctabOut.length) ∧
    (∃ s : State, resultsDefined s .hen = true ∧ 0 < s.hen.res.bitOut.length) ∧
    (∃ s : State, resultsDefined s .hde = true ∧ 0 < s.hde.res.symOut.length) ∧
    (∃ s : State, resultsDefined s .lze = true ∧ 0 < s.lze.res.lzcOut.length) ∧
    (∃ s : State, resultsDefined s .lzd = true ∧ 0 < s.lzd.res.symOut.length) := by
  refine ⟨by decide, ⟨{ doneLzd with pending := [.read (.reg 225)] }, _, inv_doneLzd, rfl, by decide, by decide⟩,
    ⟨{ polledLzd with pending := [.write (.reg 224) (.word 0x200)] }, _, rfl, by decide, _, _, rfl, .inr ⟨_, 0, rfl, by decide⟩⟩,
    ⟨polledLzd, _, rfl, by decide, rfl⟩, ⟨by decide, by decide, by decide, by decide, Nat.le_refl 1⟩,
    ⟨{ State.reset with seen := seenOnce, rle := completeUnit .atRest { RleRes.atReset with pairOut := [0], planeOut := Vector.replicate 8 [true] } State.reset.rle }, by decide⟩,
    ⟨{ State.reset with seen := seenOnce, rld := completeUnit .atRest { outLen := 1, symOut := [0] } State.reset.rld }, by decide⟩,
    ⟨{ State.reset with seen := seenOnce, bre := completeUnit {} { outLen := 1, bitOut := [true] } State.reset.bre }, by decide⟩,
    ⟨{ State.reset with seen := seenOnce, htb := completeUnit .atRest { outLen := 0, root := 511, treeOut := [0], ctabOut := [0] } State.reset.htb }, by decide⟩,
    ⟨{ State.reset with seen := seenOnce, hen := completeUnit .atRest { HenRes.atReset with bitOut := [true] } State.reset.hen }, by decide⟩,
    ⟨{ State.reset with seen := seenOnce, hde := completeUnit .atRest { outLen := 1, symOut := [0] } State.reset.hde }, by decide⟩,
    ⟨{ State.reset with seen := seenOnce, lze := completeUnit .atRest { LzeRes.atReset with lzcOut := [0] } State.reset.lze }, by decide⟩,
    ⟨{ State.reset with seen := seenOnce, lzd := completeUnit .atRest { outLen := 1, symOut := [0] } State.reset.lzd }, by decide⟩⟩

theorem witness_ReadsHaveNoSideEffect :
    (Place.tree 510).readable = true ∧ (Place.reg 1).readable = true ∧
    ∃ s : State, s.pending = .read (.tree 510) :: .read (.tree 510) :: [] :=
  ⟨by decide, by decide, { State.reset with pending := _ }, rfl⟩

theorem witness_ScriptLineWritesItsOperands :
    ∃ s : State, s.cap = none ∧ LineAdmitted (.henEnc [65] exampleTable) ∧ LineAdmitted (.hdeDec [true] [0] 0) ∧
      LineAdmitted (.rldDecb (Vector.replicate 8 []) 1 1) ∧ isBusy s .hen = false ∧
      s.pending = operandEvents (.henEnc [65] exampleTable) ++ [] :=
  ⟨{ State.reset with pending := operandEvents (.henEnc [65] exampleTable) ++ [] }, rfl,
    ⟨by decide, exampleTable_length⟩, ⟨by decide, by decide⟩, fun p => by simp, by decide, rfl⟩

theorem witness_LzwEncodeLineRuns :
    ∃ s : State, s.cap = none ∧ [65#8].length ≤ Config.maxIn ∧ s.lze.ctl.state = .idle ∧
      s.pending = lineEvents (.lzeEnc [65]) :=
  ⟨{ State.reset with pending := lineEvents (.lzeEnc [65]) }, rfl, by decide, rfl, rfl⟩

/-- A line that faults for its dimensions, with its operands in place, and the line of no codes. -/
theorem witness_FaultingLineEndsTheScript :
    (∃ s b : State, s.pending = lineEvents (.rleEncs [5] 0 1) ++ [.hufEncode] ∧
      Host.Core.run Sys2Proof.core ((operandEvents (.rleEncs [5] 0 1)).length + 1) s = .next b ∧
      Faulted .invalidDimensions (control b (instrUnit (lineInstr (.rleEncs [5] 0 1))))) ∧
    ∃ s : State, s.lzd.ctl.state = .idle ∧ s.pending = lineEvents (.lzdDec []) ++ [.hufEncode] :=
  ⟨⟨{ State.reset with pending := lineEvents (.rleEncs [5] 0 1) ++ [.hufEncode] }, _, rfl, rfl, rfl, rfl⟩,
    { State.reset with pending := lineEvents (.lzdDec []) ++ [.hufEncode] }, rfl, rfl⟩

theorem witness_NoOperandWriteWhileBusy :
    (isBusy busyLzd .lzd = true ∧ operandRegister .lzd 4 = true ∧ ctrlStart 0x170#64 = true ∧ ctrlClear 0x200#64 = true) ∧
    (∃ s : State, isBusy s .rle = true ∧ (Place.sym .rle 0).writable = true) ∧
    (∃ s : State, isBusy s .bre = true ∧ (Place.bit .bre 0).writable = true) ∧
    (∃ s : State, isBusy s .rld = true) ∧ (∃ s : State, isBusy s .hde = true) ∧ (∃ s : State, isBusy s .hen = true) :=
  ⟨by decide, ⟨{ State.reset with rle := withState (.busy 0) .none State.reset.rle }, by decide⟩,
    ⟨{ State.reset with bre := withState (.busy 0) .none State.reset.bre }, by decide⟩,
    ⟨{ State.reset with rld := withState (.busy 1) .none State.reset.rld }, by decide⟩,
    ⟨{ State.reset with hde := withState (.busy 0) .none State.reset.hde }, by decide⟩,
    ⟨{ State.reset with hen := withState (.busy 0) .none State.reset.hen }, by decide⟩⟩

theorem witness_HostCopyCarriesTheValue :
    (∃ s : State, 0 < s.rle.res.pairOut.length ∧ resultsDefined s .rle = true ∧ isBusy s .rld = false ∧ fitsCap s.cap 1 = true) ∧
    (∃ s : State, 0 < s.htb.res.treeOut.length ∧ 0 < s.htb.res.ctabOut.length ∧ resultsDefined s .htb = true ∧
      isBusy s .hde = false ∧ isBusy s .hen = false ∧ 0 < Config.maxNodes ∧ 0 < Config.numCodes ∧ fitsCap s.cap 1 = true) ∧
    (∃ s : State, 0 < s.lze.res.lzcOut.length ∧ resultsDefined s .lze = true ∧ isBusy s .lzd = false ∧ fitsCap s.cap 1 = true) ∧
    (∃ s : State, readPlace s (.sym .rld 0) = .ok (.sym 9) ∧ isBusy s .rle = false ∧ isBusy s .htb = false ∧
      isBusy s .hen = false ∧ isBusy s .lze = false ∧ fitsCap s.cap 1 = true) ∧
    (∃ s : State, readPlace s (.plane 7 0) = .ok (.bit true) ∧ isBusy s .bre = false ∧ isBusy s .hde = false ∧
      isBusy s .rld = false ∧ fitsCap s.cap 1 = true) ∧
    (operandRegister .rld 23 = true ∧ isBusy State.reset .rld = false) :=
  ⟨⟨{ State.reset with seen := seenOnce, rle := completeUnit .atRest { RleRes.atReset with pairOut := [0] } State.reset.rle }, by decide⟩,
    ⟨{ State.reset with seen := seenOnce, htb := completeUnit .atRest { outLen := 0, root := 511, treeOut := [0], ctabOut := [0] } State.reset.htb }, by decide⟩,
    ⟨{ State.reset with seen := seenOnce, lze := completeUnit .atRest { LzeRes.atReset with lzcOut := [0] } State.reset.lze }, by decide⟩,
    ⟨{ State.reset with seen := seenOnce, rld := completeUnit .atRest { outLen := 1, symOut := [9] } State.reset.rld }, rfl, by decide⟩,
    ⟨{ State.reset with seen := seenOnce, rle := completeUnit .atRest { RleRes.atReset with planeOut := Vector.replicate 8 [true] } State.reset.rle },
      rfl, by decide⟩, by decide⟩

theorem witness_ResetLeavesUnitsIdle : reservedRegister .rle 31 = true ∧ reservedRegister .hde 2 = true := by decide

theorem witness_ResetAtAnyTime : ∃ s : State, isBusy s .lzd = true ∧ s.pending = .reset :: [.hufEncode] :=
  ⟨{ busyLzd with pending := _ }, by decide, rfl⟩

/-- The largest `ARG` that is accepted, the smallest that is not, and a capacity one element short. -/
theorem witness_BrePutAppendsTheField :
    (∃ s : State, StreamOperand s.cap Config.maxIn s.bre.ops.inLen s.bre.ops.bitIn [true] ∧
      RegHolds s.bre.ops.arg 0xFFFFFFFF#64 ∧ s.bre.ctl.state = .idle ∧ (0xFFFFFFFF#64).toNat < 2 ^ 32 ∧
      fitsCap s.cap 33 = true) ∧
    (∃ s : State, StreamOperand s.cap Config.maxIn s.bre.ops.inLen s.bre.ops.bitIn [true] ∧
      RegHolds s.bre.ops.arg 0x100000000#64 ∧ s.bre.ctl.state = .idle ∧ 2 ^ 32 ≤ (0x100000000#64).toNat) ∧
    (∃ s : State, StreamOperand s.cap Config.maxIn s.bre.ops.inLen s.bre.ops.bitIn [] ∧
      RegHolds s.bre.ops.arg 0#64 ∧ s.bre.ctl.state = .idle ∧ fitsCap s.cap 32 = false) :=
  ⟨⟨breState [true] 0xFFFFFFFF#64, stream_breState _ _ (by decide), ⟨rfl, rfl⟩, rfl, by decide, rfl⟩,
    ⟨breState [true] 0x100000000#64, stream_breState _ _ (by decide), ⟨rfl, rfl⟩, rfl, by decide⟩,
    ⟨{ breState [] 0 with cap := some 31 }, ⟨rfl, rfl, by decide, rfl, by intro i h; simp at h⟩, ⟨rfl, rfl⟩, rfl, by decide⟩⟩

/-- A raster of one pixel, and the same for both encoders. -/
theorem witness_RleEncs_and_RleEncb :
    ∃ s : State, RasterOperands s [9] 1 1 ∧ s.rle.ctl.state = .idle ∧ 1 ≤ (1#64).toInt ∧
      (([9#8] : List Symbol).length : Int) = (1#64).toInt * (1#64).toInt ∧ fitsCap s.cap (32 * (1 + 1)) = true :=
  ⟨rleState [9] 1 1, raster_rleState _ _ _ (by decide), rfl, by decide, by decide, rfl⟩

/-- A raster of one value and one without equal neighbours in a row, both encoded. -/
theorem witness_RleEncsContract :
    (∃ s t : State, RasterOperands s [7, 7, 7, 7] 2 2 ∧ exec .rleEncs s = .next t ∧ Done t.rle.ctl) ∧
    (∃ s t : State, RasterOperands s [1, 2, 2, 1] 2 2 ∧ exec .rleEncs s = .next t ∧ Done t.rle.ctl) :=
  ⟨⟨_, _, raster_rleState [7, 7, 7, 7] 2 2 (by decide), rfl, rfl, rfl⟩,
    ⟨_, _, raster_rleState [1, 2, 2, 1] 2 2 (by decide), rfl, rfl, rfl⟩⟩

/-- A total that is right, one that is short, and no pairs. -/
theorem witness_RldDecsReplaysPairs :
    (∃ s : State, PairOperands s [mkPair 9 3, mkPair 9 0, mkPair 9 3] 3 2 ∧ s.rld.ctl.state = .idle ∧ 1 ≤ (3#64).toInt ∧
      1 ≤ (2#64).toInt ∧ (3#64).toNat * (2#64).toNat ≤ Config.maxIn ∧ fitsCap s.cap ((3#64).toNat * (2#64).toNat) = true ∧
      ([mkPair 9 3, mkPair 9 0, mkPair 9 3].map pairCount).sum = (3#64).toNat * (2#64).toNat) ∧
    (∃ s : State, PairOperands s [] 1 1 ∧ s.rld.ctl.state = .idle ∧ 1 ≤ (1#64).toInt ∧
      (1#64).toNat * (1#64).toNat ≤ Config.maxIn ∧ fitsCap s.cap ((1#64).toNat * (1#64).toNat) = true ∧
      (([] : List PairElem).map pairCount).sum ≠ (1#64).toNat * (1#64).toNat) :=
  ⟨⟨_, pairs_decsState [mkPair 9 3, mkPair 9 0, mkPair 9 3] 3 2 (by decide), rfl, by decide, by decide, by decide, rfl, by decide⟩,
    ⟨_, pairs_decsState [] 1 1 (by decide), rfl, by decide, by decide, rfl, by decide⟩⟩

/-- Planes whose fields sum to the size, and planes that are not whole fields. -/
theorem witness_RldDecbReplaysPlanes :
    (∃ s : State, PlaneOperands s (Vector.replicate 8 (fieldBits [1])) 1 1 ∧ s.rld.ctl.state = .idle ∧ 1 ≤ (1#64).toInt ∧
      (1#64).toNat * (1#64).toNat ≤ Config.maxIn ∧ fitsCap s.cap ((1#64).toNat * (1#64).toNat) = true ∧
      ∃ fields : Fin 8 → List Nat, ∀ p : Fin 8, (Vector.replicate 8 (fieldBits [1]))[p] = fieldBits (fields p) ∧
        (∀ n ∈ fields p, n < 2 ^ 32) ∧ (fields p).sum = (1#64).toNat * (1#64).toNat) ∧
    (∃ s : State, PlaneOperands s (Vector.replicate 8 [true]) 1 1 ∧ s.rld.ctl.state = .idle ∧
      ¬ ∃ fields : Fin 8 → List Nat, ∀ p : Fin 8, (Vector.replicate 8 [true])[p] = fieldBits (fields p) ∧
        (∀ n ∈ fields p, n < 2 ^ 32) ∧ (fields p).sum = (1#64).toNat * (1#64).toNat) := by
  refine ⟨⟨_, planes_decbState (Vector.replicate 8 (fieldBits [1])) 1 1 (fun p => by simp [fieldBits_length, Config.maxPlaneLen]), rfl, by decide, by decide, rfl,
    fun _ => [1], fun p => ⟨by simp, by simp, rfl⟩⟩,
    ⟨_, planes_decbState (Vector.replicate 8 [true]) 1 1 (fun p => by simp [Config.maxPlaneLen]), rfl, ?_⟩⟩
  rintro ⟨fields, h⟩
  have := congrArg List.length (h 0).1
  rw [fieldBits_length] at this
  simp at this
  omega

/-- A stream with one merge: entry 256 is that merge's and entry 257 is unused. -/
theorem witness_HtbBuild_and_HufEncode :
    (∃ s : State, StreamOperand s.cap Config.maxIn s.htb.ops.inLen s.htb.ops.symIn [65, 66, 65] ∧ s.htb.ctl.state = .idle ∧
      s.hen.ctl.state = .idle ∧ fitsCap s.cap Config.maxNodes = true) ∧
    (∃ s : State, StreamOperand s.cap Config.maxIn s.htb.ops.inLen s.htb.ops.symIn [65, 66, 65] ∧ s.htb.ctl.state = .idle ∧
      s.hen.ctl.state = .idle ∧ fitsCap s.cap Config.maxNodes = false) ∧
    ∃ merges top, DetMergeLog 0 (leavesFrom 0 (freqTable [65, 66, 65])) merges top ∧ merges.length = 1 := by
  refine ⟨⟨_, stream_htbState [65, 66, 65] (by decide), rfl, rfl, rfl⟩, ⟨{ htbState [65, 66, 65] with cap := some 510 },
    ⟨rfl, by decide, by decide, by decide, Stored_bufWriteList [] [65, 66, 65]⟩, rfl, rfl, by decide⟩, ?_⟩
  obtain ⟨merges, h, h'⟩ := buildTree_log [65, 66, 65]
  have e : (buildTree [65, 66, 65]).2.length = 1 := by decide +kernel
  exact ⟨merges, _, h, by rw [h', List.length_map] at e; exact e⟩

theorem witness_HtbTreeIsAdmitted :
    (∃ top, DetMerges 0 (leavesFrom 0 (freqTable [65, 66, 65])) top) ∧ (∃ tree, AdmittedTree [65, 66, 65] tree) ∧
    ∃ t, 1 ≤ 3 ∧ AdmittedTree (List.replicate 3 7) (some t) := by
  refine ⟨⟨_, buildTree_det _⟩, ⟨_, buildTree_admitted _⟩, ?_⟩
  have h := buildTree_admitted (List.replicate 3 7)
  have e : (buildTree (List.replicate 3 7)).1.map QNode.tree = some (.leaf 7 3) := by decide +kernel
  rw [e] at h
  exact ⟨_, by decide, h⟩

theorem witness_HuffmanCodesArePrefixFree :
    ∃ tree, AdmittedTree [65, 66, 65] tree ∧ ∃ c, codeFor (codesOf tree) 65 = some c := by
  refine ⟨_, buildTree_admitted _, Option.isSome_iff_exists.1 ((codeFor_isSome _ _).2 ?_)⟩
  exact ((buildTree_admitted [65, 66, 65]).leaves.2 65).2 (by decide)

theorem witness_StackWalkIsTheRecursiveWalk : internalNodes exampleHTree + (leafSyms exampleHTree).length ≤ 5 := by decide

theorem exampleTable_codes : tableCode exampleTable 65 = some [true] ∧ tableCode exampleTable 66 = some [false, true] ∧
    tableCode exampleTable 68 = none := by decide +kernel

/-- Coded symbols within and beyond the capacity, and a symbol without a code. -/
theorem witness_HenEnc :
    (∃ s : State, ∃ code : Symbol → List Bool, EncoderOperands s [65, 66] exampleTable ∧ s.hen.ctl.state = .idle ∧
      (∀ x ∈ ([65, 66] : List Symbol), tableCode exampleTable x = some (code x)) ∧
      fitsCap s.cap (([65, 66] : List Symbol).flatMap code).length = true) ∧
    (∃ s : State, ∃ code : Symbol → List Bool, EncoderOperands s (List.replicate 129 66) exampleTable ∧ s.hen.ctl.state = .idle ∧
      (∀ x ∈ (List.replicate 129 66 : List Symbol), tableCode exampleTable x = some (code x)) ∧
      fitsCap s.cap ((List.replicate 129 66 : List Symbol).flatMap code).length = false) ∧
    (∃ s : State, EncoderOperands s [68] exampleTable ∧ s.hen.ctl.state = .idle ∧
      (68 : Symbol) ∈ ([68] : List Symbol) ∧ tableCode exampleTable 68 = none) := by
  obtain ⟨h1, h2, h3⟩ := exampleTable_codes
  have hl := exampleTable_length
  refine ⟨⟨_, fun x => if x = 65 then [true] else [false, true], encoder_henState [65, 66] exampleTable (by decide) hl, rfl, ?_, rfl⟩,
    ⟨{ henState (List.replicate 129 66) exampleTable with cap := some 256 }, fun _ => [false, true],
      encoder_capped (List.replicate 129 66) exampleTable 256 (by rw [List.length_replicate]; decide) hl
        (by rw [List.length_replicate]; omega) (le_refl _), rfl, ?_, by decide +kernel⟩,
    ⟨_, encoder_henState [68] exampleTable (by decide) hl, rfl, by decide, h3⟩⟩
  · intro x hx
    rcases List.mem_cons.1 hx with rfl | hx
    · exact h1
    · rw [List.mem_singleton.1 hx]; exact h2
  · intro x hx
    rw [List.eq_of_mem_replicate hx]; exact h2

/-- No bits; bits without a tree; a lone leaf; a walk that ends at the root; a walk that does not. -/
theorem witness_HdeDecWalksTheTree :
    (∃ s : State, DecoderOperands s [] none ∧ s.hde.ctl.state = .idle) ∧
    (∃ s : State, DecoderOperands s [true] none ∧ s.hde.ctl.state = .idle) ∧
    (∃ s : State, DecoderOperands s [true, false] (some (.leaf 7 3)) ∧ s.hde.ctl.state = .idle) ∧
    (∃ s : State, DecoderOperands s [true, false, false] (some exampleHTree) ∧ s.hde.ctl.state = .idle ∧
      (∀ p ∈ [((65 : Symbol), [true]), (67, [false, false])], p ∈ walkCodes exampleHTree []) ∧
      [true, false, false] = [((65 : Symbol), [true]), (67, [false, false])].flatMap Prod.snd) ∧
    (∃ s : State, DecoderOperands s [false] (some exampleHTree) ∧ s.hde.ctl.state = .idle ∧
      ¬ ∃ path : List (Symbol × List Bool), (∀ p ∈ path, p ∈ walkCodes exampleHTree []) ∧ [false] = path.flatMap Prod.snd) := by
  refine ⟨⟨_, decoder_hdeState [] [] 511 none (by decide) (by decide) rfl, rfl⟩,
    ⟨_, decoder_hdeState [true] [] 511 none (by decide) (by decide) rfl, rfl⟩,
    ⟨_, decoder_hdeState [true, false] leafTree 7 _ (by decide) (by decide) treeOf_leafTree, rfl⟩,
    ⟨_, decoder_hdeState [true, false, false] exampleTree 257 _ (by decide) (by decide) treeOf_exampleTree, rfl, by decide, rfl⟩,
    ⟨_, decoder_hdeState [false] exampleTree 257 _ (by decide) (by decide) treeOf_exampleTree, rfl, ?_⟩⟩
  rintro ⟨path, h1, h2⟩
  have := walkBits_codes 8 (.node 3 (.leaf 67 1) (.leaf 66 2)) (.leaf 65 5) path h1
  rw [← h2] at this
  simp [walkBits] at this

/-- All 511 entries of a table the same. -/
@[irreducible] def sameEntries (e : NodeElem) : Buf NodeElem := buf (List.replicate Config.maxNodes e)

theorem sameEntries_get (e : NodeElem) (i : Nat) (h : i < Config.maxNodes) : bufGet (sameEntries e) i = some e := by
  have := Stored_bufWriteList ([] : Buf NodeElem) (List.replicate Config.maxNodes e) i (by simpa using h)
  rw [List.getElem_replicate] at this
  unfold sameEntries
  exact this

theorem sameEntries_written (e : NodeElem) (root : Nat) : TableWritten (sameEntries e) root :=
  fun _ i _ hi hn => by rw [sameEntries_get e i hi] at hn; cases hn

/-- A table that names index 511 as a right child, and one whose entries share their child, are written and not well formed. -/
theorem sameEntries_illFormed :
    ¬ TableShape (sameEntries (nodeEntry true false 0 0 0 511)) 0 ∧ ¬ TableShape (sameEntries (nodeEntry true false 0 0 5 5)) 0 := by
  constructor
  · intro h
    have h1 := childAt_node (by decide) (sameEntries_get (nodeEntry true false 0 0 0 511) 0 (by decide)) (by decide) (by decide) true
    exact absurd (h.inTable [true] 511 (by rw [reachedAt, h1]; rfl)) (by decide)
  · intro h
    have h1 := childAt_node (by decide) (sameEntries_get (nodeEntry true false 0 0 5 5) 0 (by decide)) (by decide) (by decide)
    have := h.once [false] [true] 5 (by rw [reachedAt, h1]; rfl) (by rw [reachedAt, h1]; rfl)
    simp at this

/-- A root entry that is not valid, one with a child index of 511, one that is its own child, one never written; and tables that are
written throughout and not well formed. -/
theorem witness_HdeDecRefusesIllFormedTables :
    (∃ s : State, StreamOperand s.cap Config.maxIn s.hde.ops.inLen s.hde.ops.bitIn [true] ∧ s.hde.ctl.state = .idle ∧
      s.hde.ops.root.written = true ∧ s.hde.ops.root.value.toNat < 511 ∧ fitsCap s.cap Config.maxNodes = true ∧ bufGet s.hde.ops.treeIn 0 = some 0 ∧
      entryValid 0 = false) ∧
    (entryValid (nodeEntry true false 0 0 511 1) = true ∧ entryLeaf (nodeEntry true false 0 0 511 1) = false ∧
      entryLeft (nodeEntry true false 0 0 511 1) = 511) ∧
    (entryLeft (nodeEntry true false 0 0 0 1) = 0) ∧ bufGet ([] : Buf NodeElem) 0 = none ∧
    ∀ e ∈ [nodeEntry true false 0 0 0 511, nodeEntry true false 0 0 5 5],
      ∃ s : State, StreamOperand s.cap Config.maxIn s.hde.ops.inLen s.hde.ops.bitIn [true] ∧ s.hde.ctl.state = .idle ∧
        s.hde.ops.root.written = true ∧ s.hde.ops.root.value.toNat < 511 ∧ fitsCap s.cap Config.maxNodes = true ∧
        TableWritten s.hde.ops.treeIn s.hde.ops.root.value.toNat ∧ ¬ TableShape s.hde.ops.treeIn s.hde.ops.root.value.toNat := by
  refine ⟨⟨hdeState [true] [(0, 0)] 0, stream_buf _ [true] (by decide) (by decide), rfl, rfl, by decide, rfl, rfl, by decide⟩,
    by decide, by decide, rfl, fun e he => ⟨hdeState [true] (sameEntries e) 0, stream_buf _ [true] (by decide) (by decide), rfl, rfl,
      (show (BitVec.ofNat 64 0).toNat < 511 by decide), rfl, sameEntries_written e _, ?_⟩⟩
  rcases List.mem_cons.1 he with rfl | he
  · exact sameEntries_illFormed.1
  · rw [List.mem_singleton.1 he]; exact sameEntries_illFormed.2

/-- The tables of the tests, a lone leaf and the spec's example, are well formed and written. -/
theorem witness_WellFormedTablesAreRead :
    ∃ s : State, StreamOperand s.cap Config.maxIn s.hde.ops.inLen s.hde.ops.bitIn [true] ∧ s.hde.ctl.state = .idle ∧
      s.hde.ops.root.written = true ∧ s.hde.ops.root.value.toNat < 511 ∧ fitsCap s.cap Config.maxNodes = true ∧
      TableShape s.hde.ops.treeIn s.hde.ops.root.value.toNat ∧ TableWritten s.hde.ops.treeIn s.hde.ops.root.value.toNat := by
  refine ⟨hdeState [true] exampleTree 257, stream_buf _ [true] (by decide) (by decide), rfl, rfl, by decide, rfl, ?_⟩
  show TableShape exampleTree 257 ∧ TableWritten exampleTree 257
  rcases treeOf_cases exampleTree 257 (by decide) with ⟨h1, h2, -⟩ | ⟨-, -, h⟩ | ⟨-, why, h, -⟩
  · exact ⟨h1, h2⟩
  · rw [treeOf_exampleTree] at h; cases h
  · rw [treeOf_exampleTree] at h; cases h

theorem witness_LzeEnc :
    ∃ s t : State, StreamOperand s.cap Config.maxIn s.lze.ops.inLen s.lze.ops.symIn [65] ∧ s.lze.ctl.state = .idle ∧
      exec .lzeEnc s = .next t :=
  ⟨_, _, stream_lzeState [65] (by decide), rfl, rfl⟩

/-- In range at the boundary (the next code to be assigned), out of range by one, and a first code of 256. -/
theorem witness_LzdDec :
    (∃ s : State, StreamOperand s.cap Config.maxIn s.lzd.ops.inLen s.lzd.ops.lzcIn [65, 256] ∧ s.lzd.ctl.state = .idle) ∧
    CodesInRange ([65, 256].map (BitVec.toNat (w := 64))) ∧ ¬ CodesInRange ([65, 257].map (BitVec.toNat (w := 64))) ∧
    ¬ CodesInRange ([256].map (BitVec.toNat (w := 64))) ∧ fitsCap none 3 = true ∧ fitsCap (some 2) 3 = false := by
  refine ⟨⟨_, stream_lzdState [65, 256] (by decide), rfl⟩, ?_, ?_, ?_, rfl, rfl⟩
  · intro j hj
    match j, hj with
    | 0, _ => show (65 : Nat) < 256; decide
    | 1, _ => show (256 : Nat) < 257; decide
    | n + 2, h => exact absurd (show n + 2 < 2 from h) (by omega)
  · intro h; have := h 1 (by decide); revert this; decide
  · intro h; have := h 0 (by decide); revert this; decide

theorem witness_ClearReturnsToIdle :
    (control doneLzd .lzd).state = .done ∧ (control faultLzd .lzd).state = .fault ∧
    (control State.reset .lzd).state = .idle ∧ isBusy busyLzd .lzd = true ∧ resultRegister .lzd 5 = true ∧
    ∃ t, step (faultLzd.withFetchWord 16 0x270) = .next t ∧ control t .lzd ≠ control (faultLzd.withFetchWord 16 0x270) .lzd :=
  ⟨rfl, rfl, rfl, by decide, by decide, _, rfl, by decide⟩

theorem witness_RunLengthRoundTrip :
    ∃ s t d : State, RasterOperands s [7, 8] 2 1 ∧ 1 ≤ (2#64).toInt ∧ 1 ≤ (1#64).toInt ∧
      (([7, 8] : List Symbol).length : Int) = (2#64).toInt * (1#64).toInt ∧ d.rld.ctl.state = .idle ∧
      fitsCap d.cap 2 = true ∧ exec .rleEncs s = .next t ∧ PairOperands d t.rle.res.pairOut 2 1 := by
  have h : ∃ t, exec .rleEncs (rleState [7, 8] 2 1) = .next t ∧ t.rle.res.pairOut = [mkPair 7 1, mkPair 8 1] := ⟨_, rfl, rfl⟩
  obtain ⟨t, h1, h2⟩ := h
  exact ⟨_, t, decsState [mkPair 7 1, mkPair 8 1] 2 1, raster_rleState _ _ _ (by decide), by decide, by decide, by decide, rfl, rfl,
    h1, by rw [h2]; exact pairs_decsState _ _ _ (by decide)⟩

/-- The planes too. -/
theorem witness_RunLengthRoundTrip_planes :
    ∃ s t d : State, RasterOperands s [7] 1 1 ∧ exec .rleEncb s = .next t ∧ PlaneOperands d t.rle.res.planeOut 1 1 ∧
      d.rld.ctl.state = .idle := by
  have h : ∃ t, exec .rleEncb (rleState [7] 1 1) = .next t ∧ t.rle.res.planeOut = encodePlanes [7] := ⟨_, rfl, rfl⟩
  obtain ⟨t, h1, h2⟩ := h
  refine ⟨_, t, decbState (encodePlanes [7]) 1 1, raster_rleState _ _ _ (by decide), h1, ?_, rfl⟩
  rw [h2]
  refine planes_decbState _ _ _ fun p => ?_
  have := (encodePlane_length (bitPlane p.val [7])).2
  have e : (encodePlanes [7])[p] = encodePlane (bitPlane p.val [7]) := by simp [encodePlanes]
  rw [e]
  simp only [bitPlane_length, List.length_singleton] at this
  simp only [Config.maxPlaneLen]
  omega

theorem witness_HuffmanRoundTrip :
    (∃ a b c d f : State, StreamOperand a.cap Config.maxIn a.htb.ops.inLen a.htb.ops.symIn [] ∧
      exec .htbBuild a = .next b ∧ EncoderOperands c [] b.htb.res.ctabOut ∧ exec .henEnc c = .next d ∧
      StreamOperand f.cap Config.maxIn f.hde.ops.inLen f.hde.ops.bitIn d.hen.res.bitOut ∧
      Stored f.hde.ops.treeIn b.htb.res.treeOut ∧ RegHolds f.hde.ops.root b.htb.res.root ∧ f.hde.ctl.state = .idle ∧
      fitsCap f.cap Config.maxNodes = true) ∧
    (∃ (c d f : State) (tree : Option HTree), AdmittedTree [7, 7] tree ∧ EncoderOperands c [7, 7] (codeTable (codesOf tree)) ∧
      exec .henEnc c = .next d ∧ DecoderOperands f d.hen.res.bitOut tree ∧ f.hde.ctl.state = .idle) := by
  constructor
  · obtain ⟨b, hb, hv⟩ := next_of_map (o := exec .htbBuild (htbState [])) (f := fun t => (t.htb.res.ctabOut.length, t.htb.res.root))
      (v := (256, 511)) (by decide +kernel)
    have hc := encoder_henState [] b.htb.res.ctabOut (by decide) (congrArg Prod.fst hv)
    have hd := exec_henEnc_next.2 ⟨_, runOn_idle (e := .results _) rfl ((henEncOp_eq hc).trans rfl), rfl⟩
    exact ⟨_, b, _, _, hdeState [] (buf b.htb.res.treeOut) 511, stream_htbState [] (by decide), hb, hc, hd,
      stream_buf _ [] (by decide) (by decide), Stored_bufWriteList [] _, ⟨rfl, (congrArg Prod.snd hv).symm⟩, rfl, rfl⟩
  · have h := buildTree_admitted [7, 7]
    have e : (buildTree [7, 7]).1.map QNode.tree = some (.leaf 7 2) := by decide +kernel
    rw [e] at h
    have hc := encoder_henState [7, 7] (codeTable (codesOf (some (.leaf 7 2)))) (by decide) (codeTable_length _)
    have ht : tableCode (codeTable (codesOf (some (.leaf 7 2)))) 7 = some [false] := by decide +kernel
    have hh := henEncOp_eq hc
    rw [encodeSymbols_eq _ [7, 7] (fun _ => [false]) (fun x hx => by simp at hx; rw [hx]; exact ht)] at hh
    have hd := exec_henEnc_next.2 ⟨_, runOn_idle (e := .results _) rfl (hh.trans rfl), rfl⟩
    exact ⟨_, _, hdeState [false, false] [(7, nodeEntry true true 7 2 0 0)] 7, _, h, hc, hd,
      decoder_hdeState _ _ _ _ (by decide) (by decide) (by decide +kernel), rfl⟩

theorem witness_LzwRoundTrip :
    (∃ s t d : State, StreamOperand s.cap Config.maxIn s.lze.ops.inLen s.lze.ops.symIn [65] ∧ exec .lzeEnc s = .next t ∧
      StreamOperand d.cap Config.maxIn d.lzd.ops.inLen d.lzd.ops.lzcIn t.lze.res.lzcOut ∧ d.lzd.ctl.state = .idle ∧
      fitsCap d.cap 1 = true) ∧
    (∃ s t d : State, StreamOperand s.cap Config.maxIn s.lze.ops.inLen s.lze.ops.symIn [] ∧ exec .lzeEnc s = .next t ∧
      StreamOperand d.cap Config.maxIn d.lzd.ops.inLen d.lzd.ops.lzcIn t.lze.res.lzcOut ∧ d.lzd.ctl.state = .idle) := by
  have h1 : ∃ t, exec .lzeEnc (lzeState [65]) = .next t ∧ t.lze.res.lzcOut = [65] := ⟨_, rfl, by decide +kernel⟩
  have h2 : ∃ t, exec .lzeEnc (lzeState []) = .next t ∧ t.lze.res.lzcOut = [] := ⟨_, rfl, rfl⟩
  obtain ⟨t1, h3, h4⟩ := h1
  obtain ⟨t2, h5, h6⟩ := h2
  exact ⟨⟨_, t1, lzdState [65], stream_lzeState _ (by decide), h3, by rw [h4]; exact stream_lzdState _ (by decide), rfl, rfl⟩,
    ⟨_, t2, lzdState [], stream_lzeState _ (by decide), h5, by rw [h6]; exact stream_lzdState _ (by decide), rfl⟩⟩

/-- A fault that is raised, and a valid raster. -/
theorem witness_FaultMatrix :
    Raises .lzdDec (lzdState []) .emptyStream ∧ FaultCode.emptyStream ∈ mayRaise .lzdDec ∧
    ∃ s : State, RasterOperands s [9] 1 1 ∧ 1 ≤ (1#64).toInt ∧
      (([9] : List Symbol).length : Int) = (1#64).toInt * (1#64).toInt :=
  ⟨⟨_, .lzd, rfl, ⟨rfl, rfl⟩, fun h => by cases h.1⟩, by decide, _, raster_rleState [9] 1 1 (by decide), by decide, by decide⟩

theorem witness_EmptyStreamEveryCause :
    (∃ s : State, PairOperands s [] 1 1 ∧ s.rld.ctl.state = .idle) ∧
    (∃ s : State, PlaneOperands s (Vector.replicate 8 []) 1 1 ∧ s.rld.ctl.state = .idle) ∧
    (∃ s : State, DecoderOperands s [] none ∧ s.hde.ctl.state = .idle) :=
  ⟨⟨_, pairs_decsState [] 1 1 (by decide), rfl⟩, ⟨_, planes_decbState (Vector.replicate 8 []) 1 1 (fun p => by simp), rfl⟩,
    ⟨_, decoder_hdeState [] [] 511 none (by decide) (by decide) rfl, rfl⟩⟩

/-- A width of 0 and the most negative height, with operands that are also malformed. -/
theorem witness_DimensionsWinOverMalformed :
    (∃ s : State, PairOperands s [] 0 1 ∧ s.rld.ctl.state = .idle ∧ (0#64).toInt ≤ 0) ∧
    (∃ s : State, PlaneOperands s (Vector.replicate 8 []) 1 0x8000000000000000#64 ∧ s.rld.ctl.state = .idle ∧
      (0x8000000000000000#64).toInt ≤ 0) :=
  ⟨⟨_, pairs_decsState [] 0 1 (by decide), rfl, by decide⟩,
    ⟨_, planes_decbState (Vector.replicate 8 []) 1 0x8000000000000000#64 (fun p => by simp), rfl, by decide⟩⟩

theorem witness_FaultEntry :
    (∃ t, exec .lzdDec (lzdState []) = .next t ∧ t.lzd.ctl.fault = .emptyStream) ∧
    (∃ t, exec .rleEncs (rleState [1] 0 1) = .next t ∧ t.rle.ctl.fault = .invalidDimensions) ∧
    (∃ t, exec .rldDecs (decsState [] 1 1) = .next t ∧ t.rld.ctl.fault = .malformedStream) ∧
    (∃ t, exec .hdeDec (hdeState [true] [] 511) = .next t ∧ t.hde.ctl.fault = .malformedStream) ∧
    (control (lzdState []) .lzd).state = .idle ∧ (control (lzdState []) .lzd).fault = .none :=
  ⟨⟨_, rfl, rfl⟩, ⟨_, rfl, rfl⟩, ⟨_, rfl, rfl⟩, ⟨_, rfl, rfl⟩, rfl, rfl⟩

theorem nothingWritten_reset : NothingWritten State.reset :=
  ⟨by decide, rfl, rfl, by decide, rfl, rfl, rfl, rfl, rfl, rfl, rfl, rfl⟩

/-- A tree table with its root entry alone; the child entries 1 and 2 were never written. -/
def partTree : Buf NodeElem := [(0, nodeEntry true false 0 3 1 2)]

theorem partTree_reached : ∀ path i, reachedAt partTree 0 path = some i →
    (path = [] ∧ i = 0) ∨ (path = [false] ∧ i = 1) ∨ (path = [true] ∧ i = 2)
  | [], i, h => .inl ⟨rfl, (Option.some.inj h).symm⟩
  | [false], i, h => .inr (.inl ⟨rfl, by cases h; decide⟩)
  | [true], i, h => .inr (.inr ⟨rfl, by cases h; decide⟩)
  | false :: false :: p, i, h => by cases h
  | false :: true :: p, i, h => by cases h
  | true :: false :: p, i, h => by cases h
  | true :: true :: p, i, h => by cases h

theorem partTree_shape : TableShape partTree 0 ∧ ¬ TableWritten partTree 0 := by
  refine ⟨⟨fun p i h => ?_, fun p i e h he => ?_, fun p q i hp hq => ?_⟩, fun h => h [true] 2 rfl (by decide) rfl⟩
  · rcases partTree_reached p i h with ⟨-, rfl⟩ | ⟨-, rfl⟩ | ⟨-, rfl⟩ <;> decide
  · rcases partTree_reached p i h with ⟨-, rfl⟩ | ⟨-, rfl⟩ | ⟨-, rfl⟩
    · cases he; decide
    · cases he
    · cases he
  · rcases partTree_reached p i hp with ⟨rfl, rfl⟩ | ⟨rfl, rfl⟩ | ⟨rfl, rfl⟩ <;>
      rcases partTree_reached q _ hq with ⟨rfl, h⟩ | ⟨rfl, h⟩ | ⟨rfl, h⟩ <;> first | rfl | cases h

/-- After reset; and for every operation a state whose operands are in range with one of them missing: a height, an element below a
length, a plane's length, `ARG`, the last entry of the code table, an entry the tree reaches. -/
theorem witness_UnwrittenOperandsAreRefused :
    (NothingWritten State.reset ∧ ∀ i, (control State.reset (instrUnit i)).state = .idle) ∧
    ∀ i ∈ [Instr.rleEncs, .rleEncb, .rldDecs, .rldDecb, .brePut, .htbBuild, .hufEncode, .henEnc, .hdeDec, .lzeEnc, .lzdDec],
      ∃ s : State, (control s (instrUnit i)).state = .idle ∧ OperandMissing s i ∧ OperandsInRange s i := by
  refine ⟨⟨nothingWritten_reset, fun i => by cases i with
    | clear u b => cases u <;> rfl
    | _ => rfl⟩, fun i hi => ?_⟩
  have htab : ∃ x, x < Config.numCodes ∧ bufGet (buf [(0 : CodeElem)]) x = none := ⟨255, by decide, rfl⟩
  cases i with
  | rleEncs => exact ⟨{ rleState [7] 1 1 with rle := { (rleState [7] 1 1).rle with ops := { (rleState [7] 1 1).rle.ops with height := { value := 0, written := false } } } }, rfl, .inr (.inl rfl), by decide, rfl⟩
  | rleEncb => exact ⟨{ rleState [7] 1 1 with rle := { (rleState [7] 1 1).rle with ops := { (rleState [7] 1 1).rle.ops with inLen := reg 2 } } }, rfl, .inr (.inr (.inr ⟨1, by decide, rfl⟩)), by decide, rfl⟩
  | rldDecs => exact ⟨{ decsState [7] 1 1 with rld := { (decsState [7] 1 1).rld with ops := { (decsState [7] 1 1).rld.ops with inLen := reg 2 } } }, rfl, .inr (.inr (.inr ⟨1, by decide, rfl⟩)), by decide, rfl⟩
  | rldDecb => exact ⟨decsState [] 1 1, rfl, .inr (.inr ⟨7, .inl rfl⟩), by
      show ∀ p : Fin 8, _ ∧ _
      decide⟩
  | brePut => exact ⟨{ breState [true] 0 with bre := { (breState [true] 0).bre with ops := { (breState [true] 0).bre.ops with arg := { value := 0, written := false } } } }, rfl, .inr (.inl rfl), ⟨by decide, rfl⟩, by decide⟩
  | htbBuild => exact ⟨State.reset, rfl, .inl rfl, by decide, rfl⟩
  | hufEncode => exact ⟨State.reset, rfl, .inl rfl, by decide, rfl⟩
  | henEnc => exact ⟨henState [] [0], rfl, .inr (.inr htab), ⟨by decide, rfl⟩, rfl⟩
  | hdeDec => exact ⟨hdeState [true] partTree 0, rfl, .inr (.inr (.inr ⟨by decide, partTree_shape.2⟩)), ⟨by decide, rfl⟩, by decide,
      rfl, fun _ => partTree_shape.1⟩
  | lzeEnc => exact ⟨{ State.reset with lze := { State.reset.lze with ops := { inLen := reg 2, symIn := buf [65] } } }, rfl, .inr ⟨1, by decide, rfl⟩, by decide, rfl⟩
  | lzdDec => exact ⟨{ State.reset with lzd := { State.reset.lzd with ops := { inLen := reg 2, lzcIn := buf [65] } } }, rfl, .inr ⟨1, by decide, rfl⟩, by decide, rfl⟩
  | clear u b => simp at hi

/-- Plane 0 empty, and a length of `2 ^ 38` for plane 1. -/
def longPlane : State :=
  { State.reset with rld := { State.reset.rld with ops := { State.reset.rld.ops with
    width := reg 1, height := reg 1, planeLen := #v[reg 0, reg (2 ^ 38), reg 0, reg 0, reg 0, reg 0, reg 0, reg 0] } } }

/-- One above every bound. -/
theorem witness_OperandsAboveRangeAreRefused :
    (∃ s : State, s.lze.ctl.state = .idle ∧ s.lze.ops.inLen.written = true ∧ Config.maxIn < s.lze.ops.inLen.value.toNat) ∧
    (∃ s : State, s.lzd.ctl.state = .idle ∧ s.lzd.ops.inLen.written = true ∧ Config.maxIn < s.lzd.ops.inLen.value.toNat) ∧
    (∃ s : State, s.htb.ctl.state = .idle ∧ s.htb.ops.inLen.written = true ∧ Config.maxIn < s.htb.ops.inLen.value.toNat) ∧
    (∃ s : State, s.rle.ctl.state = .idle ∧ s.rle.ops.width.written = true ∧ s.rle.ops.height.written = true ∧
      s.rle.ops.inLen.written = true ∧ Config.maxIn < s.rle.ops.inLen.value.toNat) ∧
    (∃ s : State, PairOperands s [] 0x10000#64 0x10000#64 ∧ s.rld.ctl.state = .idle ∧ 1 ≤ (0x10000#64).toInt ∧
      Config.maxIn < (0x10000#64).toNat * (0x10000#64).toNat) ∧
    (∃ s : State, PlaneOperands s (Vector.replicate 8 []) 0x10000#64 0x10000#64 ∧ s.rld.ctl.state = .idle) ∧
    (∃ s : State, StreamOperand s.cap Config.maxIn s.hde.ops.inLen s.hde.ops.bitIn [] ∧ s.hde.ctl.state = .idle ∧
      s.hde.ops.root.written = true ∧ 512 ≤ s.hde.ops.root.value.toNat) ∧
    (∃ s : State, s.bre.ctl.state = .idle ∧ s.bre.ops.inLen.written = true ∧ Config.maxIn < s.bre.ops.inLen.value.toNat) ∧
    (∃ s : State, s.hen.ctl.state = .idle ∧ s.hen.ops.inLen.written = true ∧ Config.maxIn < s.hen.ops.inLen.value.toNat) ∧
    (∃ s : State, s.hde.ctl.state = .idle ∧ s.hde.ops.inLen.written = true ∧ Config.maxIn < s.hde.ops.inLen.value.toNat) ∧
    (∃ s : State, s.rld.ctl.state = .idle ∧ s.rld.ops.width.written = true ∧ s.rld.ops.height.written = true ∧
      s.rld.ops.inLen.written = true ∧ Config.maxIn < s.rld.ops.inLen.value.toNat) ∧
    (∃ s : State, s.rld.ctl.state = .idle ∧ s.rld.ops.width.written = true ∧ s.rld.ops.height.written = true ∧
      s.rld.ops.planeLen[(1 : Fin 8)].written = true ∧ Config.maxPlaneLen < s.rld.ops.planeLen[(1 : Fin 8)].value.toNat ∧
      ∀ q : Fin 8, q < 1 → ∃ bits,
        StreamOperand s.cap Config.maxPlaneLen s.rld.ops.planeLen[q] s.rld.ops.planeIn[q] bits) :=
  ⟨⟨{ State.reset with lze := { State.reset.lze with ops := { inLen := reg (2 ^ 32), symIn := [] } } }, rfl, rfl, by decide⟩,
    ⟨{ State.reset with lzd := { State.reset.lzd with ops := { inLen := reg (2 ^ 32), lzcIn := [] } } }, rfl, rfl, by decide⟩,
    ⟨{ State.reset with htb := { State.reset.htb with ops := { inLen := reg (2 ^ 32), symIn := [] } } }, rfl, rfl, by decide⟩,
    ⟨{ State.reset with rle := { State.reset.rle with ops := { width := reg 1, height := reg 1, inLen := reg (2 ^ 32), symIn := [] } } }, rfl, rfl, rfl, rfl, by decide⟩,
    ⟨_, pairs_decsState [] 0x10000#64 0x10000#64 (by decide), rfl, by decide, by decide⟩,
    ⟨_, planes_decbState (Vector.replicate 8 []) 0x10000#64 0x10000#64 (fun p => by simp), rfl⟩,
    ⟨hdeState [] [] 512, stream_buf _ [] (by decide) (by decide), rfl, rfl, by decide⟩,
    ⟨{ State.reset with bre := { State.reset.bre with ops := { inLen := reg (2 ^ 32), arg := reg 0, bitIn := [] } } }, rfl, rfl, by decide⟩,
    ⟨{ State.reset with hen := { State.reset.hen with ops := { inLen := reg (2 ^ 32), symIn := [], ctabIn := [] } } }, rfl, rfl, by decide⟩,
    ⟨{ State.reset with hde := { State.reset.hde with ops := { inLen := reg (2 ^ 32), root := reg 0, bitIn := [], treeIn := [] } } }, rfl, rfl, by decide⟩,
    ⟨{ State.reset with rld := { State.reset.rld with ops := { State.reset.rld.ops with width := reg 1, height := reg 1, inLen := reg (2 ^ 32) } } }, rfl, rfl, rfl, rfl, by decide⟩,
    ⟨longPlane, rfl, rfl, rfl, rfl, by decide, fun q hq => by
      have : q = 0 := by omega
      subst this
      exact ⟨[], stream_buf _ [] (by decide) (by decide)⟩⟩⟩

/-- A capacity one short of a table, and one short of an element, a length and a plane's length. -/
theorem witness_OperandsAboveRangeAreRefused_capacity :
    (∃ s : State, StreamOperand s.cap Config.maxIn s.hen.ops.inLen s.hen.ops.symIn [65] ∧ s.hen.ctl.state = .idle ∧
      fitsCap s.cap Config.numCodes = false) ∧
    (∃ s : State, StreamOperand s.cap Config.maxIn s.hde.ops.inLen s.hde.ops.bitIn [true] ∧ s.hde.ctl.state = .idle ∧
      s.hde.ops.root.written = true ∧ s.hde.ops.root.value.toNat < 512 ∧ fitsCap s.cap Config.maxNodes = false) ∧
    (∃ s : State, fitsCap s.cap (510 + 1) = false ∧ (Place.tree 510).writable = true) ∧
    ∀ i ∈ [Instr.rleEncs, .rleEncb, .rldDecs, .rldDecb, .brePut, .htbBuild, .hufEncode, .henEnc, .hdeDec, .lzeEnc, .lzdDec],
      ∃ s : State, (control s (instrUnit i)).state = .idle ∧ LengthBeyondCapacity s i := by
  refine ⟨⟨{ henState [65] [] with cap := some 255 }, ⟨rfl, by decide, by decide, by decide, Stored_bufWriteList [] [65]⟩, rfl, by decide⟩,
    ⟨{ hdeState [true] [] 511 with cap := some 510 }, ⟨rfl, by decide, by decide, by decide, Stored_bufWriteList [] [true]⟩, rfl, rfl,
      by decide, by decide⟩, ⟨{ State.reset with cap := some 510 }, by decide⟩, fun i hi => ?_⟩
  cases i with
  | rleEncs => exact ⟨{ rleState [7, 7] 2 1 with cap := some 1 }, rfl, rfl⟩
  | rleEncb => exact ⟨{ rleState [7, 7] 2 1 with cap := some 1 }, rfl, rfl⟩
  | rldDecs => exact ⟨{ decsState [7, 7] 2 1 with cap := some 1 }, rfl, rfl⟩
  | rldDecb => exact ⟨{ decbState (Vector.replicate 8 [true, true]) 1 1 with cap := some 1 }, rfl, 7, by
      simp [decbState, reg, fitsCap]⟩
  | brePut => exact ⟨{ breState [true, true] 0 with cap := some 1 }, rfl, rfl⟩
  | htbBuild => exact ⟨{ htbState [7, 7] with cap := some 1 }, rfl, rfl⟩
  | hufEncode => exact ⟨{ htbState [7, 7] with cap := some 1 }, rfl, rfl⟩
  | henEnc => exact ⟨{ henState [7, 7] [] with cap := some 1 }, rfl, rfl⟩
  | hdeDec => exact ⟨{ hdeState [true, true] [] 511 with cap := some 1 }, rfl, rfl⟩
  | lzeEnc => exact ⟨{ lzeState [7, 7] with cap := some 1 }, rfl, rfl⟩
  | lzdDec => exact ⟨{ lzdState [7, 7] with cap := some 1 }, rfl, rfl⟩
  | clear u b => simp at hi

theorem witness_OperationsTouchOnlyTheirUnit :
    (∃ t, exec .lzdDec (lzdState []) = .next t) ∧ ∃ t, exec (.clear .rle 0) State.reset = .next t := ⟨⟨_, rfl⟩, ⟨_, rfl⟩⟩

/-- Two states that differ in another unit and in what an earlier operation left in the same one. -/
theorem witness_OutcomeDependsOnOperandsAlone :
    ∃ s t : State, s ≠ t ∧ IsOperation .lzdDec ∧ s.cap = t.cap ∧ SameInput .lzd s t ∧
      (∃ a, exec .lzdDec s = .next a) :=
  ⟨lzdState [], { lzdState [] with lze := (lzeState [1]).lze, lzd := { (lzdState []).lzd with res := { outLen := 1, symOut := [1] } } },
    fun h => absurd (congrArg (fun s : State => s.lzd.res.symOut) h) (by decide), ⟨by decide, fun u b h => by cases h⟩, rfl, ⟨rfl, rfl⟩,
    next_of_isSome (by decide)⟩

theorem witness_DifferentUnitsCommute :
    ∃ s a b : State, instrUnit .lzdDec ≠ instrUnit .lzeEnc ∧ exec .lzdDec s = .next a ∧ exec .lzeEnc a = .next b :=
  ⟨{ lzdState [] with lze := (lzeState []).lze }, _, _, by decide, rfl, rfl⟩

theorem witness_BusyThenStepIsOneStep :
    decodeCtrl .lzd 0x170#64 = .run .lzdDec ∧ IsOperation .lzdDec ∧ ∃ b, startSlow .lzd 0x170#64 (lzdState []) = .next b :=
  ⟨by decide, ⟨by decide, fun u b h => by cases h⟩, _, rfl⟩

theorem inv_runningLzd : Inv runningLzd := by
  refine ⟨by constructor <;> decide, fun u => by cases u <;> decide, fun u f h => ?_, fun u n h => by cases u <;> cases h⟩
  cases u with
  | lzd =>
    cases h
    exact ⟨.lzdDec, _, by decide, rfl⟩
  | _ => cases h

/-- With a unit `BUSY`, and with none. -/
theorem witness_BusyUnitsTerminate :
    (Inv runningLzd ∧ runningLzd.pending = [] ∧ busyCount runningLzd ≠ 0) ∧
    (BuffersWf State.reset ∧ State.reset.pending = [] ∧ busyCount State.reset = 0) :=
  ⟨⟨inv_runningLzd, rfl, by decide⟩, ⟨buffersWf_reset, rfl, by decide⟩⟩

theorem witness_EveryStepKeepsTheInvariant : ∃ s t : State, Inv s ∧ step s = .next t ∧ s ≠ t :=
  have ⟨t, h, hv⟩ := next_of_map (o := step runningLzd) (f := fun t => t.lzd.ctl.state) (v := .done) (by decide +kernel)
  ⟨runningLzd, t, inv_runningLzd, h, fun e => by rw [← e] at hv; cases hv⟩

theorem witness_EveryStepKeepsResultsCounted : ∃ s t : State, ResultsCounted s ∧ step s = .next t ∧ t.lzd.ctl.state = .done :=
  have ⟨t, h, hv⟩ := next_of_map (o := step runningLzd) (f := fun t => t.lzd.ctl.state) (v := .done) (by decide +kernel)
  ⟨runningLzd, t, (by constructor <;> intro h <;> cases h), h, hv⟩

/-- Every encoding operation on a non-empty input, and the two empty inputs. -/
theorem witness_CompressionRatios :
    (∃ t, exec .rleEncs (rleState [9] 1 1) = .next t ∧ Done t.rle.ctl) ∧
    (∃ t, exec .rleEncb (rleState [9] 1 1) = .next t ∧ Done t.rle.ctl) ∧
    (∃ t, exec .henEnc (henState [65] exampleTable) = .next t) ∧ (∃ t, exec .henEnc (henState [] exampleTable) = .next t) ∧
    (∃ t, exec .lzeEnc (lzeState [65]) = .next t) ∧ (∃ t, exec .lzeEnc (lzeState []) = .next t) ∧
    (henState [65] exampleTable).hen.ops.inLen.value ≠ 0 ∧ (henState [] exampleTable).hen.ops.inLen.value = 0 := by
  have h1 := henEncOp_eq (encoder_henState [65] exampleTable (by decide) exampleTable_length)
  rw [encodeSymbols_eq exampleTable [65] (fun _ => [true]) (fun x hx => by
    rw [List.mem_singleton.1 hx]; exact exampleTable_codes.1)] at h1
  have h2 := henEncOp_eq (encoder_henState [] exampleTable (by decide) exampleTable_length)
  exact ⟨⟨_, rfl, rfl, rfl⟩, ⟨_, rfl, rfl, rfl⟩, ⟨_, exec_henEnc_next.2 ⟨_, runOn_idle (e := .results _) rfl (h1.trans rfl), rfl⟩⟩,
    ⟨_, exec_henEnc_next.2 ⟨_, runOn_idle (e := .results _) rfl (h2.trans rfl), rfl⟩⟩,
    next_of_isSome (by decide +kernel), next_of_isSome (by decide +kernel), by decide, by decide⟩

theorem witness_RunLengthFieldFormat : (List.replicate 32 true).length = 32 := by decide

theorem witness_ElementFormats : 2 ^ 32 - 1 < 2 ^ 32 ∧ 511 < 512 ∧ (List.replicate 255 true).length ≤ 255 :=
  ⟨by decide, by decide, (List.length_replicate).le⟩

/-- A `START` of every operation that leaves its unit `BUSY`. -/
theorem witness_BusyUnitsStartFromInitialValues :
    (∃ s : State, RasterOperands s [9] 1 1 ∧ s.rle.ctl.state = .idle ∧ 1 ≤ (1#64).toInt ∧
      (([9] : List Symbol).length : Int) = (1#64).toInt * (1#64).toInt ∧ fitsCap s.cap (32 * (1 + 1)) = true) ∧
    (∃ s t, startSlow .rld 0x110#64 s = .next t) ∧ (∃ s t, startSlow .rld 0x111#64 s = .next t) ∧
    (∃ s t, startSlow .htb 0x130#64 s = .next t) ∧ (∃ s t, startSlow .hen 0x140#64 s = .next t) ∧
    (∃ s t, DecoderOperands s [true] (some exampleHTree) ∧ startSlow .hde 0x150#64 s = .next t) ∧
    (∃ s t, startSlow .lze 0x160#64 s = .next t) ∧ ∃ s t, startSlow .lzd 0x170#64 s = .next t := by
  have hd := decoder_hdeState [true] exampleTree 257 _ (by decide) (by decide) treeOf_exampleTree
  have h := henEncOp_eq (encoder_henState [] exampleTable (by decide) exampleTable_length)
  have hb := (beginOn_ok (init := fun _ => HenWork.atRest) (func := 0)).2 ⟨rfl, ⟨_, h.trans rfl⟩, rfl⟩
  exact ⟨⟨_, raster_rleState [9] 1 1 (by decide), rfl, by decide, by decide, rfl⟩,
    ⟨decsState [] 1 1, next_of_isSome (by decide +kernel)⟩,
    ⟨decbState (Vector.replicate 8 []) 1 1, next_of_isSome (by decide +kernel)⟩,
    ⟨htbState [65], next_of_isSome (by decide +kernel)⟩,
    ⟨henState [] exampleTable, { henState [] exampleTable with hen := _ }, answer_eq_next.2 (Except.map_eq_ok.2 ⟨_, hb, rfl⟩)⟩,
    ⟨hdeState [true] exampleTree 257, (next_of_isSome (by decide +kernel)).imp fun t ht => ⟨hd, ht⟩⟩,
    ⟨lzeState [65], next_of_isSome (by decide +kernel)⟩, ⟨lzdState [65], next_of_isSome (by decide +kernel)⟩⟩

end Sys2Proof.Machine.Tests
end

namespace Sys2Proof.Machine

/-! ### Every operation has one shape

Each of the ten operations runs on one unit of its own. `UnitLens` names that unit within the state, and `OperationSpec` says once how
`exec`, `beginOperation` and `finishOperation` act through it, so that no later proof splits over the ten operations again. -/

/-- A unit's place in the state: how it is read and replaced, and that replacing it touches nothing else (R317). -/
structure UnitLens (u : UnitId) (O R W : Type) where
  get : State → CodecUnit O R W
  put : State → CodecUnit O R W → State
  get_put : ∀ s x, get (put s x) = x := by intros; rfl
  put_put : ∀ s x y, put (put s x) y = put s y := by intros; rfl
  cap_put : ∀ s x, (put s x).cap = s.cap := by intros; rfl
  pending_put : ∀ s x, (put s x).pending = s.pending := by intros; rfl
  reads_put : ∀ s x, (put s x).reads = s.reads := by intros; rfl
  control_eq : ∀ s, control s u = (get s).ctl := by intros; rfl
  onlyUnit_put : ∀ s x, x.ops = (get s).ops → OnlyUnit u s (put s x) := by intro s x h; exact ⟨rfl, h⟩

namespace UnitLens

/-! The eight units (R50). -/

def rle : UnitLens .rle RleOps RleRes RleWork where
  get := State.rle
  put s x := { s with rle := x }

def rld : UnitLens .rld RldOps SymRes RldWork where
  get := State.rld
  put s x := { s with rld := x }

def bre : UnitLens .bre BreOps BreRes NoWork where
  get := State.bre
  put s x := { s with bre := x }

def htb : UnitLens .htb HtbOps HtbRes HtbWork where
  get := State.htb
  put s x := { s with htb := x }

def hen : UnitLens .hen HenOps HenRes HenWork where
  get := State.hen
  put s x := { s with hen := x }

def hde : UnitLens .hde HdeOps SymRes HdeWork where
  get := State.hde
  put s x := { s with hde := x }

def lze : UnitLens .lze LzeOps LzeRes LzeWork where
  get := State.lze
  put s x := { s with lze := x }

def lzd : UnitLens .lzd LzdOps SymRes LzdWork where
  get := State.lzd
  put s x := { s with lzd := x }

theorem control_put {u : UnitId} {O R W : Type} (l : UnitLens u O R W) (s : State) (x : CodecUnit O R W) :
    control (l.put s x) u = x.ctl := by
  rw [l.control_eq, l.get_put]

end UnitLens

/-- The control of every other unit is kept. -/
theorem OnlyUnit.control_of_ne {u v : UnitId} {s t : State} (h : OnlyUnit u s t) (hne : v ≠ u) : control t v = control s v := by
  cases u <;> rw [h.1] <;> cases v <;> simp at hne ⊢

/-- What an operation answers is decided by the capacity, its unit's operands and its unit's draw counter (R49, assumption log 7). -/
def DecidedByOperands {O R W : Type} (op : Operation O R W) : Prop :=
  ∀ cap x y, x.ops = y.ops → x.ctl.draws = y.ctl.draws → op cap x = op cap y

/-- How operation `i` acts on the state: its unit, its meaning there, and the three ways it is run. -/
structure OperationSpec (i : Instr) where
  {O R W : Type}
  lens : UnitLens (instrUnit i) O R W
  init : CodecUnit O R W → W
  unspec : Nat → R
  rest : W
  op : Operation O R W
  decided : DecidedByOperands op
  exec_eq : ∀ s, exec i s = answer ((runOn unspec rest op s.cap (lens.get s)).map (lens.put s)) := by intros; rfl
  begin_eq : ∀ f s, beginOperation i f s = (beginOn init f op s.cap (lens.get s)).map (lens.put s) := by intros; rfl
  finish_eq : ∀ s, finishOperation i s = (finishOn unspec rest op s.cap (lens.get s)).map (lens.put s) := by intros; rfl

/-- The ten operations, each on its unit (R101). -/
def operationSpec : (i : Instr) → IsOperation i → OperationSpec i
  | .rleEncs, _ =>
    { lens := .rle, init := rleEncsInitial, unspec := RleRes.unspecified, rest := .atRest, op := rleEncsOp
      decided := fun cap x y ho hd => by simp only [rleEncsOp, ho, hd] }
  | .rleEncb, _ =>
    { lens := .rle, init := fun _ => .atRest, unspec := RleRes.unspecified, rest := .atRest, op := rleEncbOp
      decided := fun cap x y ho hd => by simp only [rleEncbOp, ho, hd] }
  | .rldDecs, _ =>
    { lens := .rld, init := fun _ => .atRest, unspec := SymRes.unspecified 1, rest := .atRest, op := rldDecsOp
      decided := fun cap x y ho _ => by simp only [rldDecsOp, ho] }
  | .rldDecb, _ =>
    { lens := .rld, init := fun _ => .atRest, unspec := SymRes.unspecified 1, rest := .atRest, op := rldDecbOp
      decided := fun cap x y ho _ => by simp only [rldDecbOp, ho] }
  | .brePut, _ =>
    { lens := .bre, init := fun _ => {}, unspec := BreRes.unspecified, rest := {}, op := brePutOp
      decided := fun cap x y ho _ => by simp only [brePutOp, ho] }
  | .htbBuild, _ =>
    { lens := .htb, init := fun _ => .atRest, unspec := HtbRes.unspecified, rest := .atRest, op := htbBuildOp
      decided := fun cap x y ho hd => by simp only [htbBuildOp, ho, hd] }
  | .henEnc, _ =>
    { lens := .hen, init := fun _ => .atRest, unspec := HenRes.unspecified, rest := .atRest, op := henEncOp
      decided := fun cap x y ho hd => by simp only [henEncOp, ho, hd] }
  | .hdeDec, _ =>
    { lens := .hde, init := hdeInitial, unspec := SymRes.unspecified 5, rest := .atRest, op := hdeDecOp
      decided := fun cap x y ho _ => by simp only [hdeDecOp, ho] }
  | .lzeEnc, _ =>
    { lens := .lze, init := fun _ => lzeInitial, unspec := LzeRes.unspecified, rest := .atRest, op := lzeEncOp
      decided := fun cap x y ho hd => by simp only [lzeEncOp, ho, hd] }
  | .lzdDec, _ =>
    { lens := .lzd, init := fun _ => lzdInitial, unspec := SymRes.unspecified 7, rest := .atRest, op := lzdDecOp
      decided := fun cap x y ho _ => by simp only [lzdDecOp, ho] }
  | .clear u b, h => absurd rfl (h.2 u b)
  | .hufEncode, h => absurd rfl h.1

/-! ### A unit that starts, and one that ends -/

section
variable {O R W : Type}

/-- How a unit ends sees its operands and its draw counter only. -/
theorem endOperation_congr (unspec : Nat → R) (rest : W) {x y : CodecUnit O R W} (ho : x.ops = y.ops)
    (hd : x.ctl.draws = y.ctl.draws) : endOperation unspec rest x = endOperation unspec rest y := by
  funext e
  cases e with
  | results r => simp only [endOperation_results, completeUnit, ho, hd]
  | raises f => simp only [endOperation_raises, raiseFault, ho, hd]

/-- A unit that was left `BUSY` ends as if its operation had been run at once (R7, R44). -/
theorem finishOn_of_beginOn {init : CodecUnit O R W → W} {func : BitVec 4} {op : Operation O R W} {cap : Option Nat}
    {x y : CodecUnit O R W} (unspec : Nat → R) (rest : W) (hop : DecidedByOperands op) (h : beginOn init func op cap x = .ok y) :
    finishOn unspec rest op cap y = runOn unspec rest op cap x := by
  obtain ⟨hidle, -, hy⟩ := beginOn_ok.1 h
  have ho : y.ops = x.ops := by rw [hy]
  have hd : y.ctl.draws = x.ctl.draws := by rw [hy]
  rw [runOn, if_pos hidle, finishOn, finishOn, hop cap y x ho hd, endOperation_congr unspec rest ho hd]

theorem endOperation_not_busy (unspec : Nat → R) (rest : W) (x : CodecUnit O R W) (e : Ending R) (f : BitVec 4) :
    (endOperation unspec rest x e).ctl.state ≠ .busy f := by
  cases e <;> simp

end

namespace OperationSpec
variable {i : Instr} {s t : State} {f : BitVec 4}

/-- A `START` that leaves its unit `BUSY` replaces that unit. -/
theorem begin_ok (o : OperationSpec i) (h : beginOperation i f s = .ok t) :
    ∃ x, beginOn o.init f o.op s.cap (o.lens.get s) = .ok x ∧ t = o.lens.put s x := by
  rw [o.begin_eq] at h
  obtain ⟨x, hx, rfl⟩ := Except.map_eq_ok.1 h
  exact ⟨x, hx, rfl⟩

theorem begin_control (o : OperationSpec i) (h : beginOperation i f s = .ok t) :
    control t (instrUnit i) = { control s (instrUnit i) with state := .busy f } := by
  obtain ⟨x, hx, rfl⟩ := o.begin_ok h
  obtain ⟨-, -, rfl⟩ := beginOn_ok.1 hx
  rw [o.lens.control_put, o.lens.control_eq]

theorem begin_onlyUnit (o : OperationSpec i) (h : beginOperation i f s = .ok t) : OnlyUnit (instrUnit i) s t := by
  obtain ⟨x, hx, rfl⟩ := o.begin_ok h
  obtain ⟨-, -, rfl⟩ := beginOn_ok.1 hx
  exact o.lens.onlyUnit_put s _ rfl

/-- The two ways to run an operation end the same (R7, R44). -/
theorem finish_of_begin (o : OperationSpec i) (h : beginOperation i f s = .ok t) : answer (finishOperation i t) = exec i s := by
  obtain ⟨x, hx, rfl⟩ := o.begin_ok h
  have hput : o.lens.put (o.lens.put s x) = o.lens.put s := funext (o.lens.put_put s x)
  rw [o.finish_eq, o.exec_eq, o.lens.get_put, o.lens.cap_put, hput, finishOn_of_beginOn _ _ o.decided hx]

/-- The step of a `BUSY` unit replaces that unit by its end. -/
theorem finish_ok (o : OperationSpec i) (h : finishOperation i s = .ok t) :
    ∃ e, t = o.lens.put s (endOperation o.unspec o.rest (o.lens.get s) e) := by
  rw [o.finish_eq] at h
  obtain ⟨x, hx, rfl⟩ := Except.map_eq_ok.1 h
  obtain ⟨e, -, rfl⟩ := finishOn_ok.1 hx
  exact ⟨e, rfl⟩

theorem finish_onlyUnit (o : OperationSpec i) (h : finishOperation i s = .ok t) : OnlyUnit (instrUnit i) s t := by
  obtain ⟨e, rfl⟩ := o.finish_ok h
  exact o.lens.onlyUnit_put s _ (endOperation_ops ..)

theorem finish_not_busy (o : OperationSpec i) (h : finishOperation i s = .ok t) : isBusy t (instrUnit i) = false := by
  obtain ⟨e, rfl⟩ := o.finish_ok h
  rw [isBusy, o.lens.control_put]
  split
  · next f hf => exact absurd hf (endOperation_not_busy _ _ _ e f)
  · rfl

theorem finish_pending (o : OperationSpec i) (h : finishOperation i s = .ok t) : t.pending = s.pending := by
  obtain ⟨e, rfl⟩ := o.finish_ok h
  exact o.lens.pending_put ..

theorem finish_reads (o : OperationSpec i) (h : finishOperation i s = .ok t) : t.reads = s.reads := by
  obtain ⟨e, rfl⟩ := o.finish_ok h
  exact o.lens.reads_put ..

end OperationSpec

/-! ### The command and the function field that a `BUSY` unit keeps (R100, R101) -/

/-- The opcode map holds operations only. -/
theorem opcodeMap_isOperation {o : BitVec 8} {u : UnitId} {i : Instr} (h : opcodeMap o = some (u, i)) : IsOperation i := by
  unfold opcodeMap at h
  split at h <;> cases h <;> exact ⟨nofun, nofun⟩

/-- A `BUSY` unit runs an operation. -/
theorem opOfFunc_isOperation {u : UnitId} {f : BitVec 4} {i : Instr} (h : opOfFunc u f = some i) : IsOperation i := by
  unfold opOfFunc at h
  split at h
  · next hm =>
    split at h <;> cases h
    exact opcodeMap_isOperation hm
  · cases h

/-- The low four bits of an `OPCODE` and its unit name the operation again. -/
theorem opOfFunc_opcode {o : BitVec 8} {u : UnitId} {i : Instr} (h : opcodeMap o = some (u, i)) :
    opOfFunc u (o.extractLsb' 0 4) = some i := by
  unfold opcodeMap at h
  split at h <;> cases h <;> rfl

/-- `FUNC` is the low half of `OPCODE` (R100). -/
theorem ctrlFunc_eq (w : BitVec 64) : ctrlFunc w = (ctrlOpcode w).extractLsb' 0 4 := by
  ext k hk
  simp [ctrlFunc, ctrlOpcode]

/-- A command word that asks for an operation holds its `OPCODE`, on the operation's unit (R101). -/
theorem decodeCtrl_opcodeMap {u : UnitId} {w : BitVec 64} {i : Instr} (h : decodeCtrl u w = .run i) (hop : IsOperation i) :
    opcodeMap (ctrlOpcode w) = some (u, i) := by
  unfold decodeCtrl at h
  split at h
  · cases h
  · split at h
    · split at h
      · next v j hm =>
        split at h <;> cases h
        next hv => rw [hm, hv]
      · cases h
    · cases h
      exact absurd rfl (hop.2 _ _)
    · cases h
    · cases h

theorem startSlow_eq {u : UnitId} {w : BitVec 64} {i : Instr} (h : decodeCtrl u w = .run i) (hop : IsOperation i) (s : State) :
    startSlow u w s = answer (beginOperation i (ctrlFunc w) s) := by
  unfold startSlow
  split
  · next v b hc => cases h.symm.trans hc; exact absurd rfl (hop.2 v b)
  · next j _ hj => cases h.symm.trans hj; rfl
  · next hn => cases h.symm.trans hn
  · next hr => cases h.symm.trans hr

theorem writeCtrl_run {u : UnitId} {w : BitVec 64} {i : Instr} (h : decodeCtrl u w = .run i) (s : State) :
    writeCtrl u w s = exec i s := by
  simp only [writeCtrl, h]

theorem unitStep_busy {u : UnitId} {f : BitVec 4} {i : Instr} {s : State} (h : (control s u).state = .busy f)
    (ho : opOfFunc u f = some i) : unitStep u s = answer (finishOperation i s) := by
  simp only [unitStep, h, ho]

/-- `STATUS` of a `BUSY` unit without a fault code reads 1 (R50). -/
theorem statusWord_busy {c : Control} {f : BitVec 4} (hs : c.state = .busy f) (hf : c.fault = .none) : statusWord c = 1 := by
  simp [statusWord, hs, hf, stateCode, faultCode]

/-! ### The `BUSY` units, counted (R8) -/

theorem isBusy_iff {s : State} {u : UnitId} : isBusy s u = true ↔ ∃ f, (control s u).state = .busy f := by
  unfold isBusy
  cases (control s u).state <;> simp

theorem mem_allUnits (u : UnitId) : u ∈ allUnits := by cases u <;> decide

theorem busyCount_eq_zero {s : State} : busyCount s = 0 ↔ allUnits.find? (isBusy s) = none := by
  simp [busyCount]

/-- Where only one `BUSY` unit changes, and is `BUSY` no more, there is one `BUSY` unit fewer. -/
theorem busyCount_of_onlyUnit {u : UnitId} {s t : State} (h : OnlyUnit u s t) (hs : isBusy s u = true) (ht : isBusy t u = false) :
    busyCount t + 1 = busyCount s := by
  have hbusy : ∀ v, isBusy t v = (isBusy s v && v != u) := fun v => by
    rcases eq_or_ne v u with rfl | hne
    · simp [ht]
    · simp [isBusy, h.control_of_ne hne, hne]
  have hnodup : (allUnits.filter (isBusy s)).Nodup := List.Nodup.filter _ (by decide)
  have herase : allUnits.filter (isBusy t) = (allUnits.filter (isBusy s)).erase u := by
    rw [hnodup.erase_eq_filter, List.filter_filter]
    exact List.filter_congr fun v _ => by rw [hbusy v, Bool.and_comm]
  rw [busyCount, busyCount, herase]
  exact List.length_erase_add_one (List.mem_filter.2 ⟨mem_allUnits u, hs⟩)

theorem step_of_no_event {s : State} (h : s.pending = []) : step s = idleStep s := by
  simp only [step, nextEvent, h]

/-! ### The obligations -/

/-- Settles O51: the unit left `BUSY` has the operands and the draw counter of the one that runs at once, and its function field and
its number name the same operation. -/
theorem busyThenStepIsOneStep : Obligations.BusyThenStepIsOneStep := by
  unfold Obligations.BusyThenStepIsOneStep
  intro s b u w i hdec hop hstart
  have hmap := decodeCtrl_opcodeMap hdec hop
  obtain rfl := opcodeMap_unit hmap
  have hfunc : opOfFunc (instrUnit i) (ctrlFunc w) = some i := ctrlFunc_eq w ▸ opOfFunc_opcode hmap
  have hbegin : beginOperation i (ctrlFunc w) s = .ok b := answer_eq_next.1 (startSlow_eq hdec hop s ▸ hstart)
  have o := operationSpec i hop
  have hctl := o.begin_control hbegin
  have hbusy : (control b (instrUnit i)).state = .busy (ctrlFunc w) := by rw [hctl]
  refine ⟨hbusy, o.begin_onlyUnit hbegin, fun hnone => ?_, ?_⟩
  · exact statusWord_busy hbusy (by rw [hctl]; exact hnone)
  · rw [unitStep_busy hbusy hfunc, o.finish_of_begin hbegin, writeCtrl_run hdec]

/-- Settles O52: the step of the first `BUSY` unit is not refused, by the invariant, and it ends that unit's operation and leaves the
other units as they are. -/
theorem busyUnitsTerminate : Obligations.BusyUnitsTerminate := by
  unfold Obligations.BusyUnitsTerminate
  intro s hinv hpending
  rw [step_of_no_event hpending, idleStep]
  refine ⟨fun hzero => by rw [busyCount_eq_zero.1 hzero], fun hsome => ?_⟩
  obtain ⟨u, hfind⟩ := Option.ne_none_iff_exists'.1 (mt busyCount_eq_zero.2 hsome)
  have hbusy : isBusy s u = true := List.find?_some hfind
  obtain ⟨f, hf⟩ := isBusy_iff.1 hbusy
  obtain ⟨i, t, hop, hfinish⟩ := hinv.busy u f hf
  obtain rfl := opOfFunc_unit hop
  have o := operationSpec i (opOfFunc_isOperation hop)
  refine ⟨t, ?_, busyCount_of_onlyUnit (o.finish_onlyUnit hfinish) hbusy (o.finish_not_busy hfinish), ?_, o.finish_reads hfinish⟩
  · rw [hfind]
    exact (unitStep_busy hf hop).trans (answer_eq_next.2 hfinish)
  · rw [o.finish_pending hfinish, hpending]

end Sys2Proof.Machine

namespace Sys2Proof.Machine

/-! ### Operand registers and the register bank (R50) -/

theorem not_busy_of_isBusy {s : State} {u : UnitId} (h : isBusy s u = false) (f : BitVec 4) : (control s u).state ≠ .busy f :=
  fun hf => by simp [isBusy_iff.2 ⟨f, hf⟩] at h

theorem operandRegister_bounds {u : UnitId} {r : Nat} (h : operandRegister u r = true) : 2 ≤ r ∧ r < 32 := by
  cases u <;> simp [operandRegister] at h <;> omega

/-- Registers 16 to 23 of unit 1 are its `PLANE_LEN` operands. -/
theorem rldReg_planeLen (d : Bool) (x : CodecUnit RldOps SymRes RldWork) {r : Nat} (h : 16 ≤ r ∧ r < 24) :
    rldReg d x r = operandShown .rld x.ctl r (x.ops.planeLen[r - 16]'(by omega)) := by
  obtain ⟨h16, h24⟩ := h
  interval_cases r <;> rfl

theorem rldWriteReg_planeLen (x : CodecUnit RldOps SymRes RldWork) {r : Nat} (v : BitVec 64) (h : 16 ≤ r ∧ r < 24) :
    rldWriteReg x r v =
      writeOperand x fun o => { o with planeLen := o.planeLen.set (r - 16) (writtenReg v) (by omega) } := by
  obtain ⟨h16, h24⟩ := h
  interval_cases r <;> rfl

/-- An operand register reads the value the host wrote last, or a free value before the first write (R50, R52). -/
theorem readReg_operand {s : State} {u : UnitId} {r : Nat} {o : OpReg} (h : operandAt s u r = some o) :
    readReg s u r = operandShown u (control s u) r o := by
  cases u <;> simp only [operandAt] at h
  case rld =>
    split_ifs at h with h2 h3 h4 hp <;> cases h
    · subst h2; rfl
    · subst h3; rfl
    · subst h4; rfl
    · rw [readReg, if_neg (by omega), if_neg (by omega)]
      exact rldReg_planeLen _ _ hp
  all_goals
    split_ifs at h <;> cases h <;> subst_vars <;> rfl

/-- What a register shows depends on its unit's control and results, whether the host has polled them, and on the register itself
when it is an operand. -/
theorem readReg_congr {s t : State} {u : UnitId} {r : Nat} (hop : operandAt t u r = operandAt s u r) (hres : SameResults u s t)
    (hd : resultsDefined t u = resultsDefined s u) : readReg t u r = readReg s u r := by
  have hctl := hres.control
  cases ho : operandAt s u r with
  | some o => rw [readReg_operand ho, readReg_operand (hop.trans ho), hctl]
  | none =>
    unfold readReg
    simp only [hctl, hd]
    congr 2
    cases u <;> obtain ⟨hctl, hr⟩ := hres <;> simp only [operandAt] at ho
    case rld =>
      have hp : ¬(16 ≤ r ∧ r < 24) := fun hp => by
        have : r ≠ 2 ∧ r ≠ 3 ∧ r ≠ 4 := by omega
        simp [this, hp] at ho
      simp only [rldReg]
      split <;> simp [hctl, hr, dif_neg hp] at ho ⊢
    all_goals
      simp only [rleReg, breReg, htbReg, henReg, hdeReg, lzeReg, lzdReg, hctl, hr]
      split <;> simp at ho ⊢

/-- A register write that goes to an operand of a unit that is not `BUSY` replaces that unit's operands. -/
theorem writeReg_not_busy {O R W : Type} {s : State} {u : UnitId} {r : Nat} {v : BitVec 64} (l : UnitLens u O R W) (f : O → O)
    (hb : ∀ g, (control s u).state ≠ .busy g) (hw : writeReg s u r v = (writeOperand (l.get s) f).map (l.put s)) :
    writeReg s u r v = .ok (l.put s { l.get s with ops := f (l.get s).ops }) := by
  rw [hw, writeOperand_ok.2 ⟨fun g => l.control_eq s ▸ hb g, rfl⟩, Except.map]

/-- A host write to an operand register of a unit that is not `BUSY` is accepted and sets that register (R50, R344). -/
theorem writeReg_operand {s : State} {u : UnitId} {r : Nat} (v : BitVec 64) (h : operandRegister u r = true)
    (hb : ∀ f, (control s u).state ≠ .busy f) : ∃ t, writeReg s u r v = .ok t ∧ OperandRegisterSet u r v s t := by
  cases u <;> simp only [operandRegister, Bool.or_eq_true, decide_eq_true_eq] at h
  · rcases h with (rfl | rfl) | rfl
    · exact ⟨_, writeReg_not_busy .rle (fun o => { o with width := writtenReg v }) hb rfl, rfl, rfl, rfl,
        fun r' hr => by simp only [operandAt, if_neg hr]; rfl⟩
    · exact ⟨_, writeReg_not_busy .rle (fun o => { o with height := writtenReg v }) hb rfl, rfl, rfl, rfl,
        fun r' hr => by simp only [operandAt, if_neg hr]; rfl⟩
    · exact ⟨_, writeReg_not_busy .rle (fun o => { o with inLen := writtenReg v }) hb rfl, rfl, rfl, rfl,
        fun r' hr => by simp only [operandAt, if_neg hr]; rfl⟩
  · rw [Bool.and_eq_true, decide_eq_true_eq, decide_eq_true_eq] at h
    rcases h with ((rfl | rfl) | rfl) | hr
    · exact ⟨_, writeReg_not_busy .rld (fun o => { o with width := writtenReg v }) hb rfl, rfl, ⟨rfl, rfl⟩, rfl,
        fun r' hr => by simp only [operandAt, if_neg hr]; rfl⟩
    · exact ⟨_, writeReg_not_busy .rld (fun o => { o with height := writtenReg v }) hb rfl, rfl, ⟨rfl, rfl⟩, rfl,
        fun r' hr => by simp only [operandAt, if_neg hr]; rfl⟩
    · exact ⟨_, writeReg_not_busy .rld (fun o => { o with inLen := writtenReg v }) hb rfl, rfl, ⟨rfl, rfl⟩, rfl,
        fun r' hr => by simp only [operandAt, if_neg hr]; rfl⟩
    · refine ⟨_, writeReg_not_busy .rld (fun o => { o with planeLen := o.planeLen.set (r - 16) (writtenReg v) (by omega) }) hb
        (congrArg (Except.map _) (rldWriteReg_planeLen s.rld v hr)), rfl, ⟨rfl, rfl⟩, ?_, fun r' hne => ?_⟩
      · have : r ≠ 2 ∧ r ≠ 3 ∧ r ≠ 4 := by omega
        simp [operandAt, this, hr, UnitLens.rld, writtenReg]
      · simp [operandAt, UnitLens.rld, Vector.getElem_set]
        split_ifs <;> simp
        omega
  · rcases h with rfl | rfl
    · exact ⟨_, writeReg_not_busy .bre (fun o => { o with inLen := writtenReg v }) hb rfl, rfl, rfl, rfl,
        fun r' hr => by simp only [operandAt, if_neg hr]; rfl⟩
    · exact ⟨_, writeReg_not_busy .bre (fun o => { o with arg := writtenReg v }) hb rfl, rfl, rfl, rfl,
        fun r' hr => by simp only [operandAt, if_neg hr]; rfl⟩
  · obtain rfl := h
    exact ⟨_, writeReg_not_busy .htb (fun o => { o with inLen := writtenReg v }) hb rfl, rfl, rfl, rfl,
      fun r' hr => by simp only [operandAt, if_neg hr]⟩
  · obtain rfl := h
    exact ⟨_, writeReg_not_busy .hen (fun o => { o with inLen := writtenReg v }) hb rfl, rfl, ⟨rfl, rfl⟩, rfl,
      fun r' hr => by simp only [operandAt, if_neg hr]⟩
  · rcases h with rfl | rfl
    · exact ⟨_, writeReg_not_busy .hde (fun o => { o with inLen := writtenReg v }) hb rfl, rfl, ⟨rfl, rfl⟩, rfl,
        fun r' hr => by simp only [operandAt, if_neg hr]; rfl⟩
    · exact ⟨_, writeReg_not_busy .hde (fun o => { o with root := writtenReg v }) hb rfl, rfl, ⟨rfl, rfl⟩, rfl,
        fun r' hr => by simp only [operandAt, if_neg hr]; rfl⟩
  · obtain rfl := h
    exact ⟨_, writeReg_not_busy .lze (fun o => { o with inLen := writtenReg v }) hb rfl, rfl, rfl, rfl,
      fun r' hr => by simp only [operandAt, if_neg hr]⟩
  · obtain rfl := h
    exact ⟨_, writeReg_not_busy .lzd (fun o => { o with inLen := writtenReg v }) hb rfl, rfl, rfl, rfl,
      fun r' hr => by simp only [operandAt, if_neg hr]⟩

/-! ### What an operand write keeps -/

namespace OperandRegisterSet
variable {u : UnitId} {r : Nat} {v : BitVec 64} {s t : State}

theorem results (h : OperandRegisterSet u r v s t) : SameResults u s t := by
  cases u <;> rw [h.onlyOperands] <;> exact ⟨rfl, rfl⟩

theorem frame (h : OperandRegisterSet u r v s t) :
    t.cap = s.cap ∧ t.pending = s.pending ∧ t.reads = s.reads ∧ t.seen = s.seen := by
  cases u <;> rw [h.onlyOperands] <;> exact ⟨rfl, rfl, rfl, rfl⟩

theorem sameUnit_of_ne (h : OperandRegisterSet u r v s t) {u' : UnitId} (hne : u' ≠ u) : SameUnit u' s t := by
  cases u <;> rw [h.onlyOperands] <;> cases u' <;> simp [SameUnit] at hne ⊢

theorem resultsDefined_eq (h : OperandRegisterSet u r v s t) : resultsDefined t u = resultsDefined s u := by
  obtain ⟨-, -, -, hseen⟩ := h.frame
  rw [resultsDefined, resultsDefined, h.results.control, hseen]

theorem reads_value (h : OperandRegisterSet u r v s t) : readReg t u r = v := by
  rw [readReg_operand h.taken]
  rfl

theorem reads_others (h : OperandRegisterSet u r v s t) {r' : Nat} (hne : r' ≠ r) : readReg t u r' = readReg s u r' :=
  readReg_congr (h.others r' hne) h.results h.resultsDefined_eq

end OperandRegisterSet

/-- Settles O7: the register bank takes the value, and what else the host can see follows from the operands alone having changed. -/
theorem operandRegistersKeepTheHostsValue : Obligations.OperandRegistersKeepTheHostsValue := by
  unfold Obligations.OperandRegistersKeepTheHostsValue
  intro s u r v hop hbusy
  obtain ⟨h2, h32⟩ := operandRegister_bounds hop
  obtain ⟨t, hwrite, hset⟩ := writeReg_operand v hop (not_busy_of_isBusy hbusy)
  obtain ⟨hcap, hpending, hreads, -⟩ := hset.frame
  refine ⟨t, ?_, hset, hset.reads_value, fun _ => hset.reads_others, fun _ => hset.sameUnit_of_ne, hset.results.control,
    hcap, hpending, hreads⟩
  rw [hostWrite_reg s u r v h32 (by omega), hwrite, answer]

/-! ### An operation sees its unit's control and operands only (R43, R317) -/

/-- Units that agree in control and operands run an operation to the same end: nothing of the unit before outlives it. -/
theorem runOn_congr {O R W : Type} (unspec : Nat → R) (rest : W) {op : Operation O R W} (hop : DecidedByOperands op)
    (cap : Option Nat) {x y : CodecUnit O R W} (hctl : x.ctl = y.ctl) (hops : x.ops = y.ops) :
    runOn unspec rest op cap x = runOn unspec rest op cap y := by
  have hdraws : x.ctl.draws = y.ctl.draws := by rw [hctl]
  simp only [runOn, finishOn, hctl, hop cap x y hops hdraws, endOperation_congr unspec rest hops hdraws]

theorem SameInput.get {i : Instr} {s t : State} (hop : IsOperation i) (h : SameInput (instrUnit i) s t) :
    ((operationSpec i hop).lens.get s).ctl = ((operationSpec i hop).lens.get t).ctl ∧
      ((operationSpec i hop).lens.get s).ops = ((operationSpec i hop).lens.get t).ops := by
  cases i with
  | clear u b => exact absurd rfl (hop.2 u b)
  | hufEncode => exact absurd rfl hop.1
  | _ => exact h

theorem sameUnit_put {i : Instr} (hop : IsOperation i) (s t : State) (x) :
    SameUnit (instrUnit i) ((operationSpec i hop).lens.put s x) ((operationSpec i hop).lens.put t x) := by
  cases i with
  | clear u b => exact absurd rfl (hop.2 u b)
  | hufEncode => exact absurd rfl hop.1
  | _ => rfl

/-- Settles O49: both states run the same operation on units that it cannot tell apart, and put the same unit back. -/
theorem outcomeDependsOnOperandsAlone : Obligations.OutcomeDependsOnOperandsAlone := by
  unfold Obligations.OutcomeDependsOnOperandsAlone
  intro i s t hop hcap hin
  obtain ⟨hctl, hops⟩ := hin.get hop
  have hput := sameUnit_put hop s t
  generalize operationSpec i hop = o at hctl hops hput
  have hrun := runOn_congr o.unspec o.rest o.decided s.cap hctl hops
  rw [o.exec_eq, o.exec_eq, ← hcap, ← hrun]
  constructor
  · intro r h
    exact answer_eq_refused.2 (Except.map_eq_error.2 (Except.map_eq_error.1 (answer_eq_refused.1 h)))
  · intro a h
    obtain ⟨x, hx, rfl⟩ := Except.map_eq_ok.1 (answer_eq_next.1 h)
    exact ⟨_, answer_eq_next.2 (Except.map_eq_ok.2 ⟨x, hx, rfl⟩), hput x⟩

/-! ### Results are counted (R50, R51, R282) -/

theorem counter_toNat {n : Nat} (h : n < 2 ^ 64) : (counter n).toNat = n := by
  rw [counter, BitVec.toNat_ofNat, Nat.mod_eq_of_lt h]

/-- In `DONE` the length registers of unit `u` count what the operation delivered, and its tables are full. -/
def UnitCounted : UnitId → State → Prop
  | .rle, s => s.rle.ctl.state = .done →
      s.rle.res.outLen.toNat = s.rle.res.pairOut.length ∨
      ∀ p : Fin 8, (s.rle.res.planeLen[p]).toNat = (s.rle.res.planeOut[p]).length
  | .rld, s => s.rld.ctl.state = .done → s.rld.res.outLen.toNat = s.rld.res.symOut.length
  | .bre, s => s.bre.ctl.state = .done → s.bre.res.outLen.toNat = s.bre.res.bitOut.length
  | .htb, s => s.htb.ctl.state = .done → s.htb.res.treeOut.length = Config.maxNodes ∧
      s.htb.res.ctabOut.length = Config.numCodes ∧ s.htb.res.root.toNat ≤ Config.maxNodes
  | .hen, s => s.hen.ctl.state = .done → s.hen.res.outLen.toNat = s.hen.res.bitOut.length
  | .hde, s => s.hde.ctl.state = .done → s.hde.res.outLen.toNat = s.hde.res.symOut.length
  | .lze, s => s.lze.ctl.state = .done → s.lze.res.outLen.toNat = s.lze.res.lzcOut.length
  | .lzd, s => s.lzd.ctl.state = .done → s.lzd.res.outLen.toNat = s.lzd.res.symOut.length

theorem resultsCounted_iff {s : State} : ResultsCounted s ↔ ∀ u, UnitCounted u s :=
  ⟨fun ⟨rle, rld, bre, htb, hen, hde, lze, lzd⟩ u => match u with
      | .rle => rle | .rld => rld | .bre => bre | .htb => htb | .hen => hen | .hde => hde | .lze => lze | .lzd => lzd,
    fun h => ⟨h .rle, h .rld, h .bre, h .htb, h .hen, h .hde, h .lze, h .lzd⟩⟩

theorem UnitCounted.of_not_done {u : UnitId} {s : State} (h : (control s u).state ≠ .done) : UnitCounted u s := by
  cases u <;> exact fun hd => absurd hd h

theorem UnitCounted.of_sameResults {u : UnitId} {s t : State} (hs : UnitCounted u s) (h : SameResults u s t) : UnitCounted u t := by
  cases u <;> obtain ⟨hctl, hres⟩ := h <;> simp only [UnitCounted, hctl, hres] <;> exact hs

theorem OnlyUnit.sameResults_of_ne {u v : UnitId} {s t : State} (h : OnlyUnit u s t) (hne : v ≠ u) : SameResults v s t := by
  cases u <;> rw [h.1] <;> cases v <;> simp [SameResults] at hne ⊢

/-- Where only unit `u` changes, the other units stay counted. -/
theorem ResultsCounted.of_onlyUnit {u : UnitId} {s t : State} (hs : ResultsCounted s) (h : OnlyUnit u s t) (hu : UnitCounted u t) :
    ResultsCounted t := by
  refine resultsCounted_iff.2 fun v => ?_
  rcases eq_or_ne v u with rfl | hne
  · exact hu
  · exact (resultsCounted_iff.1 hs v).of_sameResults (h.sameResults_of_ne hne)

/-! ### Raster dimensions (R150, R281) -/

theorem toInt_of_pos {w : BitVec 64} (h : 1 ≤ w.toInt) : w.toInt = w.toNat := by
  rw [BitVec.toInt_eq_toNat_cond] at h ⊢
  split at h <;> omega

theorem badRaster_eq_false {w h : BitVec 64} {n : Nat} :
    badRaster w h n = false ↔ 1 ≤ w.toInt ∧ 1 ≤ h.toInt ∧ (n : Int) = w.toInt * h.toInt := by
  simp [badRaster, badDimensions, Int.lt_iff_add_one_le, and_assoc]

/-- A raster with dimensions that fit has `W * H` symbols. -/
theorem raster_length {w h : BitVec 64} {n : Nat} (hw : 1 ≤ w.toInt) (hh : 1 ≤ h.toInt) (hn : (n : Int) = w.toInt * h.toInt) :
    w.toNat * h.toNat = n := by
  rw [toInt_of_pos hw, toInt_of_pos hh] at hn
  exact_mod_cast hn.symm

/-! ### What each operation delivers is counted (R282) -/

theorem maxIn_eq : Config.maxIn = 4294967295 := rfl

/-- A symbol stream that is delivered is counted. -/
theorem deliver_counted {fits : Bool} {out : List Symbol} {r : SymRes}
    (h : deliver fits { outLen := counter out.length, symOut := out } = .ok (.results r)) (hlen : out.length < 2 ^ 64) :
    r.outLen.toNat = r.symOut.length := by
  obtain ⟨-, he⟩ := deliver_ok.1 h
  cases he
  exact counter_toNat hlen

theorem rleEncsOp_counted {s : State} {r : RleRes} (h : rleEncsOp s.cap s.rle = .ok (.results r)) :
    r.outLen.toNat = r.pairOut.length := by
  obtain ⟨xs, w, ht, ho⟩ := rleEncsOp_operands h
  rw [rleEncsOp_eq ho] at h
  split at h
  · cases h
  · next hbad =>
    obtain ⟨hw, hh, hn⟩ := badRaster_eq_false.1 (Bool.eq_false_of_not_eq_true hbad)
    obtain ⟨-, he⟩ := deliver_ok.1 h
    have hruns := rasterRuns_length_le w.toNat ht.toNat xs
    have hmax := ho.stream.admitted
    rw [raster_length hw hh hn] at hruns
    rw [maxIn_eq] at hmax
    cases he
    rw [List.length_map]
    exact counter_toNat (by omega)

theorem rleEncbOp_counted {s : State} {r : RleRes} (h : rleEncbOp s.cap s.rle = .ok (.results r)) (p : Fin 8) :
    (r.planeLen[p]).toNat = (r.planeOut[p]).length := by
  obtain ⟨xs, w, ht, ho⟩ := rleEncbOp_operands h
  rw [rleEncbOp_eq ho] at h
  split at h
  · cases h
  · obtain ⟨-, he⟩ := deliver_ok.1 h
    have hlen := (encodePlane_length (bitPlane p xs)).2
    have hmax := ho.stream.admitted
    rw [bitPlane_length] at hlen
    rw [maxIn_eq] at hmax
    cases he
    simp only [Fin.getElem_fin, Vector.getElem_map, encodePlanes, Vector.getElem_ofFn]
    exact counter_toNat (by omega)

theorem rldDecsOp_counted {s : State} {r : SymRes} (h : rldDecsOp s.cap s.rld = .ok (.results r)) :
    r.outLen.toNat = r.symOut.length := by
  obtain ⟨pairs, w, ht, ho⟩ := rldDecsOp_operands h
  rw [rldDecsOp_eq ho] at h
  split_ifs at h with _ hmax
  · cases h
  split at h
  · cases h
  · next out hout =>
    have hlen := replayPairs_length _ _ _ hout
    rw [maxIn_eq] at hmax
    exact deliver_counted h (by omega)

theorem decodePlanes_length {n : Nat} {planes : Vector (List Bool) 8} {out : List Symbol}
    (h : decodePlanes n planes.toList = some out) : out.length = n := by
  rcases decodePlanes_spec n planes.toList (by simp) with ⟨hnone, -⟩ | ⟨t, ht, hlen, -⟩
  · cases hnone.symm.trans h
  · cases ht.symm.trans h
    exact hlen

theorem rldDecbOp_counted {s : State} {r : SymRes} (h : rldDecbOp s.cap s.rld = .ok (.results r)) :
    r.outLen.toNat = r.symOut.length := by
  obtain ⟨planes, w, ht, ho⟩ := rldDecbOp_operands h
  rw [rldDecbOp_eq ho] at h
  split_ifs at h with _ hmax
  · cases h
  split at h
  · cases h
  · next out hout =>
    have hlen := decodePlanes_length hout
    rw [maxIn_eq] at hmax
    exact deliver_counted h (by omega)

theorem brePutOp_counted {s : State} {r : BreRes} (h : brePutOp s.cap s.bre = .ok (.results r)) :
    r.outLen.toNat = r.bitOut.length := by
  obtain ⟨⟨b, hb⟩, hw, harg⟩ := brePutOp_operands h
  rw [brePutOp_eq hb hw harg] at h
  obtain ⟨-, he⟩ := deliver_ok.1 h
  have hmax := hb.admitted
  rw [maxIn_eq] at hmax
  cases he
  rw [List.length_append, field32_length]
  exact counter_toNat (by omega)

theorem htbBuildOp_counted {s : State} {r : HtbRes} (h : htbBuildOp s.cap s.htb = .ok (.results r)) :
    r.treeOut.length = Config.maxNodes ∧ r.ctabOut.length = Config.numCodes ∧ r.root.toNat ≤ Config.maxNodes := by
  obtain ⟨xs, hxs, -, he⟩ := htbBuildOp_ok.1 h
  have hmax := hxs.admitted
  rw [maxIn_eq] at hmax
  have hroot := rootIndex_le xs (by omega)
  cases he
  simp only [htbResults, treeTable_length, codeTable_length, true_and]
  rw [counter_toNat (by omega)]
  exact hroot

theorem henEncOp_counted {s : State} {r : HenRes} (h : henEncOp s.cap s.hen = .ok (.results r)) :
    r.outLen.toNat = r.bitOut.length := by
  obtain ⟨xs, tab, ho⟩ := henEncOp_operands h
  rw [henEncOp_eq ho] at h
  split at h
  · cases h
  · next bits hbits =>
    obtain ⟨-, he⟩ := deliver_ok.1 h
    have hlen := (encodeSymbols_length _ _ _ hbits).2
    have hmax := ho.stream.admitted
    rw [maxIn_eq] at hmax
    cases he
    exact counter_toNat (by omega)

theorem hdeDecOp_counted {s : State} {r : SymRes} (h : hdeDecOp s.cap s.hde = .ok (.results r)) :
    r.outLen.toNat = r.symOut.length := by
  obtain ⟨bits, tree, ho⟩ := hdeDecOp_operands h
  rw [hdeDecOp_eq ho] at h
  split at h
  · cases h
  · next out hout =>
    have hlen := decodeBits_length _ _ _ hout
    have hmax := ho.stream.admitted
    rw [maxIn_eq] at hmax
    exact deliver_counted h (by omega)

/-- The encoder emits no more codes than it reads bytes. -/
theorem lzwEncode_length_le (b : List Symbol) : (lzwEncode b).length ≤ b.length := by
  obtain ⟨strings, hs, -, hflat⟩ := lzwEncode_strings b
  exact hflat ▸ hs.total_length.1

theorem lzeEncOp_counted {s : State} {r : LzeRes} (h : lzeEncOp s.cap s.lze = .ok (.results r)) :
    r.outLen.toNat = r.lzcOut.length := by
  obtain ⟨b, hb, hdeliver⟩ := lzeEncOp_ok.1 h
  obtain ⟨-, he⟩ := deliver_ok.1 hdeliver
  have hlen := lzwEncode_length_le b
  have hmax := hb.admitted
  rw [maxIn_eq] at hmax
  cases he
  rw [List.length_map]
  exact counter_toNat (by omega)

/-- The string of each code is at most one byte longer than the one before, so the output is quadratic in the number of codes. -/
theorem lzwDecode_length {codes : List Nat} {out : List Symbol} (h : lzwDecode codes = .ok out) :
    2 * out.length ≤ codes.length * (codes.length + 1) := by
  have hne : codes ≠ [] := by rintro rfl; cases h
  obtain ⟨hin, hout⟩ := lzwDecode_strings codes hne
  by_cases hr : CodesInRange codes
  · obtain ⟨strings, hs, he⟩ := hin hr
    cases he.symm.trans h
    exact hs.total_length.2
  · cases (hout hr).symm.trans h

theorem lzdDecOp_counted {s : State} {r : SymRes} (h : lzdDecOp s.cap s.lzd = .ok (.results r)) :
    r.outLen.toNat = r.symOut.length := by
  obtain ⟨codes, ho⟩ := lzdDecOp_operands h
  rw [lzdDecOp_eq ho] at h
  split at h
  · cases h
  · next out hout =>
    have hlen := lzwDecode_length hout
    have hmax := ho.admitted
    rw [List.length_map] at hlen
    rw [maxIn_eq] at hmax
    have hsquare : codes.length * (codes.length + 1) ≤ 4294967295 * (4294967295 + 1) := Nat.mul_le_mul hmax (by omega)
    exact deliver_counted h (by omega)

/-! ### Every step keeps results counted -/

/-- A unit that ends its operation is counted. -/
theorem unitCounted_endOperation {i : Instr} (hop : IsOperation i) {s : State} {e : Ending (operationSpec i hop).R}
    (h : (operationSpec i hop).op s.cap ((operationSpec i hop).lens.get s) = .ok e) :
    UnitCounted (instrUnit i) ((operationSpec i hop).lens.put s
      (endOperation (operationSpec i hop).unspec (operationSpec i hop).rest ((operationSpec i hop).lens.get s) e)) := by
  cases e with
  | raises f =>
    refine .of_not_done ?_
    rw [UnitLens.control_put, endOperation_raises, raiseFault_state]
    simp
  | results r =>
    cases i with
    | rleEncs => exact fun _ => .inl (rleEncsOp_counted h)
    | rleEncb => exact fun _ => .inr (rleEncbOp_counted h)
    | rldDecs => exact fun _ => rldDecsOp_counted h
    | rldDecb => exact fun _ => rldDecbOp_counted h
    | brePut => exact fun _ => brePutOp_counted h
    | htbBuild => exact fun _ => htbBuildOp_counted h
    | henEnc => exact fun _ => henEncOp_counted h
    | hdeDec => exact fun _ => hdeDecOp_counted h
    | lzeEnc => exact fun _ => lzeEncOp_counted h
    | lzdDec => exact fun _ => lzdDecOp_counted h
    | clear u b => exact absurd rfl (hop.2 u b)
    | hufEncode => exact absurd rfl hop.1

namespace ResultsCounted
variable {s t : State} {i : Instr}

theorem of_sameResults (hs : ResultsCounted s) (h : ∀ u, SameResults u s t) : ResultsCounted t :=
  resultsCounted_iff.2 fun u => (resultsCounted_iff.1 hs u).of_sameResults (h u)

theorem of_finish (hs : ResultsCounted s) (hop : IsOperation i) (h : finishOperation i s = .ok t) : ResultsCounted t := by
  have honly := (operationSpec i hop).finish_onlyUnit h
  rw [(operationSpec i hop).finish_eq] at h
  obtain ⟨x, hx, rfl⟩ := Except.map_eq_ok.1 h
  obtain ⟨e, he, rfl⟩ := finishOn_ok.1 hx
  exact hs.of_onlyUnit honly (unitCounted_endOperation hop he)

/-- An operation that runs at once ends as the step of a unit that was left `BUSY`. -/
theorem of_execOperation (hs : ResultsCounted s) (hop : IsOperation i) (h : exec i s = .next t) : ResultsCounted t := by
  rw [(operationSpec i hop).exec_eq] at h
  obtain ⟨x, hx, rfl⟩ := Except.map_eq_ok.1 (answer_eq_next.1 h)
  obtain ⟨-, e, he, rfl⟩ := runOn_ok.1 hx
  exact hs.of_onlyUnit ((operationSpec i hop).lens.onlyUnit_put s _ (endOperation_ops ..)) (unitCounted_endOperation hop he)

theorem of_begin {f : BitVec 4} (hs : ResultsCounted s) (hop : IsOperation i) (h : beginOperation i f s = .ok t) :
    ResultsCounted t := by
  refine hs.of_onlyUnit ((operationSpec i hop).begin_onlyUnit h) (.of_not_done ?_)
  rw [(operationSpec i hop).begin_control h]
  simp

end ResultsCounted

/-- `CLEAR` changes only its unit, and leaves it `IDLE`. -/
theorem execClear_onlyUnit {u : UnitId} {b : BitVec 8} {s t : State} (h : exec (.clear u b) s = .next t) : OnlyUnit u s t := by
  have h := answer_eq_next.1 (show answer _ = .next t from h)
  cases u <;> obtain ⟨x, hx, rfl⟩ := Except.map_eq_ok.1 h <;>
    rcases clearUnit_ok.1 hx with ⟨-, rfl⟩ | ⟨-, rfl⟩ <;> exact ⟨rfl, rfl⟩

theorem carryToEncoder_results (s : State) (u : UnitId) : SameResults u s (carryToEncoder s) := by
  cases u <;> exact ⟨rfl, rfl⟩

theorem ResultsCounted.of_exec {i : Instr} {s t : State} (hs : ResultsCounted s) (h : exec i s = .next t) : ResultsCounted t := by
  by_cases hop : IsOperation i
  · exact hs.of_execOperation hop h
  cases i with
  | clear u b =>
    refine hs.of_onlyUnit (execClear_onlyUnit h) (.of_not_done ?_)
    rw [(execClear_move h).2.1]
    simp
  | hufEncode =>
    obtain ⟨s1, hbuild, hencode⟩ := exec_hufEncode_next.1 h
    have h1 : ResultsCounted s1 := hs.of_execOperation (i := .htbBuild) ⟨nofun, nofun⟩ hbuild
    exact (h1.of_sameResults (carryToEncoder_results s1)).of_execOperation (i := .henEnc) ⟨nofun, nofun⟩ hencode
  | _ => exact absurd ⟨nofun, nofun⟩ hop

theorem resultsCounted_resetCore (s : State) : ResultsCounted (resetCore s) :=
  resultsCounted_iff.2 fun u => .of_not_done (by cases u <;> exact nofun)

/-- Settles O55: a step leaves the results of every unit as they are, or ends, starts, clears or resets one. -/
theorem everyStepKeepsResultsCounted : Obligations.EveryStepKeepsResultsCounted := by
  unfold Obligations.EveryStepKeepsResultsCounted
  intro s t hs hstep
  cases step_kind hstep with
  | host same => exact hs.of_sameResults same.results
  | operand s' p v same write => exact (hs.of_sameResults same.results).of_sameResults (writePlace_written write).results
  | command s' u w i same e rest queue wrote decoded run => exact (hs.of_sameResults same.results).of_exec run
  | pseudo s' same run => exact (hs.of_sameResults same.results).of_exec run
  | start s' u w i same decoded isOp run => exact (hs.of_sameResults same.results).of_begin isOp run
  | finish s' u f i same busy op run => exact (hs.of_sameResults same.results).of_finish (opOfFunc_isOperation op) run
  | reset s' same rest queue eq => exact eq ▸ resultsCounted_resetCore s'

/-! ### Registers that read as fixed (R50, R300) -/

/-- `STATE` in bits [1:0] and `FAULT` in bits [6:4] do not overlap. -/
theorem statusWord_eq (c : Control) :
    statusWord c = BitVec.ofNat 64 ((stateCode c.state).toNat + 16 * (faultCode c.fault).toNat) := by
  have hfields : ∀ (a : BitVec 2) (b : BitVec 3),
      a.setWidth 64 ||| (b.setWidth 64 <<< 4) = BitVec.ofNat 64 (a.toNat + 16 * b.toNat) := by
    decide
  exact hfields _ _

theorem reservedRegister_iff {u : UnitId} {r : Nat} :
    reservedRegister u r = true ↔ 2 ≤ r ∧ r < 32 ∧ operandRegister u r = false ∧ resultRegister u r = false := by
  simp [reservedRegister, and_assoc]

theorem readReg_reserved (s : State) {u : UnitId} {r : Nat} (h : reservedRegister u r = true) : readReg s u r = 0 := by
  obtain ⟨h2, -, hop, hres⟩ := reservedRegister_iff.1 h
  rw [readReg, if_neg (by omega), if_neg (by omega)]
  cases u <;> simp only [operandRegister, resultRegister] at hop hres
  case rle =>
    simp only [rleReg]
    split <;> simp at hop hres ⊢
    omega
  case rld =>
    simp only [rldReg]
    split <;> simp at hop hres ⊢
    omega
  all_goals
    simp only [breReg, htbReg, henReg, hdeReg, lzeReg, lzdReg]
    split <;> simp at hop hres ⊢

theorem writeReg_reserved (s : State) {u : UnitId} {r : Nat} (v : BitVec 64) (h : reservedRegister u r = true) :
    writeReg s u r v = .ok s := by
  obtain ⟨h2, -, hop, hres⟩ := reservedRegister_iff.1 h
  cases u <;> simp only [operandRegister, resultRegister] at hop hres <;> refine Except.map_eq_ok.2 ⟨_, ?_, rfl⟩
  case rle =>
    simp only [rleWriteReg]
    split <;> simp at hop hres ⊢
    omega
  case rld =>
    simp only [rldWriteReg]
    split <;> simp at hop hres h2 ⊢
    omega
  case hen =>
    simp only [henWriteReg]
    split <;> simp at hop hres h2 ⊢
    omega
  case lze =>
    simp only [lzeWriteReg]
    split <;> simp at hop hres h2 ⊢
    omega
  all_goals
    simp only [breWriteReg, htbWriteReg, hdeWriteReg, lzdWriteReg]
    split <;> simp at hop hres h2 ⊢

/-- Settles O8: a reserved register is neither an operand nor a result, and the two fields of `STATUS` do not overlap. -/
theorem registersThatReadAsFixed : Obligations.RegistersThatReadAsFixed := by
  unfold Obligations.RegistersThatReadAsFixed
  refine ⟨fun s u => rfl, fun s u r v h => ⟨readReg_reserved s h, ?_⟩, fun s u => statusWord_eq _⟩
  obtain ⟨h2, h32, -, -⟩ := reservedRegister_iff.1 h
  rw [hostWrite_reg s u r v h32 (by omega), writeReg_reserved s v h, answer]

/-! ### The state after reset (R52, R340) -/

theorem control_reset (u : UnitId) : control State.reset u = .atReset := by cases u <;> rfl

theorem nothingWritten_reset : NothingWritten State.reset where
  registers r hr := by
    have hall : operandRegisters State.reset = List.replicate 22 .atReset := by decide
    rw [hall] at hr
    rw [List.eq_of_mem_replicate hr, OpReg.atReset]
  rleSym := rfl
  rldPair := rfl
  rldPlane p := by simp [State.reset, RldOps.atReset]
  breBit := rfl
  htbSym := rfl
  henSym := rfl
  henTab := rfl
  hdeBit := rfl
  hdeTree := rfl
  lzeSym := rfl
  lzdLzc := rfl

theorem isBusy_reset (u : UnitId) : isBusy State.reset u = false := by
  rw [isBusy, control_reset]
  rfl

theorem step_reset : step State.reset = .next State.reset := by
  have hfind : allUnits.find? (isBusy State.reset) = none := List.find?_eq_none.2 fun u _ => by simp [isBusy_reset]
  rw [step_of_no_event rfl, idleStep, hfind]

/-- Settles O16: after reset no unit is `BUSY` and no event is to come, so that the step has nothing to do. -/
theorem resetLeavesUnitsIdle : Obligations.ResetLeavesUnitsIdle := by
  unfold Obligations.ResetLeavesUnitsIdle
  refine ⟨fun u => ⟨?_, ?_, rfl, ?_, fun r h => readReg_reserved _ h⟩, nothingWritten_reset, step_reset⟩
  · rw [control_reset]; rfl
  · rw [control_reset]; rfl
  · show statusWord (control State.reset u) = 0
    rw [control_reset]
    decide

theorem buffersWf_of_nothingWritten {s : State} (h : NothingWritten s) : BuffersWf s := by
  obtain ⟨-, h1, h2, h3, h4, h5, h6, h7, h8, h9, h10, h11⟩ := h
  constructor <;> simp [bufWf, bufBelow, *]

theorem inv_reset : Inv State.reset where
  buffers := buffersWf_of_nothingWritten nothingWritten_reset
  faults u := by simp [control_reset, Control.atReset]
  busy u f h := by simp [control_reset, Control.atReset] at h
  seen u n h := by cases u <;> cases h

/-- Settles O53: no buffer holds an element, and no unit is `BUSY`, `DONE` or in `FAULT`. -/
theorem invariantAtReset : Obligations.InvariantAtReset := by
  unfold Obligations.InvariantAtReset
  exact ⟨inv_reset, resultsCounted_iff.2 fun u => .of_not_done (by simp [control_reset, Control.atReset])⟩

/-! ### The working registers of a unit that becomes `BUSY` (R45, R343) -/

section
variable {s t : State} {u : UnitId} {w : BitVec 64} {i : Instr}

/-- A `START` that leaves its unit `BUSY` puts the unit's working registers at their initial values. -/
theorem startSlow_work (hdec : decodeCtrl u w = .run i) (hop : IsOperation i) (h : startSlow u w s = .next t) :
    ((operationSpec i hop).lens.get t).work = (operationSpec i hop).init ((operationSpec i hop).lens.get s) := by
  rw [startSlow_eq hdec hop, answer_eq_next] at h
  obtain ⟨x, hx, rfl⟩ := (operationSpec i hop).begin_ok h
  obtain ⟨-, -, rfl⟩ := beginOn_ok.1 hx
  rw [UnitLens.get_put]

/-- An `IDLE` unit whose operation answers becomes `BUSY`. -/
theorem startSlow_busy (hdec : decodeCtrl u w = .run i) (hop : IsOperation i) (hidle : (control s u).state = .idle)
    (h : ∃ e, (operationSpec i hop).op s.cap ((operationSpec i hop).lens.get s) = .ok e) :
    ∃ t, startSlow u w s = .next t ∧ (control t u).state = .busy (ctrlFunc w) := by
  obtain rfl := opcodeMap_unit (decodeCtrl_opcodeMap hdec hop)
  have hbegin : beginOperation i (ctrlFunc w) s = .ok _ :=
    ((operationSpec i hop).begin_eq ..).trans
      (Except.map_eq_ok.2 ⟨_, beginOn_ok.2 ⟨by rwa [← UnitLens.control_eq], h, rfl⟩, rfl⟩)
  refine ⟨_, (startSlow_eq hdec hop s).trans (answer_eq_next.2 hbegin), ?_⟩
  rw [(operationSpec i hop).begin_control hbegin]

end

/-- On a raster whose dimensions fit and whose runs the capacity admits, the operations of unit 0 answer (R150 to R155). -/
theorem rleEncsOp_answers {s : State} {r : List Symbol} {w h : BitVec 64} (ho : RasterOperands s r w h)
    (hbad : badRaster w h r.length = false) (hcap : fitsCap s.cap (w.toNat * h.toNat) = true) :
    ∃ e, rleEncsOp s.cap s.rle = .ok e := by
  rw [rleEncsOp_eq ho, hbad, deliver, fitsCap_mono (rasterRuns_length_le ..) hcap]
  exact ⟨_, rfl⟩

theorem rleEncbOp_answers {s : State} {r : List Symbol} {w h : BitVec 64} (ho : RasterOperands s r w h)
    (hbad : badRaster w h r.length = false) (hcap : fitsCap s.cap (32 * (r.length + 1)) = true) :
    ∃ e, rleEncbOp s.cap s.rle = .ok e := by
  have hfits : ((encodePlanes r).toList.all fun bits => fitsCap s.cap bits.length) = true := by
    simp only [List.all_eq_true, encodePlanes, Vector.toList_ofFn, List.mem_ofFn]
    rintro _ ⟨p, rfl⟩
    refine fitsCap_mono ?_ hcap
    simpa using (encodePlane_length (bitPlane p r)).2
  rw [rleEncbOp_eq ho, hbad, deliver, hfits]
  exact ⟨_, rfl⟩

/-- The working registers of `RLE.ENCS` start on the first symbol of the raster (R152). -/
theorem rleEncsInitial_eq {s : State} {v : Symbol} {rest : List Symbol} {w h : BitVec 64} (ho : RasterOperands s (v :: rest) w h)
    (hbad : badRaster w h (v :: rest).length = false) :
    rleEncsInitial s.rle = { r := 0, c := 1, pos := 0, cur := v, cnt := 1 } := by
  have hfree : RasterOperands { s with cap := none } (v :: rest) w h :=
    ⟨ho.width, ho.height, { ho.stream with capacity := rfl }⟩
  have hsample : sampleRaster none s.rle.ops = .ok (w, h, v :: rest) := sampleRaster_ok.2 hfree
  simp only [rleEncsInitial, hsample, hbad]
  rfl

/-- The decoder's walk starts at the root of its tree operand (R232). -/
theorem hdeInitial_eq {s : State} {bits : List Bool} {tree : Option HTree} (ho : DecoderOperands s bits tree) :
    hdeInitial s.hde = { pos := 0, node := tree } := by
  have hsample : sampleTree none s.hde.ops = .ok tree := sampleTree_ok.2 ⟨ho.root.1, ho.root.2, rfl, ho.tree⟩
  simp only [hdeInitial, hsample]

theorem startSlow_rld_work {s t : State} (h : startSlow .rld 0x110#64 s = .next t ∨ startSlow .rld 0x111#64 s = .next t) :
    t.rld.work = .atRest := by
  rcases h with h | h
  · exact startSlow_work (i := .rldDecs) (by decide) ⟨nofun, nofun⟩ h
  · exact startSlow_work (i := .rldDecb) (by decide) ⟨nofun, nofun⟩ h

theorem seedDict_length : seedDict.length = 256 := by simp [seedDict, Config.numSeed]

/-- The string of a one-byte code is that byte (R271). -/
theorem seedStrings_byte (x : Symbol) : seedStrings[x.toNat]? = some [x] := by
  have hx : x.toNat < seedStrings.length := by simpa [Config.numSeed] using x.isLt
  rw [List.getElem?_eq_getElem hx, seedStrings_get, BitVec.ofNat_toNat, BitVec.setWidth_eq]

/-- `RLE.ENCS` starts its unit on the first symbol of the raster. -/
theorem startSlow_rleEncs {s : State} {r : List Symbol} {w h : BitVec 64} (ho : RasterOperands s r w h)
    (hidle : s.rle.ctl.state = .idle) (hbad : badRaster w h r.length = false)
    (hcap : fitsCap s.cap (32 * (r.length + 1)) = true) :
    ∃ t, startSlow .rle 0x100#64 s = .next t ∧ t.rle.ctl.state = .busy 0 ∧ t.rle.work.r = 0 ∧ t.rle.work.c = 1 ∧
      some t.rle.work.cur = r.head? ∧ t.rle.work.cnt = 1 := by
  obtain ⟨hw, hh, hlen⟩ := badRaster_eq_false.1 hbad
  have hsize := raster_length hw hh hlen
  have hdec : decodeCtrl .rle 0x100#64 = .run .rleEncs := by decide
  obtain ⟨t, hstart, hbusy⟩ := startSlow_busy hdec ⟨nofun, nofun⟩ hidle
    (rleEncsOp_answers ho hbad (fitsCap_mono (by omega) hcap))
  refine ⟨t, hstart, hbusy, ?_⟩
  have hwork : t.rle.work = rleEncsInitial s.rle := startSlow_work hdec ⟨nofun, nofun⟩ hstart
  cases r with
  | nil =>
    have : 1 ≤ w.toInt * h.toInt := one_le_mul_of_one_le_of_one_le hw hh
    rw [List.length_nil] at hlen
    omega
  | cons v rest =>
    rw [hwork, rleEncsInitial_eq ho hbad]
    exact ⟨rfl, rfl, rfl, rfl⟩

theorem startSlow_rleEncb {s : State} {r : List Symbol} {w h : BitVec 64} (ho : RasterOperands s r w h)
    (hidle : s.rle.ctl.state = .idle) (hbad : badRaster w h r.length = false)
    (hcap : fitsCap s.cap (32 * (r.length + 1)) = true) :
    ∃ t, startSlow .rle 0x101#64 s = .next t ∧ t.rle.ctl.state = .busy 1 ∧ t.rle.work.cur = 0 ∧ t.rle.work.cnt = 0 := by
  have hdec : decodeCtrl .rle 0x101#64 = .run .rleEncb := by decide
  obtain ⟨t, hstart, hbusy⟩ := startSlow_busy hdec ⟨nofun, nofun⟩ hidle (rleEncbOp_answers ho hbad hcap)
  have hwork : t.rle.work = .atRest := startSlow_work hdec ⟨nofun, nofun⟩ hstart
  refine ⟨t, hstart, hbusy, ?_⟩
  rw [hwork]
  exact ⟨rfl, rfl⟩

/-- Settles O60: each operation's `START` gives its unit the initial working registers of its rule. -/
theorem busyUnitsStartFromInitialValues : Obligations.BusyUnitsStartFromInitialValues := by
  unfold Obligations.BusyUnitsStartFromInitialValues
  refine ⟨fun s r w h ho hidle hw hh hlen hcap => ?_, fun s t h => ?_, fun s t h => ?_, fun s t h => ?_,
    fun s t bits tree ho h => ?_, fun s t h => ?_, fun s t h => ?_⟩
  · have hbad := badRaster_eq_false.2 ⟨hw, hh, hlen⟩
    exact ⟨startSlow_rleEncs ho hidle hbad hcap, startSlow_rleEncb ho hidle hbad hcap⟩
  · rw [startSlow_rld_work h]
    exact ⟨rfl, rfl⟩
  · have hwork : t.htb.work = .atRest := startSlow_work (i := .htbBuild) (by decide) ⟨nofun, nofun⟩ h
    rw [hwork]
    exact ⟨rfl, rfl, rfl, rfl⟩
  · have hwork : t.hen.work = .atRest := startSlow_work (i := .henEnc) (by decide) ⟨nofun, nofun⟩ h
    rw [hwork]
    rfl
  · have hwork : t.hde.work = hdeInitial s.hde := startSlow_work (i := .hdeDec) (by decide) ⟨nofun, nofun⟩ h
    rw [hwork, hdeInitial_eq ho]
    exact ⟨rfl, rfl⟩
  · have hwork : t.lze.work = lzeInitial := startSlow_work (i := .lzeEnc) (by decide) ⟨nofun, nofun⟩ h
    rw [hwork]
    exact ⟨rfl, rfl, rfl, seedDict_length, seedDict_lookup⟩
  · have hwork : t.lzd.work = lzdInitial := startSlow_work (i := .lzdDec) (by decide) ⟨nofun, nofun⟩ h
    rw [hwork]
    exact ⟨rfl, seedStrings_length, seedStrings_byte⟩

end Sys2Proof.Machine

namespace Sys2Proof.Machine

/-! ### An operation changes its own unit only (R77, R286, R317) -/

namespace OperationSpec
variable {i : Instr} {s t : State}

/-- An operation that runs at once found its unit `IDLE`, answered an ending, and replaced that unit by its end. -/
theorem exec_ok (o : OperationSpec i) (h : exec i s = .next t) :
    (control s (instrUnit i)).state = .idle ∧ ∃ e, o.op s.cap (o.lens.get s) = .ok e ∧
      t = o.lens.put s (endOperation o.unspec o.rest (o.lens.get s) e) := by
  rw [o.exec_eq] at h
  obtain ⟨x, hx, rfl⟩ := Except.map_eq_ok.1 (answer_eq_next.1 h)
  obtain ⟨hidle, e, he, rfl⟩ := runOn_ok.1 hx
  exact ⟨by rwa [o.lens.control_eq], e, he, rfl⟩

theorem exec_onlyUnit (o : OperationSpec i) (h : exec i s = .next t) : OnlyUnit (instrUnit i) s t := by
  obtain ⟨-, e, -, rfl⟩ := o.exec_ok h
  exact o.lens.onlyUnit_put s _ (endOperation_ops ..)

end OperationSpec

/-- Settles O48: an operation puts back its unit with the operands it found, and so does a `CLEAR`. -/
theorem operationsTouchOnlyTheirUnit : Obligations.OperationsTouchOnlyTheirUnit := by
  unfold Obligations.OperationsTouchOnlyTheirUnit
  intro i s t hne h
  by_cases hop : IsOperation i
  · exact (operationSpec i hop).exec_onlyUnit h
  cases i with
  | clear u b => exact execClear_onlyUnit h
  | hufEncode => exact absurd rfl hne
  | _ => exact absurd ⟨nofun, nofun⟩ hop

/-! ### The faults an operation can raise (R305) -/

/-- What is delivered is no fault. -/
theorem deliver_ne_raises {R : Type} {fits : Bool} {r : R} {f : FaultCode} : deliver fits r ≠ .ok (.raises f) := by
  intro h
  obtain ⟨-, he⟩ := deliver_ok.1 h
  cases he

theorem lzwDecode_error {codes : List Nat} {f : FaultCode} (h : lzwDecode codes = .error f) :
    f = .invalidCode ∨ f = .emptyStream := by
  by_cases hne : codes = []
  · subst hne; cases h; exact .inr rfl
  obtain ⟨hin, hout⟩ := lzwDecode_strings codes hne
  by_cases hr : CodesInRange codes
  · obtain ⟨strings, -, he⟩ := hin hr
    cases he.symm.trans h
  · cases (hout hr).symm.trans h; exact .inl rfl

section
variable {s : State} {f : FaultCode}

theorem rleEncsOp_raises (h : rleEncsOp s.cap s.rle = .ok (.raises f)) : f ∈ mayRaise .rleEncs := by
  obtain ⟨r, w, ht, ho⟩ := rleEncsOp_operands h
  rw [rleEncsOp_eq ho] at h
  split at h
  · cases h; decide
  · exact absurd h deliver_ne_raises

theorem rleEncbOp_raises (h : rleEncbOp s.cap s.rle = .ok (.raises f)) : f ∈ mayRaise .rleEncb := by
  obtain ⟨r, w, ht, ho⟩ := rleEncbOp_operands h
  rw [rleEncbOp_eq ho] at h
  split at h
  · cases h; decide
  · exact absurd h deliver_ne_raises

theorem rldDecsOp_raises (h : rldDecsOp s.cap s.rld = .ok (.raises f)) : f ∈ mayRaise .rldDecs := by
  obtain ⟨pairs, w, ht, ho⟩ := rldDecsOp_operands h
  rw [rldDecsOp_eq ho] at h
  split_ifs at h
  · cases h; decide
  split at h
  · cases h; decide
  · exact absurd h deliver_ne_raises

theorem rldDecbOp_raises (h : rldDecbOp s.cap s.rld = .ok (.raises f)) : f ∈ mayRaise .rldDecb := by
  obtain ⟨planes, w, ht, ho⟩ := rldDecbOp_operands h
  rw [rldDecbOp_eq ho] at h
  split_ifs at h
  · cases h; decide
  split at h
  · cases h; decide
  · exact absurd h deliver_ne_raises

theorem brePutOp_raises (h : brePutOp s.cap s.bre = .ok (.raises f)) : f ∈ mayRaise .brePut := by
  obtain ⟨⟨b, hb⟩, hw, harg⟩ := brePutOp_operands h
  exact absurd (brePutOp_eq hb hw harg ▸ h) deliver_ne_raises

theorem htbBuildOp_raises (h : htbBuildOp s.cap s.htb = .ok (.raises f)) : f ∈ mayRaise .htbBuild := by
  obtain ⟨xs, -, -, he⟩ := htbBuildOp_ok.1 h
  cases he

theorem henEncOp_raises (h : henEncOp s.cap s.hen = .ok (.raises f)) : f ∈ mayRaise .henEnc := by
  obtain ⟨xs, tab, ho⟩ := henEncOp_operands h
  rw [henEncOp_eq ho] at h
  split at h
  · cases h
  · exact absurd h deliver_ne_raises

theorem hdeDecOp_raises (h : hdeDecOp s.cap s.hde = .ok (.raises f)) : f ∈ mayRaise .hdeDec := by
  obtain ⟨bits, tree, ho⟩ := hdeDecOp_operands h
  rw [hdeDecOp_eq ho] at h
  split at h
  · cases h; decide
  · exact absurd h deliver_ne_raises

theorem lzeEncOp_raises (h : lzeEncOp s.cap s.lze = .ok (.raises f)) : f ∈ mayRaise .lzeEnc := by
  obtain ⟨b, -, hdeliver⟩ := lzeEncOp_ok.1 h
  exact absurd hdeliver deliver_ne_raises

theorem lzdDecOp_raises (h : lzdDecOp s.cap s.lzd = .ok (.raises f)) : f ∈ mayRaise .lzdDec := by
  obtain ⟨codes, ho⟩ := lzdDecOp_operands h
  rw [lzdDecOp_eq ho] at h
  split at h
  · next g hg =>
    cases h
    rcases lzwDecode_error hg with rfl | rfl <;> decide
  · exact absurd h deliver_ne_raises

/-- An operation raises only the faults of its row (R305). -/
theorem operation_raises {i : Instr} (hop : IsOperation i)
    (h : (operationSpec i hop).op s.cap ((operationSpec i hop).lens.get s) = .ok (.raises f)) : f ∈ mayRaise i := by
  cases i with
  | rleEncs => exact rleEncsOp_raises h
  | rleEncb => exact rleEncbOp_raises h
  | rldDecs => exact rldDecsOp_raises h
  | rldDecb => exact rldDecbOp_raises h
  | brePut => exact brePutOp_raises h
  | htbBuild => exact htbBuildOp_raises h
  | henEnc => exact henEncOp_raises h
  | hdeDec => exact hdeDecOp_raises h
  | lzeEnc => exact lzeEncOp_raises h
  | lzdDec => exact lzdDecOp_raises h
  | clear u b => exact absurd rfl (hop.2 u b)
  | hufEncode => exact absurd rfl hop.1

end

/-- No row of R305 holds the code that stands for no fault. -/
theorem ne_none_of_mem_mayRaise {i : Instr} {f : FaultCode} (h : f ∈ mayRaise i) : f ≠ .none := by
  rintro rfl
  cases i <;> simp [mayRaise] at h

/-! ### "In" buffers stay in canonical form (R71) -/

/-- The operands of every unit are the same. -/
structure SameOperands (s t : State) : Prop where
  rle : t.rle.ops = s.rle.ops
  rld : t.rld.ops = s.rld.ops
  bre : t.bre.ops = s.bre.ops
  htb : t.htb.ops = s.htb.ops
  hen : t.hen.ops = s.hen.ops
  hde : t.hde.ops = s.hde.ops
  lze : t.lze.ops = s.lze.ops
  lzd : t.lzd.ops = s.lzd.ops

theorem SameCore.sameOperands {s t : State} (h : SameCore s t) : SameOperands s t := by
  constructor <;> simp only [h.rle, h.rld, h.bre, h.htb, h.hen, h.hde, h.lze, h.lzd]

theorem OnlyUnit.sameOperands {u : UnitId} {s t : State} (h : OnlyUnit u s t) : SameOperands s t := by
  cases u <;> obtain ⟨ht, hops⟩ := h <;> rw [ht] <;> constructor <;> first | rfl | exact hops

theorem sameOperands_resetCore (s : State) : SameOperands State.reset (resetCore s) :=
  ⟨rfl, rfl, rfl, rfl, rfl, rfl, rfl, rfl⟩

namespace BuffersWf
variable {s t : State}

theorem of_sameOperands (hs : BuffersWf s) (h : SameOperands s t) : BuffersWf t := by
  obtain ⟨b1, b2, b3, b4, b5, b6, b7, b8, b9, b10, b11, b12, b13⟩ := hs
  constructor <;> simp only [h.rle, h.rld, h.bre, h.htb, h.hen, h.hde, h.lze, h.lzd] <;> assumption

/-- The host's copy between the halves of `HUF.ENCODE` writes a code table of its size (R109, R224). -/
theorem of_carryToEncoder (hs : BuffersWf s) (htab : s.htb.res.ctabOut.length = Config.numCodes) :
    BuffersWf (carryToEncoder s) where
  __ := hs
  henSym := bufWf_bufWriteList _ _ _ hs.henSym
  henTab := bufWf_bufWriteList _ _ _ hs.henTab
  tabSize := bufBelow_bufWriteList _ _ _ _ (by omega) hs.tabSize

end BuffersWf

theorem exec_htbBuild_ctabOut {s t : State} (h : exec .htbBuild s = .next t) : t.htb.res.ctabOut.length = Config.numCodes := by
  obtain ⟨-, e, he, rfl⟩ := (operationSpec .htbBuild ⟨nofun, nofun⟩).exec_ok h
  obtain ⟨xs, -, -, rfl⟩ := htbBuildOp_ok.1 he
  exact codeTable_length _

theorem BuffersWf.of_exec {i : Instr} {s t : State} (hs : BuffersWf s) (h : exec i s = .next t) : BuffersWf t := by
  by_cases hi : i = .hufEncode
  · subst hi
    obtain ⟨s1, hbuild, hencode⟩ := exec_hufEncode_next.1 h
    have h1 := hs.of_sameOperands (operationsTouchOnlyTheirUnit .htbBuild s s1 nofun hbuild).sameOperands
    exact (h1.of_carryToEncoder (exec_htbBuild_ctabOut hbuild)).of_sameOperands
      (operationsTouchOnlyTheirUnit .henEnc _ t nofun hencode).sameOperands
  · exact hs.of_sameOperands (operationsTouchOnlyTheirUnit i s t hi h).sameOperands

theorem BuffersWf.of_step {s t : State} (hs : BuffersWf s) (h : step s = .next t) : BuffersWf t := by
  have before {s' : State} (same : SameCore s s') : BuffersWf s' := hs.of_sameOperands same.sameOperands
  cases step_kind h with
  | host same => exact before same
  | operand s' p v same write => exact writePlace_buffers write (before same)
  | command s' u w i same e rest queue wrote decoded run => exact (before same).of_exec run
  | pseudo s' same run => exact (before same).of_exec run
  | start s' u w i same decoded isOp run =>
    exact (before same).of_sameOperands ((operationSpec i isOp).begin_onlyUnit run).sameOperands
  | finish s' u f i same busy op run =>
    exact (before same).of_sameOperands ((operationSpec i (opOfFunc_isOperation op)).finish_onlyUnit run).sameOperands
  | reset s' same rest queue eq =>
    exact eq ▸ inv_reset.buffers.of_sameOperands (sameOperands_resetCore s')

/-! ### Fault codes and `BUSY` units, unit by unit (R8, R300) -/

/-- Unit `u` shows a fault code exactly in `FAULT`, and in `BUSY` runs an operation of its own that will end. -/
structure UnitInv (u : UnitId) (s : State) : Prop where
  fault : (control s u).fault ≠ .none ↔ (control s u).state = .fault
  busy : ∀ f, (control s u).state = .busy f → ∃ i t, opOfFunc u f = some i ∧ finishOperation i s = .ok t

theorem inv_iff {s : State} : Inv s ↔ BuffersWf s ∧ (∀ u, UnitInv u s) ∧ SeenIsPast s :=
  ⟨fun h => ⟨h.buffers, fun u => ⟨h.faults u, h.busy u⟩, h.seen⟩,
    fun ⟨hbuffers, hunits, hseen⟩ => ⟨hbuffers, fun u => (hunits u).fault, fun u => (hunits u).busy, hseen⟩⟩

/-- The step of a `BUSY` unit is accepted exactly when its operation answers. -/
theorem OperationSpec.finish_accepted {i : Instr} (o : OperationSpec i) {s : State} :
    (∃ t, finishOperation i s = .ok t) ↔ ∃ e, o.op s.cap (o.lens.get s) = .ok e := by
  rw [o.finish_eq, finishOn]
  cases o.op s.cap (o.lens.get s) <;> simp [Except.map]

/-- Whether the step of a `BUSY` unit is accepted is decided by the unit's control and operands (R317, R344). -/
theorem finish_accepted_congr {i : Instr} {s t : State} (hop : IsOperation i) (hcap : s.cap = t.cap)
    (hin : SameInput (instrUnit i) s t) (h : ∃ s', finishOperation i s = .ok s') : ∃ t', finishOperation i t = .ok t' := by
  obtain ⟨hctl, hops⟩ := hin.get hop
  have hsame := (operationSpec i hop).decided s.cap _ _ hops (congrArg Control.draws hctl)
  rw [(operationSpec i hop).finish_accepted] at h ⊢
  rwa [← hcap, ← hsame]

theorem SameInput.control {u : UnitId} {s t : State} (h : SameInput u s t) : control t u = control s u := by
  cases u <;> exact h.1.symm

theorem SameCore.sameInput {s t : State} (h : SameCore s t) (u : UnitId) : SameInput u s t := by
  cases u <;> simp [SameInput, h.rle, h.rld, h.bre, h.htb, h.hen, h.hde, h.lze, h.lzd]

theorem OnlyUnit.sameInput_of_ne {u v : UnitId} {s t : State} (h : OnlyUnit u s t) (hne : v ≠ u) : SameInput v s t := by
  cases u <;> rw [h.1] <;> cases v <;> simp [SameInput] at hne ⊢

theorem OnlyUnit.cap {u : UnitId} {s t : State} (h : OnlyUnit u s t) : t.cap = s.cap := by
  cases u <;> rw [h.1]

theorem OperandWritten.cap {s t : State} (h : OperandWritten s t) : t.cap = s.cap := by
  cases h <;> next eq => rw [eq]

/-- An operand write passes a `BUSY` unit by (R344). -/
theorem OperandWritten.sameInput_of_busy {u : UnitId} {f : BitVec 4} {s t : State} (h : OperandWritten s t)
    (hb : (Machine.control s u).state = .busy f) : SameInput u s t := by
  cases h with
  | nothing eq => rw [eq]; cases u <;> exact ⟨rfl, rfl⟩
  | rle o free eq => rw [eq]; cases u <;> first | exact ⟨rfl, rfl⟩ | exact absurd hb (free f)
  | rld o free eq => rw [eq]; cases u <;> first | exact ⟨rfl, rfl⟩ | exact absurd hb (free f)
  | bre o free eq => rw [eq]; cases u <;> first | exact ⟨rfl, rfl⟩ | exact absurd hb (free f)
  | htb o free eq => rw [eq]; cases u <;> first | exact ⟨rfl, rfl⟩ | exact absurd hb (free f)
  | hen o free eq => rw [eq]; cases u <;> first | exact ⟨rfl, rfl⟩ | exact absurd hb (free f)
  | hde o free eq => rw [eq]; cases u <;> first | exact ⟨rfl, rfl⟩ | exact absurd hb (free f)
  | lze o free eq => rw [eq]; cases u <;> first | exact ⟨rfl, rfl⟩ | exact absurd hb (free f)
  | lzd o free eq => rw [eq]; cases u <;> first | exact ⟨rfl, rfl⟩ | exact absurd hb (free f)

namespace UnitInv
variable {u : UnitId} {s t : State} {i : Instr}

theorem of_not_busy (hfault : (control s u).fault ≠ .none ↔ (control s u).state = .fault)
    (hbusy : ∀ f, (control s u).state ≠ .busy f) : UnitInv u s :=
  ⟨hfault, fun f hf => absurd hf (hbusy f)⟩

theorem of_idle (hidle : (control s u).state = .idle) (hfault : (control s u).fault = .none) : UnitInv u s :=
  .of_not_busy (by simp [hidle, hfault]) (by simp [hidle])

theorem fault_eq_none (h : UnitInv u s) (hidle : (control s u).state = .idle) : (control s u).fault = .none := by
  by_contra hne
  cases hidle.symm.trans (h.fault.1 hne)

/-- A unit keeps its invariant where its control stays, and its operands too while it is `BUSY`. -/
theorem of_sameInput (hs : UnitInv u s) (hcap : t.cap = s.cap) (hctl : control t u = control s u)
    (hin : ∀ f, (control s u).state = .busy f → SameInput u s t) : UnitInv u t where
  fault := by rw [hctl]; exact hs.fault
  busy f hf := by
    rw [hctl] at hf
    obtain ⟨i, s', hop, hfinish⟩ := hs.busy f hf
    obtain rfl := opOfFunc_unit hop
    obtain ⟨t', ht'⟩ := finish_accepted_congr (opOfFunc_isOperation hop) hcap.symm (hin f hf) ⟨s', hfinish⟩
    exact ⟨i, t', hop, ht'⟩

theorem of_sameCore (hs : UnitInv u s) (h : SameCore s t) : UnitInv u t :=
  hs.of_sameInput h.cap (h.control u) fun _ _ => h.sameInput u

theorem of_operandWritten (hs : UnitInv u s) (h : OperandWritten s t) : UnitInv u t :=
  hs.of_sameInput h.cap (h.control u) fun _ => h.sameInput_of_busy

/-- Where only unit `u` changes, the other units keep their invariant. -/
theorem of_onlyUnit (h : OnlyUnit u s t) (hothers : ∀ v, v ≠ u → UnitInv v s) (hu : UnitInv u t) (v : UnitId) : UnitInv v t := by
  rcases eq_or_ne v u with rfl | hne
  · exact hu
  · exact (hothers v hne).of_sameInput h.cap (h.control_of_ne hne) fun _ _ => h.sameInput_of_ne hne

/-- A unit whose operation ended is in `DONE` without a fault, or in `FAULT` with a fault of its row (R7, R305). -/
theorem of_endOperation (hop : IsOperation i) {e : Ending (operationSpec i hop).R}
    (h : (operationSpec i hop).op s.cap ((operationSpec i hop).lens.get s) = .ok e) :
    UnitInv (instrUnit i) ((operationSpec i hop).lens.put s
      (endOperation (operationSpec i hop).unspec (operationSpec i hop).rest ((operationSpec i hop).lens.get s) e)) := by
  refine .of_not_busy ?_ fun f => ?_ <;> rw [UnitLens.control_put]
  · cases e with
    | results r => simp
    | raises f => simp [ne_none_of_mem_mayRaise (operation_raises hop h)]
  · exact endOperation_not_busy _ _ _ e f

theorem of_execOperation (hop : IsOperation i) (h : exec i s = .next t) (hothers : ∀ v, v ≠ instrUnit i → UnitInv v s)
    (v : UnitId) : UnitInv v t := by
  refine of_onlyUnit ((operationSpec i hop).exec_onlyUnit h) hothers ?_ v
  obtain ⟨-, e, he, rfl⟩ := (operationSpec i hop).exec_ok h
  exact of_endOperation hop he

theorem of_finish (hs : ∀ v, UnitInv v s) (hop : IsOperation i) (h : finishOperation i s = .ok t) (v : UnitId) : UnitInv v t := by
  refine of_onlyUnit ((operationSpec i hop).finish_onlyUnit h) (fun v _ => hs v) ?_ v
  rw [(operationSpec i hop).finish_eq] at h
  obtain ⟨x, hx, rfl⟩ := Except.map_eq_ok.1 h
  obtain ⟨e, he, rfl⟩ := finishOn_ok.1 hx
  exact of_endOperation hop he

/-- A `START` that leaves its unit `BUSY` has sampled the operands that its step will find (R100, R344). -/
theorem of_begin {w : BitVec 64} (hs : ∀ v, UnitInv v s) (hdec : decodeCtrl u w = .run i) (hop : IsOperation i)
    (h : beginOperation i (ctrlFunc w) s = .ok t) (v : UnitId) : UnitInv v t := by
  have hmap := decodeCtrl_opcodeMap hdec hop
  obtain rfl := opcodeMap_unit hmap
  have hctl := (operationSpec i hop).begin_control h
  obtain ⟨x, hx, ht⟩ := (operationSpec i hop).begin_ok h
  obtain ⟨hidle, ⟨e, he⟩, -⟩ := beginOn_ok.1 hx
  rw [← UnitLens.control_eq] at hidle
  refine of_onlyUnit ((operationSpec i hop).begin_onlyUnit h) (fun v _ => hs v) ⟨?_, fun f hf => ?_⟩ v
  · simp [hctl, (hs (instrUnit i)).fault_eq_none hidle]
  · have hf : ctrlFunc w = f := by simpa [hctl] using hf
    have hfunc : opOfFunc (instrUnit i) f = some i := hf ▸ ctrlFunc_eq w ▸ opOfFunc_opcode hmap
    have hexec : ∃ t', exec i s = .next t' := by
      rw [(operationSpec i hop).exec_eq]
      exact ⟨_, answer_eq_next.2 (Except.map_eq_ok.2 ⟨_, runOn_idle (by rwa [← UnitLens.control_eq]) he, rfl⟩)⟩
    obtain ⟨t', ht'⟩ := hexec
    exact ⟨i, t', hfunc, answer_eq_next.1 (((operationSpec i hop).finish_of_begin h).trans ht')⟩

end UnitInv

/-- `CLEAR` leaves its unit without a fault code, or as it found it. -/
theorem execClear_control {u : UnitId} {b : BitVec 8} {s t : State} (h : exec (.clear u b) s = .next t) :
    (control t u).fault = .none ∨ control t u = control s u := by
  have h := answer_eq_next.1 (show answer _ = .next t from h)
  cases u <;> obtain ⟨x, hx, rfl⟩ := Except.map_eq_ok.1 h <;>
    rcases clearUnit_ok.1 hx with ⟨-, rfl⟩ | ⟨-, rfl⟩ <;> first | exact .inr rfl | exact .inl rfl

theorem carryToEncoder_sameInput (s : State) {u : UnitId} (h : u ≠ .hen) : SameInput u s (carryToEncoder s) := by
  cases u <;> first | exact ⟨rfl, rfl⟩ | exact absurd rfl h

theorem UnitInv.of_exec {i : Instr} {s t : State} (hs : ∀ v, UnitInv v s) (h : exec i s = .next t) (v : UnitId) : UnitInv v t := by
  by_cases hop : IsOperation i
  · exact of_execOperation hop h (fun v _ => hs v) v
  cases i with
  | clear u b =>
    have hidle := (execClear_move h).2.1
    refine of_onlyUnit (execClear_onlyUnit h) (fun v _ => hs v) (.of_idle hidle ?_) v
    rcases execClear_control h with hnone | hsame
    · exact hnone
    · rw [hsame] at hidle ⊢
      exact (hs u).fault_eq_none hidle
  | hufEncode =>
    obtain ⟨s1, hbuild, hencode⟩ := exec_hufEncode_next.1 h
    have h1 := of_execOperation (i := .htbBuild) ⟨nofun, nofun⟩ hbuild fun v _ => hs v
    refine of_execOperation (i := .henEnc) ⟨nofun, nofun⟩ hencode (fun v hv => ?_) v
    have hin := carryToEncoder_sameInput s1 hv
    exact (h1 v).of_sameInput rfl hin.control fun _ _ => hin
  | _ => exact absurd ⟨nofun, nofun⟩ hop

theorem unitInv_resetCore (s : State) (u : UnitId) : UnitInv u (resetCore s) :=
  .of_idle (by cases u <;> rfl) (by cases u <;> rfl)

theorem UnitInv.of_step {s t : State} (hs : ∀ v, UnitInv v s) (h : step s = .next t) (v : UnitId) : UnitInv v t := by
  have before {s' : State} (same : SameCore s s') (v : UnitId) : UnitInv v s' := (hs v).of_sameCore same
  cases step_kind h with
  | host same => exact before same v
  | operand s' p x same write => exact (before same v).of_operandWritten (writePlace_written write)
  | command s' u w i same e rest queue wrote decoded run => exact of_exec (before same) run v
  | pseudo s' same run => exact of_exec (before same) run v
  | start s' u w i same decoded isOp run => exact of_begin (before same) decoded isOp run v
  | finish s' u f i same busy op run => exact of_finish (before same) (opOfFunc_isOperation op) run v
  | reset s' same rest queue eq => exact eq ▸ unitInv_resetCore s' v

/-! ### The record of `STATUS` reads (R346) -/

/-- A step records the draw counter that a unit has reached, and no draw counter moves back. -/
theorem SeenIsPast.of_step {s t : State} (hs : SeenIsPast s) (h : step s = .next t) : SeenIsPast t := by
  intro u n hn
  have hdraws := (step_move h u).draws_le
  rcases step_seen h u with (hkept | ⟨-, -, hnoted⟩) | ⟨hnone, -⟩
  · exact (hs u n (hkept ▸ hn)).trans hdraws
  · cases hnoted.symm.trans hn
    exact hdraws
  · cases hnone.symm.trans hn

/-- Settles O54: buffers, each unit's control, and the host's record are each kept by every kind of step. -/
theorem everyStepKeepsTheInvariant : Obligations.EveryStepKeepsTheInvariant := by
  unfold Obligations.EveryStepKeepsTheInvariant
  intro s t hs h
  obtain ⟨hbuffers, hunits, hseen⟩ := inv_iff.1 hs
  exact inv_iff.2 ⟨hbuffers.of_step h, UnitInv.of_step hunits h, hseen.of_step h⟩

/-! ### Host reads and copies (R74, R82) -/

theorem run_succ {s t : State} (k : Nat) (h : step s = .next t) :
    Host.Core.run Sys2Proof.core (k + 1) s = Host.Core.run Sys2Proof.core k t := by
  simp only [Host.Core.run, Sys2Proof.core, h]

/-- Every readable place gives a value, whatever the state (R287). -/
theorem readPlace_of_readable (s : State) {p : Place} (h : p.readable = true) : ∃ v, readPlace s p = .ok v := by
  cases p with
  | reg n => exact ⟨_, rfl⟩
  | pair i => exact ⟨_, rfl⟩
  | plane q i => exact ⟨_, rfl⟩
  | lzc i => exact ⟨_, rfl⟩
  | sym u i => cases u <;> first | exact ⟨_, rfl⟩ | cases h
  | bit u i => cases u <;> first | exact ⟨_, rfl⟩ | cases h
  | tree i => exact ⟨_, if_pos (of_decide_eq_true h)⟩
  | ctab i => exact ⟨_, if_pos (of_decide_eq_true h)⟩

/-- What a read notes of a `STATUS` does not hang on the queue or on the values read before. -/
theorem noteRead_queue (p : Place) (s : State) (rest : List Event) (vs : List HostValue) :
    noteRead p { s with pending := rest, reads := vs } = { noteRead p s with pending := rest, reads := vs } := by
  have hctl (u : UnitId) : control { s with pending := rest, reads := vs } u = control s u := by cases u <;> rfl
  cases p with
  | reg n =>
    simp only [noteRead, noteStatus, hctl]
    split_ifs <;> rfl
  | _ => rfl

/-- A read takes its event, keeps the value, and notes a `STATUS` that returned `DONE` (R74, R346). -/
theorem step_read {s : State} {p : Place} {v : HostValue} {rest : List Event} (h : s.pending = .read p :: rest)
    (hv : readPlace s p = .ok v) :
    step s = .next { noteRead p s with pending := rest, reads := s.reads ++ [v] } := by
  have hread : hostRead p { s with pending := rest } =
      .next { noteRead p { s with pending := rest } with reads := s.reads ++ [v] } := by
    rw [hostRead, readPlace_pending, hv]
  rw [step_event h, runEvent, hread, noteRead_queue p s rest s.reads]

/-- Reading again, when the host's record already holds what the read notes, adds the value and nothing else. -/
theorem step_read_noted {t : State} {p : Place} {v : HostValue} (rest : List Event) (vs : List HostValue)
    (hnoted : noteRead p t = t) (hv : readPlace t p = .ok v) :
    step { t with pending := .read p :: rest, reads := vs } = .next { t with pending := rest, reads := vs ++ [v] } := by
  refine (step_read (s := { t with pending := .read p :: rest, reads := vs }) rfl hv).trans ?_
  rw [noteRead_queue, hnoted]

/-- Settles O10: the second read sees the units and the record that the first one left, and adds nothing to that record. -/
theorem readsHaveNoSideEffect : Obligations.ReadsHaveNoSideEffect := by
  unfold Obligations.ReadsHaveNoSideEffect
  intro s p rest hp hpending
  obtain ⟨v, hv⟩ := readPlace_of_readable s hp
  have hfirst := step_read hpending hv
  have hsecond := step_read_noted rest (s.reads ++ [v]) (noteRead_noteRead p s) ((readPlace_noteRead p s).trans hv)
  have hframe : { noteRead p s with pending := rest, reads := s.reads ++ [v] ++ [v] } =
      { s with pending := rest, reads := s.reads ++ [v, v], seen := (noteRead p s).seen } := by
    rw [noteRead_eq p s, List.append_assoc]
    rfl
  exact ⟨v, hv, (run_succ 1 hfirst).trans ((run_succ 0 hsecond).trans (congrArg _ hframe))⟩

/-- Where results are defined, an element that the operation delivered is shown as it is (R346). -/
theorem elementShown_defined {α : Type} {d : Bool} {xs : List α} {i : Nat} (free : α) (hd : d = true) (h : i < xs.length) :
    elementShown d xs i free = xs[i] := by
  rw [elementShown, if_pos hd, List.getD_eq_getElem _ _ h]

/-- Only a register is noted when it is read, and a register gives a word. -/
theorem noteRead_of_not_word {s : State} {p : Place} {v : HostValue} (h : readPlace s p = .ok v) (hv : ∀ w, v ≠ .word w) :
    noteRead p s = s := by
  cases p with
  | reg n => cases h; exact absurd rfl (hv _)
  | _ => rfl

theorem hostCopy_of_read {s : State} {src : Place} {v : HostValue} (dst : Place) (h : readPlace s src = .ok v) :
    hostCopy src dst s = hostWrite dst v (noteRead src s) := by
  rw [hostCopy, h]

/-- A host write of an element within the capacity, to a unit that is not `BUSY`, replaces that unit's operands (R71, R344). -/
theorem writeElement_not_busy {O R W : Type} {s : State} {u : UnitId} (l : UnitLens u O R W) {i : Nat} (f : O → O)
    (hb : isBusy s u = false) (hc : fitsCap s.cap (i + 1) = true) :
    answer ((writeElement s.cap (l.get s) i f).map (l.put s)) = .next (l.put s { l.get s with ops := f (l.get s).ops }) := by
  have hfree (g : BitVec 4) : (l.get s).ctl.state ≠ .busy g := l.control_eq s ▸ not_busy_of_isBusy hb g
  rw [writeElement_ok.2 ⟨hc, writeOperand_ok.2 ⟨hfree, rfl⟩⟩, Except.map, answer]

section
variable {O R W : Type} {s : State} {u : UnitId} {src dst : Place} {v : HostValue} {i n : Nat}

/-- A copy to an element of an "in" buffer puts the value read into the operands of the buffer's unit (R82, R286). -/
theorem hostCopy_element (l : UnitLens u O R W) (f : O → O) (hread : readPlace s src = .ok v) (hnote : noteRead src s = s)
    (hb : isBusy s u = false) (hc : fitsCap s.cap (i + 1) = true)
    (hwrite : hostWrite dst v s = answer ((writeElement s.cap (l.get s) i f).map (l.put s))) :
    hostCopy src dst s = .next (l.put s { l.get s with ops := f (l.get s).ops }) := by
  rw [hostCopy_of_read dst hread, hnote, hwrite, writeElement_not_busy l f hb hc]

/-- A copy to an entry of a table, the same below the size of the table (R71). -/
theorem hostCopy_entry (l : UnitLens u O R W) (f : O → O) (hread : readPlace s src = .ok v) (hnote : noteRead src s = s)
    (hb : isBusy s u = false) (hi : i < n) (hc : fitsCap s.cap (i + 1) = true)
    (hwrite : hostWrite dst v s = answer ((writeEntry s.cap n (l.get s) i f).map (l.put s))) :
    hostCopy src dst s = .next (l.put s { l.get s with ops := f (l.get s).ops }) :=
  hostCopy_element l f hread hnote hb hc (by rw [hwrite, writeEntry, if_pos hi])

end

/-- A copy from a register to an operand register of a unit that is not `BUSY` sets the operand register (R82, R286). -/
theorem hostCopy_register (s : State) (src : BitVec 8) {u : UnitId} {r : Nat} (hop : operandRegister u r = true)
    (hb : isBusy s u = false) :
    ∃ t, hostCopy (.reg src) (.reg (regNumber u r)) s = .next t ∧
      OperandRegisterSet u r (readReg s (regUnit src) (regIndex src)) (noteRead (.reg src) s) t := by
  obtain ⟨h2, h32⟩ := operandRegister_bounds hop
  have hfree (g : BitVec 4) : (control (noteRead (.reg src) s) u).state ≠ .busy g := by
    rw [(sameCore_noteRead _ s).control]
    exact not_busy_of_isBusy hb g
  obtain ⟨t, hwrite, hset⟩ := writeReg_operand (readReg s (regUnit src) (regIndex src)) hop hfree
  refine ⟨t, ?_, hset⟩
  rw [hostCopy_of_read _ (show readPlace s (.reg src) = .ok _ from rfl), hostWrite_reg _ u r _ h32 (by omega), hwrite, answer]

/-- Settles O15: the place read gives the element or the word, and the write puts it into its unit's operands. -/
theorem hostCopyCarriesTheValue : Obligations.HostCopyCarriesTheValue := by
  unfold Obligations.HostCopyCarriesTheValue
  refine ⟨fun s i j h hd hb hc => ?_, fun s i j h hd hb hi hj hc => ?_, fun s i j h hd hb hi hj hc => ?_,
    fun s i j h hd hb hc => ?_, fun s src j x hread hc => ?_, fun s src j x hread hc => ?_,
    fun s src u r hop hb => hostCopy_register s src hop hb⟩
  · have hread : readPlace s (.pair i) = .ok (.pair s.rle.res.pairOut[i]) := by
      rw [readPlace, elementShown_defined _ hd h]
    exact hostCopy_element .rld (fun o => { o with pairIn := bufSet o.pairIn j _ }) hread rfl hb hc rfl
  · have hread : readPlace s (.tree i) = .ok (.node s.htb.res.treeOut[i]) := by
      rw [readPlace, if_pos hi, treeShown, elementShown_defined _ hd h]
    exact hostCopy_entry .hde (fun o => { o with treeIn := bufSet o.treeIn j _ }) hread rfl hb hj hc rfl
  · have hread : readPlace s (.ctab i) = .ok (.code s.htb.res.ctabOut[i]) := by
      rw [readPlace, if_pos hi, elementShown_defined _ hd h]
    exact hostCopy_entry .hen (fun o => { o with ctabIn := bufSet o.ctabIn j _ }) hread rfl hb hj hc rfl
  · have hread : readPlace s (.lzc i) = .ok (.word s.lze.res.lzcOut[i]) := by
      rw [readPlace, elementShown_defined _ hd h]
    exact hostCopy_element .lzd (fun o => { o with lzcIn := bufSet o.lzcIn j _ }) hread rfl hb hc rfl
  · have hnote := noteRead_of_not_word hread nofun
    exact ⟨fun hb => hostCopy_element .rle (fun o => { o with symIn := bufSet o.symIn j x }) hread hnote hb hc rfl,
      fun hb => hostCopy_element .htb (fun o => { o with symIn := bufSet o.symIn j x }) hread hnote hb hc rfl,
      fun hb => hostCopy_element .hen (fun o => { o with symIn := bufSet o.symIn j x }) hread hnote hb hc rfl,
      fun hb => hostCopy_element .lze (fun o => { o with symIn := bufSet o.symIn j x }) hread hnote hb hc rfl⟩
  · have hnote := noteRead_of_not_word hread nofun
    exact ⟨fun hb => hostCopy_element .bre (fun o => { o with bitIn := bufSet o.bitIn j x }) hread hnote hb hc rfl,
      fun hb => hostCopy_element .hde (fun o => { o with bitIn := bufSet o.bitIn j x }) hread hnote hb hc rfl,
      fun hb p => hostCopy_element .rld (fun o => { o with planeIn := o.planeIn.set p (bufSet o.planeIn[p] j x) })
        hread hnote hb hc rfl⟩

end Sys2Proof.Machine

namespace Sys2Proof

/-! ### Command words and their fields (R100, R101) -/

/-- The four fields of a `CTRL` word make up its value (R100). -/
theorem ctrl_toNat (w : BitVec 64) :
    w.toNat = (ctrlOpcode w).toNat + 256 * (ctrlStart w).toNat + 512 * (ctrlClear w).toNat + 1024 * (ctrlReserved w).toNat := by
  have hbit (k : Nat) : (w.getLsbD k).toNat = w.toNat / 2 ^ k % 2 := by
    rw [BitVec.getLsbD, Nat.toNat_testBit]
  have hstart := hbit 8
  have hclear := hbit 9
  have hlow : (ctrlOpcode w).toNat = w.toNat % 2 ^ 8 := by simp [ctrlOpcode, BitVec.extractLsb'_toNat]
  have hhigh : (ctrlReserved w).toNat = w.toNat / 2 ^ 10 % 2 ^ 54 := by
    simp [ctrlReserved, BitVec.extractLsb'_toNat, Nat.shiftRight_eq_div_pow]
  have hw := w.isLt
  unfold ctrlStart ctrlClear
  omega

theorem ctrlReserved_eq_zero {w : BitVec 64} : ctrlReserved w = 0 ↔ (ctrlReserved w).toNat = 0 :=
  ⟨fun h => by rw [h]; rfl, fun h => BitVec.eq_of_toNat_eq h⟩

/-- A word of two command bits and an opcode has that value. -/
theorem command_toNat (k : Nat) (hk : k < 4) (o : BitVec 8) :
    (BitVec.ofNat 64 (2 ^ 8 * k) ||| o.setWidth 64).toNat = 256 * k + o.toNat := by
  have ho := o.isLt
  rw [BitVec.toNat_or, BitVec.toNat_ofNat, BitVec.toNat_setWidth, Nat.mod_eq_of_lt (by omega), Nat.mod_eq_of_lt (by omega),
    ← Nat.two_pow_add_eq_or_of_lt ho]

/-- The word with `START` and opcode `o` is the one that has these fields and no other bit. -/
theorem eq_startWord {w : BitVec 64} {o : BitVec 8} :
    w = 0x100#64 ||| o.setWidth 64 ↔ ctrlReserved w = 0 ∧ ctrlClear w = false ∧ ctrlStart w = true ∧ ctrlOpcode w = o := by
  have hword : (0x100#64 ||| o.setWidth 64).toNat = 256 * 1 + o.toNat := command_toNat 1 (by decide) o
  have hw := ctrl_toNat w
  have ho := o.isLt
  have ho' := (ctrlOpcode w).isLt
  rw [← BitVec.toNat_inj, hword, ctrlReserved_eq_zero, ← BitVec.toNat_inj]
  cases hs : ctrlStart w <;> cases hc : ctrlClear w <;> simp [hs, hc] at hw ⊢ <;> omega

/-- The same for `CLEAR`. -/
theorem eq_clearWord {w : BitVec 64} {o : BitVec 8} :
    w = 0x200#64 ||| o.setWidth 64 ↔ ctrlReserved w = 0 ∧ ctrlClear w = true ∧ ctrlStart w = false ∧ ctrlOpcode w = o := by
  have hword : (0x200#64 ||| o.setWidth 64).toNat = 256 * 2 + o.toNat := command_toNat 2 (by decide) o
  have hw := ctrl_toNat w
  have ho := o.isLt
  have ho' := (ctrlOpcode w).isLt
  rw [← BitVec.toNat_inj, hword, ctrlReserved_eq_zero, ← BitVec.toNat_inj]
  cases hs : ctrlStart w <;> cases hc : ctrlClear w <;> simp [hs, hc] at hw ⊢ <;> omega

/-! ### What the decoder answers, and when (R101) -/

/-- A word runs an instruction: an operation of its unit by its opcode, or a `CLEAR`. -/
theorem decodeCtrl_eq_run {u : UnitId} {w : BitVec 64} {i : Instr} :
    decodeCtrl u w = .run i ↔ ctrlReserved w = 0 ∧
      ((ctrlClear w = false ∧ ctrlStart w = true ∧ opcodeMap (ctrlOpcode w) = some (u, i)) ∨
        (ctrlClear w = true ∧ ctrlStart w = false ∧ i = .clear u (ctrlOpcode w))) := by
  unfold decodeCtrl
  by_cases hr : ctrlReserved w = 0
  · cases hc : ctrlClear w <;> cases hs : ctrlStart w <;> simp only [hr, ne_eq, not_true_eq_false, if_false]
    · simp
    · cases hm : opcodeMap (ctrlOpcode w) with
      | none => simp
      | some p =>
        obtain ⟨v, j⟩ := p
        by_cases hv : v = u <;> simp [hv]
    · simp [eq_comm]
    · simp
  · simp only [ne_eq, hr, not_false_eq_true, if_true, reduceCtorEq, false_and]

theorem decodeCtrl_eq_noEffect {u : UnitId} {w : BitVec 64} :
    decodeCtrl u w = .noEffect ↔ ctrlReserved w = 0 ∧ ctrlClear w = false ∧ ctrlStart w = false := by
  unfold decodeCtrl
  by_cases hr : ctrlReserved w = 0
  · cases hc : ctrlClear w <;> cases hs : ctrlStart w <;> simp only [hr, ne_eq, not_true_eq_false, if_false]
    · simp
    · cases hm : opcodeMap (ctrlOpcode w) with
      | none => simp
      | some p => by_cases hv : p.1 = u <;> simp [hv]
    · simp
    · simp
  · simp only [ne_eq, hr, not_false_eq_true, if_true, reduceCtorEq, false_and]

/-- A word is reserved when it neither runs an instruction nor has no effect. -/
theorem decodeCtrl_eq_reserved {u : UnitId} {w : BitVec 64} :
    (∃ why, decodeCtrl u w = .reserved why) ↔ decodeCtrl u w ≠ .noEffect ∧ ∀ i, decodeCtrl u w ≠ .run i := by
  cases decodeCtrl u w <;> simp

/-- The words of an instruction, read from the opcode map (R101). -/
theorem encode_eq_some {i : Instr} {u : UnitId} {w : BitVec 64} :
    encode i = some (u, w) ↔ (∃ o, opcodeMap o = some (u, i) ∧ w = 0x100#64 ||| o.setWidth 64) ∨
      ∃ b, i = .clear u b ∧ w = 0x200#64 ||| b.setWidth 64 := by
  constructor
  · intro h
    cases i with
    | clear v b => cases h; exact .inr ⟨b, rfl, rfl⟩
    | hufEncode => cases h
    | rleEncs => cases h; exact .inl ⟨0x00#8, rfl, rfl⟩
    | rleEncb => cases h; exact .inl ⟨0x01#8, rfl, rfl⟩
    | rldDecs => cases h; exact .inl ⟨0x10#8, rfl, rfl⟩
    | rldDecb => cases h; exact .inl ⟨0x11#8, rfl, rfl⟩
    | brePut => cases h; exact .inl ⟨0x20#8, rfl, rfl⟩
    | htbBuild => cases h; exact .inl ⟨0x30#8, rfl, rfl⟩
    | henEnc => cases h; exact .inl ⟨0x40#8, rfl, rfl⟩
    | hdeDec => cases h; exact .inl ⟨0x50#8, rfl, rfl⟩
    | lzeEnc => cases h; exact .inl ⟨0x60#8, rfl, rfl⟩
    | lzdDec => cases h; exact .inl ⟨0x70#8, rfl, rfl⟩
  · rintro (⟨o, ho, rfl⟩ | ⟨b, rfl, rfl⟩)
    · unfold opcodeMap at ho
      split at ho <;> cases ho <;> rfl
    · rfl

/-- The decoder reads exactly the words of an instruction on its unit (R101). -/
theorem decodeCtrl_run_iff_encode (u : UnitId) (w : BitVec 64) (i : Instr) :
    decodeCtrl u w = .run i ↔ encode i = some (u, w) := by
  rw [decodeCtrl_eq_run, encode_eq_some]
  simp only [eq_startWord, eq_clearWord]
  constructor
  · rintro ⟨hr, ⟨hc, hs, hm⟩ | ⟨hc, hs, hi⟩⟩
    · exact .inl ⟨_, hm, hr, hc, hs, rfl⟩
    · exact .inr ⟨_, hi, hr, hc, hs, rfl⟩
  · rintro (⟨o, hm, hr, hc, hs, rfl⟩ | ⟨b, hi, hr, hc, hs, rfl⟩)
    · exact ⟨hr, .inl ⟨hc, hs, hm⟩⟩
    · exact ⟨hr, .inr ⟨hc, hs, hi⟩⟩

/-- A word has no effect exactly when it is below `START` (R101). -/
theorem decodeCtrl_noEffect_iff_lt (u : UnitId) (w : BitVec 64) : decodeCtrl u w = .noEffect ↔ w.toNat < 2 ^ 8 := by
  have hw := ctrl_toNat w
  have ho := (ctrlOpcode w).isLt
  rw [decodeCtrl_eq_noEffect, ctrlReserved_eq_zero]
  cases hs : ctrlStart w <;> cases hc : ctrlClear w <;> simp [hs, hc] at hw ⊢ <;> omega

/-- Settles O1: the decoder and the words of an instruction are both read from the opcode map, and what is left is reserved. -/
theorem decoderIsTheOpcodeMap : Obligations.DecoderIsTheOpcodeMap := by
  unfold Obligations.DecoderIsTheOpcodeMap
  refine ⟨⟨rfl, rfl, rfl, rfl, rfl, rfl, rfl, rfl, rfl, rfl, fun _ _ => rfl⟩, decodeCtrl_run_iff_encode,
    decodeCtrl_noEffect_iff_lt, fun u w => ?_⟩
  rw [decodeCtrl_eq_reserved, ne_eq, decodeCtrl_noEffect_iff_lt, Nat.not_lt]
  simp only [ne_eq, decodeCtrl_run_iff_encode]

/-- Settles O2: every instruction but the pseudo-operation has a word, which the decoder reads back. -/
theorem decodeOfEncodeIsIdentity : Obligations.DecodeOfEncodeIsIdentity := by
  unfold Obligations.DecodeOfEncodeIsIdentity
  intro i hi
  have hsome : ∃ u w, encode i = some (u, w) := by
    cases i with
    | hufEncode => cases hi
    | _ => exact ⟨_, _, rfl⟩
  obtain ⟨u, w, h⟩ := hsome
  exact ⟨u, w, h, (decodeCtrl_run_iff_encode u w i).2 h⟩

/-- Settles O3: the decoder evaluated on the words as R101 writes them. -/
theorem specWordsDecode : Obligations.SpecWordsDecode := by
  unfold Obligations.SpecWordsDecode
  decide

end Sys2Proof

namespace Sys2Proof.Machine

/-! ### A step runs the decoded instruction (R100, R113) -/

theorem writeCtrl_noEffect {u : UnitId} {w : BitVec 64} (h : decodeCtrl u w = .noEffect) (s : State) :
    writeCtrl u w s = .next s := by
  simp only [writeCtrl, h]

/-- A word of the table is a command of the unit it is for. -/
theorem decodeTableWord_eq_some {nbits w : Nat} {i : Instr} :
    decodeTableWord nbits w = some i ↔
      decodeCtrl (wordUnit (BitVec.ofNat 64 (w % 2 ^ nbits))) (BitVec.ofNat 64 (w % 2 ^ nbits)) = .run i := by
  simp only [decodeTableWord]
  cases decodeCtrl (wordUnit (BitVec.ofNat 64 (w % 2 ^ nbits))) (BitVec.ofNat 64 (w % 2 ^ nbits)) <;> simp

/-- Settles O4: each of these events is taken off the queue, and the write goes to `CTRL`. -/
theorem stepRunsTheDecodedInstruction : Obligations.StepRunsTheDecodedInstruction := by
  unfold Obligations.StepRunsTheDecodedInstruction
  refine ⟨fun s u w i rest hq hi => ?_, fun s u w rest hq hn => ?_, fun s nbits w i hi => ?_, fun s rest hq => step_event hq⟩
  · rw [step_ctrlWrite hq, writeCtrl_run hi]
  · rw [step_ctrlWrite hq, writeCtrl_noEffect hn]
  · have hq : (s.withFetchWord nbits w).pending = fetchEvent nbits w :: s.pending := rfl
    rw [step_ctrlWrite hq, writeCtrl_run (decodeTableWord_eq_some.1 hi)]
    rfl

/-! ### Reserved writes to `CTRL` are refused (R102) -/

/-- A write to `CTRL` is refused, whether its operation would run at once or stay `BUSY`. -/
def CtrlRefused (u : UnitId) (w : BitVec 64) (s : State) : Prop := Refused (writeCtrl u w s) ∧ Refused (startSlow u w s)

theorem CtrlRefused.of_reserved {u : UnitId} {w : BitVec 64} {why : ReservedWrite} (h : decodeCtrl u w = .reserved why) (s : State) :
    CtrlRefused u w s :=
  ⟨⟨.reservedCommand why, by simp only [writeCtrl, h]⟩, ⟨.reservedCommand why, by simp only [startSlow, h]⟩⟩

/-- Outside `IDLE` an operation is refused, run at once or left `BUSY` (R345). -/
theorem OperationSpec.notIdle {i : Instr} (o : OperationSpec i) {s : State} (h : (control s (instrUnit i)).state ≠ .idle)
    (f : BitVec 4) : exec i s = .refused .startNotIdle ∧ beginOperation i f s = .error .startNotIdle := by
  rw [o.lens.control_eq] at h
  rw [o.exec_eq, o.begin_eq, runOn_notIdle h, beginOn, if_neg h]
  exact ⟨rfl, rfl⟩

/-- A `CLEAR` of a `BUSY` unit is refused. -/
theorem execClear_busy {u : UnitId} {s : State} (h : isBusy s u = true) (b : BitVec 8) :
    exec (.clear u b) s = .refused .clearWhileBusy := by
  obtain ⟨f, hf⟩ := isBusy_iff.1 h
  cases u <;> exact answer_eq_refused.2 (Except.map_eq_error.2 (clearUnit_busy hf))

theorem CtrlRefused.of_notIdle {u : UnitId} {w : BitVec 64} {i : Instr} {s : State} (hrun : decodeCtrl u w = .run i)
    (hop : opcodeMap (ctrlOpcode w) = some (u, i)) (h : (control s u).state ≠ .idle) : CtrlRefused u w s := by
  have hop' := opcodeMap_isOperation hop
  obtain rfl := opcodeMap_unit hop
  obtain ⟨hexec, hbegin⟩ := (operationSpec i hop').notIdle h (ctrlFunc w)
  exact ⟨⟨_, (writeCtrl_run hrun s).trans hexec⟩, ⟨_, (startSlow_eq hrun hop' s).trans (congrArg answer hbegin)⟩⟩

theorem CtrlRefused.of_busy {u : UnitId} {w : BitVec 64} {b : BitVec 8} {s : State} (hrun : decodeCtrl u w = .run (.clear u b))
    (h : isBusy s u = true) : CtrlRefused u w s :=
  ⟨⟨_, (writeCtrl_run hrun s).trans (execClear_busy h b)⟩, ⟨_, by simp only [startSlow, hrun]; exact execClear_busy h b⟩⟩

/-- Settles O5: a word that is not reserved by its bits is an operation of a unit that is not `IDLE`, or a `CLEAR` of a `BUSY` unit. -/
theorem reservedWritesAreRefused : Obligations.ReservedWritesAreRefused := by
  unfold Obligations.ReservedWritesAreRefused
  intro s u w h
  show CtrlRefused u w s
  cases hd : decodeCtrl u w with
  | reserved why => exact .of_reserved hd s
  | noEffect =>
    obtain ⟨hr, hc, hs⟩ := decodeCtrl_eq_noEffect.1 hd
    simp [hr, hc, hs] at h
  | run i =>
    obtain ⟨hr, ⟨hc, hs, hm⟩ | ⟨hc, hs, rfl⟩⟩ := decodeCtrl_eq_run.1 hd
    · have hidle : (control s u).state ≠ .idle := by simpa [hr, hc, hs, hm] using h
      exact .of_notIdle hd hm hidle
    · have hbusy : isBusy s u = true := by simpa [hr, hc, hs] using h
      exact .of_busy hd hbusy

end Sys2Proof.Machine

namespace Sys2Proof.Machine

/-! ### The 32-bit field as a sum (R104) -/

/-- The value of a bit sequence, its first bit the most significant: each bit with its weight. -/
theorem bitsValue_eq_sum (f : List Bool) :
    bitsValue f = ((List.range f.length).map fun j => (f.getD j false).toNat * 2 ^ (f.length - 1 - j)).sum := by
  induction f using List.reverseRecOn with
  | nil => rfl
  | append_singleton f b ih =>
    have hdouble : ∀ j ∈ List.range f.length,
        ((f ++ [b]).getD j false).toNat * 2 ^ (f.length - j) = 2 * ((f.getD j false).toNat * 2 ^ (f.length - 1 - j)) := by
      intro j hj
      have hj : j < f.length := List.mem_range.1 hj
      rw [List.getD_append _ _ _ _ hj, show f.length - j = (f.length - 1 - j) + 1 by omega, Nat.pow_succ]
      ring
    rw [bitsValue_append, List.length_append, List.length_singleton, Nat.add_sub_cancel, List.range_succ, List.map_append,
      List.sum_append, List.map_congr_left hdouble, List.sum_map_mul_left, ← ih]
    simp

/-- Settles O57: a field is its 32 bits in order, and writing and reading one are inverse. -/
theorem runLengthFieldFormat : Obligations.RunLengthFieldFormat := by
  unfold Obligations.RunLengthFieldFormat
  refine ⟨fun n => ⟨field32_length n, fun j hj => ?_⟩, fun f hf => ⟨?_, ?_⟩, value32_field32, field32_value32⟩
  · rw [field32, List.getElem?_map, List.getElem?_range hj, Option.map_some]
  · rw [value32, bitsValue_eq_sum, hf]
  · rw [value32, ← hf]
    exact bitsValue_lt f

/-! ### Element layouts as sums of their fields (R106, R108, R109) -/

/-- The value of two fields side by side. -/
theorem toNat_append_eq {m n : Nat} (x : BitVec m) (y : BitVec n) : (x ++ y).toNat = 2 ^ n * x.toNat + y.toNat := by
  rw [BitVec.toNat_append, Nat.shiftLeft_eq, Nat.mul_comm, Nat.two_pow_add_eq_or_of_lt y.isLt]

theorem mkPair_toNat (v : Symbol) {n : Nat} (h : n < 2 ^ 32) : (mkPair v n).toNat = v.toNat * 2 ^ 32 + n := by
  have hpair : (mkPair v n).toNat = 2 ^ 32 * v.toNat + (BitVec.ofNat 32 n).toNat := toNat_append_eq v (BitVec.ofNat 32 n)
  rw [hpair, BitVec.toNat_ofNat, Nat.mod_eq_of_lt h, Nat.mul_comm]

theorem nodeEntry_toNat (valid leaf : Bool) (sym : Symbol) {freq left right : Nat} (hf : freq < 2 ^ 32) (hl : left < 512)
    (hr : right < 512) : (nodeEntry valid leaf sym freq left right).toNat =
      valid.toNat + 2 * leaf.toNat + 2 ^ 2 * sym.toNat + 2 ^ 10 * freq + 2 ^ 42 * left + 2 ^ 51 * right := by
  have hentry : (nodeEntry valid leaf sym freq left right).toNat = (BitVec.ofNat 9 right ++ BitVec.ofNat 9 left ++
      BitVec.ofNat 32 freq ++ sym ++ BitVec.ofBool leaf ++ BitVec.ofBool valid).toNat := rfl
  simp only [hentry, toNat_append_eq, BitVec.toNat_ofNat, BitVec.toNat_ofBool, Nat.mod_eq_of_lt hf,
    Nat.mod_eq_of_lt (show left < 2 ^ 9 from hl), Nat.mod_eq_of_lt (show right < 2 ^ 9 from hr)]
  omega

/-- Bit `j` of a code stands at bit `262 - j` of its entry. -/
theorem codeEntry_code {code : List Bool} (h : code.length ≤ 255) {j : Nat} (hj : j < code.length) :
    (codeEntry code).getLsbD (262 - j) = code[j] := by
  have hget : (entryCode (codeEntry code))[j]? = some code[j] := by rw [entryCode_codeEntry code h, List.getElem?_eq_getElem hj]
  rw [entryCode, entryCodeLen_codeEntry code h, List.getElem?_map, List.getElem?_range hj] at hget
  exact Option.some.inj hget

/-- Between `LEN` and the code an entry holds zeros. -/
theorem codeEntry_padding {code : List Bool} (h : code.length ≤ 255) {j : Nat} (h8 : 8 ≤ j) (hj : j < 263 - code.length) :
    (codeEntry code).getLsbD j = false := by
  have hlen : code.length < 2 ^ j := (show code.length < 2 ^ 8 by omega).trans_le (Nat.pow_le_pow_right (by omega) h8)
  have hlow : code.length < 2 ^ (263 - code.length) := hlen.trans (Nat.pow_lt_pow_right (by omega) hj)
  rw [codeEntry, BitVec.getLsbD_ofNat, Nat.add_comm, Nat.mul_comm, Nat.testBit_two_pow_mul_add _ hlow, if_pos hj,
    Nat.testBit_lt_two_pow hlen, Bool.and_false]

/-- Settles O58: each layout as the sum of its fields, and each field read back. -/
theorem elementFormats : Obligations.ElementFormats := by
  unfold Obligations.ElementFormats
  refine ⟨fun v n h => ⟨mkPair_toNat v h, pairValue_mkPair v n, pairCount_mkPair v n h⟩, fun valid leaf sym freq left right hf hl hr =>
    ⟨nodeEntry_toNat valid leaf sym hf hl hr, entryValid_nodeEntry .., entryLeaf_nodeEntry .., entrySym_nodeEntry ..,
      entryFreq_nodeEntry _ _ _ _ _ _ hf, entryLeft_nodeEntry _ _ _ _ _ _ hl, entryRight_nodeEntry _ _ _ _ _ _ hr⟩,
    fun code h => ⟨entryCodeLen_codeEntry code h, entryCode_codeEntry code h, fun j hj => codeEntry_code h hj,
      fun j h8 hj => codeEntry_padding h h8 hj⟩⟩

/-! ### HDE.DEC on a table that is well formed and written (R230, R231) -/

/-- With its operands `HDE.DEC` answers: what it decodes is no longer than its bits, which the capacity admits. -/
theorem hdeDecOp_answers {s : State} {bits : List Bool} {tree : Option HTree} (h : DecoderOperands s bits tree) :
    ∃ e, hdeDecOp s.cap s.hde = .ok e := by
  rw [hdeDecOp_eq h]
  cases hd : decodeBits tree bits with
  | none => exact ⟨_, rfl⟩
  | some out => exact ⟨_, deliver_ok.2 ⟨fitsCap_mono (decodeBits_length _ _ _ hd) h.stream.capacity, rfl⟩⟩

/-- Settles O59: the walk over a table that is well formed and written gives the tree its entries hold. -/
theorem wellFormedTablesAreRead : Obligations.WellFormedTablesAreRead := by
  unfold Obligations.WellFormedTablesAreRead
  intro s bits hbits hidle hwritten hroot hcap hshape htable
  have hne : s.hde.ops.root.value.toNat ≠ Config.maxNodes := Nat.ne_of_lt hroot
  rcases treeOf_cases s.hde.ops.treeIn _ hne with ⟨-, -, tree, htree, hholds⟩ | ⟨-, hno, -⟩ | ⟨hno, -⟩
  · have hops : DecoderOperands s bits (some tree) := ⟨hbits, ⟨hwritten, hroot.trans (by decide)⟩, hcap, htree⟩
    obtain ⟨e, he⟩ := hdeDecOp_answers hops
    exact ⟨tree, _, hholds, hops, exec_hdeDec_next.2 ⟨_, runOn_idle hidle he, rfl⟩⟩
  · exact absurd htable hno
  · exact absurd hshape hno

end Sys2Proof.Machine

namespace Sys2Proof.Machine

/-! ### RLD.DECB (R175 to R177) -/

/-- A plane sequence is whole 32-bit fields that sum to `n` (R105, R175). -/
def PlaneFields (n : Nat) (e : List Bool) (fields : List Nat) : Prop :=
  e = fieldBits fields ∧ (∀ m ∈ fields, m < 2 ^ 32) ∧ fields.sum = n

/-- Whole fields with the right sum decode to the bits they describe. -/
theorem PlaneFields.decodePlane {n : Nat} {e : List Bool} {fields : List Nat} (h : PlaneFields n e fields) :
    decodePlane n e = some (alternate false fields) := by
  obtain ⟨rfl, hlt, hsum⟩ := h
  have hvalues : fieldValues ((fieldBits fields).length / 32) (fieldBits fields) = fields := by
    rw [fieldBits_length, Nat.mul_div_cancel_left _ (by omega), fieldValues_fieldBits fields hlt]
  rw [decodePlane_eq, hvalues, if_pos ⟨by rw [fieldBits_length]; omega, hsum⟩]

/-- A plane that decodes is whole fields with the right sum. -/
theorem exists_planeFields {n : Nat} {e bits : List Bool} (h : decodePlane n e = some bits) : ∃ fields, PlaneFields n e fields := by
  rw [decodePlane_eq] at h
  split_ifs at h with hd
  obtain ⟨hmod, hsum⟩ := hd
  exact ⟨_, (fieldBits_fieldValues _ e (by omega)).symm, fieldValues_lt _ e, hsum⟩

/-- Dimensions of at least 1 pass the check of R170. -/
theorem badDimensions_eq_false {w h : BitVec 64} (hw : 1 ≤ w.toInt) (hh : 1 ≤ h.toInt) : badDimensions w h = false := by
  simp only [badDimensions, Bool.or_eq_false_iff, decide_eq_false_iff_not]
  omega

/-- `RLD.DECB` with dimensions that are admitted: the planes decide. -/
theorem rldDecbOp_admitted {s : State} {planes : Vector (List Bool) 8} {w h : BitVec 64} (ho : PlaneOperands s planes w h)
    (hw : 1 ≤ w.toInt) (hh : 1 ≤ h.toInt) (hmax : w.toNat * h.toNat ≤ Config.maxIn)
    (hcap : fitsCap s.cap (w.toNat * h.toNat) = true) :
    (rldDecbOp s.cap s.rld = .ok (.raises .malformedStream) ∧
      ∃ p : Fin 8, decodePlane (w.toNat * h.toNat) planes[p] = none) ∨
    ∃ out, rldDecbOp s.cap s.rld = .ok (.results { outLen := counter out.length, symOut := out }) ∧
      out.length = w.toNat * h.toNat ∧
      ∀ p : Fin 8, decodePlane (w.toNat * h.toNat) planes[p] = some (bitPlane p.val out) := by
  rw [rldDecbOp_eq ho, badDimensions_eq_false hw hh, if_neg (by decide), if_neg (Nat.not_lt.2 hmax)]
  rcases decodePlanes_spec (w.toNat * h.toNat) planes.toList (by simp) with ⟨hnone, e, he, hbad⟩ | ⟨out, hsome, hlen, hplanes⟩
  · obtain ⟨k, hk, rfl⟩ := List.getElem_of_mem he
    rw [hnone]
    exact .inl ⟨rfl, ⟨k, by simpa using hk⟩, by simpa using hbad⟩
  · rw [hsome]
    exact .inr ⟨out, deliver_ok.2 ⟨by rw [hlen]; exact hcap, rfl⟩, hlen, fun p => by simpa using hplanes p.val (by simp)⟩

/-- Settles O23: a plane decodes exactly when it is whole fields with the right sum, and then to the bits they describe. -/
theorem rldDecbReplaysPlanes : Obligations.RldDecbReplaysPlanes := by
  unfold Obligations.RldDecbReplaysPlanes
  intro s planes w h ho hidle hw hh hmax hcap
  rcases rldDecbOp_admitted ho hw hh hmax hcap with ⟨hop, p, hbad⟩ | ⟨out, hop, hlen, hplanes⟩
  · refine ⟨_, exec_rldDecb_next.2 ⟨_, runOn_idle hidle hop, rfl⟩, ⟨rfl, rfl⟩, fun fields hfields => ?_, fun _ => ⟨rfl, rfl⟩⟩
    have hgood := PlaneFields.decodePlane (hfields p)
    cases hbad.symm.trans hgood
  · refine ⟨_, exec_rldDecb_next.2 ⟨_, runOn_idle hidle hop, rfl⟩, ⟨rfl, rfl⟩, fun fields hfields => ?_, fun hno => ?_⟩
    · refine ⟨⟨rfl, rfl⟩, hlen, congrArg (BitVec.ofNat 64) hlen, fun p => ?_⟩
      have hbits : bitPlane p.val out = alternate false (fields p) :=
        Option.some.inj ((hplanes p).symm.trans (PlaneFields.decodePlane (hfields p)))
      show PlaneRuns (fields p) (bitPlane p.val out)
      rw [hbits]
      exact alternate_planeRuns _
    · choose fields hfields using fun p : Fin 8 => exists_planeFields (hplanes p)
      exact absurd ⟨fields, hfields⟩ hno

/-! ### HUF.ENCODE (R222, R224) -/

/-- The state between the halves: unit 3 has built its tables for `xs`, and the host has carried stream and code table to unit 4. -/
def betweenHalves (s : State) (xs : List Symbol) : State :=
  carryToEncoder { s with htb := completeUnit .atRest (htbResults s.htb.ctl.draws xs) s.htb }

section
variable {s : State} {xs : List Symbol}

/-- The first half answers, and what is left is the second half. -/
theorem exec_hufEncode_built (h : StreamOperand s.cap Config.maxIn s.htb.ops.inLen s.htb.ops.symIn xs)
    (hidle : s.htb.ctl.state = .idle) (hcap : fitsCap s.cap Config.maxNodes = true) :
    exec .hufEncode s = exec .henEnc (betweenHalves s xs) := by
  have hbuild : execHtbBuild s = _ := exec_htbBuild_next.2 ⟨_, runOn_idle hidle (htbBuildOp_ok.2 ⟨xs, h, hcap, rfl⟩), rfl⟩
  show execHufEncode s = execHenEnc (betweenHalves s xs)
  rw [execHufEncode, hbuild]
  rfl

/-- The first half is refused with a capacity that its tables exceed, and so is the whole. -/
theorem exec_hufEncode_beyond (h : StreamOperand s.cap Config.maxIn s.htb.ops.inLen s.htb.ops.symIn xs)
    (hidle : s.htb.ctl.state = .idle) (hcap : fitsCap s.cap Config.maxNodes = false) :
    exec .hufEncode s = .refused .beyondCapacity := by
  have hbuild : execHtbBuild s = .refused .beyondCapacity :=
    answer_eq_refused.2 (Except.map_eq_error.2 (runOn_refused hidle (htbBuildOp_beyond h hcap)))
  show execHufEncode s = _
  rw [execHufEncode, hbuild]

/-- The second half finds its operands: the stream of unit 3 and the code table it wrote (R82, R224). -/
theorem betweenHalves_operands (h : StreamOperand s.cap Config.maxIn s.htb.ops.inLen s.htb.ops.symIn xs)
    (hcap : fitsCap s.cap Config.maxNodes = true) :
    EncoderOperands (betweenHalves s xs) xs (codeTable (codesOf ((buildTree xs).1.map QNode.tree))) := by
  have hread : bufRead s.htb.ops.symIn 0 s.htb.ops.inLen.value.toNat = some xs :=
    (bufRead_zero_eq_some ..).2 ⟨h.counted.symm, h.stored⟩
  have hstream : (betweenHalves s xs).hen.ops.symIn = bufWriteList s.hen.ops.symIn 0 xs := by
    simp only [betweenHalves, carryToEncoder, completeUnit_ops, hread, Option.getD_some]
  have htable : (betweenHalves s xs).hen.ops.ctabIn =
      bufWriteList s.hen.ops.ctabIn 0 (codeTable (codesOf ((buildTree xs).1.map QNode.tree))) := by
    simp only [betweenHalves, carryToEncoder, completeUnit_res, htbResults]
  refine ⟨⟨rfl, h.counted, h.admitted, h.capacity, ?_⟩, fitsCap_mono (by decide) hcap, codeTable_length _, ?_⟩
  · rw [hstream]
    exact Stored_bufWriteList _ _
  · rw [htable]
    exact Stored_bufWriteList _ _

/-- What `HEN.ENC` does with a stream that its table encodes (R222, R223). -/
theorem henEncOp_encoded {tab : List CodeElem} {bits : List Bool} (h : EncoderOperands s xs tab)
    (hbits : encodeSymbols tab xs = some bits) :
    henEncOp s.cap s.hen = deliver (fitsCap s.cap bits.length)
      { outLen := counter bits.length, ratioNum := counter (8 * xs.length), ratioDen := counter bits.length
        elapsed := Config.elapsed 4 s.hen.ctl.draws, bitOut := bits } := by
  rw [henEncOp_eq h, hbits]

/-- `ROOT` and the tree table that `HTB.BUILD` leaves read back as the tree it built (R108, R200). -/
theorem treeOf_htbResults (draw : Nat) (hlen : xs.length < 2 ^ 32) (tbl : Buf NodeElem)
    (h : Stored tbl (htbResults draw xs).treeOut) :
    treeOf tbl (htbResults draw xs).root.toNat = .ok ((buildTree xs).1.map QNode.tree) := by
  have hroot : (htbResults draw xs).root.toNat = rootIndex (buildTree xs).1 :=
    counter_toNat (by have := rootIndex_le xs hlen; omega)
  simp only [htbResults] at h
  rw [hroot]
  exact treeOf_treeTable draw xs hlen tbl h

end

/-- Settles O32: the table that `HTB.BUILD` writes codes every symbol of the stream it was built from. -/
theorem hufEncodeIsBothHalves : Obligations.HufEncodeIsBothHalves := by
  unfold Obligations.HufEncodeIsBothHalves
  intro s xs hstream htb hhen
  obtain ⟨code, hcode, hbits⟩ := encodeSymbols_buildTree xs
  obtain ⟨hnodup, -⟩ := (buildTree_admitted xs).leaves
  refine ⟨(buildTree xs).1, code, buildTree_det xs, fun x hx => (codeFor_eq_some hnodup).2 (hcode x hx), ?_⟩
  cases hcap : fitsCap s.cap Config.maxNodes with
  | false => exact ⟨fun _ => exec_hufEncode_beyond hstream htb hcap, nofun⟩
  | true =>
    have ho := betweenHalves_operands hstream hcap
    have hop := henEncOp_encoded ho hbits
    rw [exec_hufEncode_built hstream htb hcap]
    refine ⟨fun hlong => ?_, fun _ hfits => ?_⟩
    · have hrefused := hop.trans (if_neg (ne_true_of_eq_false (hlong.resolve_left nofun)))
      exact answer_eq_refused.2 (Except.map_eq_error.2 (runOn_refused hhen hrefused))
    · have hlen : xs.length < 2 ^ 32 := Nat.lt_of_le_of_lt hstream.admitted (by decide)
      have hresults := hop.trans (deliver_ok.2 ⟨hfits, rfl⟩)
      exact ⟨_, exec_henEnc_next.2 ⟨_, runOn_idle hhen hresults, rfl⟩, rfl, rfl, ⟨rfl, rfl⟩, ⟨rfl, rfl⟩,
        fun tbl htbl => treeOf_htbResults _ hlen tbl htbl, rfl, rfl, rfl, rfl,
        ⟨ho.stream, ho.capacity, ho.entries, ho.table⟩⟩

end Sys2Proof.Machine

namespace Sys2Proof.Machine

/-! ### Runs of several steps (R112) -/

/-- A run of at least one step that answers began with a step that answers. -/
theorem run_succ_next {k : Nat} {s t : State} (h : Host.Core.run Sys2Proof.core (k + 1) s = .next t) :
    ∃ s1, step s = .next s1 ∧ Host.Core.run Sys2Proof.core k s1 = .next t := by
  cases hs : step s with
  | next s1 => exact ⟨s1, rfl, (run_succ k hs).symm.trans h⟩
  | fault f => exact nomatch f
  | refused r => simp [Host.Core.run, Sys2Proof.core, hs] at h

/-- A run goes on from where its first part ended. -/
theorem run_add {m n : Nat} {s t : State} (h : Host.Core.run Sys2Proof.core m s = .next t) :
    Host.Core.run Sys2Proof.core (m + n) s = Host.Core.run Sys2Proof.core n t := by
  induction m generalizing s with
  | zero =>
    cases h
    rw [Nat.zero_add]
  | succ m ih =>
    obtain ⟨s1, hstep, hrun⟩ := run_succ_next h
    rw [Nat.add_right_comm, run_succ _ hstep, ih hrun]

/-- A run that answers passes through a state at each of its steps. -/
theorem run_add_next {m n : Nat} {s t : State} (h : Host.Core.run Sys2Proof.core (m + n) s = .next t) :
    ∃ s1, Host.Core.run Sys2Proof.core m s = .next s1 ∧ Host.Core.run Sys2Proof.core n s1 = .next t := by
  induction m generalizing s with
  | zero => exact ⟨s, rfl, by rwa [Nat.zero_add] at h⟩
  | succ m ih =>
    rw [Nat.add_right_comm] at h
    obtain ⟨s1, hstep, hrun⟩ := run_succ_next h
    obtain ⟨s2, hfirst, hrest⟩ := ih hrun
    exact ⟨s2, (run_succ m hstep).trans hfirst, hrest⟩

/-! ### Only the operands of one unit changed (R82, R317) -/

namespace OnlyOperands
variable {u : UnitId} {s t w : State}

theorem refl (u : UnitId) (s : State) : OnlyOperands u s s := by cases u <;> rfl

theorem trans (h : OnlyOperands u s t) (h' : OnlyOperands u t w) : OnlyOperands u s w := by
  cases u <;> (unfold OnlyOperands at h h' ⊢; rw [h', h])

theorem frame (h : OnlyOperands u s t) : t.cap = s.cap ∧ t.pending = s.pending ∧ t.reads = s.reads ∧ t.seen = s.seen := by
  cases u <;> rw [h] <;> exact ⟨rfl, rfl, rfl, rfl⟩

theorem control_eq (h : OnlyOperands u s t) (v : UnitId) : control t v = control s v := by
  cases u <;> rw [h] <;> cases v <;> rfl

theorem sameUnit_of_ne (h : OnlyOperands u s t) {v : UnitId} (hne : v ≠ u) : SameUnit v s t := by
  cases u <;> rw [h] <;> cases v <;> simp [SameUnit] at hne ⊢

end OnlyOperands

/-- A unit's place in the state, with what replacing its operands alone does (R82). -/
structure OperandLens (u : UnitId) (O R W : Type) extends UnitLens u O R W where
  get_queue : ∀ s q, get { s with pending := q } = get s := by intros; rfl
  onlyOperands_put : ∀ s o, OnlyOperands u s (put s { get s with ops := o }) := by intros; rfl

namespace OperandLens

/-! The eight units (R50). -/

def rle : OperandLens .rle RleOps RleRes RleWork := { UnitLens.rle with }
def rld : OperandLens .rld RldOps SymRes RldWork := { UnitLens.rld with }
def bre : OperandLens .bre BreOps BreRes NoWork := { UnitLens.bre with }
def htb : OperandLens .htb HtbOps HtbRes HtbWork := { UnitLens.htb with }
def hen : OperandLens .hen HenOps HenRes HenWork := { UnitLens.hen with }
def hde : OperandLens .hde HdeOps SymRes HdeWork := { UnitLens.hde with }
def lze : OperandLens .lze LzeOps LzeRes LzeWork := { UnitLens.lze with }
def lzd : OperandLens .lzd LzdOps SymRes LzdWork := { UnitLens.lzd with }

end OperandLens

/-! ### Events that write operands -/

section
variable {u : UnitId} {O R W : Type}

/-- Without a capacity and outside `BUSY`, event `e` does `f` to the operands of the unit and nothing else. -/
def WritesOps (l : OperandLens u O R W) (e : Event) (f : O → O) : Prop :=
  ∀ again s, s.cap = none → isBusy s u = false →
    runEvent e again s = .next (l.put s { l.get s with ops := f (l.get s).ops })

/-- The same of a list of events, taken off the queue one by one. -/
def RunsOps (l : OperandLens u O R W) (es : List Event) (g : O → O) : Prop :=
  ∀ s rest, s.cap = none → isBusy s u = false → s.pending = es ++ rest →
    ∃ t, Host.Core.run Sys2Proof.core es.length s = .next t ∧ OnlyOperands u { s with pending := rest } t ∧
      (l.get t).ops = g (l.get s).ops

theorem isBusy_of_control {s t : State} {u : UnitId} (h : control t u = control s u) : isBusy t u = isBusy s u := by
  rw [isBusy, isBusy, h]

theorem control_queue (s : State) (q : List Event) (u : UnitId) : control { s with pending := q } u = control s u := by
  cases u <;> rfl

variable {l : OperandLens u O R W}

theorem RunsOps.nil : RunsOps l [] id := by
  intro s rest _ _ hq
  have hs : { s with pending := rest } = s := by rw [← show s.pending = rest from hq]
  exact ⟨s, rfl, by rw [hs]; exact .refl u s, rfl⟩

theorem RunsOps.single {e : Event} {f : O → O} (h : WritesOps l e f) : RunsOps l [e] f := by
  intro s rest hcap hbusy hq
  have hstep : step s = _ := (step_event hq).trans
    (h s { s with pending := rest } hcap ((isBusy_of_control (control_queue s rest u)).trans hbusy))
  exact ⟨_, run_succ 0 hstep, l.onlyOperands_put _ _, by rw [l.get_put, l.get_queue]⟩

theorem RunsOps.append {es es' : List Event} {f g : O → O} (h : RunsOps l es f) (h' : RunsOps l es' g) :
    RunsOps l (es ++ es') (g ∘ f) := by
  intro s rest hcap hbusy hq
  obtain ⟨t, hrun, honly, hops⟩ := h s (es' ++ rest) hcap hbusy (by rw [hq, List.append_assoc])
  obtain ⟨htcap, htq, -, -⟩ := honly.frame
  have htbusy : isBusy t u = isBusy s u := isBusy_of_control ((honly.control_eq u).trans (control_queue s _ u))
  obtain ⟨w, hrun', honly', hops'⟩ := h' t rest (htcap.trans hcap) (htbusy.trans hbusy) htq
  refine ⟨w, ?_, OnlyOperands.trans ?_ honly', by rw [hops', hops]; rfl⟩
  · rw [List.length_append, run_add hrun, hrun']
  · cases u <;> rw [honly] <;> rfl

/-- Several groups of events, one after the other. -/
theorem RunsOps.flatMap {ι : Type} {es : ι → List Event} {g : ι → O → O} (h : ∀ i, RunsOps l (es i) (g i)) (is : List ι) :
    RunsOps l (is.flatMap es) fun o => is.foldl (fun o i => g i o) o := by
  induction is with
  | nil => exact .nil
  | cons i is ih => exact (h i).append ih

/-- A host write to an operand register. -/
theorem writesOps_reg {r : Nat} {v : BitVec 64} {f : O → O} (hr : r < 32) (h0 : r ≠ 0)
    (h : ∀ s, writeReg s u r v = (writeOperand (l.get s) f).map (l.put s)) : WritesOps l (regEvent u r v) f := by
  intro again s _ hbusy
  have hwrite := writeReg_not_busy l.toUnitLens f (not_busy_of_isBusy hbusy) (h s)
  exact (hostWrite_reg s u r v hr h0).trans (congrArg answer hwrite)

/-- A host write to an element of an "in" buffer. -/
theorem writesOps_element {p : Place} {v : HostValue} {i : Nat} {f : O → O}
    (h : ∀ s, hostWrite p v s = answer ((writeElement s.cap (l.get s) i f).map (l.put s))) : WritesOps l (.write p v) f := by
  intro again s hcap hbusy
  exact (h s).trans (writeElement_not_busy l.toUnitLens f hbusy (by rw [hcap]; rfl))

/-- A host write to an entry of a table of `n` entries. -/
theorem writesOps_entry {p : Place} {v : HostValue} {i n : Nat} {f : O → O} (hi : i < n)
    (h : ∀ s, hostWrite p v s = answer ((writeEntry s.cap n (l.get s) i f).map (l.put s))) : WritesOps l (.write p v) f :=
  writesOps_element (i := i) fun s => by rw [h s, writeEntry, if_pos hi]

end

/-! ### Sequences written to "in" buffers -/

/-- An "in" buffer's place in the operands of its unit (R71). -/
structure BufferLens (O α : Type) where
  get : O → Buf α
  put : O → Buf α → O
  get_put : ∀ o b, get (put o b) = b := by intros; rfl
  put_put : ∀ o b c, put (put o b) c = put o c := by intros; rfl
  put_get : ∀ o, put o (get o) = o := by intros; rfl

namespace BufferLens

/-! The eleven "in" buffers (R51, R71); unit 1 has one for each plane. -/

def rleSym : BufferLens RleOps Symbol := { get := RleOps.symIn, put := fun o b => { o with symIn := b } }
def rldPair : BufferLens RldOps PairElem := { get := RldOps.pairIn, put := fun o b => { o with pairIn := b } }
def rldPlane (p : Fin 8) : BufferLens RldOps Bool :=
  { get := fun o => o.planeIn[p], put := fun o b => { o with planeIn := o.planeIn.set p b }
    get_put := fun o b => by simp
    put_put := fun o b c => by simp
    put_get := fun o => by simp }
def breBit : BufferLens BreOps Bool := { get := BreOps.bitIn, put := fun o b => { o with bitIn := b } }
def htbSym : BufferLens HtbOps Symbol := { get := HtbOps.symIn, put := fun o b => { o with symIn := b } }
def henSym : BufferLens HenOps Symbol := { get := HenOps.symIn, put := fun o b => { o with symIn := b } }
def henTab : BufferLens HenOps CodeElem := { get := HenOps.ctabIn, put := fun o b => { o with ctabIn := b } }
def hdeBit : BufferLens HdeOps Bool := { get := HdeOps.bitIn, put := fun o b => { o with bitIn := b } }
def hdeTree : BufferLens HdeOps NodeElem := { get := HdeOps.treeIn, put := fun o b => { o with treeIn := b } }
def lzeSym : BufferLens LzeOps Symbol := { get := LzeOps.symIn, put := fun o b => { o with symIn := b } }
def lzdLzc : BufferLens LzdOps (BitVec 64) := { get := LzdOps.lzcIn, put := fun o b => { o with lzcIn := b } }

end BufferLens

section
variable {u : UnitId} {O R W α : Type} {l : OperandLens u O R W}

/-- The element writes of a sequence, from index `k` on, write the sequence. -/
theorem runsOps_mapIdx (b : BufferLens O α) {place : Nat → Place} {value : α → HostValue} {n : Nat}
    (h : ∀ i, i < n → ∀ x, WritesOps l (.write (place i) (value x)) fun o => b.put o (bufSet (b.get o) i x)) (xs : List α) :
    ∀ k, k + xs.length ≤ n →
      RunsOps l (xs.mapIdx fun i x => .write (place (i + k)) (value x)) fun o => b.put o (bufWriteList (b.get o) k xs) := by
  induction xs with
  | nil =>
    intro k _
    have hid : (fun o => b.put o (bufWriteList (b.get o) k [])) = id := funext b.put_get
    rw [hid]
    exact .nil
  | cons x xs ih =>
    intro k hk
    rw [List.length_cons] at hk
    have hrest := (RunsOps.single (h k (by omega) x)).append (ih (k + 1) (by omega))
    rw [List.mapIdx_cons]
    simpa only [Function.comp_def, b.get_put, b.put_put, bufWriteList, Nat.zero_add, Nat.add_assoc, Nat.add_comm 1,
      List.singleton_append] using hrest

theorem runsOps_elements (b : BufferLens O α) (place : Nat → Place) (value : α → HostValue) (xs : List α)
    (h : ∀ i, i < xs.length → ∀ x, WritesOps l (.write (place i) (value x)) fun o => b.put o (bufSet (b.get o) i x)) :
    RunsOps l (elementEvents place value xs) fun o => b.put o (bufWriteList (b.get o) 0 xs) :=
  runsOps_mapIdx b h xs 0 (by omega)

end

end Sys2Proof.Machine

namespace Sys2Proof.Machine

/-! ### The operand writes of a script line (R51, R112) -/

/-- Without a capacity and outside `BUSY`, the events `es` change operands of unit `u` alone, so that `P` holds afterwards. -/
def OperandsRun (u : UnitId) (es : List Event) (P : State → Prop) : Prop :=
  ∀ s rest, s.cap = none → isBusy s u = false → s.pending = es ++ rest →
    ∃ t, Host.Core.run Sys2Proof.core es.length s = .next t ∧ OnlyOperands u { s with pending := rest } t ∧ P t

section
variable {u : UnitId} {O R W : Type} {l : OperandLens u O R W}

theorem RunsOps.cons {e : Event} {es : List Event} {f g : O → O} (h : WritesOps l e f) (h' : RunsOps l es g) :
    RunsOps l (e :: es) (g ∘ f) :=
  (RunsOps.single h).append h'

/-- What the events do to the operands decides what holds afterwards. -/
theorem RunsOps.operandsRun {es : List Event} {g : O → O} {P : State → Prop} (h : RunsOps l es g)
    (hP : ∀ t o, t.cap = none → (l.get t).ops = g o → P t) : OperandsRun u es P := by
  intro s rest hcap hbusy hq
  obtain ⟨t, hrun, honly, hops⟩ := h s rest hcap hbusy hq
  exact ⟨t, hrun, honly, hP t _ (honly.frame.1.trans hcap) hops⟩

end

/-- A sequence written from index 0 on, and counted, is an operand. -/
theorem streamOperand_written {α : Type} {bound : Nat} (b : Buf α) {xs : List α} (h : xs.length ≤ bound) (hb : bound < 2 ^ 64) :
    StreamOperand none bound (writtenReg (counter xs.length)) (bufWriteList b 0 xs) xs :=
  ⟨rfl, counter_toNat (Nat.lt_of_le_of_lt h hb), h, rfl, Stored_bufWriteList b xs⟩

theorem regHolds_written (v : BitVec 64) : RegHolds (writtenReg v) v := ⟨rfl, rfl⟩

theorem maxIn_lt : Config.maxIn < 2 ^ 64 := by decide

theorem operandsRun_brePut {b : List Bool} (n : BitVec 64) (h : b.length ≤ Config.maxIn) :
    OperandsRun .bre (operandEvents (.brePut b n)) (LineOperands · (.brePut b n)) := by
  have hbits := runsOps_elements (l := .bre) .breBit (.bit .bre) .bit b
    fun _ _ _ => writesOps_element fun _ => rfl
  have hlen : WritesOps .bre (regEvent .bre 4 (counter b.length)) fun o => { o with inLen := writtenReg (counter b.length) } :=
    writesOps_reg (by decide) (by decide) fun _ => rfl
  have harg : WritesOps .bre (regEvent .bre 9 n) fun o => { o with arg := writtenReg n } :=
    writesOps_reg (by decide) (by decide) fun _ => rfl
  refine (hbits.append (.cons hlen (.single harg))).operandsRun fun t o hcap hops => ?_
  replace hops : t.bre.ops = _ := hops
  rw [LineOperands, hcap, hops]
  exact ⟨streamOperand_written o.bitIn h maxIn_lt, regHolds_written n⟩

/-- `RLE.ENCS` and `RLE.ENCB` have the same operands. -/
theorem operandsRun_raster {r : List Symbol} (w ht : BitVec 64) (h : r.length ≤ Config.maxIn) :
    OperandsRun .rle (operandEvents (.rleEncs r w ht)) (RasterOperands · r w ht) := by
  have hsyms := runsOps_elements (l := .rle) .rleSym (.sym .rle) .sym r
    fun _ _ _ => writesOps_element fun _ => rfl
  have hwidth : WritesOps .rle (regEvent .rle 2 w) fun o => { o with width := writtenReg w } :=
    writesOps_reg (by decide) (by decide) fun _ => rfl
  have hheight : WritesOps .rle (regEvent .rle 3 ht) fun o => { o with height := writtenReg ht } :=
    writesOps_reg (by decide) (by decide) fun _ => rfl
  have hlen : WritesOps .rle (regEvent .rle 4 (counter r.length)) fun o => { o with inLen := writtenReg (counter r.length) } :=
    writesOps_reg (by decide) (by decide) fun _ => rfl
  refine (hsyms.append (.cons hwidth (.cons hheight (.single hlen)))).operandsRun fun t o hcap hops => ?_
  replace hops : t.rle.ops = _ := hops
  exact ⟨by rw [hops]; exact regHolds_written w, by rw [hops]; exact regHolds_written ht,
    by rw [hcap, hops]; exact streamOperand_written o.symIn h maxIn_lt⟩

/-! `RLD.DECS` and `RLD.DECB` share their dimension registers. -/

theorem writesOps_rldWidth (w : BitVec 64) : WritesOps .rld (regEvent .rld 2 w) fun o => { o with width := writtenReg w } :=
  writesOps_reg (by decide) (by decide) fun _ => rfl

theorem writesOps_rldHeight (h : BitVec 64) : WritesOps .rld (regEvent .rld 3 h) fun o => { o with height := writtenReg h } :=
  writesOps_reg (by decide) (by decide) fun _ => rfl

theorem operandsRun_rldDecs {runs : List PairElem} (w ht : BitVec 64) (h : runs.length ≤ Config.maxIn) :
    OperandsRun .rld (operandEvents (.rldDecs runs w ht)) (PairOperands · runs w ht) := by
  have hpairs := runsOps_elements (l := .rld) .rldPair .pair .pair runs
    fun _ _ _ => writesOps_element fun _ => rfl
  have hlen : WritesOps .rld (regEvent .rld 4 (counter runs.length)) fun o => { o with inLen := writtenReg (counter runs.length) } :=
    writesOps_reg (by decide) (by decide) fun _ => rfl
  refine (hpairs.append (.cons (writesOps_rldWidth w) (.cons (writesOps_rldHeight ht) (.single hlen)))).operandsRun
    fun t o hcap hops => ?_
  replace hops : t.rld.ops = _ := hops
  exact ⟨by rw [hops]; exact regHolds_written w, by rw [hops]; exact regHolds_written ht,
    by rw [hcap, hops]; exact streamOperand_written o.pairIn h maxIn_lt⟩

theorem operandsRun_htbBuild {xs : List Symbol} (h : xs.length ≤ Config.maxIn) :
    OperandsRun .htb (operandEvents (.htbBuild xs)) (LineOperands · (.htbBuild xs)) := by
  have hsyms := runsOps_elements (l := .htb) .htbSym (.sym .htb) .sym xs
    fun _ _ _ => writesOps_element fun _ => rfl
  have hlen : WritesOps .htb (regEvent .htb 4 (counter xs.length)) fun o => { o with inLen := writtenReg (counter xs.length) } :=
    writesOps_reg (by decide) (by decide) fun _ => rfl
  refine (hsyms.append (.single hlen)).operandsRun fun t o hcap hops => ?_
  replace hops : t.htb.ops = _ := hops
  rw [LineOperands, hcap, hops]
  exact streamOperand_written o.symIn h maxIn_lt

theorem operandsRun_henEnc {xs : List Symbol} {tab : List CodeElem} (h : xs.length ≤ Config.maxIn) (ht : tab.length = Config.numCodes) :
    OperandsRun .hen (operandEvents (.henEnc xs tab)) (EncoderOperands · xs tab) := by
  have hsyms := runsOps_elements (l := .hen) .henSym (.sym .hen) .sym xs
    fun _ _ _ => writesOps_element fun _ => rfl
  have htab := runsOps_elements (l := .hen) .henTab .ctab .code tab
    fun _ hi _ => writesOps_entry (ht ▸ hi) fun _ => rfl
  have hlen : WritesOps .hen (regEvent .hen 4 (counter xs.length)) fun o => { o with inLen := writtenReg (counter xs.length) } :=
    writesOps_reg (by decide) (by decide) fun _ => rfl
  refine ((hsyms.append htab).append (.single hlen)).operandsRun fun t o hcap hops => ?_
  replace hops : t.hen.ops = _ := hops
  exact ⟨by rw [hcap, hops]; exact streamOperand_written o.symIn h maxIn_lt, by rw [hcap]; rfl, ht,
    by rw [hops]; exact Stored_bufWriteList o.ctabIn tab⟩

theorem operandsRun_hdeDec {bits : List Bool} {tree : List NodeElem} (root : BitVec 64) (h : bits.length ≤ Config.maxIn)
    (ht : tree.length ≤ Config.maxNodes) :
    OperandsRun .hde (operandEvents (.hdeDec bits tree root)) (LineOperands · (.hdeDec bits tree root)) := by
  have hbits := runsOps_elements (l := .hde) .hdeBit (.bit .hde) .bit bits
    fun _ _ _ => writesOps_element fun _ => rfl
  have htree := runsOps_elements (l := .hde) .hdeTree .tree .node tree
    fun _ hi _ => writesOps_entry (hi.trans_le ht) fun _ => rfl
  have hlen : WritesOps .hde (regEvent .hde 4 (counter bits.length)) fun o => { o with inLen := writtenReg (counter bits.length) } :=
    writesOps_reg (by decide) (by decide) fun _ => rfl
  have hroot : WritesOps .hde (regEvent .hde 10 root) fun o => { o with root := writtenReg root } :=
    writesOps_reg (by decide) (by decide) fun _ => rfl
  refine ((hbits.append htree).append (.cons hlen (.single hroot))).operandsRun fun t o hcap hops => ?_
  replace hops : t.hde.ops = _ := hops
  rw [LineOperands, hcap, hops]
  exact ⟨streamOperand_written o.bitIn h maxIn_lt, Stored_bufWriteList o.treeIn tree, regHolds_written root⟩

theorem operandsRun_lzeEnc {b : List Symbol} (h : b.length ≤ Config.maxIn) :
    OperandsRun .lze (operandEvents (.lzeEnc b)) (LineOperands · (.lzeEnc b)) := by
  have hsyms := runsOps_elements (l := .lze) .lzeSym (.sym .lze) .sym b
    fun _ _ _ => writesOps_element fun _ => rfl
  have hlen : WritesOps .lze (regEvent .lze 4 (counter b.length)) fun o => { o with inLen := writtenReg (counter b.length) } :=
    writesOps_reg (by decide) (by decide) fun _ => rfl
  refine (hsyms.append (.single hlen)).operandsRun fun t o hcap hops => ?_
  replace hops : t.lze.ops = _ := hops
  rw [LineOperands, hcap, hops]
  exact streamOperand_written o.symIn h maxIn_lt

theorem operandsRun_lzdDec {codes : List (BitVec 64)} (h : codes.length ≤ Config.maxIn) :
    OperandsRun .lzd (operandEvents (.lzdDec codes)) (LineOperands · (.lzdDec codes)) := by
  have hcodes := runsOps_elements (l := .lzd) .lzdLzc .lzc .word codes
    fun _ _ _ => writesOps_element fun _ => rfl
  have hlen : WritesOps .lzd (regEvent .lzd 4 (counter codes.length)) fun o => { o with inLen := writtenReg (counter codes.length) } :=
    writesOps_reg (by decide) (by decide) fun _ => rfl
  refine (hcodes.append (.single hlen)).operandsRun fun t o hcap hops => ?_
  replace hops : t.lzd.ops = _ := hops
  rw [LineOperands, hcap, hops]
  exact streamOperand_written o.lzcIn h maxIn_lt

/-! ### The eight planes of `RLD.DECB` -/

/-- What the events of one plane do to the operands of unit 1: its sequence and its length register. -/
def writePlane (planes : Vector (List Bool) 8) (p : Fin 8) (o : RldOps) : RldOps :=
  { o with
    planeIn := o.planeIn.set p (bufWriteList o.planeIn[p] 0 planes[p])
    planeLen := o.planeLen.set p (writtenReg (counter planes[p].length)) }

/-- Plane `q` is in the operands: counted, and stored. -/
def PlaneWritten (planes : Vector (List Bool) 8) (q : Fin 8) (o : RldOps) : Prop :=
  o.planeLen[q] = writtenReg (counter planes[q].length) ∧ Stored o.planeIn[q] planes[q]

theorem planeWritten_writePlane (planes : Vector (List Bool) 8) (p : Fin 8) (o : RldOps) :
    PlaneWritten planes p (writePlane planes p o) := by
  constructor
  · simp [writePlane]
  · simpa [writePlane] using Stored_bufWriteList o.planeIn[p] planes[p]

theorem PlaneWritten.keep {planes : Vector (List Bool) 8} {q : Fin 8} {o : RldOps} (h : PlaneWritten planes q o) (p : Fin 8) :
    PlaneWritten planes q (writePlane planes p o) := by
  by_cases hpq : p = q
  · subst hpq
    exact planeWritten_writePlane planes p o
  · have hne : p.val ≠ q.val := fun hv => hpq (Fin.ext hv)
    simpa [PlaneWritten, writePlane, Vector.getElem_set_ne, hne] using h

/-- Planes written in turn are all there at the end. -/
theorem planeWritten_foldl (planes : Vector (List Bool) 8) (q : Fin 8) (ps : List (Fin 8)) : ∀ o,
    q ∈ ps ∨ PlaneWritten planes q o → PlaneWritten planes q (ps.foldl (fun o p => writePlane planes p o) o) := by
  induction ps with
  | nil => exact fun o h => h.resolve_left List.not_mem_nil
  | cons p ps ih =>
    intro o h
    refine ih _ ?_
    rcases h with h | h
    · rcases List.mem_cons.1 h with rfl | h
      · exact .inr (planeWritten_writePlane planes q o)
      · exact .inl h
    · exact .inr (h.keep p)

theorem operandsRun_rldDecb {planes : Vector (List Bool) 8} (w ht : BitVec 64)
    (h : ∀ p : Fin 8, planes[p].length ≤ Config.maxPlaneLen) :
    OperandsRun .rld (operandEvents (.rldDecb planes w ht)) (PlaneOperands · planes w ht) := by
  have hplane (p : Fin 8) : RunsOps .rld
      (elementEvents (.plane p) .bit planes[p] ++ [regEvent .rld (16 + p.val) (counter planes[p].length)]) (writePlane planes p) := by
    have hbits := runsOps_elements (l := .rld) (.rldPlane p) (.plane p) .bit planes[p]
      fun _ _ _ => writesOps_element fun _ => rfl
    have hlen : WritesOps .rld (regEvent .rld (16 + p.val) (counter planes[p].length)) fun o =>
        { o with planeLen := o.planeLen.set p (writtenReg (counter planes[p].length)) } :=
      writesOps_reg (by omega) (by omega) fun s => congrArg (Except.map _)
        ((rldWriteReg_planeLen s.rld _ (by omega)).trans (by simp [OperandLens.rld, UnitLens.rld]))
    exact hbits.append (.single hlen)
  refine ((RunsOps.flatMap hplane (List.finRange 8)).append
    (.cons (writesOps_rldWidth w) (.single (writesOps_rldHeight ht)))).operandsRun
    fun t o hcap hops => ?_
  replace hops : t.rld.ops = _ := hops
  refine ⟨by rw [hops]; exact regHolds_written w, by rw [hops]; exact regHolds_written ht, fun p => ?_⟩
  obtain ⟨hlen, hstored⟩ := planeWritten_foldl planes p (List.finRange 8) o (.inl (List.mem_finRange p))
  have hvalue : (writtenReg (counter planes[p].length)).value.toNat = planes[p].length :=
    counter_toNat (Nat.lt_of_le_of_lt (h p) (by decide))
  rw [hcap, hops]
  exact ⟨congrArg OpReg.written hlen, (congrArg (fun r : OpReg => r.value.toNat) hlen).trans hvalue, h p, rfl, hstored⟩

/-- The operand writes of every line put its operands into its unit. -/
theorem operandsRun_line {l : ScriptLine} (h : LineAdmitted l) :
    OperandsRun (instrUnit (lineInstr l)) (operandEvents l) (LineOperands · l) := by
  cases l with
  | brePut b n => exact operandsRun_brePut n h
  | rleEncs r w ht => exact operandsRun_raster w ht h
  | rleEncb r w ht => exact operandsRun_raster w ht h
  | rldDecs runs w ht => exact operandsRun_rldDecs w ht h
  | rldDecb planes w ht => exact operandsRun_rldDecb w ht h
  | htbBuild xs => exact operandsRun_htbBuild h
  | henEnc xs tab => exact operandsRun_henEnc h.1 h.2
  | hdeDec bits tree root => exact operandsRun_hdeDec root h.1 h.2
  | lzeEnc b => exact operandsRun_lzeEnc h
  | lzdDec codes => exact operandsRun_lzdDec h
  | hufEncode xs => exact operandsRun_htbBuild (xs := xs) h

/-- Settles O11: each event of the line is accepted and does its part to the operands, and nothing else changes. -/
theorem scriptLineWritesItsOperands : Obligations.ScriptLineWritesItsOperands := by
  unfold Obligations.ScriptLineWritesItsOperands
  intro s l rest hcap hadmitted hbusy hq
  obtain ⟨t, hrun, honly, hline⟩ := operandsRun_line hadmitted s rest hcap hbusy hq
  obtain ⟨htcap, htq, htreads, htseen⟩ := honly.frame
  refine ⟨t, hrun, hline, htq, htreads, htseen, htcap.trans hcap,
    (honly.control_eq _).trans (control_queue s rest _), fun v hne => ?_⟩
  have hsame := honly.sameUnit_of_ne hne
  cases v <;> exact hsame

end Sys2Proof.Machine

namespace Sys2Proof.Machine

/-! ### What an operand write of a line changes (R82, R317) -/

/-- The unit whose operands a write to a place changes. -/
def writtenUnit : Place → UnitId
  | .reg n => regUnit n
  | .sym u _ => u
  | .pair _ => .rld
  | .bit u _ => u
  | .plane _ _ => .rld
  | .tree _ => .hde
  | .ctab _ => .hen
  | .lzc _ => .lzd

section
variable {u : UnitId} {O R W : Type} {s t : State}

theorem onlyOperands_of_replaced (l : OperandLens u O R W) (hput : ∀ s, l.put s (l.get s) = s) {y : CodecUnit O R W}
    (h : OpsReplaced (l.get s) y) : OnlyOperands u s (l.put s y) := by
  rcases h with rfl | ⟨-, o, rfl⟩
  · rw [hput]
    exact .refl u s
  · exact l.onlyOperands_put s o

theorem onlyOperands_of_writeOperand (l : OperandLens u O R W) {f : O → O} {y : CodecUnit O R W}
    (h : writeOperand (l.get s) f = .ok y) : OnlyOperands u s (l.put s y) := by
  obtain ⟨-, rfl⟩ := writeOperand_ok.1 h
  exact l.onlyOperands_put s _

theorem onlyOperands_of_writeElement (l : OperandLens u O R W) {cap : Option Nat} {i : Nat} {f : O → O}
    (h : (writeElement cap (l.get s) i f).map (l.put s) = .ok t) : OnlyOperands u s t := by
  obtain ⟨y, hy, rfl⟩ := Except.map_eq_ok.1 h
  exact onlyOperands_of_writeOperand l (writeElement_ok.1 hy).2

theorem onlyOperands_of_writeEntry (l : OperandLens u O R W) {cap : Option Nat} {i n : Nat} {f : O → O}
    (h : (writeEntry cap n (l.get s) i f).map (l.put s) = .ok t) : OnlyOperands u s t := by
  obtain ⟨y, hy, rfl⟩ := Except.map_eq_ok.1 h
  exact onlyOperands_of_writeOperand l (writeEntry_ok.1 hy).2.2

end

theorem writeReg_onlyOperands {s t : State} {u : UnitId} {r : Nat} {v : BitVec 64} (h : writeReg s u r v = .ok t) :
    OnlyOperands u s t := by
  cases u <;> obtain ⟨y, hy, rfl⟩ := Except.map_eq_ok.1 h
  · exact onlyOperands_of_replaced .rle (fun _ => rfl) (rleWriteReg_ok hy).1
  · exact onlyOperands_of_replaced .rld (fun _ => rfl) (rldWriteReg_ok hy).1
  · exact onlyOperands_of_replaced .bre (fun _ => rfl) (breWriteReg_ok hy).1
  · exact onlyOperands_of_replaced .htb (fun _ => rfl) (htbWriteReg_ok hy).1
  · exact onlyOperands_of_replaced .hen (fun _ => rfl) (henWriteReg_ok hy).1
  · exact onlyOperands_of_replaced .hde (fun _ => rfl) (hdeWriteReg_ok hy).1
  · exact onlyOperands_of_replaced .lze (fun _ => rfl) (lzeWriteReg_ok hy).1
  · exact onlyOperands_of_replaced .lzd (fun _ => rfl) (lzdWriteReg_ok hy).1

/-- A write to a place changes operands of the place's unit and nothing else. -/
theorem writePlace_onlyOperands {s t : State} {p : Place} {v : HostValue} (h : writePlace s p v = .ok t) :
    OnlyOperands (writtenUnit p) s t := by
  unfold writePlace at h
  split at h
  · exact writeReg_onlyOperands h
  · split at h
    · exact onlyOperands_of_writeElement .rle h
    · exact onlyOperands_of_writeElement .htb h
    · exact onlyOperands_of_writeElement .hen h
    · exact onlyOperands_of_writeElement .lze h
    · cases h
  · exact onlyOperands_of_writeElement .rld h
  · split at h
    · exact onlyOperands_of_writeElement .bre h
    · exact onlyOperands_of_writeElement .hde h
    · cases h
  · exact onlyOperands_of_writeElement .rld h
  · exact onlyOperands_of_writeEntry .hde h
  · exact onlyOperands_of_writeEntry .hen h
  · exact onlyOperands_of_writeElement .lzd h
  · cases h

/-- An event that writes an operand of unit `u`. -/
def IsOperandWrite (u : UnitId) (e : Event) : Prop :=
  ∃ p v, e = .write p v ∧ writtenUnit p = u ∧ ∀ n, p = .reg n → regIndex n ≠ 0

theorem IsOperandWrite.onlyOperands {u : UnitId} {e : Event} (he : IsOperandWrite u e) {again s t : State}
    (h : runEvent e again s = .next t) : OnlyOperands u s t := by
  obtain ⟨p, v, rfl, rfl, hctrl⟩ := he
  rcases hostWrite_next (show hostWrite p v s = .next t from h) with ⟨n, _, hp, _, h0, _⟩ | ⟨hwrite, -⟩
  · exact absurd h0 (hctrl n hp)
  · exact writePlace_onlyOperands hwrite

theorem isOperandWrite_reg (u : UnitId) {r : Nat} (hr : r < 32) (h0 : r ≠ 0) (v : BitVec 64) : IsOperandWrite u (regEvent u r v) :=
  ⟨_, _, rfl, regUnit_regNumber u r, fun n hn => by cases hn; rwa [regIndex_regNumber u r hr]⟩

theorem isOperandWrite_element {α : Type} {u : UnitId} {place : Nat → Place} {value : α → HostValue} {xs : List α}
    (hu : ∀ i, writtenUnit (place i) = u) (hreg : ∀ i n, place i ≠ .reg n) : ∀ e ∈ elementEvents place value xs, IsOperandWrite u e := by
  intro e he
  obtain ⟨i, hi, rfl⟩ := List.mem_mapIdx.1 he
  exact ⟨_, _, rfl, hu i, fun n hn => absurd hn (hreg i n)⟩

/-- The operand writes of a line write operands of the line's unit. -/
theorem isOperandWrite_line (l : ScriptLine) : ∀ e ∈ operandEvents l, IsOperandWrite (instrUnit (lineInstr l)) e := by
  have hreg (u : UnitId) {r : Nat} (hr : r < 32 ∧ r ≠ 0) (v : BitVec 64) := isOperandWrite_reg u hr.1 hr.2 v
  cases l <;> simp only [operandEvents, List.forall_mem_append, List.forall_mem_cons, List.forall_mem_flatMap, List.not_mem_nil,
    false_imp_iff, implies_true, and_true]
  case brePut b n => exact ⟨isOperandWrite_element (fun _ => rfl) nofun, hreg .bre (by decide) _, hreg .bre (by decide) _⟩
  case rleEncs r w h =>
    exact ⟨isOperandWrite_element (fun _ => rfl) nofun, hreg .rle (by decide) _, hreg .rle (by decide) _, hreg .rle (by decide) _⟩
  case rleEncb r w h =>
    exact ⟨isOperandWrite_element (fun _ => rfl) nofun, hreg .rle (by decide) _, hreg .rle (by decide) _, hreg .rle (by decide) _⟩
  case rldDecs runs w h =>
    exact ⟨isOperandWrite_element (fun _ => rfl) nofun, hreg .rld (by decide) _, hreg .rld (by decide) _, hreg .rld (by decide) _⟩
  case rldDecb planes w h =>
    exact ⟨fun p _ => ⟨isOperandWrite_element (fun _ => rfl) nofun, hreg .rld (by omega) _⟩, hreg .rld (by decide) _,
      hreg .rld (by decide) _⟩
  case htbBuild xs => exact ⟨isOperandWrite_element (fun _ => rfl) nofun, hreg .htb (by decide) _⟩
  case henEnc xs tab =>
    exact ⟨⟨isOperandWrite_element (fun _ => rfl) nofun, isOperandWrite_element (fun _ => rfl) nofun⟩, hreg .hen (by decide) _⟩
  case hdeDec bits tree root =>
    exact ⟨⟨isOperandWrite_element (fun _ => rfl) nofun, isOperandWrite_element (fun _ => rfl) nofun⟩, hreg .hde (by decide) _,
      hreg .hde (by decide) _⟩
  case lzeEnc b => exact ⟨isOperandWrite_element (fun _ => rfl) nofun, hreg .lze (by decide) _⟩
  case lzdDec codes => exact ⟨isOperandWrite_element (fun _ => rfl) nofun, hreg .lzd (by decide) _⟩
  case hufEncode xs => exact ⟨isOperandWrite_element (fun _ => rfl) nofun, hreg .htb (by decide) _⟩

/-- Operand writes of unit `u` that run change operands of that unit and nothing else. -/
theorem run_operandWrites {u : UnitId} {es rest : List Event} (hes : ∀ e ∈ es, IsOperandWrite u e) : ∀ {s t : State},
    s.pending = es ++ rest → Host.Core.run Sys2Proof.core es.length s = .next t → OnlyOperands u { s with pending := rest } t := by
  induction es with
  | nil =>
    intro s t hq hrun
    cases hrun
    rw [show rest = s.pending from hq.symm]
    exact .refl u s
  | cons e es ih =>
    intro s t hq hrun
    obtain ⟨s1, hstep, hrun⟩ := run_succ_next hrun
    rw [step_event hq] at hstep
    have hfirst := (hes e (.head _)).onlyOperands hstep
    have hothers := ih (fun e he => hes e (.tail _ he)) hfirst.frame.2.1 hrun
    refine OnlyOperands.trans ?_ hothers
    cases u <;> rw [hfirst] <;> rfl

end Sys2Proof.Machine

namespace Sys2Proof.Machine

/-! ### Units that stay the same, along several steps (R77, R317) -/

theorem SameUnit.trans {u : UnitId} {s t w : State} (h : SameUnit u s t) (h' : SameUnit u t w) : SameUnit u s w := by
  cases u <;> exact Eq.trans h h'

theorem SameCore.sameUnit {s t : State} (h : SameCore s t) (u : UnitId) : SameUnit u s t := by
  cases u <;> simp only [SameUnit, h.rle, h.rld, h.bre, h.htb, h.hen, h.hde, h.lze, h.lzd]

theorem OnlyUnit.sameUnit_of_ne {u v : UnitId} {s t : State} (h : OnlyUnit u s t) (hne : v ≠ u) : SameUnit v s t := by
  cases u <;> rw [h.1] <;> cases v <;> simp [SameUnit] at hne ⊢

theorem OnlyUnit.frame {u : UnitId} {s t : State} (h : OnlyUnit u s t) :
    t.cap = s.cap ∧ t.pending = s.pending ∧ t.reads = s.reads ∧ t.seen = s.seen := by
  cases u <;> rw [h.1] <;> exact ⟨rfl, rfl, rfl, rfl⟩

theorem sameCore_queue (s : State) (q : List Event) : SameCore s { s with pending := q } :=
  ⟨rfl, rfl, rfl, rfl, rfl, rfl, rfl, rfl, rfl⟩

theorem SameOperands.trans {s t w : State} (h : SameOperands s t) (h' : SameOperands t w) : SameOperands s w :=
  ⟨h'.rle.trans h.rle, h'.rld.trans h.rld, h'.bre.trans h.bre, h'.htb.trans h.htb, h'.hen.trans h.hen, h'.hde.trans h.hde,
    h'.lze.trans h.lze, h'.lzd.trans h.lzd⟩

theorem SameOperands.operandAt {s t : State} (h : SameOperands s t) (u : UnitId) (r : Nat) : operandAt t u r = operandAt s u r := by
  cases u <;> simp only [Machine.operandAt, h.rle, h.rld, h.bre, h.htb, h.hen, h.hde, h.lze, h.lzd]

theorem SameOperands.inBuffers {s t : State} (h : SameOperands s t) (u : UnitId) : SameInBuffers u s t := by
  cases u <;> simp only [SameInBuffers, h.rle, h.rld, h.bre, h.htb, h.hen, h.hde, h.lze, h.lzd, and_self]

/-! ### The steps of a line behind its operand writes (R112) -/

/-- Only the pseudo-operation has no command word (R113). -/
theorem eq_hufEncode_of_encode {i : Instr} (h : encode i = none) : i = .hufEncode := by
  cases i with
  | hufEncode => rfl
  | _ => cases h

/-- The command event of an instruction runs it. -/
theorem step_commandEvent {s : State} {i : Instr} {rest : List Event} (h : s.pending = commandEvent i :: rest) :
    step s = exec i { s with pending := rest } := by
  cases hi : encode i with
  | some p =>
    obtain ⟨u, w⟩ := p
    have hq : s.pending = .write (.reg (regNumber u 0)) (.word w) :: rest := by
      rw [h, commandEvent, hi]
      rfl
    rw [step_ctrlWrite hq, writeCtrl_run ((decodeCtrl_run_iff_encode u w i).2 hi)]
  | none =>
    obtain rfl := eq_hufEncode_of_encode hi
    exact step_event h

/-- The `CLEAR` event of a line is the command event of a `CLEAR` (R310). -/
theorem clearEvent_eq (u : UnitId) : clearEvent u = commandEvent (.clear u 0) := rfl

/-- `CLEAR` of a unit that has ended its operation, one way or the other (R310). -/
theorem execClear_ended {u : UnitId} {s : State} (h : (control s u).state = .done ∨ (control s u).state = .fault) (b : BitVec 8) :
    ∃ t, exec (.clear u b) s = .next t ∧ (control t u).state = .idle ∧ (control t u).fault = .none := by
  cases u <;>
    exact ⟨_, answer_eq_next.2 (Except.map_eq_ok.2 ⟨_, clearUnit_ok.2 (.inr ⟨h, rfl⟩), rfl⟩), rfl, rfl⟩

/-- The last event of a line: the unit is in `IDLE` without a fault, its operands are kept, and nothing else changes. -/
theorem step_clear {s : State} {u : UnitId} {rest : List Event} (hq : s.pending = clearEvent u :: rest)
    (h : (control s u).state = .done ∨ (control s u).state = .fault) :
    ∃ t, step s = .next t ∧ (control t u).state = .idle ∧ (control t u).fault = .none ∧ OnlyUnit u { s with pending := rest } t := by
  obtain ⟨t, hexec, hidle, hnone⟩ := execClear_ended (s := { s with pending := rest }) (by rwa [control_queue]) 0
  exact ⟨t, (step_commandEvent hq).trans hexec, hidle, hnone, execClear_onlyUnit hexec⟩

section
variable {s : State} {i : Instr} {u : UnitId} {rest : List Event}

/-- `collect` of a unit that is in `FAULT`: one poll, no results, and the script ends after the `CLEAR` (R112). -/
theorem step_collect_fault (hq : s.pending = .collect i :: rest) (hu : polledUnits i = [u]) (h : (control s u).state = .fault) :
    step s = .next { pollStatus u { s with pending := rest } with pending := [clearEvent u] } := by
  have hctl : (control { s with pending := rest } u).state = .fault := by rw [control_queue, h]
  rw [step_event hq, runEvent, collectResults]
  simp only [hu, List.find?, isBusy, isFaulted, hctl, decide_true]
  rfl

/-- `collect` of a unit that is in `DONE`: one poll, then the results (R112). -/
theorem step_collect_done (hq : s.pending = .collect i :: rest) (hu : polledUnits i = [u]) (h : (control s u).state = .done) :
    step s = .next { pollStatus u { s with pending := rest } with
      reads := (pollStatus u { s with pending := rest }).reads ++ resultValues i (pollStatus u { s with pending := rest }) } := by
  have hctl : (control { s with pending := rest } u).state = .done := by rw [control_queue, h]
  rw [step_event hq, runEvent, collectResults]
  simp only [hu, List.find?, isBusy, isFaulted, hctl, reduceCtorEq, decide_false, List.all, isDone, decide_true, Bool.and_true,
    if_true]
  rfl

end

theorem pollStatus_reads (u : UnitId) (s : State) :
    (pollStatus u s).reads = s.reads ++ [.word (statusWord (control s u))] := rfl

/-! ### A line whose operation ends in `FAULT` (R112, R307, R310) -/

/-- The events of a line, with its operand writes in front. -/
theorem lineEvents_eq (l : ScriptLine) : ∃ tail, lineEvents l =
    operandEvents l ++ commandEvent (lineInstr l) :: .collect (lineInstr l) :: clearEvent (instrUnit (lineInstr l)) :: tail :=
  ⟨_, by rw [lineEvents, List.append_assoc]; rfl⟩

/-- The pseudo-operation leaves unit 3 in `DONE`: `HTB.BUILD` raises no fault (R224). -/
theorem exec_hufEncode_done {s t : State} (h : exec .hufEncode s = .next t) : t.htb.ctl.state = .done := by
  obtain ⟨s1, hbuild, hencode⟩ := exec_hufEncode_next.1 h
  obtain ⟨x, hx, rfl⟩ := exec_htbBuild_next.1 hbuild
  obtain ⟨y, -, rfl⟩ := exec_henEnc_next.1 hencode
  obtain ⟨-, e, he, rfl⟩ := runOn_ok.1 hx
  obtain ⟨xs, -, -, rfl⟩ := htbBuildOp_ok.1 he
  rfl

/-- A line polls its unit alone, but for the pseudo-operation. -/
theorem polledUnits_eq {i : Instr} (h : i ≠ .hufEncode) : polledUnits i = [instrUnit i] := by
  cases i with
  | hufEncode => exact absurd rfl h
  | _ => rfl

/-- An instruction that leaves its unit in `FAULT` is not the pseudo-operation. -/
theorem ne_hufEncode_of_faulted {i : Instr} {s b : State} {f : FaultCode} (h : exec i s = .next b)
    (hf : Faulted f (control b (instrUnit i))) : i ≠ .hufEncode := by
  rintro rfl
  exact absurd ((exec_hufEncode_done h).symm.trans hf.1) nofun

/-- From a unit in `FAULT` the script runs to its end in two steps: the host reads `STATUS`, and the `CLEAR` keeps the operands. -/
theorem run_faulted {b : State} {i : Instr} {u : UnitId} {rest : List Event} {f : FaultCode} (hq : b.pending = .collect i :: rest)
    (hu : polledUnits i = [u]) (hf : Faulted f (control b u)) :
    ∃ t, Host.Core.run Sys2Proof.core 2 b = .next t ∧
      t.reads = b.reads ++ [.word (BitVec.ofNat 64 (3 + 16 * (faultCode f).toNat))] ∧ t.pending = [] ∧
      (control t u).state = .idle ∧ (control t u).fault = .none ∧ SameOperands b t ∧ ∀ v, v ≠ u → SameUnit v b t := by
  obtain ⟨hstate, rfl⟩ := hf
  have hcollect := step_collect_fault hq hu hstate
  have hsame := (sameCore_queue b rest).trans (sameCore_pollStatus u { b with pending := rest })
  generalize hc : pollStatus u { b with pending := rest } = c at hcollect hsame
  have hreads : c.reads = b.reads ++ [.word (statusWord (control b u))] := by
    rw [← hc, pollStatus_reads, control_queue]
  obtain ⟨t, hclear, hidle, hnone, honly⟩ := step_clear (s := { c with pending := [clearEvent u] }) rfl
    (.inr (by rw [control_queue, hsame.control, hstate]))
  obtain ⟨-, htq, htreads, -⟩ := honly.frame
  have hcore := hsame.trans (sameCore_queue c [])
  refine ⟨t, (run_succ 1 hcollect).trans (run_succ 0 hclear), ?_, htq, hidle, hnone, hcore.sameOperands.trans honly.sameOperands,
    fun v hne => (hcore.sameUnit v).trans (honly.sameUnit_of_ne hne)⟩
  rw [htreads]
  show c.reads = _
  rw [hreads, statusWord_eq, hstate]
  rfl

/-- A line that leaves its unit in `FAULT` ends the script (R112). -/
theorem run_faultingLine {s b : State} {l : ScriptLine} {later : List Event} {f : FaultCode} (hq : s.pending = lineEvents l ++ later)
    (hrun : Host.Core.run Sys2Proof.core ((operandEvents l).length + 1) s = .next b)
    (hf : Faulted f (control b (instrUnit (lineInstr l)))) :
    ∃ t, Host.Core.run Sys2Proof.core ((operandEvents l).length + 3) s = .next t ∧
      t.reads = s.reads ++ [.word (BitVec.ofNat 64 (3 + 16 * (faultCode f).toNat))] ∧ t.pending = [] ∧
      (control t (instrUnit (lineInstr l))).state = .idle ∧ (control t (instrUnit (lineInstr l))).fault = .none ∧
      SameOperands b t ∧ ∀ v, v ≠ instrUnit (lineInstr l) → SameUnit v s t := by
  obtain ⟨tail, hline⟩ := lineEvents_eq l
  rw [hline, List.append_assoc] at hq
  obtain ⟨a, hoperands, hcommand⟩ := run_add_next hrun
  have honly := run_operandWrites (isOperandWrite_line l) hq hoperands
  obtain ⟨-, haq, hareads, -⟩ := honly.frame
  obtain ⟨b', hstep, hb⟩ := run_succ_next hcommand
  cases hb
  rw [step_commandEvent haq] at hstep
  have hne := ne_hufEncode_of_faulted hstep hf
  have hunit := operationsTouchOnlyTheirUnit _ _ _ hne hstep
  obtain ⟨-, hbq, hbreads, -⟩ := hunit.frame
  obtain ⟨t, hend, hreads, htq, hidle, hnone, hops, hsame⟩ := run_faulted hbq (polledUnits_eq hne) hf
  refine ⟨t, (run_add hrun).trans hend, ?_, htq, hidle, hnone, hops, fun v hv => ?_⟩
  · rw [hreads, hbreads]
    exact congrArg (· ++ _) hareads
  · exact ((sameCore_queue s _).sameUnit v).trans ((honly.sameUnit_of_ne hv).trans (((sameCore_queue a _).sameUnit v).trans
      ((hunit.sameUnit_of_ne hv).trans (hsame v hv))))

end Sys2Proof.Machine

namespace Sys2Proof.Machine

/-- `LZD.DEC` of no codes raises `EmptyStream` (R276). -/
theorem exec_lzdDec_empty {s : State} (hidle : s.lzd.ctl.state = .idle) (hlen : s.lzd.ops.inLen = writtenReg (counter 0)) :
    ∃ t, exec .lzdDec s = .next t ∧ Faulted .emptyStream (control t .lzd) := by
  have hcap : fitsCap s.cap 0 = true := by cases s.cap <;> rfl
  have hcodes : StreamOperand s.cap Config.maxIn s.lzd.ops.inLen s.lzd.ops.lzcIn [] := by
    rw [hlen]
    exact ⟨rfl, rfl, by decide, hcap, nofun⟩
  exact ⟨_, exec_lzdDec_next.2 ⟨_, runOn_idle hidle ((lzdDecOp_eq hcodes).trans rfl), rfl⟩, rfl, rfl⟩

/-- The operand write and the `START` of the line `LZD.DEC` of no codes leave unit 7 in `FAULT`. -/
theorem run_lzdDec_empty {s : State} {later : List Event} (hidle : s.lzd.ctl.state = .idle)
    (hq : s.pending = lineEvents (.lzdDec []) ++ later) :
    ∃ b, Host.Core.run Sys2Proof.core 2 s = .next b ∧ Faulted .emptyStream (control b .lzd) := by
  obtain ⟨rest, hq⟩ : ∃ rest, s.pending = regEvent .lzd 4 (counter 0) :: commandEvent .lzdDec :: rest := ⟨_, hq⟩
  have hfree (g : BitVec 4) : s.lzd.ctl.state ≠ .busy g := fun h => nomatch hidle.symm.trans h
  obtain ⟨a, hwrite, hset⟩ := writeReg_operand (s := { s with pending := commandEvent .lzdDec :: rest }) (u := .lzd) (r := 4)
    (counter 0) rfl hfree
  have hstep : step s = .next a :=
    (step_event hq).trans ((hostWrite_reg _ .lzd 4 (counter 0) (by decide) (by decide)).trans (congrArg answer hwrite))
  obtain ⟨-, haq, -, -⟩ := hset.onlyOperands.frame
  have haidle : a.lzd.ctl.state = .idle := (congrArg Control.state (hset.onlyOperands.control_eq .lzd)).trans hidle
  obtain ⟨b, hexec, hf⟩ := exec_lzdDec_empty (s := { a with pending := rest }) haidle (Option.some.inj hset.taken)
  exact ⟨b, (run_succ 1 hstep).trans (run_succ 0 ((step_commandEvent haq).trans hexec)), hf⟩

/-- Settles O13: operand writes and `START` keep the other units, and the two steps after the fault are the poll and the `CLEAR`. -/
theorem faultingLineEndsTheScript : Obligations.FaultingLineEndsTheScript := by
  unfold Obligations.FaultingLineEndsTheScript
  refine ⟨fun s b l later f hq hrun hf => ?_, fun s later hidle hq => ?_⟩
  · obtain ⟨t, hend, hreads, htq, htidle, hnone, hops, hsame⟩ := run_faultingLine hq hrun hf
    exact ⟨t, hend, hreads, htq, htidle, hnone, hops.operandAt _, hops.inBuffers _, hsame⟩
  · obtain ⟨b, hrun, hf⟩ := run_lzdDec_empty hidle hq
    obtain ⟨t, hend, hreads, htq, htidle, hnone, -, -⟩ := run_faultingLine (l := .lzdDec []) hq hrun hf
    exact ⟨t, hend, hreads, htq, htidle, hnone⟩

/-! ### The line `LZE.ENC` (R112, R252) -/

/-- The codes of `LZE.ENC` fit their 64-bit elements (R254). -/
theorem lzwEncode_toNat {b : List Symbol} (h : b.length ≤ Config.maxIn) :
    ((lzwEncode b).map (BitVec.ofNat 64)).map BitVec.toNat = lzwEncode b := by
  obtain ⟨strings, hstrings, -, -⟩ := lzwEncode_strings b
  have hlen := lzwEncode_length_le b
  rw [maxIn_eq] at h
  refine List.ext_getElem (by simp) fun j hj hj' => ?_
  have hcode : (lzwEncode b)[j] < Config.numSeed + j := by
    have hrange := hstrings.inRange j hj'
    split at hrange <;> omega
  rw [Config.numSeed] at hcode
  simp only [List.getElem_map, BitVec.toNat_ofNat]
  exact Nat.mod_eq_of_lt (by omega)

/-- `LZE.ENC` without a capacity: the codes and the counters of R257. -/
theorem exec_lzeEnc_results {s : State} {b : List Symbol} (hcap : s.cap = none)
    (hb : StreamOperand s.cap Config.maxIn s.lze.ops.inLen s.lze.ops.symIn b) (hidle : s.lze.ctl.state = .idle) :
    ∃ t, exec .lzeEnc s = .next t ∧ Done (control t .lze) ∧ t.lze.res.outLen = counter (lzwEncode b).length ∧
      t.lze.res.ratioNum = counter b.length ∧ t.lze.res.ratioDen = counter (lzwEncode b).length ∧
      t.lze.res.lzcOut = (lzwEncode b).map (BitVec.ofNat 64) ∧ OnlyUnit .lze s t := by
  have hop := lzeEncOp_ok.2 ⟨b, hb, deliver_ok.2 ⟨by rw [hcap]; rfl, rfl⟩⟩
  exact ⟨_, exec_lzeEnc_next.2 ⟨_, runOn_idle hidle hop, rfl⟩, ⟨rfl, rfl⟩, rfl, rfl, rfl, rfl, rfl, rfl⟩

/-- What the host binds of a polled `LZE.ENC`: its four registers and its codes (R51, R346). -/
theorem resultValues_lzeEnc {s : State} (h : resultsDefined s .lze = true) :
    resultValues .lzeEnc s = [.word s.lze.res.outLen, .word s.lze.res.ratioNum, .word s.lze.res.ratioDen, .word s.lze.res.elapsed] ++
      s.lze.res.lzcOut.map .word := by
  simp [resultValues, regsShown, readReg, lzeReg, resultShown, h]

/-- From a unit in `DONE` the last two events of its line bind the results, as they read once `STATUS` has been polled, and clear it. -/
theorem run_done {b : State} {i : Instr} {u : UnitId} {rest : List Event} (hq : b.pending = .collect i :: clearEvent u :: rest)
    (hu : polledUnits i = [u]) (hd : Done (control b u)) :
    ∃ p t, SameCore b p ∧ resultsDefined p u = true ∧ Host.Core.run Sys2Proof.core 2 b = .next t ∧
      t.reads = b.reads ++ .word 2#64 :: resultValues i p ∧ t.pending = rest ∧
      (control t u).state = .idle ∧ (control t u).fault = .none ∧ ∀ v, v ≠ u → SameUnit v b t := by
  obtain ⟨hstate, hfault⟩ := hd
  have hcollect := step_collect_done hq hu hstate
  have hqueue := sameCore_queue b (clearEvent u :: rest)
  have hsame := hqueue.trans (sameCore_pollStatus u _)
  have hdefined : resultsDefined (pollStatus u { b with pending := clearEvent u :: rest }) u = true :=
    resultsDefined_noteStatus (by rw [hqueue.control, hstate])
  have hreads : (pollStatus u { b with pending := clearEvent u :: rest }).reads = b.reads ++ [.word 2#64] := by
    rw [pollStatus_reads, hqueue.control, statusWord_eq, hstate, hfault]
    rfl
  have hpending := pollStatus_pending u { b with pending := clearEvent u :: rest }
  generalize pollStatus u { b with pending := clearEvent u :: rest } = p at hcollect hsame hdefined hreads hpending
  have hbound : SameCore b { p with reads := p.reads ++ resultValues i p } :=
    ⟨hsame.rle, hsame.rld, hsame.bre, hsame.htb, hsame.hen, hsame.hde, hsame.lze, hsame.lzd, hsame.cap⟩
  obtain ⟨t, hclear, hidle, hnone, honly⟩ := step_clear (s := { p with reads := p.reads ++ resultValues i p }) hpending
    (.inl (by rw [hbound.control, hstate]))
  obtain ⟨-, htq, htreads, -⟩ := honly.frame
  refine ⟨p, t, hsame, hdefined, (run_succ 1 hcollect).trans (run_succ 0 hclear), ?_, htq, hidle, hnone,
    fun v hne => (hbound.sameUnit v).trans (((sameCore_queue _ rest).sameUnit v).trans (honly.sameUnit_of_ne hne))⟩
  rw [htreads]
  show p.reads ++ resultValues i p = _
  rw [hreads, List.append_assoc]
  rfl

/-- Settles O12: the operand writes, the `START`, the poll with the results, and the `CLEAR`, one after the other. -/
theorem lzwEncodeLineRuns : Obligations.LzwEncodeLineRuns := by
  unfold Obligations.LzwEncodeLineRuns
  intro s b hcap hmax hidle hq
  have hbusy : isBusy s .lze = false := by simp [isBusy, hidle]
  obtain ⟨a, hoperands, honly, hb⟩ := operandsRun_lzeEnc hmax s [commandEvent .lzeEnc, .collect .lzeEnc, clearEvent .lze] hcap hbusy
    (hq.trans (List.append_nil _))
  obtain ⟨hacap, haq, hareads, -⟩ := honly.frame
  have haidle : a.lze.ctl.state = .idle := (congrArg Control.state (honly.control_eq .lze)).trans hidle
  obtain ⟨c, hexec, hdone, hlen, hnum, hden, hcodes, hunit⟩ :=
    exec_lzeEnc_results (s := { a with pending := [.collect .lzeEnc, clearEvent .lze] }) (hacap.trans hcap) hb haidle
  obtain ⟨-, hcq, hcreads, -⟩ := hunit.frame
  obtain ⟨p, t, hsame, hdefined, hend, hreads, htq, htidle, hnone, hothers⟩ := run_done hcq rfl hdone
  have hvalues := resultValues_lzeEnc hdefined
  rw [hsame.lze, hlen, hnum, hden, hcodes] at hvalues
  obtain ⟨strings, hstrings, hgreedy, hflatten⟩ := lzwEncode_strings b
  refine ⟨t, (lzwEncode b).map (BitVec.ofNat 64), c.lze.res.elapsed, ?_, ?_,
    ⟨strings, by rwa [lzwEncode_toNat hmax], hgreedy, hflatten⟩, htidle, hnone, htq, fun v hne => ?_⟩
  · have hevents : (lineEvents (.lzeEnc b)).length = (operandEvents (.lzeEnc b)).length + 3 := by
      simp [lineEvents, lineInstr]
    rw [hevents, run_add hoperands]
    exact (run_succ 2 ((step_commandEvent haq).trans hexec)).trans hend
  · rw [hreads, hvalues, hcreads, List.length_map]
    show a.reads ++ _ = _
    rw [hareads, List.append_assoc]
    rfl
  · exact ((sameCore_queue s _).sameUnit v).trans ((honly.sameUnit_of_ne hne).trans (((sameCore_queue a _).sameUnit v).trans
      ((hunit.sameUnit_of_ne hne).trans (hothers v hne))))

end Sys2Proof.Machine

namespace Sys2Proof.Machine

/-! ### An operation that is refused (R342, R348) -/

/-- An `IDLE` unit whose operation is refused: so is the instruction, by the same name. -/
theorem OperationSpec.exec_refused {i : Instr} (o : OperationSpec i) {s : State} {r : Refusal}
    (hidle : (o.lens.get s).ctl.state = .idle) (h : o.op s.cap (o.lens.get s) = .error r) : exec i s = .refused r := by
  rw [o.exec_eq, runOn_refused hidle h]
  rfl

/-- A register with a bit set above the ones that may be (R103). -/
theorem sampleLow_mustBeZeroSet {n : Nat} {r : OpReg} {v : BitVec 64} (h : RegHolds r v) (hv : 2 ^ n ≤ v.toNat) :
    sampleLow n r = .error .mustBeZeroSet := by
  simp only [sampleLow, sampleReg_ok.2 h, if_neg (Nat.not_lt.2 hv)]

/-! ### BRE.PUT (R141) -/

/-- The field made from a 64-bit register holds the register's low 32 bits, bit 31 first (R104). -/
theorem getElem?_field32_toNat (n : BitVec 64) {j : Nat} (hj : j < 32) :
    (field32 (BitVec.ofNat 32 n.toNat))[j]? = some (n.getLsbD (31 - j)) := by
  obtain ⟨hfield, -⟩ := runLengthFieldFormat
  obtain ⟨-, hbit⟩ := hfield (BitVec.ofNat 32 n.toNat)
  rw [hbit j hj, BitVec.getLsbD_ofNat, decide_eq_true (by omega), Bool.true_and, BitVec.getLsbD]

section
variable {s : State} {b : List Bool} {n : BitVec 64}

theorem exec_brePut_refused {r : Refusal} (hidle : s.bre.ctl.state = .idle) (h : brePutOp s.cap s.bre = .error r) :
    exec .brePut s = .refused r :=
  (operationSpec .brePut ⟨nofun, nofun⟩).exec_refused hidle h

theorem brePutOp_mustBeZeroSet (h : StreamOperand s.cap Config.maxIn s.bre.ops.inLen s.bre.ops.bitIn b)
    (harg : RegHolds s.bre.ops.arg n) (hn : 2 ^ 32 ≤ n.toNat) : brePutOp s.cap s.bre = .error .mustBeZeroSet := by
  simp only [brePutOp, sampleStream_ok.2 h, sampleLow_mustBeZeroSet harg hn]

/-- What `BRE.PUT` does with operands that are there and in range. -/
theorem brePutOp_admitted (h : StreamOperand s.cap Config.maxIn s.bre.ops.inLen s.bre.ops.bitIn b)
    (harg : RegHolds s.bre.ops.arg n) (hn : n.toNat < 2 ^ 32) :
    brePutOp s.cap s.bre = deliver (fitsCap s.cap (b.length + 32))
      { outLen := counter (b.length + 32), bitOut := b ++ field32 (BitVec.ofNat 32 n.toNat) } := by
  obtain ⟨hwritten, rfl⟩ := harg
  exact brePutOp_eq h hwritten hn

end

/-- Settles O18: the operation delivers the bits with the field of `ARG` after them, unless a bit above 31 or the capacity forbids it. -/
theorem brePutAppendsTheField : Obligations.BrePutAppendsTheField := by
  unfold Obligations.BrePutAppendsTheField
  intro s b n hb harg hidle
  refine ⟨fun hn hfits => ?_, fun hn => exec_brePut_refused hidle (brePutOp_mustBeZeroSet hb harg hn), fun hn hlong => ?_⟩
  · have hop := (brePutOp_admitted hb harg hn).trans (deliver_ok.2 ⟨hfits, rfl⟩)
    refine ⟨_, exec_brePut_next.2 ⟨_, runOn_idle hidle hop, rfl⟩, ⟨rfl, rfl⟩, ⟨rfl, rfl⟩, rfl, ?_, fun j hj => ?_, fun j hj => ?_⟩
    · exact List.length_append.trans (by rw [field32_length])
    · exact (List.getElem?_append_left hj).trans (List.getElem?_eq_getElem hj)
    · refine (List.getElem?_append_right (Nat.le_add_right ..)).trans ?_
      rw [Nat.add_sub_cancel_left, getElem?_field32_toNat n hj]
  · exact exec_brePut_refused hidle ((brePutOp_admitted hb harg hn).trans (if_neg (ne_true_of_eq_false hlong)))

end Sys2Proof.Machine

namespace Sys2Proof.Machine

/-! ### RLE.ENCS (R150 to R154) -/

/-- Row `k` of a raster of width `w`. -/
def rasterRow (w : Nat) (r : List Symbol) (k : Nat) : List Symbol := (r.drop (k * w)).take w

/-- A row below the height has the width of the raster. -/
theorem rasterRow_length {w h k : Nat} {r : List Symbol} (hr : r.length = w * h) (hk : k < h) : (rasterRow w r k).length = w := by
  have hrows : w * (k + 1) ≤ w * h := Nat.mul_le_mul_left w hk
  rw [Nat.mul_succ, Nat.mul_comm w k] at hrows
  rw [rasterRow, List.length_take, List.length_drop, hr]
  omega

theorem mem_of_mem_rasterRow {w k : Nat} {r : List Symbol} {v : Symbol} (hv : v ∈ rasterRow w r k) : v ∈ r :=
  List.mem_of_mem_drop (List.mem_of_mem_take hv)

/-- A raster without equal neighbours in a row has none in its row `k` (R154). -/
theorem rasterRow_isChain_ne {w : Nat} {r : List Symbol} (k : Nat)
    (hne : ∀ i, (i + 1) % w ≠ 0 → ∀ (h : i + 1 < r.length), r[i] ≠ r[i + 1]) : (rasterRow w r k).IsChain (· ≠ ·) := by
  refine List.isChain_iff_getElem.2 fun j hj => ?_
  obtain ⟨hw, hlen⟩ : j + 1 < w ∧ j + 1 < r.length - k * w := by simpa [rasterRow] using hj
  have hmod : (k * w + j + 1) % w ≠ 0 := by
    rw [Nat.add_assoc, Nat.mul_add_mod', Nat.mod_eq_of_lt hw]
    omega
  simpa [rasterRow, Nat.add_assoc] using hne (k * w + j) hmod (by omega)

/-- A row of one value is one run. -/
theorem scanRow_const {cur : Symbol} {s : List Symbol} (h : ∀ v ∈ s, v = cur) (cnt : Nat) :
    scanRow cur cnt s = [(cur, cnt + s.length)] := by
  induction s generalizing cnt with
  | nil => rfl
  | cons v vs ih =>
    obtain ⟨rfl, hvs⟩ := List.forall_mem_cons.1 h
    rw [scanRow, if_pos rfl, ih hvs, List.length_cons, Nat.add_assoc, Nat.add_comm 1]

theorem rowRuns_length_const {s : List Symbol} (hne : s ≠ []) (h : ∀ x ∈ s, ∀ y ∈ s, x = y) : (rowRuns s).length = 1 := by
  cases s with
  | nil => exact absurd rfl hne
  | cons v vs =>
    rw [rowRuns, scanRow_const fun x hx => h x (List.mem_cons_of_mem v hx) v List.mem_cons_self]
    rfl

/-- Where neighbours differ each symbol is a run. -/
theorem scanRow_length_isChain_ne {cur : Symbol} {s : List Symbol} (h : (cur :: s).IsChain (· ≠ ·)) (cnt : Nat) :
    (scanRow cur cnt s).length = s.length + 1 := by
  induction s generalizing cur cnt with
  | nil => rfl
  | cons v vs ih =>
    obtain ⟨hne, hvs⟩ := List.isChain_cons_cons.1 h
    rw [scanRow, if_neg (Ne.symm hne), List.length_cons, ih hvs, List.length_cons]

theorem rowRuns_length_isChain_ne {s : List Symbol} (h : s.IsChain (· ≠ ·)) : (rowRuns s).length = s.length := by
  cases s with
  | nil => rfl
  | cons v vs => exact scanRow_length_isChain_ne h 1

/-- The runs of each row of a raster (R152). -/
def runsByRow (w h : Nat) (r : List Symbol) : List (List (Symbol × Nat)) := (List.range h).map fun k => rowRuns (rasterRow w r k)

theorem runsByRow_flatten (w h : Nat) (r : List Symbol) : (runsByRow w h r).flatten = rasterRuns w h r := by
  rw [rasterRuns_eq, List.flatMap_def]
  rfl

/-- Rows of `c` runs each make `h * c` runs. -/
theorem rasterRuns_length_of_rows {w h c : Nat} {r : List Symbol} (hc : ∀ k < h, (rowRuns (rasterRow w r k)).length = c) :
    (rasterRuns w h r).length = h * c := by
  have hrows : (List.range h).map (fun k => (rowRuns (rasterRow w r k)).length) = (List.range h).map fun _ => c :=
    List.map_congr_left fun k hk => hc k (List.mem_range.1 hk)
  rw [← runsByRow_flatten, List.length_flatten, runsByRow, List.map_map]
  exact (congrArg List.sum hrows).trans (by simp)

/-- The counts of a raster's runs sum to its size (R153). -/
theorem rasterRuns_counts_sum {w h : Nat} {r : List Symbol} (hr : r.length = w * h) :
    ((rasterRuns w h r).map Prod.snd).sum = w * h := by
  have hreplay := congrArg List.length (rasterRuns_replay w h r hr)
  rw [List.length_flatMap, hr] at hreplay
  simpa using hreplay

/-- Pairs read back as the runs they were made of, where the counts fit their 32 bits (R106). -/
theorem map_pair_mkPair {runs : List (Symbol × Nat)} (h : ∀ p ∈ runs, p.2 < 2 ^ 32) :
    (runs.map fun p => mkPair p.1 p.2).map (fun e => (pairValue e, pairCount e)) = runs := by
  have hpair : ∀ p ∈ runs, (pairValue (mkPair p.1 p.2), pairCount (mkPair p.1 p.2)) = p := fun p hp => by
    rw [pairValue_mkPair, pairCount_mkPair _ _ (h p hp)]
  rw [List.map_map]
  exact (List.map_congr_left hpair).trans (List.map_id _)

section
variable {s t : State} {r : List Symbol} {w h : BitVec 64}

/-- A raster that passes the check of R150: its dimensions are at least 1 as naturals, and it has their product as its length. -/
theorem toNat_of_badRaster_eq_false {n : Nat} (hbad : badRaster w h n = false) : 1 ≤ w.toNat ∧ 1 ≤ h.toNat ∧ n = w.toNat * h.toNat := by
  obtain ⟨hw, hh, hn⟩ := badRaster_eq_false.1 hbad
  have hw' := toInt_of_pos hw
  have hh' := toInt_of_pos hh
  exact ⟨by omega, by omega, (raster_length hw hh hn).symm⟩

/-- The counts of the runs of an admitted raster fit the 32 bits of a pair (R153). -/
theorem rasterRuns_count_lt (ho : RasterOperands s r w h) (hbad : badRaster w h r.length = false) :
    ∀ p ∈ rasterRuns w.toNat h.toNat r, p.2 < 2 ^ 32 := by
  intro p hp
  obtain ⟨-, hh, hr⟩ := toNat_of_badRaster_eq_false hbad
  have hcount := (mem_rasterRuns_le _ _ _ _ hp).2
  have hwidth : w.toNat ≤ r.length := hr ▸ Nat.le_mul_of_pos_right _ hh
  have hmax := ho.stream.admitted
  rw [maxIn_eq] at hmax
  omega

/-- A completed `RLE.ENCS` passed the check, and delivered its runs as pairs. -/
theorem exec_rleEncs_done (ho : RasterOperands s r w h) (hexec : exec .rleEncs s = .next t) (hdone : Done t.rle.ctl) :
    badRaster w h r.length = false ∧ t.rle.res.pairOut = (rasterRuns w.toNat h.toNat r).map fun p => mkPair p.1 p.2 := by
  obtain ⟨x, hx, rfl⟩ := exec_rleEncs_next.1 hexec
  obtain ⟨-, e, he, rfl⟩ := runOn_ok.1 hx
  rw [rleEncsOp_eq ho] at he
  split at he
  · cases he
    cases hdone.1
  · next hbad =>
    obtain ⟨-, rfl⟩ := deliver_ok.1 he
    exact ⟨Bool.eq_false_of_not_eq_true hbad, rfl⟩

/-- `RLE.ENCB` on an admitted raster fills its eight planes. -/
theorem rleEncbOp_admitted (ho : RasterOperands s r w h) (hbad : badRaster w h r.length = false)
    (hcap : fitsCap s.cap (32 * (r.length + 1)) = true) :
    ∃ res, rleEncbOp s.cap s.rle = .ok (.results res) ∧ res.planeOut = encodePlanes r ∧
      res.planeLen = (encodePlanes r).map (fun bits => counter bits.length) ∧
      res.ratioNum = counter (8 * (w.toNat * h.toNat)) ∧ res.ratioDen = counter (planesLength (encodePlanes r)) := by
  obtain ⟨e, he⟩ := rleEncbOp_answers ho hbad hcap
  have hop := he
  rw [rleEncbOp_eq ho, hbad, if_neg Bool.false_ne_true] at he
  obtain ⟨-, rfl⟩ := deliver_ok.1 he
  exact ⟨_, hop, rfl, rfl, rfl, rfl⟩

end

/-- The lengths of the eight plane sequences are 32 for each of their fields (R157). -/
theorem planesLength_encodePlanes (r : List Symbol) :
    planesLength (encodePlanes r) = 32 * ((List.finRange 8).map fun p => (planeRuns (bitPlane p.val r)).length).sum := by
  rw [planesLength, encodePlanes, Vector.toList_ofFn, List.ofFn_eq_map, List.map_map, ← List.sum_map_mul_left]
  refine congrArg List.sum (List.map_congr_left fun p _ => ?_)
  rw [Function.comp_apply, encodePlane_eq, fieldBits_length]

/-- Settles O19: the pairs are the runs row by row, and those of each row are its maximal runs. -/
theorem rleEncsEmitsMaximalRuns : Obligations.RleEncsEmitsMaximalRuns := by
  unfold Obligations.RleEncsEmitsMaximalRuns
  intro s r w h ho hidle hw hh hn
  have hbad := badRaster_eq_false.2 ⟨hw, hh, hn⟩
  have hfits : fitsCap s.cap (rasterRuns w.toNat h.toNat r).length = true :=
    fitsCap_mono ((rasterRuns_length_le ..).trans_eq (raster_length hw hh hn)) ho.stream.capacity
  have hop := (rleEncsOp_eq ho).trans ((if_neg (ne_true_of_eq_false hbad)).trans (deliver_ok.2 ⟨hfits, rfl⟩))
  refine ⟨_, runsByRow w.toNat h.toNat r, exec_rleEncs_next.2 ⟨_, runOn_idle hidle hop, rfl⟩, ⟨rfl, rfl⟩, ⟨rfl, rfl⟩,
    by rw [runsByRow, List.length_map, List.length_range], fun k hk => ?_, ?_⟩
  · have hrow : (runsByRow w.toNat h.toNat r)[k] = rowRuns (rasterRow w.toNat r k) := by simp [runsByRow]
    exact hrow ▸ rowRuns_maximal _
  · rw [runsByRow_flatten]
    exact ⟨map_pair_mkPair (rasterRuns_count_lt ho hbad), rfl, rfl, rfl⟩

/-- Settles O20: the bounds are those of the runs that the pairs hold, and rows of one or of `W` runs each give the two extremes. -/
theorem rleEncsContract : Obligations.RleEncsContract := by
  unfold Obligations.RleEncsContract
  intro s t r w h ho hexec hdone
  obtain ⟨hbad, hpairs⟩ := exec_rleEncs_done ho hexec hdone
  obtain ⟨hw, -, hmul⟩ := toNat_of_badRaster_eq_false hbad
  have hcounts : t.rle.res.pairOut.map pairCount = (rasterRuns w.toNat h.toNat r).map Prod.snd := by
    rw [← map_pair_mkPair (rasterRuns_count_lt ho hbad), ← hpairs, List.map_map]
    rfl
  have hlen : t.rle.res.pairOut.length = (rasterRuns w.toNat h.toNat r).length := by rw [hpairs, List.length_map]
  rw [hlen, hcounts]
  refine ⟨rasterRuns_length_ge _ _ hw r hmul, rasterRuns_length_le .., fun e he => ?_, rasterRuns_counts_sum hmul,
    fun hconst => ?_, fun hne => ?_⟩
  · have hcount := List.mem_map_of_mem (f := pairCount) he
    rw [hcounts] at hcount
    obtain ⟨p, hp, hpe⟩ := List.mem_map.1 hcount
    exact hpe ▸ mem_rasterRuns_le _ _ _ p hp
  · refine (rasterRuns_length_of_rows fun k hk => rowRuns_length_const ?_ fun x hx y hy =>
      hconst x (mem_of_mem_rasterRow hx) y (mem_of_mem_rasterRow hy)).trans (Nat.mul_one _)
    exact List.ne_nil_of_length_pos ((rasterRow_length hmul hk).symm ▸ hw)
  · exact (rasterRuns_length_of_rows fun k hk =>
      (rowRuns_length_isChain_ne (rasterRow_isChain_ne k hne)).trans (rasterRow_length hmul hk)).trans (Nat.mul_comm ..)

/-- Settles O21: the fields of a plane are its runs from 0 on. -/
theorem rleEncbEmitsPlaneFields : Obligations.RleEncbEmitsPlaneFields := by
  unfold Obligations.RleEncbEmitsPlaneFields
  intro s r w h ho hidle hw hh hn hcap
  obtain ⟨res, hop, hplanes, hlens, hnum, hden⟩ := rleEncbOp_admitted ho (badRaster_eq_false.2 ⟨hw, hh, hn⟩) hcap
  refine ⟨_, fun p => planeRuns (bitPlane p.val r), exec_rleEncb_next.2 ⟨_, runOn_idle hidle hop, rfl⟩, ⟨rfl, rfl⟩, ⟨rfl, rfl⟩,
    fun p => ?_, hnum, hden.trans (congrArg _ (planesLength_encodePlanes r))⟩
  obtain ⟨hruns, hne, hpos, hmax⟩ := planeRuns_spec (bitPlane p.val r)
  have hout : res.planeOut[p] = fieldBits (planeRuns (bitPlane p.val r)) := by
    simp [hplanes, encodePlanes, encodePlane_eq]
  have hlen : res.planeLen[p] = counter (32 * (planeRuns (bitPlane p.val r)).length) := by
    simp [hlens, encodePlanes, encodePlane_eq, fieldBits_length]
  exact ⟨hout, hruns, hne, hpos, bitPlane_length p.val r ▸ hmax, hlen⟩

end Sys2Proof.Machine

namespace Sys2Proof.Machine

/-! ### RLD.DECS (R170 to R173) -/

/-- The pairs of an operand replay when their counts sum to the size, and else not at all. -/
theorem replayPairs_elements (n : Nat) (pairs : List PairElem) :
    replayPairs n 0 (pairs.map fun e => (pairValue e, pairCount e)) =
      if (pairs.map pairCount).sum = n then some (pairs.flatMap fun e => List.replicate (pairCount e) (pairValue e)) else none := by
  rw [replayPairs_eq n _ 0 (Nat.zero_le n), List.map_map, List.flatMap_map, Nat.zero_add]
  rfl

/-- `RLD.DECS` with admitted dimensions delivers the pairs replayed when their total is `W * H`, and else raises its fault. -/
theorem rldDecsOp_admitted {s : State} {pairs : List PairElem} {w h : BitVec 64} (ho : PairOperands s pairs w h)
    (hw : 1 ≤ w.toInt) (hh : 1 ≤ h.toInt) (hmax : w.toNat * h.toNat ≤ Config.maxIn)
    (hcap : fitsCap s.cap (w.toNat * h.toNat) = true) :
    ((pairs.map pairCount).sum = w.toNat * h.toNat ∧
      rldDecsOp s.cap s.rld = .ok (.results
        { outLen := counter (w.toNat * h.toNat)
          symOut := pairs.flatMap fun e => List.replicate (pairCount e) (pairValue e) })) ∨
    ((pairs.map pairCount).sum ≠ w.toNat * h.toNat ∧ rldDecsOp s.cap s.rld = .ok (.raises .malformedStream)) := by
  rw [rldDecsOp_eq ho, badDimensions_eq_false hw hh, if_neg Bool.false_ne_true, if_neg (Nat.not_lt.2 hmax), replayPairs_elements]
  split_ifs with hsum
  · have hlen : (pairs.flatMap fun e => List.replicate (pairCount e) (pairValue e)).length = w.toNat * h.toNat := by
      rw [← hsum, List.length_flatMap]
      simp
    exact .inl ⟨hsum, deliver_ok.2 ⟨hlen ▸ hcap, hlen ▸ rfl⟩⟩
  · exact .inr ⟨hsum, rfl⟩

/-- Settles O22: the total of the counts decides between the replayed pairs and the fault. -/
theorem rldDecsReplaysPairs : Obligations.RldDecsReplaysPairs := by
  unfold Obligations.RldDecsReplaysPairs
  intro s pairs w h ho hidle hw hh hmax hcap
  rcases rldDecsOp_admitted ho hw hh hmax hcap with ⟨hsum, hop⟩ | ⟨hsum, hop⟩
  · exact ⟨_, exec_rldDecs_next.2 ⟨_, runOn_idle hidle hop, rfl⟩, ⟨rfl, rfl⟩, fun _ => ⟨⟨rfl, rfl⟩, rfl, rfl⟩, (absurd hsum ·)⟩
  · exact ⟨_, exec_rldDecs_next.2 ⟨_, runOn_idle hidle hop, rfl⟩, ⟨rfl, rfl⟩, (absurd · hsum), fun _ => ⟨rfl, rfl⟩⟩

/-! ### The round trip of run-length coding (R178) -/

/-- Fields describe one bit sequence only (R175). -/
theorem PlaneRuns.unique {fields : List Nat} {bits bits' : List Bool} (h : PlaneRuns fields bits) (h' : PlaneRuns fields bits') :
    bits = bits' :=
  h.eq_alternate.trans h'.eq_alternate.symm

section
variable {s t : State} {r : List Symbol} {w h : BitVec 64}

/-- On a raster that passes the check, an `RLE.ENCS` that answers delivered the runs. -/
theorem exec_rleEncs_pairs (ho : RasterOperands s r w h) (hbad : badRaster w h r.length = false)
    (hexec : exec .rleEncs s = .next t) :
    t.rle.res.pairOut.map (fun e => (pairValue e, pairCount e)) = rasterRuns w.toNat h.toNat r := by
  obtain ⟨x, hx, rfl⟩ := exec_rleEncs_next.1 hexec
  obtain ⟨-, e, he, rfl⟩ := runOn_ok.1 hx
  rw [rleEncsOp_eq ho, hbad, if_neg Bool.false_ne_true] at he
  obtain ⟨-, rfl⟩ := deliver_ok.1 he
  exact map_pair_mkPair (rasterRuns_count_lt ho hbad)

/-- On a raster that passes the check, an `RLE.ENCB` that answers delivered the eight plane sequences. -/
theorem exec_rleEncb_planes (ho : RasterOperands s r w h) (hbad : badRaster w h r.length = false)
    (hexec : exec .rleEncb s = .next t) : t.rle.res.planeOut = encodePlanes r := by
  obtain ⟨x, hx, rfl⟩ := exec_rleEncb_next.1 hexec
  obtain ⟨-, e, he, rfl⟩ := runOn_ok.1 hx
  rw [rleEncbOp_eq ho, hbad, if_neg Bool.false_ne_true] at he
  obtain ⟨-, rfl⟩ := deliver_ok.1 he
  rfl

end

/-- The sequence of plane `p` is the fields of that plane's runs, which fit their 32 bits and sum to the size (R155, R156). -/
theorem planeFields_encodePlanes {r : List Symbol} (hr : r.length < 2 ^ 32) (p : Fin 8) :
    PlaneFields r.length (encodePlanes r)[p] (planeRuns (bitPlane p.val r)) := by
  refine ⟨by simp [encodePlanes, encodePlane_eq], fun n hn => ?_, ?_⟩
  · exact ((planeRuns_le _ n hn).trans_eq (bitPlane_length p.val r)).trans_lt hr
  · exact (planeRuns_spec (bitPlane p.val r)).1.total.trans (bitPlane_length p.val r)

/-- Settles O37: the pairs' counts sum to the size and their replay is the raster; the planes' fields sum to the size, and the
raster is determined by the planes they describe. -/
theorem runLengthRoundTrip : Obligations.RunLengthRoundTrip := by
  unfold Obligations.RunLengthRoundTrip
  intro s t d r w h ho hw hh hn hidle hcap
  have hbad := badRaster_eq_false.2 ⟨hw, hh, hn⟩
  have hsize := raster_length hw hh hn
  have hmax := ho.stream.admitted
  rw [← hsize] at hmax hcap
  refine ⟨fun hexec hpairs => ?_, fun hexec hplanes => ?_⟩
  · have hruns := exec_rleEncs_pairs ho hbad hexec
    have hsum : (t.rle.res.pairOut.map pairCount).sum = w.toNat * h.toNat := by
      rw [← rasterRuns_counts_sum hsize.symm, ← hruns, List.map_map]
      rfl
    have hreplay : t.rle.res.pairOut.flatMap (fun e => List.replicate (pairCount e) (pairValue e)) = r := by
      rw [← rasterRuns_replay w.toNat h.toNat r hsize.symm, ← hruns, List.flatMap_map]
    obtain ⟨e, he, -, hgood, -⟩ := rldDecsReplaysPairs d _ w h hpairs hidle hw hh hmax hcap
    obtain ⟨hdone, hout, -⟩ := hgood hsum
    exact ⟨e, he, hdone, hout.trans hreplay⟩
  · have hr : r.length < 2 ^ 32 := by
      rw [maxIn_eq] at hmax
      omega
    obtain ⟨e, he, -, hgood, -⟩ := rldDecbReplaysPlanes d _ w h hplanes hidle hw hh hmax hcap
    rw [exec_rleEncb_planes ho hbad hexec, hsize] at hgood
    obtain ⟨hdone, -, -, hdecoded⟩ := hgood _ (planeFields_encodePlanes hr)
    refine ⟨e, he, hdone, eq_of_bitPlanes fun p hp => ?_⟩
    exact (hdecoded ⟨p, hp⟩).unique (planeRuns_spec (bitPlane p r)).1

end Sys2Proof.Machine

namespace Sys2Proof.Machine

/-! ### The code walk (R197, R349) -/

/-- The walk with nothing left on its stack keeps what it has put out, however many steps remain. -/
theorem walkStack_nil (steps : Nat) (out : List (Symbol × List Bool)) : walkStack steps [] out = out := by
  cases steps <;> rfl

/-- With a step for each node of the tree on top of the stack, the walk takes that tree off and puts out its codes. -/
theorem walkStack_cons (t : HTree) (steps : Nat) (path : List Bool) (rest : List (HTree × List Bool))
    (out : List (Symbol × List Bool)) :
    walkStack (internalNodes t + (leafSyms t).length + steps) ((t, path) :: rest) out =
      walkStack steps rest (out ++ walkCodes t path) := by
  induction t generalizing steps path rest out with
  | leaf s f =>
    rw [internalNodes, leafSyms, List.length_singleton, Nat.zero_add, Nat.add_comm]
    rfl
  | node f l r ihl ihr =>
    have hsteps : internalNodes (.node f l r) + (leafSyms (.node f l r)).length + steps =
        internalNodes l + (leafSyms l).length + (internalNodes r + (leafSyms r).length + steps) + 1 := by
      rw [internalNodes, leafSyms, List.length_append]
      omega
    rw [hsteps, walkStack, ihl, ihr, walkCodes, List.append_assoc]

/-- Settles O27: the steps pay for every node of the tree, after which the stack is empty. -/
theorem stackWalkIsTheRecursiveWalk : Obligations.StackWalkIsTheRecursiveWalk := by
  unfold Obligations.StackWalkIsTheRecursiveWalk
  intro t steps hsteps
  obtain ⟨spare, rfl⟩ := Nat.exists_eq_add_of_le hsteps
  rw [walkStack_cons, walkStack_nil, List.nil_append]

/-! ### Admitted trees (R193 to R196) -/

theorem treeFreq_of_mem_leavesFrom {b : Nat} {freqs : List Nat} {n : QNode} (hn : n ∈ leavesFrom b freqs) :
    treeFreq n.tree = n.freq := by
  obtain ⟨i, -, -, rfl⟩ := mem_leavesFrom.1 hn
  rfl

theorem freqsAdd_of_mem_leavesFrom {b : Nat} {freqs : List Nat} {n : QNode} (hn : n ∈ leavesFrom b freqs) :
    FreqsAdd n.tree := by
  obtain ⟨i, -, -, rfl⟩ := mem_leavesFrom.1 hn
  trivial

/-- A tree has one internal node fewer than leaves. -/
theorem internalNodes_add_one (t : HTree) : internalNodes t + 1 = (leafSyms t).length := by
  induction t with
  | leaf s f => rfl
  | node f l r ihl ihr =>
    rw [internalNodes, leafSyms, List.length_append, ← ihl, ← ihr]
    omega

/-- A tree with a single leaf is that leaf. -/
theorem eq_leaf_of_leafSyms_length {t : HTree} {x : Symbol} (hlen : (leafSyms t).length = 1) (hx : x ∈ leafSyms t) :
    t = .leaf x (treeFreq t) := by
  cases t with
  | leaf s f =>
    rw [List.mem_singleton.1 hx]
    rfl
  | node f l r =>
    have hl := leafSyms_pos l
    have hr := leafSyms_pos r
    rw [leafSyms, List.length_append] at hlen
    omega

section
variable {xs : List Symbol} {tree : Option HTree} {t : HTree}

/-- An admitted tree is `Empty` exactly for the empty stream (R196). -/
theorem AdmittedTree.eq_none_iff (h : AdmittedTree xs tree) : tree = none ↔ xs = [] := by
  obtain ⟨-, hmem⟩ := h.leaves
  cases tree with
  | none => exact iff_of_true rfl (List.eq_nil_iff_forall_not_mem.2 fun x hx => List.not_mem_nil ((hmem x).2 hx))
  | some t =>
    obtain ⟨x, hx⟩ := List.exists_mem_of_length_pos (leafSyms_pos t)
    exact iff_of_false (Option.some_ne_none t) (List.ne_nil_of_mem ((hmem x).1 hx))

/-- Every internal frequency of an admitted tree is the sum of its children's (R193). -/
theorem AdmittedTree.freqsAdd (h : AdmittedTree xs (some t)) : FreqsAdd t := by
  obtain ⟨-, hadd⟩ := MergesTo.freqs h
  refine hadd (fun x hx => ?_) t rfl
  obtain ⟨n, hn, rfl⟩ := List.mem_map.1 hx
  exact freqsAdd_of_mem_leavesFrom hn

/-- The root of an admitted tree has the stream's length as its frequency. -/
theorem AdmittedTree.treeFreq_eq (h : AdmittedTree xs (some t)) : treeFreq t = xs.length := by
  obtain ⟨hroot, -⟩ := MergesTo.freqs h
  calc treeFreq t = (((leavesFrom 0 (freqTable xs)).map QNode.tree).map treeFreq).sum := hroot
    _ = ((leavesFrom 0 (freqTable xs)).map QNode.freq).sum := by
      rw [List.map_map]
      exact congrArg List.sum (List.map_congr_left fun n hn => treeFreq_of_mem_leavesFrom hn)
    _ = xs.length := by rw [leavesFrom_sum, freqTable_sum]

/-- The leaves of an admitted tree are as many as the distinct symbols of the stream. -/
theorem AdmittedTree.leafSyms_length (h : AdmittedTree xs tree) : ((tree.map leafSyms).getD []).length = xs.dedup.length := by
  obtain ⟨hnodup, hmem⟩ := h.leaves
  refine List.Perm.length_eq ((List.perm_ext_iff_of_nodup hnodup xs.nodup_dedup).2 fun x => ?_)
  rw [hmem, List.mem_dedup]

/-- A stream of one distinct symbol has the lone leaf as its only admitted tree (R195). -/
theorem AdmittedTree.eq_leaf_of_replicate {n : Nat} {x : Symbol} (hn : 1 ≤ n)
    (h : AdmittedTree (List.replicate n x) (some t)) : t = .leaf x n := by
  have hne : n ≠ 0 := Nat.one_le_iff_ne_zero.1 hn
  have hlen : (leafSyms t).length = 1 := by
    have := h.leafSyms_length
    rwa [List.replicate_dedup hne] at this
  obtain ⟨-, hmem⟩ := h.leaves
  have hleaf := eq_leaf_of_leafSyms_length hlen ((hmem x).2 (List.mem_replicate.2 ⟨hne, rfl⟩))
  rwa [h.treeFreq_eq, List.length_replicate] at hleaf

end

/-- Settles O25: policy `det` removes least nodes, and each merge keeps the leaves and the sum of the frequencies. -/
theorem htbTreeIsAdmitted : Obligations.HtbTreeIsAdmitted := by
  unfold Obligations.HtbTreeIsAdmitted
  refine ⟨fun xs top hdet => hdet.mergesTo fun n hn => treeFreq_of_mem_leavesFrom hn, fun xs tree h => ?_,
    fun n x t hn h => h.eq_leaf_of_replicate hn⟩
  refine ⟨h.eq_none_iff, ?_⟩
  rintro t rfl
  obtain ⟨hnodup, hmem⟩ := h.leaves
  exact ⟨hnodup, hmem, internalNodes_add_one t, h.freqsAdd, h.treeFreq_eq⟩

/-! ### The codes of a tree (R197 to R199) -/

/-- A code that is a beginning of another code of the table is that code, with the same symbol. -/
theorem codesOf_prefixFree (tree : Option HTree) {p q : Symbol × List Bool} (hp : p ∈ codesOf tree) (hq : q ∈ codesOf tree)
    (h : p.2 <+: q.2) : p = q := by
  match tree, hp, hq with
  | some (.leaf s f), hp, hq => rw [List.mem_singleton.1 hp, List.mem_singleton.1 hq]
  | some (.node f l r), hp, hq => exact walkCodes_prefixFree _ p hp q hq h

/-- With `d` leaves no code is longer than `d - 1`, but that a lone leaf has one bit. -/
theorem codesOf_length_le (tree : Option HTree) {p : Symbol × List Bool} (hp : p ∈ codesOf tree) :
    p.2.length ≤ max 1 (((tree.map leafSyms).getD []).length - 1) := by
  match tree, hp with
  | some (.leaf s f), hp =>
    rw [List.mem_singleton.1 hp]
    exact le_max_left 1 _
  | some (.node f l r), hp => exact le_max_of_le_right (Nat.le_sub_of_add_le (walkCodes_length _ p hp))

/-- Settles O26: the codes are the paths to the leaves, and the leaves are the symbols that occur, each once. -/
theorem huffmanCodesArePrefixFree : Obligations.HuffmanCodesArePrefixFree := by
  unfold Obligations.HuffmanCodesArePrefixFree
  intro xs tree h
  obtain ⟨hnodup, hmem⟩ := h.leaves
  refine ⟨fun x => (codeFor_isSome tree x).trans (hmem x), fun x c hc => ?_, fun x y c d hc hd hcd => ?_, ?_⟩
  · have hcode := (codeFor_eq_some hnodup).1 hc
    obtain ⟨hpos, h255⟩ := codesOf_bounds tree h.size _ hcode
    refine ⟨List.length_pos_iff.2 hpos, h255, ?_⟩
    rw [← h.leafSyms_length]
    exact codesOf_length_le tree hcode
  · have heq := codesOf_prefixFree tree ((codeFor_eq_some hnodup).1 hc) ((codeFor_eq_some hnodup).1 hd) hcd
    exact congrArg Prod.fst heq
  · rintro x n rfl
    exact (codeFor_eq_some hnodup).2 (List.mem_singleton.2 rfl)

/-! ### The tables of HTB.BUILD (R200) -/

/-- The table has room for the entries of all merges: at most 255 for 256 symbols. -/
theorem buildTree_entries_length (xs : List Symbol) : (buildTree xs).2.length ≤ 255 := by
  have hmerges : (buildTree xs).2.length = (seedQueue (freqTable xs)).length - 1 := mergeLoop_entries _ 0 _ (le_refl _)
  have hleaves := leavesFrom_length (freqTable xs) 0
  rw [← (seedQueue_perm (freqTable xs)).length_eq, freqTable_length] at hleaves
  omega

section
variable (draw : Nat) (xs : List Symbol)

theorem htbResults_treeOut : (htbResults draw xs).treeOut = treeTable draw (freqTable xs) (buildTree xs).2 := by
  rw [htbResults]

theorem htbResults_treeOut_length : (htbResults draw xs).treeOut.length = 511 := by
  rw [htbResults_treeOut, treeTable_length, Config.maxNodes]

theorem htbResults_ctabOut_length : (htbResults draw xs).ctabOut.length = 256 := by
  rw [htbResults, codeTable_length, Config.numCodes]

/-- The entry of a symbol in the tree table. -/
theorem htbResults_treeOut_symbol (x : Symbol) : (htbResults draw xs).treeOut[x.toNat]? =
    some (if xs.count x = 0 then invalidEntry draw x.toNat else nodeEntry true true x (xs.count x) 0 0) := by
  have hx : x.toNat < 256 := x.isLt
  have hlen : x.toNat < (treeTable draw (freqTable xs) (buildTree xs).2).length := by
    rw [treeTable_length, Config.maxNodes]
    omega
  have hcounted : x.toNat < (freqTable xs).length := hx.trans_eq (freqTable_length xs).symm
  have hfreq : (freqTable xs).getD x.toNat 0 = xs.count x := by
    rw [List.getD_eq_getElem _ _ hcounted, freqTable_get, BitVec.ofNat_toNat, BitVec.setWidth_eq]
  rw [htbResults_treeOut, List.getElem?_eq_getElem hlen, treeTable_get, if_pos hx, hfreq, BitVec.ofNat_toNat, BitVec.setWidth_eq]

/-- The entry of merge number `k` in the tree table, or one that is not valid where there were fewer merges. -/
theorem htbResults_treeOut_merge {k : Nat} (hk : k < 255) : (htbResults draw xs).treeOut[256 + k]? =
    some ((buildTree xs).2[k]?.getD (invalidEntry draw (256 + k))) := by
  have hlen : 256 + k < (treeTable draw (freqTable xs) (buildTree xs).2).length := by
    rw [treeTable_length, Config.maxNodes]
    omega
  rw [htbResults_treeOut, List.getElem?_eq_getElem hlen, treeTable_get, if_neg (by omega), Nat.add_sub_cancel_left]

/-- The entry of a symbol in the code table. -/
theorem htbResults_ctabOut_symbol (x : Symbol) : (htbResults draw xs).ctabOut[x.toNat]? =
    some (codeEntry ((codeFor (codesOf ((buildTree xs).1.map QNode.tree)) x).getD [])) := by
  have hx : x.toNat < Config.numCodes := x.isLt
  rw [htbResults, codeTable, List.getElem?_map, List.getElem?_range hx, Option.map_some, BitVec.ofNat_toNat, BitVec.setWidth_eq]

end

theorem rootIndex_eq (top : Option QNode) : rootIndex top = (top.map QNode.seq).getD 511 := by
  cases top <;> rfl

/-- Settles O24: the results of `HTB.BUILD` are those of the merge loop, whose log gives the internal entries. -/
theorem htbBuildFollowsPolicyDet : Obligations.HtbBuildFollowsPolicyDet := by
  unfold Obligations.HtbBuildFollowsPolicyDet
  intro s xs hstream hidle
  refine ⟨fun hcap => (operationSpec .htbBuild ⟨nofun, nofun⟩).exec_refused hidle (htbBuildOp_beyond hstream hcap), fun hcap => ?_⟩
  obtain ⟨merges, hlog, hentries⟩ := buildTree_log xs
  have hop := htbBuildOp_ok.2 ⟨xs, hstream, hcap, rfl⟩
  have hroom := buildTree_entries_length xs
  rw [hentries, List.length_map] at hroom
  have hlen : xs.length < 2 ^ 32 := Nat.lt_of_le_of_lt hstream.admitted (by decide)
  refine ⟨_, (buildTree xs).1, merges, exec_htbBuild_next.2 ⟨_, runOn_idle hidle hop, rfl⟩, ⟨rfl, rfl⟩, ⟨rfl, rfl⟩,
    hlog.detMerges, hlog, fun k hk => ?_, fun k hk hk255 => ?_, congrArg (BitVec.ofNat 64) (rootIndex_eq _),
    htbResults_treeOut_length .., htbResults_ctabOut_length .., fun tbl htbl => treeOf_htbResults _ hlen tbl htbl, fun x => ?_,
    fun x => htbResults_ctabOut_symbol _ xs x⟩
  · refine (htbResults_treeOut_merge _ xs (Nat.lt_of_lt_of_le hk hroom)).trans ?_
    rw [hentries, List.getElem?_map, List.getElem?_eq_getElem hk]
    rfl
  · refine ⟨_, htbResults_treeOut_merge _ xs hk255, ?_⟩
    rw [hentries, List.getElem?_eq_none (by rwa [List.length_map])]
    exact entryValid_invalidEntry ..
  · refine ⟨_, htbResults_treeOut_symbol _ xs x, fun hx => ?_, fun hx => ?_⟩
    · exact if_neg (List.count_pos_iff.2 hx).ne'
    · rw [if_pos (List.count_eq_zero.2 hx)]
      exact entryValid_invalidEntry ..

end Sys2Proof.Machine

namespace Sys2Proof.Machine

/-! ### HEN.ENC (R221 to R223) -/

section
variable {s : State} {xs : List Symbol} {tab : List CodeElem}

theorem exec_henEnc_refused {r : Refusal} (hidle : s.hen.ctl.state = .idle) (h : henEncOp s.cap s.hen = .error r) :
    exec .henEnc s = .refused r :=
  (operationSpec .henEnc ⟨nofun, nofun⟩).exec_refused hidle h

/-- A stream that the table does not encode is refused before the capacity is looked at (R221, assumption log 24). -/
theorem henEncOp_uncoded (h : EncoderOperands s xs tab) (hnone : encodeSymbols tab xs = none) :
    henEncOp s.cap s.hen = .error .symbolWithoutCode := by
  rw [henEncOp_eq h, hnone]

end

/-- Settles O28: with a code for every symbol the operation delivers the codes one after another, when the capacity admits them. -/
theorem henEncConcatenatesCodes : Obligations.HenEncConcatenatesCodes := by
  unfold Obligations.HenEncConcatenatesCodes
  intro s xs tab code ho hidle hcode
  have hop := henEncOp_encoded ho (encodeSymbols_eq tab xs code hcode)
  refine ⟨fun hfits => ?_, fun hlong => exec_henEnc_refused hidle (hop.trans (if_neg (ne_true_of_eq_false hlong)))⟩
  have hresults := hop.trans (deliver_ok.2 ⟨hfits, rfl⟩)
  exact ⟨_, exec_henEnc_next.2 ⟨_, runOn_idle hidle hresults, rfl⟩, ⟨rfl, rfl⟩, ⟨rfl, rfl⟩, rfl, rfl, rfl, rfl⟩

/-- Settles O29: one symbol without a code leaves the whole stream without an encoding. -/
theorem henEncRefusesUncodedSymbols : Obligations.HenEncRefusesUncodedSymbols := by
  unfold Obligations.HenEncRefusesUncodedSymbols
  intro s xs tab x ho hidle hx hnone
  exact exec_henEnc_refused hidle (henEncOp_uncoded ho (encodeSymbols_none tab xs x hx hnone))

end Sys2Proof.Machine

namespace Sys2Proof.Machine

/-! ### What HDE.DEC answers (R232 to R235) -/

/-- No bits are no symbols, whatever the tree (R234). -/
theorem decodeBits_nil (tree : Option HTree) : decodeBits tree [] = some [] := by
  rw [decodeBits]

/-- Bits without a tree have no root to walk from (R234). -/
theorem decodeBits_empty {bits : List Bool} (hne : bits ≠ []) : decodeBits none bits = none := by
  obtain ⟨b, bs, rfl⟩ := List.exists_cons_of_ne_nil hne
  rw [decodeBits]

/-- A lone leaf is its symbol once per bit (R233). -/
theorem decodeBits_leaf (x : Symbol) (n : Nat) (bits : List Bool) :
    decodeBits (some (.leaf x n)) bits = some (List.replicate bits.length x) := by
  cases bits <;> rfl

/-- Under a tree with an internal node exactly the concatenations of root-to-leaf paths decode (R232). -/
theorem decodeBits_node {n : Nat} {l r : HTree} {bits : List Bool} {out : List Symbol} :
    decodeBits (some (.node n l r)) bits = some out ↔
      ∃ path : List (Symbol × List Bool), (∀ p ∈ path, p ∈ walkCodes (.node n l r) []) ∧
        bits = path.flatMap Prod.snd ∧ out = path.map Prod.fst := by
  have hwalk : decodeBits (some (.node n l r)) bits = walkBits (.node n l r) none bits := by
    cases bits <;> rfl
  rw [hwalk, walkBits_iff]

section
variable {s : State} {bits : List Bool} {tree : Option HTree}

/-- With its operands `HDE.DEC` ends in `DONE` with the symbols the bits decode to, or in `FAULT` where they decode to none. -/
theorem exec_hdeDec_answers (h : DecoderOperands s bits tree) (hidle : s.hde.ctl.state = .idle) :
    ∃ t, exec .hdeDec s = .next t ∧ OnlyUnit .hde s t ∧
      (∀ out, decodeBits tree bits = some out →
        Done t.hde.ctl ∧ t.hde.res.symOut = out ∧ t.hde.res.outLen = BitVec.ofNat 64 out.length) ∧
      (decodeBits tree bits = none → Faulted .malformedStream t.hde.ctl) := by
  obtain ⟨e, he⟩ := hdeDecOp_answers h
  refine ⟨_, exec_hdeDec_next.2 ⟨_, runOn_idle hidle he, rfl⟩, ⟨rfl, endOperation_ops ..⟩, fun out hout => ?_, fun hnone => ?_⟩
  · rw [hdeDecOp_eq h, hout] at he
    obtain ⟨-, rfl⟩ := deliver_ok.1 he
    exact ⟨⟨rfl, rfl⟩, rfl, rfl⟩
  · rw [hdeDecOp_eq h, hnone] at he
    cases he
    exact ⟨rfl, rfl⟩

end

/-! ### The round trip of Huffman coding (R236) -/

section
variable {c d : State} {xs : List Symbol} {tree : Option HTree}

/-- The code table of an admitted tree codes every symbol of the stream, by its path in the tree (R199, R221). -/
theorem AdmittedTree.encodeSymbols_codeTable (h : AdmittedTree xs tree) : ∃ code : Symbol → List Bool,
    (∀ x ∈ xs, (x, code x) ∈ codesOf tree) ∧ encodeSymbols (codeTable (codesOf tree)) xs = some (xs.flatMap code) := by
  obtain ⟨-, hmem⟩ := h.leaves
  have hcoded : ∀ x ∈ xs, ∃ code, codeFor (codesOf tree) x = some code := fun x hx =>
    Option.isSome_iff_exists.1 ((codeFor_isSome tree x).2 ((hmem x).2 hx))
  choose! code hcode using hcoded
  refine ⟨code, fun x hx => mem_of_lookup (hcode x hx), encodeSymbols_eq _ xs code fun x hx => ?_⟩
  rw [tableCode_codeTable _ (codesOf_bounds tree h.size), hcode x hx]

/-- What `HEN.ENC` delivers with the code table of an admitted tree decodes to the stream. -/
theorem AdmittedTree.decodeBits_bitOut (h : AdmittedTree xs tree) (ho : EncoderOperands c xs (codeTable (codesOf tree)))
    (hexec : exec .henEnc c = .next d) : decodeBits tree d.hen.res.bitOut = some xs := by
  obtain ⟨code, hcode, hbits⟩ := h.encodeSymbols_codeTable
  obtain ⟨x, hx, rfl⟩ := exec_henEnc_next.1 hexec
  obtain ⟨-, e, he, rfl⟩ := runOn_ok.1 hx
  obtain ⟨-, rfl⟩ := deliver_ok.1 ((henEncOp_encoded ho hbits).symm.trans he)
  exact decodeBits_codes tree xs code hcode

/-- `HDE.DEC` on what `HEN.ENC` delivered for an admitted tree, given that tree, ends in `DONE` with the stream. -/
theorem AdmittedTree.exec_hdeDec_henEnc {f : State} (h : AdmittedTree xs tree)
    (hencoder : EncoderOperands c xs (codeTable (codesOf tree))) (hencode : exec .henEnc c = .next d)
    (hdecoder : DecoderOperands f d.hen.res.bitOut tree) (hidle : f.hde.ctl.state = .idle) :
    ∃ e, exec .hdeDec f = .next e ∧ Done e.hde.ctl ∧ e.hde.res.symOut = xs := by
  obtain ⟨e, he, -, hdone, -⟩ := exec_hdeDec_answers hdecoder hidle
  obtain ⟨hctl, hout, -⟩ := hdone xs (h.decodeBits_bitOut hencoder hencode)
  exact ⟨e, he, hctl, hout⟩

/-- `ROOT` as `HTB.BUILD` leaves it fits its nine bits (R108). -/
theorem htbResults_root_lt (draw : Nat) (hlen : xs.length < 2 ^ 32) : (htbResults draw xs).root.toNat < 2 ^ 9 := by
  have hroot := rootIndex_le xs hlen
  have hvalue : (htbResults draw xs).root.toNat = rootIndex (buildTree xs).1 := counter_toNat (by omega)
  omega

/-- An `HTB.BUILD` that answers delivered the tables of its stream (R200). -/
theorem exec_htbBuild_results {a b : State} (hstream : StreamOperand a.cap Config.maxIn a.htb.ops.inLen a.htb.ops.symIn xs)
    (hexec : exec .htbBuild a = .next b) : b.htb.res = htbResults a.htb.ctl.draws xs := by
  obtain ⟨x, hx, rfl⟩ := exec_htbBuild_next.1 hexec
  obtain ⟨-, e, he, rfl⟩ := runOn_ok.1 hx
  obtain ⟨ys, hys, -, rfl⟩ := htbBuildOp_ok.1 he
  rw [hys.unique hstream]
  rfl

end

/-- Settles O38: a code is the path to its symbol's leaf, so the walk reads the codes back one by one; and the tables that `HTB.BUILD`
writes are those of an admitted tree. -/
theorem huffmanRoundTrip : Obligations.HuffmanRoundTrip := by
  unfold Obligations.HuffmanRoundTrip
  refine ⟨fun a b c d f xs hstream hbuild hencoder hencode hbits htable hroot hidle hcap => ?_,
    fun c d f xs tree hadm hencoder hencode hdecoder hidle => hadm.exec_hdeDec_henEnc hencoder hencode hdecoder hidle⟩
  have hlen : xs.length < 2 ^ 32 := Nat.lt_of_le_of_lt hstream.admitted (by decide)
  obtain ⟨hwritten, hvalue⟩ := hroot
  rw [exec_htbBuild_results hstream hbuild] at hencoder htable hvalue
  have hdecoder : DecoderOperands f d.hen.res.bitOut ((buildTree xs).1.map QNode.tree) := by
    refine ⟨hbits, ⟨hwritten, ?_⟩, hcap, ?_⟩ <;> rw [hvalue]
    · exact htbResults_root_lt _ hlen
    · exact treeOf_htbResults _ hlen _ htable
  exact (buildTree_admitted xs).exec_hdeDec_henEnc hencoder hencode hdecoder hidle

/-- Settles O30: each shape of bits and tree decodes as its rule says, and the operation answers what the bits decode to. -/
theorem hdeDecWalksTheTree : Obligations.HdeDecWalksTheTree := by
  unfold Obligations.HdeDecWalksTheTree
  intro s bits tree ho hidle
  obtain ⟨t, hexec, honly, hdone, hfault⟩ := exec_hdeDec_answers ho hidle
  refine ⟨t, hexec, honly, ?_, ?_, ?_, ?_⟩
  · rintro rfl
    exact hdone [] (decodeBits_nil tree)
  · rintro hne rfl
    exact hfault (decodeBits_empty hne)
  · rintro x n rfl
    have hleaf := hdone _ (decodeBits_leaf x n bits)
    rwa [List.length_replicate] at hleaf
  · rintro n l r rfl
    refine ⟨fun path hpath hbits => ?_, fun hno => hfault (Option.eq_none_iff_forall_ne_some.2 fun out hout => ?_)⟩
    · have hwalk := hdone _ (decodeBits_node.2 ⟨path, hpath, hbits, rfl⟩)
      rwa [List.length_map] at hwalk
    · obtain ⟨path, hpath, hbits, -⟩ := decodeBits_node.1 hout
      exact hno ⟨path, hpath, hbits⟩

/-! ### HDE.DEC on a tree operand that is refused (R108, R231, R342) -/

section
variable {tbl : Buf NodeElem} {i root fuel : Nat} {seen : List Nat} {e : NodeElem}

/-- An index above 510 or reached before stops the walk. -/
theorem treeWalk_index_refused (h : Config.maxNodes ≤ i ∨ i ∈ seen) : treeWalk tbl fuel i seen = .error .treeNotWellFormed := by
  cases fuel with
  | zero => rfl
  | succ fuel => rw [treeWalk, if_pos h]

theorem treeOf_eq_treeWalk_error {r : Refusal} (hroot : root < Config.maxNodes)
    (h : treeWalk tbl Config.maxNodes root [] = .error r) : treeOf tbl root = .error r := by
  rw [treeOf, if_neg hroot.ne, h]

/-- At the root the walk looks at the root entry. -/
theorem treeWalk_root (hroot : root < Config.maxNodes) : ¬ (Config.maxNodes ≤ root ∨ root ∈ ([] : List Nat)) := by
  simpa using hroot

/-- A root entry that was never written. -/
theorem treeOf_root_missing (hroot : root < Config.maxNodes) (he : bufGet tbl root = none) :
    treeOf tbl root = .error .operandNotWritten := by
  refine treeOf_eq_treeWalk_error hroot ?_
  rw [Config.maxNodes, treeWalk, if_neg (treeWalk_root hroot), he]

/-- A root entry that is not valid. -/
theorem treeOf_root_invalid (hroot : root < Config.maxNodes) (he : bufGet tbl root = some e) (hvalid : entryValid e = false) :
    treeOf tbl root = .error .treeNotWellFormed := by
  refine treeOf_eq_treeWalk_error hroot ?_
  rw [Config.maxNodes, treeWalk, if_neg (treeWalk_root hroot), he]
  exact if_pos hvalid

/-- A root entry whose left child index is above 510 or its own: the left child is walked first, so nothing else is looked at. -/
theorem treeOf_left_refused (hroot : root < Config.maxNodes) (he : bufGet tbl root = some e) (hvalid : entryValid e = true)
    (hnode : entryLeaf e = false) (hleft : Config.maxNodes ≤ entryLeft e ∨ entryLeft e = root) :
    treeOf tbl root = .error .treeNotWellFormed := by
  refine treeOf_eq_treeWalk_error hroot ?_
  rw [Config.maxNodes, treeWalk, if_neg (treeWalk_root hroot), he]
  simp only [hvalid, hnode, treeWalk_index_refused (hleft.imp_right List.mem_singleton.2), Bool.true_eq_false,
    Bool.false_eq_true, if_false]

end

section
variable {s : State} {bits : List Bool} (hbits : StreamOperand s.cap Config.maxIn s.hde.ops.inLen s.hde.ops.bitIn bits)
  (hidle : s.hde.ctl.state = .idle)
include hbits hidle

/-- A refused tree operand refuses the operation, whatever the bits (assumption log 18). -/
theorem exec_hdeDec_sampleTree_refused {r : Refusal} (h : sampleTree s.cap s.hde.ops = .error r) :
    exec .hdeDec s = .refused r := by
  have hop : hdeDecOp s.cap s.hde = .error r := by
    simp only [hdeDecOp, sampleStream_ok.2 hbits, h]
  exact (operationSpec .hdeDec ⟨nofun, nofun⟩).exec_refused hidle hop

/-- A table that the capacity admits is refused by the name that its walk gives. -/
theorem exec_hdeDec_treeOf_refused {r : Refusal} (hwritten : s.hde.ops.root.written = true)
    (hroot : s.hde.ops.root.value.toNat < 2 ^ 9) (hcap : fitsCap s.cap Config.maxNodes = true)
    (h : treeOf s.hde.ops.treeIn s.hde.ops.root.value.toNat = .error r) : exec .hdeDec s = .refused r := by
  refine exec_hdeDec_sampleTree_refused hbits hidle ?_
  rw [sampleTree, sampleLow_ok.2 ⟨hwritten, hroot, rfl⟩]
  exact (if_pos hcap).trans h

end

/-- Settles O31: the walk of a table that is not well formed or not written stops, and the refusal of the tree operand is that of the
operation. -/
theorem hdeDecRefusesIllFormedTables : Obligations.HdeDecRefusesIllFormedTables := by
  unfold Obligations.HdeDecRefusesIllFormedTables
  intro s bits hbits hidle hwritten hroot
  have hlow : s.hde.ops.root.value.toNat < 2 ^ 9 := hroot.trans (by decide)
  have hrefused {r : Refusal} := exec_hdeDec_treeOf_refused (r := r) hbits hidle hwritten hlow
  have hcases := treeOf_cases s.hde.ops.treeIn _ (Nat.ne_of_lt hroot)
  refine ⟨fun hbad => ?_, fun hcap hall hshape => ?_, fun e hcap he => ⟨fun hvalid => ?_, fun hvalid hnode hleft => ?_,
    fun hvalid hnode hleft => ?_⟩, fun hcap he => hrefused hcap (treeOf_root_missing hroot he)⟩
  · cases hcap : fitsCap s.cap Config.maxNodes with
    | false => exact ⟨_, exec_hdeDec_sampleTree_refused hbits hidle (sampleTree_beyond hwritten hlow hcap)⟩
    | true =>
      rcases hcases with ⟨hshape, hall, -⟩ | ⟨-, -, htree⟩ | ⟨-, why, htree, -⟩
      · exact absurd ⟨hshape, hall⟩ hbad
      · exact ⟨_, hrefused hcap htree⟩
      · exact ⟨_, hrefused hcap htree⟩
  · rcases hcases with ⟨hgood, -⟩ | ⟨hgood, -⟩ | ⟨-, why, htree, hname⟩
    · exact absurd hgood hshape
    · exact absurd hgood hshape
    · rw [hrefused hcap htree, hname hall]
  · exact hrefused hcap (treeOf_root_invalid hroot he hvalid)
  · exact hrefused hcap (treeOf_left_refused hroot he hvalid hnode (.inl hleft.ge))
  · exact hrefused hcap (treeOf_left_refused hroot he hvalid hnode (.inr hleft))

end Sys2Proof.Machine

namespace Sys2Proof.Machine

/-! ### The codes of LZE.ENC (R252 to R255) -/

/-- Bytes give at least one code: the last match is flushed (R253). -/
theorem lzwEncode_ne_nil {b : List Symbol} (h : b ≠ []) : lzwEncode b ≠ [] := by
  intro hnil
  have hdecode := lzwDecode_lzwEncode b h
  rw [hnil] at hdecode
  cases hdecode

/-- Before the code at index `j` is emitted, at most `j` entries were inserted after the seed entries (R255). -/
theorem lzwEncode_code_lt (b : List Symbol) (j : Nat) (h : j < (lzwEncode b).length) :
    (lzwEncode b)[j] < Config.numSeed + j := by
  obtain ⟨strings, hstrings, -, -⟩ := lzwEncode_strings b
  have hrange := hstrings.inRange j h
  split at hrange <;> omega

/-- Each code of `N` bytes is at most `255 + (N - 1)` (R255). -/
theorem lzwEncode_code_le {b : List Symbol} {k : Nat} (h : k ∈ lzwEncode b) : k ≤ 255 + (b.length - 1) := by
  obtain ⟨j, hj, rfl⟩ := List.getElem_of_mem h
  have hcode := lzwEncode_code_lt b j hj
  have hlen := lzwEncode_length_le b
  rw [Config.numSeed] at hcode
  omega

/-- A single byte is a seed entry, which the flush emits (R251, R253). -/
theorem lzwEncode_singleton (c : Symbol) : lzwEncode [c] = [c.toNat] := by
  have hlookup := seedDict_lookup c
  simp only [lzwEncode, lzwEncodeFrom, List.nil_append, hlookup, dictCode, Option.getD_some, List.cons_ne_nil, if_false]

/-- An `LZE.ENC` that answers delivered the codes of its stream. -/
theorem exec_lzeEnc_codes {s t : State} {b : List Symbol}
    (hb : StreamOperand s.cap Config.maxIn s.lze.ops.inLen s.lze.ops.symIn b) (hexec : exec .lzeEnc s = .next t) :
    t.lze.res.lzcOut.map BitVec.toNat = lzwEncode b := by
  obtain ⟨x, hx, rfl⟩ := exec_lzeEnc_next.1 hexec
  obtain ⟨-, e, he, rfl⟩ := runOn_ok.1 hx
  obtain ⟨b', hb', hdeliver⟩ := lzeEncOp_ok.1 he
  obtain rfl := hb.unique hb'
  obtain ⟨-, rfl⟩ := deliver_ok.1 hdeliver
  exact lzwEncode_toNat hb.admitted

/-- Settles O33: there are no more codes than bytes, so the codes fit where the bytes did, and their strings are the longest matches. -/
theorem lzeEncEmitsLongestMatches : Obligations.LzeEncEmitsLongestMatches := by
  unfold Obligations.LzeEncEmitsLongestMatches
  intro s b hb hidle
  obtain ⟨strings, hstrings, hgreedy, hflatten⟩ := lzwEncode_strings b
  have hfits : fitsCap s.cap (lzwEncode b).length = true := fitsCap_mono (lzwEncode_length_le b) hb.capacity
  have hop := lzeEncOp_ok.2 ⟨b, hb, deliver_ok.2 ⟨hfits, rfl⟩⟩
  have hexec := exec_lzeEnc_next.2 ⟨_, runOn_idle hidle hop, rfl⟩
  have hlen := congrArg (BitVec.ofNat 64) (List.length_map (as := lzwEncode b) (BitVec.ofNat 64)).symm
  exact ⟨_, strings, hexec, ⟨rfl, rfl⟩, ⟨rfl, rfl⟩, by rwa [exec_lzeEnc_codes hb hexec], hgreedy, hflatten, hlen, rfl, hlen⟩

/-- Settles O34: the bounds are those of the codes of the stream, which the 64-bit elements hold. -/
theorem lzwDictionaryGrowthIsBounded : Obligations.LzwDictionaryGrowthIsBounded := by
  unfold Obligations.LzwDictionaryGrowthIsBounded
  intro s t b hb hexec
  have hcodes := exec_lzeEnc_codes hb hexec
  have hlen : t.lze.res.lzcOut.length = (lzwEncode b).length := by rw [← hcodes, List.length_map]
  refine ⟨hlen ▸ lzwEncode_length_le b, fun hne => hlen ▸ List.length_pos_iff.2 (lzwEncode_ne_nil hne), fun k hk => ?_,
    fun j hj _ => ?_, fun hone => ?_⟩
  · exact lzwEncode_code_le (hcodes ▸ List.mem_map_of_mem hk)
  · have hcode := lzwEncode_code_lt b j (hlen ▸ hj)
    simp only [← hcodes, List.getElem_map] at hcode
    exact hcode
  · obtain ⟨c, rfl⟩ := List.length_eq_one_iff.1 hone
    exact hcodes.trans (lzwEncode_singleton c)

end Sys2Proof.Machine

namespace Sys2Proof.Machine

/-! ### An operation that answers (R44, R307) -/

/-- An `IDLE` unit whose operation answers takes the end of its operation. -/
theorem OperationSpec.exec_answers {i : Instr} (o : OperationSpec i) {s : State} {e : Ending o.R}
    (hidle : (control s (instrUnit i)).state = .idle) (h : o.op s.cap (o.lens.get s) = .ok e) :
    exec i s = .next (o.lens.put s (endOperation o.unspec o.rest (o.lens.get s) e)) := by
  rw [o.exec_eq, runOn_idle (by rwa [← o.lens.control_eq]) h]
  rfl

/-- A unit in `IDLE` whose operation answers a fault enters it. -/
theorem exec_faulted {i : Instr} (hop : IsOperation i) {s : State} {f : FaultCode} (hidle : (control s (instrUnit i)).state = .idle)
    (h : (operationSpec i hop).op s.cap ((operationSpec i hop).lens.get s) = .ok (.raises f)) :
    ∃ t, exec i s = .next t ∧ OnlyUnit (instrUnit i) s t ∧ Faulted f (control t (instrUnit i)) := by
  have hexec := (operationSpec i hop).exec_answers hidle h
  refine ⟨_, hexec, (operationSpec i hop).exec_onlyUnit hexec, ?_⟩
  rw [UnitLens.control_put]
  exact ⟨rfl, rfl⟩

/-! ### What LZD.DEC answers (R272 to R278) -/

section
variable {s : State} {codes : List (BitVec 64)}

theorem exec_lzdDec_refused {r : Refusal} (hidle : s.lzd.ctl.state = .idle) (h : lzdDecOp s.cap s.lzd = .error r) :
    exec .lzdDec s = .refused r :=
  (operationSpec .lzdDec ⟨nofun, nofun⟩).exec_refused hidle h

/-- Codes that decode: their bytes are delivered where the capacity admits them (R348). -/
theorem lzdDecOp_decoded {out : List Symbol} (h : StreamOperand s.cap Config.maxIn s.lzd.ops.inLen s.lzd.ops.lzcIn codes)
    (hdecode : lzwDecode (codes.map BitVec.toNat) = .ok out) :
    lzdDecOp s.cap s.lzd = deliver (fitsCap s.cap out.length) { outLen := counter out.length, symOut := out } := by
  rw [lzdDecOp_eq h, hdecode]

theorem exec_lzdDec_decoded {out : List Symbol} (h : StreamOperand s.cap Config.maxIn s.lzd.ops.inLen s.lzd.ops.lzcIn codes)
    (hidle : s.lzd.ctl.state = .idle) (hdecode : lzwDecode (codes.map BitVec.toNat) = .ok out)
    (hfits : fitsCap s.cap out.length = true) :
    ∃ t, exec .lzdDec s = .next t ∧ OnlyUnit .lzd s t ∧ Done t.lzd.ctl ∧ t.lzd.res.symOut = out ∧
      t.lzd.res.outLen.toNat = out.length := by
  have hop := (lzdDecOp_decoded h hdecode).trans (deliver_ok.2 ⟨hfits, rfl⟩)
  exact ⟨_, exec_lzdDec_next.2 ⟨_, runOn_idle hidle hop, rfl⟩, ⟨rfl, rfl⟩, ⟨rfl, rfl⟩, rfl, lzdDecOp_counted hop⟩

/-- Codes that do not decode: the fault comes whatever the capacity (assumption log 24). -/
theorem lzdDecOp_faulted {f : FaultCode} (h : StreamOperand s.cap Config.maxIn s.lzd.ops.inLen s.lzd.ops.lzcIn codes)
    (hdecode : lzwDecode (codes.map BitVec.toNat) = .error f) : lzdDecOp s.cap s.lzd = .ok (.raises f) := by
  rw [lzdDecOp_eq h, hdecode]

theorem exec_lzdDec_faulted {f : FaultCode} (h : StreamOperand s.cap Config.maxIn s.lzd.ops.inLen s.lzd.ops.lzcIn codes)
    (hidle : s.lzd.ctl.state = .idle) (hdecode : lzwDecode (codes.map BitVec.toNat) = .error f) :
    ∃ t, exec .lzdDec s = .next t ∧ OnlyUnit .lzd s t ∧ Faulted f t.lzd.ctl :=
  exec_faulted (i := .lzdDec) ⟨nofun, nofun⟩ hidle (lzdDecOp_faulted h hdecode)

end

/-- Settles O39: the 64-bit elements hold the codes of the stream, which decode to it; no codes decode to `EmptyStream`. -/
theorem lzwRoundTrip : Obligations.LzwRoundTrip := by
  unfold Obligations.LzwRoundTrip
  intro s t d b hb hexec hcodes hidle hfits
  have hencoded := exec_lzeEnc_codes hb hexec
  by_cases hne : b = []
  · subst hne
    have hdecode : lzwDecode (t.lze.res.lzcOut.map BitVec.toNat) = .error .emptyStream := by rw [hencoded]; rfl
    obtain ⟨e, he, -, hfault⟩ := exec_lzdDec_faulted hcodes hidle hdecode
    exact ⟨e, he, (absurd rfl ·), fun _ => hfault⟩
  · have hdecode : lzwDecode (t.lze.res.lzcOut.map BitVec.toNat) = .ok b := by rw [hencoded, lzwDecode_lzwEncode b hne]
    obtain ⟨e, he, -, hdone, hout, -⟩ := exec_lzdDec_decoded hcodes hidle hdecode hfits
    exact ⟨e, he, fun _ => ⟨hdone, hout⟩, (absurd · hne)⟩

/-- Settles O35: codes in range decode to their strings in a row, and any other code is the fault. -/
theorem lzdDecConcatenatesStrings : Obligations.LzdDecConcatenatesStrings := by
  unfold Obligations.LzdDecConcatenatesStrings
  intro s codes h hidle hne
  obtain ⟨hin, hout⟩ := lzwDecode_strings (codes.map BitVec.toNat) (by simpa using hne)
  refine ⟨fun hrange => ?_, fun hrange => exec_lzdDec_faulted h hidle (hout hrange)⟩
  obtain ⟨strings, hstrings, hdecode⟩ := hin hrange
  refine ⟨strings, hstrings, exec_lzdDec_decoded h hidle hdecode, fun hlong => exec_lzdDec_refused hidle ?_⟩
  rw [lzdDecOp_decoded h hdecode, hlong]
  rfl

end Sys2Proof.Machine

namespace Sys2Proof.Machine

/-! ### What raises a fault (R302 to R306) -/

section
variable {i : Instr} {s : State} {f : FaultCode}

/-- An operation raises a fault where its unit is in `IDLE` and its rule answers that fault (R100, R307). -/
theorem raises_operation (hop : IsOperation i) :
    Raises i s f ↔ (control s (instrUnit i)).state = .idle ∧
      (operationSpec i hop).op s.cap ((operationSpec i hop).lens.get s) = .ok (.raises f) := by
  constructor
  · rintro ⟨t, u, hexec, hfault, hbefore⟩
    have honly := (operationSpec i hop).exec_onlyUnit hexec
    obtain ⟨hidle, e, he, rfl⟩ := (operationSpec i hop).exec_ok hexec
    refine ⟨hidle, ?_⟩
    rcases eq_or_ne u (instrUnit i) with rfl | hne
    · rw [UnitLens.control_put] at hfault
      obtain ⟨hstate, hcode⟩ := hfault
      cases e with
      | results r => cases hstate
      | raises g => rw [he, ← hcode, endOperation_raises, raiseFault_fault]
    · rw [honly.control_of_ne hne] at hfault
      exact absurd hfault hbefore
  · rintro ⟨hidle, he⟩
    refine ⟨_, instrUnit i, (operationSpec i hop).exec_answers hidle he, ?_, fun hbefore => ?_⟩
    · rw [UnitLens.control_put]
      exact ⟨rfl, rfl⟩
    · cases hidle.symm.trans hbefore.1

/-- An operation raises only the faults of its row (R305). -/
theorem mem_mayRaise_of_operation (hop : IsOperation i) (h : Raises i s f) : f ∈ mayRaise i :=
  operation_raises hop ((raises_operation hop).1 h).2

theorem not_raises_clear (u : UnitId) (b : BitVec 8) : ¬ Raises (.clear u b) s f := by
  rintro ⟨t, v, hexec, hfault, hbefore⟩
  rcases eq_or_ne v u with rfl | hne
  · obtain ⟨-, hidle, -⟩ := execClear_move hexec
    cases hidle.symm.trans hfault.1
  · rw [(execClear_onlyUnit hexec).control_of_ne hne] at hfault
    exact absurd hfault hbefore

/-- Neither half of the pseudo-operation raises a fault (R224, R305). -/
theorem not_raises_hufEncode : ¬ Raises .hufEncode s f := by
  rintro ⟨t, v, hexec, hfault, hbefore⟩
  obtain ⟨s1, hbuild, hencode⟩ := exec_hufEncode_next.1 hexec
  have hcarried : control (carryToEncoder s1) v = control s1 v := (carryToEncoder_results s1 v).control
  by_cases hmid : Faulted f (control s1 v)
  · exact absurd (mem_mayRaise_of_operation (i := .htbBuild) ⟨nofun, nofun⟩ ⟨s1, v, hbuild, hmid, hbefore⟩) nofun
  · rw [← hcarried] at hmid
    exact absurd (mem_mayRaise_of_operation (i := .henEnc) ⟨nofun, nofun⟩ ⟨t, v, hencode, hfault, hmid⟩) nofun

theorem isOperation_of_raises (h : Raises i s f) : IsOperation i where
  left hi := not_raises_hufEncode (hi ▸ h)
  right u b hi := not_raises_clear u b (hi ▸ h)

theorem mem_mayRaise (h : Raises i s f) : f ∈ mayRaise i := mem_mayRaise_of_operation (isOperation_of_raises h) h

/-! ### The faults of LZD.DEC (R302, R303) -/

theorem raises_lzdDec : Raises .lzdDec s f ↔ s.lzd.ctl.state = .idle ∧
    ∃ codes, StreamOperand s.cap Config.maxIn s.lzd.ops.inLen s.lzd.ops.lzcIn codes ∧
      lzwDecode (codes.map BitVec.toNat) = .error f := by
  refine (raises_operation (i := .lzdDec) ⟨nofun, nofun⟩).trans (and_congr_right fun _ => ⟨fun h => ?_, fun ⟨codes, ho, hdecode⟩ => ?_⟩)
  · have h : lzdDecOp s.cap s.lzd = .ok (.raises f) := h
    obtain ⟨codes, ho⟩ := lzdDecOp_operands h
    rw [lzdDecOp_eq ho] at h
    refine ⟨codes, ho, ?_⟩
    split at h
    · next g hg => cases h; exact hg
    · exact absurd h deliver_ne_raises
  · exact lzdDecOp_faulted ho hdecode

theorem lzwDecode_emptyStream {codes : List Nat} : lzwDecode codes = .error .emptyStream ↔ codes = [] := by
  refine ⟨fun h => ?_, fun h => h ▸ rfl⟩
  by_contra hne
  obtain ⟨hin, hout⟩ := lzwDecode_strings codes hne
  by_cases hrange : CodesInRange codes
  · obtain ⟨strings, -, hdecode⟩ := hin hrange
    cases hdecode.symm.trans h
  · cases (hout hrange).symm.trans h

theorem lzwDecode_invalidCode {codes : List Nat} : lzwDecode codes = .error .invalidCode ↔ ¬ CodesInRange codes := by
  rcases eq_or_ne codes [] with rfl | hne
  · exact ⟨nofun, fun h => absurd (fun j hj => absurd hj (Nat.not_lt_zero j)) h⟩
  · obtain ⟨hin, hout⟩ := lzwDecode_strings codes hne
    refine ⟨fun h hrange => ?_, hout⟩
    obtain ⟨strings, -, hdecode⟩ := hin hrange
    cases hdecode.symm.trans h

/-- A code out of range is the first one, from 256 on, or a later one at an index that it passes by 256 or more (R302). -/
theorem not_codesInRange {codes : List (BitVec 64)} : ¬ CodesInRange (codes.map BitVec.toNat) ↔
    (∃ k rest, codes = k :: rest ∧ 256 ≤ k.toNat) ∨
      ∃ pos, ∃ h : pos < codes.length, 1 ≤ pos ∧ 256 + pos - 1 < codes[pos].toNat := by
  constructor
  · intro h
    simp only [CodesInRange, not_forall, List.length_map, List.getElem_map, Config.numSeed] at h
    obtain ⟨j, hj, hbad⟩ := h
    cases j with
    | zero =>
      obtain ⟨k, rest, rfl⟩ := List.exists_cons_of_length_pos hj
      exact .inl ⟨k, rest, rfl, Nat.le_of_not_lt hbad⟩
    | succ j =>
      rw [if_neg (Nat.succ_ne_zero j)] at hbad
      exact .inr ⟨j + 1, hj, by omega, by omega⟩
  · rintro (⟨k, rest, rfl, hk⟩ | ⟨pos, hpos, h1, hbad⟩) hrange
    · have h0 := hrange 0 (by simp)
      exact absurd h0 (Nat.not_lt.2 hk)
    · have hcode := hrange pos (by simpa using hpos)
      rw [if_neg (by omega), List.getElem_map, Config.numSeed] at hcode
      omega

end

/-- A register that holds 0 counts the empty sequence, and no other. -/
theorem streamOperand_nil_iff {α : Type} {cap : Option Nat} {bound : Nat} {len : OpReg} {b : Buf α} :
    StreamOperand cap bound len b [] ↔ len.written = true ∧ len.value = 0 := by
  constructor
  · intro h
    exact ⟨h.written, BitVec.eq_of_toNat_eq h.counted⟩
  · rintro ⟨hwritten, hzero⟩
    refine ⟨hwritten, by rw [hzero]; rfl, Nat.zero_le _, ?_, fun i hi => absurd hi (Nat.not_lt_zero i)⟩
    cases cap with
    | none => rfl
    | some c => exact decide_eq_true (Nat.zero_le c)

/-- `InvalidCode` and `EmptyStream` stand in the row of `LZD.DEC` only (R305). -/
theorem eq_lzdDec_of_mem_mayRaise {i : Instr} {f : FaultCode} (h : f ∈ mayRaise i) (hf : f = .invalidCode ∨ f = .emptyStream) :
    i = .lzdDec := by
  rcases hf with rfl | rfl <;> cases i <;> simp [mayRaise] at h ⊢

/-- Settles O41: among the instructions only `LZD.DEC` may raise the fault, and it does where its codes do not decode. -/
theorem invalidCodeEveryCause : Obligations.InvalidCodeEveryCause := by
  unfold Obligations.InvalidCodeEveryCause
  intro i s
  simp only [← not_codesInRange, ← lzwDecode_invalidCode, ← raises_lzdDec]
  refine ⟨fun h => ?_, fun ⟨hi, h⟩ => hi ▸ h⟩
  obtain rfl := eq_lzdDec_of_mem_mayRaise (mem_mayRaise h) (.inl rfl)
  exact ⟨rfl, h⟩

/-! ### Decoders on empty input (R172, R175, R234, R276) -/

section
variable {s : State} {w h : BitVec 64}

/-- No pairs replay to no raster. -/
theorem rldDecsOp_nil (ho : PairOperands s [] w h) (hw : 1 ≤ w.toInt) (hh : 1 ≤ h.toInt) (hmax : w.toNat * h.toNat ≤ Config.maxIn) :
    rldDecsOp s.cap s.rld = .ok (.raises .malformedStream) := by
  have hsize : (([] : List PairElem).map pairCount).sum ≠ w.toNat * h.toNat := by
    have hw' := toInt_of_pos hw
    have hh' := toInt_of_pos hh
    exact (Nat.mul_pos (by omega) (by omega)).ne
  rw [rldDecsOp_eq ho, badDimensions_eq_false hw hh, if_neg Bool.false_ne_true, if_neg (Nat.not_lt.2 hmax), replayPairs_elements,
    if_neg hsize]

theorem decodePlane_nil {n : Nat} (hn : 1 ≤ n) : decodePlane n [] = none := by
  rw [decodePlane_eq, if_neg]
  rintro ⟨-, hsum⟩
  have hzero : (fieldValues (([] : List Bool).length / 32) []).sum = 0 := rfl
  omega

/-- A plane without fields describes no raster, whatever the other planes are. -/
theorem rldDecbOp_nil {planes : Vector (List Bool) 8} (ho : PlaneOperands s planes w h) (p : Fin 8) (hp : planes[p] = [])
    (hw : 1 ≤ w.toInt) (hh : 1 ≤ h.toInt) (hmax : w.toNat * h.toNat ≤ Config.maxIn) :
    rldDecbOp s.cap s.rld = .ok (.raises .malformedStream) := by
  have hsize : 1 ≤ w.toNat * h.toNat := by
    have hw' := toInt_of_pos hw
    have hh' := toInt_of_pos hh
    exact Nat.mul_pos (by omega) (by omega)
  rw [rldDecbOp_eq ho, badDimensions_eq_false hw hh, if_neg Bool.false_ne_true, if_neg (Nat.not_lt.2 hmax)]
  rcases decodePlanes_spec (w.toNat * h.toNat) planes.toList (by simp) with ⟨hnone, -⟩ | ⟨out, -, -, hall⟩
  · rw [hnone]
  · have hplane := hall p.val (by simp)
    have hget : planes.toList[p.val]'(by simp) = [] := by simpa using hp
    rw [hget, decodePlane_nil hsize] at hplane
    cases hplane

end

/-- Settles O42: `LZD.DEC` raises the fault where it has no codes, and the other decoders do what no elements mean to them. -/
theorem emptyStreamEveryCause : Obligations.EmptyStreamEveryCause := by
  unfold Obligations.EmptyStreamEveryCause
  refine ⟨fun i s => ?_, fun s w h ho hidle hw hh hmax => ?_, fun s planes p w h ho hp hidle hw hh hmax => ?_,
    fun s tree ho hidle => ?_⟩
  · have hlzd : Raises .lzdDec s .emptyStream ↔
        s.lzd.ctl.state = .idle ∧ s.lzd.ops.inLen.written = true ∧ s.lzd.ops.inLen.value = 0 := by
      simp only [raises_lzdDec, lzwDecode_emptyStream, List.map_eq_nil_iff, exists_eq_right, streamOperand_nil_iff]
    rw [← hlzd]
    refine ⟨fun h => ?_, fun ⟨hi, h⟩ => hi ▸ h⟩
    obtain rfl := eq_lzdDec_of_mem_mayRaise (mem_mayRaise h) (.inr rfl)
    exact ⟨rfl, h⟩
  · obtain ⟨t, hexec, -, hfault⟩ := exec_faulted (i := .rldDecs) ⟨nofun, nofun⟩ hidle (rldDecsOp_nil ho hw hh hmax)
    exact ⟨t, hexec, hfault⟩
  · obtain ⟨t, hexec, -, hfault⟩ := exec_faulted (i := .rldDecb) ⟨nofun, nofun⟩ hidle (rldDecbOp_nil ho p hp hw hh hmax)
    exact ⟨t, hexec, hfault⟩
  · obtain ⟨t, hexec, -, hdone, -⟩ := exec_hdeDec_answers ho hidle
    obtain ⟨hd, hout, -⟩ := hdone [] (decodeBits_nil tree)
    exact ⟨t, hexec, hd, hout⟩

/-! ### The dimension check (R150, R170, R304, R306) -/

theorem badDimensions_iff {w h : BitVec 64} : badDimensions w h = true ↔ w.toInt ≤ 0 ∨ h.toInt ≤ 0 := by
  simp [badDimensions]

theorem badRaster_iff {w h : BitVec 64} {n : Nat} :
    badRaster w h n = true ↔ w.toInt ≤ 0 ∨ h.toInt ≤ 0 ∨ (n : Int) ≠ w.toInt * h.toInt := by
  simp [badRaster, badDimensions_iff, or_assoc]

section
variable {s : State} {w h : BitVec 64} {f : FaultCode}

/-- An operation that delivers unless a check fails raises a fault where the check fails. -/
theorem check_raises_iff {R : Type} {bad fits : Bool} {r : R} :
    (if bad then .ok (.raises .invalidDimensions) else deliver fits r) = (.ok (.raises f) : Except Refusal (Ending R)) ↔
      bad = true ∧ f = .invalidDimensions := by
  cases bad with
  | false => exact ⟨fun hd => absurd hd deliver_ne_raises, nofun⟩
  | true => exact ⟨fun hd => by cases hd; exact ⟨rfl, rfl⟩, fun ⟨_, hf⟩ => hf ▸ rfl⟩

theorem rleEncsOp_raises_iff : rleEncsOp s.cap s.rle = .ok (.raises f) ↔
    ∃ r w h, RasterOperands s r w h ∧ badRaster w h r.length = true ∧ f = .invalidDimensions := by
  constructor
  · intro he
    obtain ⟨r, w, h, ho⟩ := rleEncsOp_operands he
    rw [rleEncsOp_eq ho] at he
    exact ⟨r, w, h, ho, check_raises_iff.1 he⟩
  · rintro ⟨r, w, h, ho, hbad⟩
    rw [rleEncsOp_eq ho]
    exact check_raises_iff.2 hbad

theorem rleEncbOp_raises_iff : rleEncbOp s.cap s.rle = .ok (.raises f) ↔
    ∃ r w h, RasterOperands s r w h ∧ badRaster w h r.length = true ∧ f = .invalidDimensions := by
  constructor
  · intro he
    obtain ⟨r, w, h, ho⟩ := rleEncbOp_operands he
    rw [rleEncbOp_eq ho] at he
    exact ⟨r, w, h, ho, check_raises_iff.1 he⟩
  · rintro ⟨r, w, h, ho, hbad⟩
    rw [rleEncbOp_eq ho]
    exact check_raises_iff.2 hbad

/-- With bad dimensions the pairs are not looked at (R306). -/
theorem rldDecsOp_badDimensions {pairs : List PairElem} (ho : PairOperands s pairs w h) (hbad : badDimensions w h = true) :
    rldDecsOp s.cap s.rld = .ok (.raises .invalidDimensions) := by
  rw [rldDecsOp_eq ho, if_pos hbad]

theorem rldDecbOp_badDimensions {planes : Vector (List Bool) 8} (ho : PlaneOperands s planes w h) (hbad : badDimensions w h = true) :
    rldDecbOp s.cap s.rld = .ok (.raises .invalidDimensions) := by
  rw [rldDecbOp_eq ho, if_pos hbad]

theorem rldDecsOp_invalidDimensions_iff : rldDecsOp s.cap s.rld = .ok (.raises .invalidDimensions) ↔
    ∃ pairs w h, PairOperands s pairs w h ∧ badDimensions w h = true := by
  refine ⟨fun he => ?_, fun ⟨pairs, w, h, ho, hbad⟩ => rldDecsOp_badDimensions ho hbad⟩
  obtain ⟨pairs, w, h, ho⟩ := rldDecsOp_operands he
  refine ⟨pairs, w, h, ho, ?_⟩
  rw [rldDecsOp_eq ho] at he
  split_ifs at he with hbad
  · exact hbad
  · split at he
    · cases he
    · exact absurd he deliver_ne_raises

theorem rldDecbOp_invalidDimensions_iff : rldDecbOp s.cap s.rld = .ok (.raises .invalidDimensions) ↔
    ∃ planes w h, PlaneOperands s planes w h ∧ badDimensions w h = true := by
  refine ⟨fun he => ?_, fun ⟨planes, w, h, ho, hbad⟩ => rldDecbOp_badDimensions ho hbad⟩
  obtain ⟨planes, w, h, ho⟩ := rldDecbOp_operands he
  refine ⟨planes, w, h, ho, ?_⟩
  rw [rldDecbOp_eq ho] at he
  split_ifs at he with hbad
  · exact hbad
  · split at he
    · cases he
    · exact absurd he deliver_ne_raises

/-- `InvalidDimensions` stands in the rows of the run-length operations (R305). -/
theorem mem_mayRaise_invalidDimensions {i : Instr} (hmem : FaultCode.invalidDimensions ∈ mayRaise i) :
    (i = .rleEncs ∨ i = .rleEncb) ∨ i = .rldDecs ∨ i = .rldDecb := by
  cases i <;> simp [mayRaise] at hmem ⊢

theorem raises_rle {i : Instr} (hi : i = .rleEncs ∨ i = .rleEncb) : Raises i s f ↔ s.rle.ctl.state = .idle ∧
    ∃ r w h, RasterOperands s r w h ∧ badRaster w h r.length = true ∧ f = .invalidDimensions := by
  rcases hi with rfl | rfl
  · exact (raises_operation (i := .rleEncs) ⟨nofun, nofun⟩).trans (and_congr_right fun _ => rleEncsOp_raises_iff)
  · exact (raises_operation (i := .rleEncb) ⟨nofun, nofun⟩).trans (and_congr_right fun _ => rleEncbOp_raises_iff)

theorem raises_rldDecs_invalidDimensions : Raises .rldDecs s .invalidDimensions ↔ s.rld.ctl.state = .idle ∧
    ∃ pairs w h, PairOperands s pairs w h ∧ badDimensions w h = true :=
  (raises_operation (i := .rldDecs) ⟨nofun, nofun⟩).trans (and_congr_right fun _ => rldDecsOp_invalidDimensions_iff)

theorem raises_rldDecb_invalidDimensions : Raises .rldDecb s .invalidDimensions ↔ s.rld.ctl.state = .idle ∧
    ∃ planes w h, PlaneOperands s planes w h ∧ badDimensions w h = true :=
  (raises_operation (i := .rldDecb) ⟨nofun, nofun⟩).trans (and_congr_right fun _ => rldDecbOp_invalidDimensions_iff)

end

/-- Settles O43: the four run-length operations raise the fault where their check of the dimensions fails. -/
theorem invalidDimensionsEveryCause : Obligations.InvalidDimensionsEveryCause := by
  unfold Obligations.InvalidDimensionsEveryCause
  intro i s
  simp only [← badRaster_iff, ← badDimensions_iff]
  constructor
  · intro h
    rcases mem_mayRaise_invalidDimensions (mem_mayRaise h) with hi | rfl | rfl
    · obtain ⟨hidle, r, w, ht, ho, hbad, -⟩ := (raises_rle hi).1 h
      exact .inl ⟨hi, hidle, r, w, ht, ho, hbad⟩
    · exact .inr (.inl ⟨rfl, raises_rldDecs_invalidDimensions.1 h⟩)
    · exact .inr (.inr ⟨rfl, raises_rldDecb_invalidDimensions.1 h⟩)
  · rintro (⟨hi, hidle, r, w, ht, ho, hbad⟩ | ⟨rfl, h⟩ | ⟨rfl, h⟩)
    · exact (raises_rle hi).2 ⟨hidle, r, w, ht, ho, hbad, rfl⟩
    · exact raises_rldDecs_invalidDimensions.2 h
    · exact raises_rldDecb_invalidDimensions.2 h

/-- Settles O44: bad dimensions decide before the stream is looked at. -/
theorem dimensionsWinOverMalformed : Obligations.DimensionsWinOverMalformed := by
  unfold Obligations.DimensionsWinOverMalformed
  refine ⟨fun s pairs w h ho hidle hbad => ?_, fun s planes w h ho hidle hbad => ?_⟩
  · exact exec_faulted (i := .rldDecs) ⟨nofun, nofun⟩ hidle (rldDecsOp_badDimensions ho (badDimensions_iff.2 hbad))
  · exact exec_faulted (i := .rldDecb) ⟨nofun, nofun⟩ hidle (rldDecbOp_badDimensions ho (badDimensions_iff.2 hbad))

/-! ### Which operation raises which fault (R305) -/

/-- Every length is 0, and the rasters are `w` by `h`: the inputs that are empty, where the dimensions are not bad. -/
def emptyInputs (w h : BitVec 64) : State :=
  { State.reset with
    rle := { State.reset.rle with ops := { width := writtenReg w, height := writtenReg h, inLen := writtenReg 0, symIn := [] } }
    rld := { State.reset.rld with ops :=
      { width := writtenReg w, height := writtenReg h, inLen := writtenReg 0, planeLen := Vector.replicate 8 (writtenReg 0),
        pairIn := [], planeIn := Vector.replicate 8 [] } }
    lzd := { State.reset.lzd with ops := { inLen := writtenReg 0, lzcIn := [] } } }

/-- A bit for the `Empty` tree, and a first code of 256: inputs of one element that do not decode. -/
def badElements : State :=
  { State.reset with
    hde := { State.reset.hde with ops := { inLen := writtenReg 1, root := writtenReg 511, bitIn := [(0, true)], treeIn := [] } }
    lzd := { State.reset.lzd with ops := { inLen := writtenReg 1, lzcIn := [(0, 256)] } } }

/-- Only operations have a row with faults. -/
theorem isOperation_of_mem_mayRaise {i : Instr} {f : FaultCode} (h : f ∈ mayRaise i) : IsOperation i where
  left hi := by subst hi; exact nomatch h
  right u b hi := by subst hi; exact nomatch h

/-- Every fault of a row is raised: empty inputs, bad dimensions and bad elements are enough (R305). -/
theorem exists_raises {i : Instr} {f : FaultCode} (h : f ∈ mayRaise i) : ∃ s, Raises i s f := by
  have hop := isOperation_of_mem_mayRaise h
  cases i <;> simp only [mayRaise, List.mem_cons, List.not_mem_nil, or_false] at h
  case rleEncs => subst h; exact ⟨emptyInputs 0 0, (raises_operation hop).2 ⟨rfl, rfl⟩⟩
  case rleEncb => subst h; exact ⟨emptyInputs 0 0, (raises_operation hop).2 ⟨rfl, rfl⟩⟩
  case rldDecs =>
    rcases h with rfl | rfl
    · exact ⟨emptyInputs 1 1, (raises_operation hop).2 ⟨rfl, rfl⟩⟩
    · exact ⟨emptyInputs 0 0, (raises_operation hop).2 ⟨rfl, rfl⟩⟩
  case rldDecb =>
    rcases h with rfl | rfl
    · exact ⟨emptyInputs 1 1, (raises_operation hop).2 ⟨rfl, rfl⟩⟩
    · exact ⟨emptyInputs 0 0, (raises_operation hop).2 ⟨rfl, rfl⟩⟩
  case hdeDec => subst h; exact ⟨badElements, (raises_operation hop).2 ⟨rfl, rfl⟩⟩
  case lzdDec =>
    rcases h with rfl | rfl
    · exact ⟨badElements, (raises_operation hop).2 ⟨rfl, rfl⟩⟩
    · exact ⟨emptyInputs 0 0, (raises_operation hop).2 ⟨rfl, rfl⟩⟩

/-- Settles O40: what is raised stands in the row, what stands in the row is raised somewhere, and the one fault in the rows of the
run-length encoders needs a raster that fails the check. -/
theorem faultMatrix : Obligations.FaultMatrix := by
  unfold Obligations.FaultMatrix
  refine ⟨fun i s f _ h => mem_mayRaise h, fun i f h => exists_raises h, fun s r w h i f ho hw hh hn hi _ hraises => ?_⟩
  obtain ⟨-, r', w', h', ho', hbad, -⟩ := (raises_rle hi).1 hraises
  have hsample := (sampleRaster_ok.2 ho).symm.trans (sampleRaster_ok.2 ho')
  cases hsample
  cases (badRaster_eq_false.2 ⟨hw, hh, hn⟩).symm.trans hbad

end Sys2Proof.Machine

namespace Sys2Proof.Machine

/-! ### What a result place reads (R50, R346) -/

theorem resultRegister_bounds {u : UnitId} {r : Nat} (h : resultRegister u r = true) : 2 ≤ r ∧ r < 32 := by
  cases u <;> simp [resultRegister] at h <;> omega

/-- A result register is no operand register. -/
theorem operandAt_result (s : State) {u : UnitId} {r : Nat} (h : resultRegister u r = true) : operandAt s u r = none := by
  cases u <;> simp [resultRegister] at h <;> grind [operandAt]

/-- Registers 16 to 23 of unit 0 are its `PLANE_LEN` results. -/
theorem rleReg_planeLen (d : Bool) (x : CodecUnit RleOps RleRes RleWork) {r : Nat} (h : 16 ≤ r ∧ r < 24) :
    rleReg d x r = resultShown .rle d x.ctl r (x.res.planeLen[r - 16]'(by omega)) := by
  obtain ⟨h16, h24⟩ := h
  interval_cases r <;> rfl

section
variable {s t : State} {u : UnitId}

/-- A result register shows what is stored for it where results are defined, and else a free value. -/
theorem exists_resultShown (s : State) {r : Nat} (h : resultRegister u r = true) :
    ∃ stored d, readReg s u r = resultShown u d (control s u) r stored ∧ (resultsDefined s u = false → d = false) := by
  obtain ⟨h2, -⟩ := resultRegister_bounds h
  rw [readReg, if_neg (by omega), if_neg (by omega)]
  cases u <;> simp only [resultRegister, Bool.or_eq_true, Bool.and_eq_true, decide_eq_true_eq] at h
  case rle =>
    rcases h with (((rfl | rfl) | rfl) | rfl) | hr
    case inr => exact ⟨_, _, rleReg_planeLen _ _ hr, id⟩
    all_goals exact ⟨_, _, rfl, id⟩
  case htb =>
    rcases h with rfl | rfl
    · exact ⟨_, _, rfl, fun _ => rfl⟩
    · exact ⟨_, _, rfl, id⟩
  case hen => rcases h with ((rfl | rfl) | rfl) | rfl <;> exact ⟨_, _, rfl, id⟩
  case lze => rcases h with ((rfl | rfl) | rfl) | rfl <;> exact ⟨_, _, rfl, id⟩
  all_goals subst h; exact ⟨_, _, rfl, id⟩

/-- Where no results are defined, a result register reads as a free value (assumption log 7). -/
theorem readReg_undefined {r : Nat} (h : resultRegister u r = true) (hd : resultsDefined s u = false) :
    readReg s u r = Config.freeRegister (unitNumber u) (control s u).draws r := by
  obtain ⟨stored, d, hshown, hfree⟩ := exists_resultShown s h
  rw [hshown, hfree hd]
  rfl

theorem elementShown_free {α : Type} {d : Bool} {xs : List α} {i : Nat} (free : α) (h : d = false ∨ xs.length ≤ i) :
    elementShown d xs i free = free := by
  rcases h with rfl | h
  · rfl
  · rw [elementShown, List.getD_eq_default _ _ h, ite_self]

/-- A result place reads as a free value where results are not defined, and beyond what was delivered (R346). -/
theorem readPlace_free {p : Place} (hp : resultPlace p = true) (h : resultsDefined s (readUnit p) = false ∨ BeyondDelivered s p) :
    readPlace s p = .ok (freeValueAt s p) := by
  cases p with
  | reg n => exact congrArg (Except.ok ∘ HostValue.word) (readReg_undefined hp (h.resolve_right id))
  | pair i => exact congrArg (Except.ok ∘ HostValue.pair) (elementShown_free _ h)
  | plane q i => exact congrArg (Except.ok ∘ HostValue.bit) (elementShown_free _ h)
  | lzc i => exact congrArg (Except.ok ∘ HostValue.word) (elementShown_free _ h)
  | sym v i => cases v <;> first
    | exact congrArg (Except.ok ∘ HostValue.sym) (elementShown_free _ h)
    | cases hp
  | bit v i => cases v <;> first
    | exact congrArg (Except.ok ∘ HostValue.bit) (elementShown_free _ h)
    | cases hp
  | tree i =>
    rw [readPlace, if_pos (of_decide_eq_true hp)]
    exact congrArg (Except.ok ∘ HostValue.node) (elementShown_free _ h)
  | ctab i =>
    rw [readPlace, if_pos (of_decide_eq_true hp)]
    exact congrArg (Except.ok ∘ HostValue.code) (elementShown_free _ h)

/-- What the result places of a unit read depends on its control and results and on whether the host has polled them. -/
theorem readPlace_congr (hres : SameResults u s t) (hd : resultsDefined t u = resultsDefined s u) {p : Place}
    (hp : resultPlace p = true) (hu : readUnit p = u) : readPlace t p = readPlace s p := by
  subst hu
  cases p with
  | reg n =>
    have hop : operandAt t (regUnit n) (regIndex n) = operandAt s (regUnit n) (regIndex n) := by
      rw [operandAt_result t hp, operandAt_result s hp]
    exact congrArg (Except.ok ∘ HostValue.word) (readReg_congr hop hres hd)
  | sym v i => cases v <;> obtain ⟨hc, hr⟩ := hres <;> simp only [readUnit] at hd <;> simp only [readPlace, symRead, hc, hr, hd]
  | bit v i => cases v <;> obtain ⟨hc, hr⟩ := hres <;> simp only [readUnit] at hd <;> simp only [readPlace, hc, hr, hd]
  | _ => obtain ⟨hc, hr⟩ := hres; simp only [readUnit] at hd; simp only [readPlace, treeShown, hc, hr, hd]

end

/-! ### The record of `STATUS` reads and the results it makes defined (R346) -/

section
variable {s t : State} {u : UnitId}

theorem resultsDefined_iff : resultsDefined s u = true ↔
    (control s u).state = .done ∧ s.seen[unitIndex u] = some (control s u).draws := decide_eq_true_iff

theorem resultsDefined_congr (hc : control t u = control s u) (hseen : t.seen[unitIndex u] = s.seen[unitIndex u]) :
    resultsDefined t u = resultsDefined s u := by
  rw [resultsDefined, resultsDefined, hc, hseen]

/-- Reading `STATUS` of one unit says nothing of the results of another. -/
theorem resultsDefined_noteStatus_of_ne {v : UnitId} (hne : v ≠ u) (s : State) :
    resultsDefined (noteStatus u s) v = resultsDefined s v := by
  have hcontrol : control (noteStatus u s) v = control s v := by rw [noteStatus_eq]; cases v <;> rfl
  exact resultsDefined_congr hcontrol ((noteStatus_noted u v s).resolve_right fun h => hne h.1.symm)

/-- A host read of `STATUS`: its value joins those read, and the record notes a `DONE`. -/
theorem hostRead_status (u : UnitId) (s : State) : hostRead (.reg (regNumber u 1)) s =
    .next { noteStatus u s with reads := s.reads ++ [.word (readReg s u 1)] } := by
  rw [hostRead, noteRead_reg_status, readPlace, regUnit_regNumber, regIndex_regNumber u 1 (by omega)]

/-- A step after which results hold that did not before notes a `STATUS` read of a unit in `DONE`. -/
theorem step_defines_results (hinv : Inv s) (hstep : step s = .next t) (hs : resultsDefined s u = false)
    (ht : resultsDefined t u = true) :
    (control s u).state = .done ∧ ∃ e rest, s.pending = e :: rest ∧ readsStatus u e = true := by
  obtain ⟨hdone, hseen⟩ := resultsDefined_iff.1 ht
  have hmove := step_move hstep u
  rcases step_seen hstep u with (hkept | ⟨hread, hsdone, -⟩) | ⟨hnone, -⟩
  · have hdraws : (control t u).draws ≤ (control s u).draws := hinv.seen u _ (hkept ▸ hseen)
    cases hmove with
    | same hres => cases hs.symm.trans ((resultsDefined_congr hres.control hkept).symm.trans ht)
    | ended hlt => omega
    | begun _ _ hnot => exact absurd hdone hnot
  · exact ⟨hsdone, hread⟩
  · cases hnone.symm.trans hseen

/-- A step from results that hold ends them, or leaves them and what they read. -/
theorem step_keeps_results (hstep : step s = .next t) (hs : resultsDefined s u = true) :
    EndsResults s u ∨ (resultsDefined t u = true ∧ (control t u).state = .done ∧
      ∀ p, resultPlace p = true → readUnit p = u → readPlace t p = readPlace s p) := by
  obtain ⟨hdone, hseen⟩ := resultsDefined_iff.1 hs
  cases step_move hstep u with
  | same hres =>
    have hcontrol := hres.control
    have htdone : (control t u).state = .done := by rw [hcontrol]; exact hdone
    have ht : resultsDefined t u = true := by
      refine resultsDefined_iff.2 ⟨htdone, ?_⟩
      rcases step_seen hstep u with (hkept | ⟨-, -, hnoted⟩) | ⟨-, hidle⟩
      · rw [hkept, hcontrol, hseen]
      · rw [hnoted, hcontrol]
      · cases htdone.symm.trans hidle
    exact .inr ⟨ht, htdone, fun p => readPlace_congr hres (ht.trans hs.symm)⟩
  | ended _ hcleared => exact .inl (hcleared hdone).1
  | begun _ hcleared => exact .inl (hcleared hdone)

/-- A step whose event writes a `CLEAR` to the `CTRL` of a unit runs it (R100, R310). -/
theorem step_clears {e : Event} {rest : List Event} {w : BitVec 64} {b : BitVec 8} (hstep : step s = .next t)
    (hq : s.pending = e :: rest) (hwrote : ctrlWrite s e = some (u, w)) (hdec : decodeCtrl u w = .run (.clear u b)) :
    ∃ s', exec (.clear u b) s' = .next t := by
  have hwriteCtrl (s' : State) : writeCtrl u w s' = exec (.clear u b) s' := writeCtrl_run hdec s'
  rw [step_event hq] at hstep
  unfold ctrlWrite at hwrote
  split at hwrote
  · next n w' =>
    split_ifs at hwrote with h0
    cases hwrote
    exact ⟨_, (hwriteCtrl _).symm.trans ((if_pos h0).symm.trans hstep)⟩
  · next src n =>
    split at hwrote
    · next w' hread =>
      split_ifs at hwrote with h0
      cases hwrote
      rw [runEvent, hostCopy_of_read _ ((readPlace_pending s rest src).trans hread)] at hstep
      exact ⟨_, (hwriteCtrl _).symm.trans ((if_pos h0).symm.trans hstep)⟩
    · cases hwrote
  · cases hwrote
    refine ⟨{ s with pending := rest }, ?_⟩
    rw [← hstep]
    simp only [runEvent, startSlow, hdec]
  · cases hwrote

theorem step_ends_results (hstep : step s = .next t) (hends : EndsResults s u) : resultsDefined t u = false := by
  refine resultsDefined_notDone ?_
  obtain ⟨e, rest, hq, rfl | ⟨w, b, hwrote, hdec⟩⟩ := hends
  · rw [step_event hq] at hstep
    cases hstep
    cases u <;> exact nofun
  · obtain ⟨s', hclear⟩ := step_clears hstep hq hwrote hdec
    rw [(execClear_move hclear).2.1]
    exact nofun

end

theorem resultShown_defined {u : UnitId} {d : Bool} {c : Control} {r : Nat} {stored : BitVec 64} (hd : d = true) :
    resultShown u d c r stored = stored := if_pos hd

theorem readReg_planeLen {s : State} (hd : resultsDefined s .rle = true) (p : Fin 8) :
    readReg s .rle (16 + p.val) = s.rle.res.planeLen[p] := by
  rw [readReg, if_neg (by omega), if_neg (by omega)]
  refine (rleReg_planeLen _ _ (by omega)).trans ((resultShown_defined hd).trans ?_)
  simp

/-- Settles O9: the record changes by `STATUS` reads and reset only, a unit leaves `DONE` by `CLEAR` or reset only, and a result
place reads its field where the record holds the unit's draw counter. -/
theorem resultsAreReadInDone : Obligations.ResultsAreReadInDone := by
  unfold Obligations.ResultsAreReadInDone
  refine ⟨fun s u hdone => ⟨_, hostRead_status u s, resultsDefined_noteStatus hdone, ?_, fun v hne => resultsDefined_noteStatus_of_ne hne s⟩,
    fun s t u hinv hstep => step_defines_results hinv hstep, fun s t u hstep => step_keeps_results hstep,
    fun s t u hstep => step_ends_results hstep, fun s p hp => readPlace_free hp, fun s n => rfl, fun s hd => ?_, fun s hd => ?_,
    fun s hd => ?_, fun s hd => ?_, fun s hd => ?_, fun s hd => ?_, fun s hd => ?_, fun s hd => ?_⟩
  · rw [noteStatus_eq]
  · exact ⟨resultShown_defined hd, resultShown_defined hd, resultShown_defined hd, resultShown_defined hd, readReg_planeLen hd,
      fun i h => congrArg (Except.ok ∘ HostValue.pair) (elementShown_defined _ hd h),
      fun p i h => congrArg (Except.ok ∘ HostValue.bit) (elementShown_defined _ hd h)⟩
  · exact ⟨resultShown_defined hd, fun i h => congrArg (Except.ok ∘ HostValue.sym) (elementShown_defined _ hd h)⟩
  · exact ⟨resultShown_defined hd, fun i h => congrArg (Except.ok ∘ HostValue.bit) (elementShown_defined _ hd h)⟩
  · refine ⟨resultShown_defined hd, fun i h hi => ?_, fun i h hi => ?_⟩
    · rw [readPlace, if_pos hi, treeShown, elementShown_defined _ hd h]
    · rw [readPlace, if_pos hi, elementShown_defined _ hd h]
  · exact ⟨resultShown_defined hd, resultShown_defined hd, resultShown_defined hd, resultShown_defined hd,
      fun i h => congrArg (Except.ok ∘ HostValue.bit) (elementShown_defined _ hd h)⟩
  · exact ⟨resultShown_defined hd, fun i h => congrArg (Except.ok ∘ HostValue.sym) (elementShown_defined _ hd h)⟩
  · exact ⟨resultShown_defined hd, resultShown_defined hd, resultShown_defined hd, resultShown_defined hd,
      fun i h => congrArg (Except.ok ∘ HostValue.word) (elementShown_defined _ hd h)⟩
  · exact ⟨resultShown_defined hd, fun i h => congrArg (Except.ok ∘ HostValue.sym) (elementShown_defined _ hd h)⟩

end Sys2Proof.Machine

namespace Sys2Proof.Machine

/-! ### A unit in `FAULT` (R307, R310) -/

section
variable {s t : State} {u : UnitId} {i : Instr}

/-- An operation leaves the control of a unit that is not in `IDLE` (R345). -/
theorem control_of_operation (hop : IsOperation i) (h : exec i s = .next t) (hbusy : (control s u).state ≠ .idle) :
    control t u = control s u := by
  obtain ⟨hidle, -⟩ := (operationSpec i hop).exec_ok h
  exact ((operationSpec i hop).exec_onlyUnit h).control_of_ne fun hu => hbusy (hu ▸ hidle)

/-- Outside `IDLE` only `CLEAR` changes the control of its unit. -/
theorem exec_control_of_not_idle (h : exec i s = .next t) (hbusy : (control s u).state ≠ .idle) :
    (∃ b, i = .clear u b) ∨ control t u = control s u := by
  by_cases hop : IsOperation i
  · exact .inr (control_of_operation hop h hbusy)
  cases i with
  | clear v b =>
    rcases eq_or_ne u v with rfl | hne
    · exact .inl ⟨b, rfl⟩
    · exact .inr ((execClear_onlyUnit h).control_of_ne hne)
  | hufEncode =>
    obtain ⟨s1, hbuild, hencode⟩ := exec_hufEncode_next.1 h
    have hfirst := control_of_operation (i := .htbBuild) ⟨nofun, nofun⟩ hbuild hbusy
    have hcarried : control (carryToEncoder s1) u = control s u := (carryToEncoder_results s1 u).control.trans hfirst
    have hsecond := control_of_operation (i := .henEnc) ⟨nofun, nofun⟩ hencode (hcarried ▸ hbusy)
    exact .inr (hsecond.trans hcarried)
  | _ => exact absurd ⟨nofun, nofun⟩ hop

theorem begin_control_of_not_idle {f : BitVec 4} (hop : IsOperation i) (h : beginOperation i f s = .ok t)
    (hbusy : (control s u).state ≠ .idle) : control t u = control s u := by
  obtain ⟨x, hx, -⟩ := (operationSpec i hop).begin_ok h
  obtain ⟨hidle, -⟩ := beginOn_ok.1 hx
  rw [← UnitLens.control_eq] at hidle
  exact ((operationSpec i hop).begin_onlyUnit h).control_of_ne fun hu => hbusy (hu ▸ hidle)

/-- A step leaves a unit in `FAULT` as it is, or brings it to `IDLE` by a `CLEAR` of its own or by reset (R310, R340). -/
theorem step_control_of_fault (h : step s = .next t) (hfault : (control s u).state = .fault) :
    control t u = control s u ∨ (EndsResults s u ∧ (control t u).state = .idle ∧ (control t u).fault = .none) := by
  have hbusy {s' : State} (same : SameCore s s') : (control s' u).state ≠ .idle := by
    rw [same.control, hfault]
    exact nofun
  cases step_kind h with
  | host same => exact .inl (same.control u)
  | operand s' p v same write => exact .inl (((writePlace_written write).control u).trans (same.control u))
  | command s' v w i same e rest queue wrote decoded run =>
    rcases exec_control_of_not_idle run (hbusy same) with ⟨b, rfl⟩ | hkept
    · obtain rfl := decodeCtrl_clear decoded
      rcases execClear_control run with hnone | hkept
      · exact .inr ⟨⟨e, rest, queue, .inr ⟨w, b, wrote, decoded⟩⟩, (execClear_move run).2.1, hnone⟩
      · exact .inl (hkept.trans (same.control u))
    · exact .inl (hkept.trans (same.control u))
  | pseudo s' same run =>
    have hkept := (exec_control_of_not_idle run (hbusy same)).resolve_left nofun
    exact .inl (hkept.trans (same.control u))
  | start s' v w i same decoded isOp run =>
    exact .inl ((begin_control_of_not_idle isOp run (hbusy same)).trans (same.control u))
  | finish s' v f i same busy op run =>
    have hne : u ≠ instrUnit i := by
      rintro rfl
      rw [opOfFunc_unit op] at hfault
      cases (same.control v ▸ busy).symm.trans hfault
    have hkept := ((operationSpec i (opOfFunc_isOperation op)).finish_onlyUnit run).control_of_ne hne
    exact .inl (hkept.trans (same.control u))
  | reset s' same rest queue eq =>
    subst eq
    exact .inr ⟨⟨_, rest, queue, .inl rfl⟩, by cases u <;> rfl, by cases u <;> rfl⟩

theorem statusWord_idle {c : Control} (hs : c.state = .idle) (hf : c.fault = .none) : statusWord c = 0 := by
  simp [statusWord, hs, hf, stateCode, faultCode]

/-- `CLEAR` has no effect in `IDLE` (R310). -/
theorem execClear_idle (h : (control s u).state = .idle) (b : BitVec 8) : exec (.clear u b) s = .next s := by
  cases u <;> exact answer_eq_next.2 (Except.map_eq_ok.2 ⟨_, clearUnit_ok.2 (.inl ⟨h, rfl⟩), rfl⟩)

end

/-- Settles O36: `CLEAR` by the state of its unit, and of all steps only a `CLEAR` or reset ends a `FAULT`. -/
theorem clearReturnsToIdle : Obligations.ClearReturnsToIdle := by
  unfold Obligations.ClearReturnsToIdle
  refine ⟨fun s u b hended => ?_, fun s u b hidle => execClear_idle hidle b, fun s u b hbusy => execClear_busy hbusy b,
    fun s t u hstep hfault hchanged => ?_⟩
  · obtain ⟨t, hexec, hidle, hnone⟩ := execClear_ended hended b
    have hundefined : resultsDefined t u = false := resultsDefined_notDone (by rw [hidle]; exact nofun)
    exact ⟨t, hexec, execClear_onlyUnit hexec, hidle, hnone, statusWord_idle hidle hnone,
      fun r hr => readReg_undefined hr hundefined⟩
  · obtain ⟨hends, hidle, hnone⟩ := (step_control_of_fault hstep hfault).resolve_left hchanged
    exact ⟨hidle, hnone, hends⟩

/-! ### Fault entry (R307) -/

section
variable {s t : State} {i : Instr} {f : FaultCode}

theorem exec_hufEncode_htb_fault (h : exec .hufEncode s = .next t) : t.htb.ctl.fault = .none := by
  obtain ⟨s1, hbuild, hencode⟩ := exec_hufEncode_next.1 h
  obtain ⟨-, e, he, rfl⟩ := (operationSpec .htbBuild ⟨nofun, nofun⟩).exec_ok hbuild
  obtain ⟨xs, -, -, rfl⟩ := htbBuildOp_ok.1 he
  have honly := (operationSpec .henEnc ⟨nofun, nofun⟩).exec_onlyUnit hencode
  exact congrArg Control.fault (honly.control_of_ne (v := .htb) nofun)

/-- A unit that shows a fault code after an instruction, and was in `IDLE` without one, entered that fault by an operation. -/
theorem exec_fault_entered (h : exec i s = .next t) (hidle : (control s (instrUnit i)).state = .idle)
    (hnone : (control s (instrUnit i)).fault = .none) (hf : (control t (instrUnit i)).fault ≠ .none) :
    IsOperation i ∧ (control t (instrUnit i)).state = .fault := by
  by_cases hop : IsOperation i
  · refine ⟨hop, ?_⟩
    obtain ⟨-, e, -, rfl⟩ := (operationSpec i hop).exec_ok h
    rw [UnitLens.control_put] at hf ⊢
    cases e with
    | results r => exact absurd rfl hf
    | raises g => rfl
  · cases i with
    | clear u b =>
      cases (execClear_idle hidle b).symm.trans h
      exact absurd hnone hf
    | hufEncode => exact absurd (exec_hufEncode_htb_fault h) hf
    | _ => exact absurd ⟨nofun, nofun⟩ hop

end

/-- Settles O45: the unit enters `FAULT` with its operands kept, and in `FAULT` no results are defined. -/
theorem faultEntry : Obligations.FaultEntry := by
  unfold Obligations.FaultEntry
  intro i s t f hexec hne hcode hidle hnone
  obtain ⟨hop, hstate⟩ := exec_fault_entered hexec hidle hnone (by rw [hcode]; exact hne)
  have hundefined : resultsDefined t (instrUnit i) = false := resultsDefined_notDone (by rw [hstate]; exact nofun)
  refine ⟨hstate, (operationSpec i hop).exec_onlyUnit hexec, ?_, fun r hr => readReg_undefined hr hundefined, fun hu k => ⟨?_, fun p => ?_⟩,
    fun hu k => ?_, fun hu k => ?_, fun hu k => ?_⟩
  · refine (statusWord_eq (control t (instrUnit i))).trans ?_
    rw [hstate, hcode]
    rfl
  all_goals rw [hu] at hundefined
  · exact readPlace_free (p := .pair k) rfl (.inl hundefined)
  · exact readPlace_free (p := .plane p k) rfl (.inl hundefined)
  · exact readPlace_free (p := .sym .rld k) rfl (.inl hundefined)
  · exact readPlace_free (p := .sym .hde k) rfl (.inl hundefined)
  · exact readPlace_free (p := .sym .lzd k) rfl (.inl hundefined)

/-! ### Reset at any time (R52, R340) -/

theorem NothingWritten.of_sameOperands {s t : State} (hs : NothingWritten s) (h : SameOperands s t) : NothingWritten t := by
  obtain ⟨h0, h1, h2, h3, h4, h5, h6, h7, h8, h9, h10, h11⟩ := hs
  refine ⟨fun r hr => h0 r ?_, ?_, ?_, ?_, ?_, ?_, ?_, ?_, ?_, ?_, ?_, ?_⟩
  · simpa only [operandRegisters, h.rle, h.rld, h.bre, h.htb, h.hen, h.hde, h.lze, h.lzd] using hr
  all_goals simp only [h.rle, h.rld, h.bre, h.htb, h.hen, h.hde, h.lze, h.lzd]; assumption

/-- Settles O17: a reset puts every unit at rest, whatever it was doing, and takes nothing else than its own event. -/
theorem resetAtAnyTime : Obligations.ResetAtAnyTime := by
  unfold Obligations.ResetAtAnyTime
  intro s rest hq
  refine ⟨resetCore { s with pending := rest }, step_event hq, rfl, rfl, rfl,
    nothingWritten_reset.of_sameOperands (sameOperands_resetCore _), fun u => ?_⟩
  have hidle : (control (resetCore { s with pending := rest }) u).state = .idle := by cases u <;> rfl
  have hnone : (control (resetCore { s with pending := rest }) u).fault = .none := by cases u <;> rfl
  exact ⟨hidle, hnone, statusWord_idle hidle hnone⟩

/-! ### What is refused to a unit that is not in `IDLE` (R344, R345) -/

/-- Where the first half is refused, so is the pseudo-operation, by the same name (R224). -/
theorem exec_hufEncode_refused {s : State} {r : Refusal} (h : exec .htbBuild s = .refused r) : exec .hufEncode s = .refused r := by
  have hbuild : execHtbBuild s = .refused r := h
  show execHufEncode s = _
  rw [execHufEncode, hbuild]

/-- Settles O6: `START` is refused outside `IDLE`, and the second half of the pseudo-operation starts unit 4 as the host found it. -/
theorem startOnlyInIdle : Obligations.StartOnlyInIdle := by
  unfold Obligations.StartOnlyInIdle
  refine ⟨fun s i f hop hbusy => (operationSpec i hop).notIdle hbusy f,
    fun s hbusy => exec_hufEncode_refused ((operationSpec .htbBuild ⟨nofun, nofun⟩).notIdle hbusy 0).1, fun s t h => ?_⟩
  obtain ⟨s1, hbuild, hencode⟩ := exec_hufEncode_next.1 h
  obtain ⟨hhtb, -⟩ := (operationSpec .htbBuild ⟨nofun, nofun⟩).exec_ok hbuild
  obtain ⟨hhen, -⟩ := (operationSpec .henEnc ⟨nofun, nofun⟩).exec_ok hencode
  have hkept : control s1 .hen = control s .hen :=
    ((operationSpec .htbBuild ⟨nofun, nofun⟩).exec_onlyUnit hbuild).control_of_ne nofun
  exact ⟨hhtb, (congrArg Control.state hkept).symm.trans hhen⟩

section
variable {O R W : Type} {s : State} {u : UnitId}

theorem writeOperand_busy {x : CodecUnit O R W} {g : BitVec 4} (h : x.ctl.state = .busy g) (f : O → O) :
    writeOperand x f = .error .operandWriteWhileBusy := by
  simp only [writeOperand, h]

/-- The operand registers of a `BUSY` unit refuse the write (R344). -/
theorem writeReg_busy {r : Nat} (v : BitVec 64) (hb : isBusy s u = true) (h : operandRegister u r = true) :
    writeReg s u r v = .error .operandWriteWhileBusy := by
  obtain ⟨g, hg⟩ := isBusy_iff.1 hb
  cases u <;> simp only [operandRegister, Bool.or_eq_true, Bool.and_eq_true, decide_eq_true_eq] at h <;> simp at hg
  case rle => rcases h with (rfl | rfl) | rfl <;> simp [writeReg, rleWriteReg, writeOperand_busy hg, Except.map]
  case rld =>
    rcases h with ((rfl | rfl) | rfl) | hr
    case inr => simp [writeReg, rldWriteReg_planeLen s.rld v hr, writeOperand_busy hg, Except.map]
    all_goals simp [writeReg, rldWriteReg, writeOperand_busy hg, Except.map]
  case bre => rcases h with rfl | rfl <;> simp [writeReg, breWriteReg, writeOperand_busy hg, Except.map]
  case hde => rcases h with rfl | rfl <;> simp [writeReg, hdeWriteReg, writeOperand_busy hg, Except.map]
  all_goals
    subst h
    simp [writeReg, htbWriteReg, henWriteReg, lzeWriteReg, lzdWriteReg, writeOperand_busy hg, Except.map]

/-- The elements of a `BUSY` unit's "in" buffers refuse the write (R344). -/
theorem writeElement_busy (l : UnitLens u O R W) (hb : isBusy s u = true) (i : Nat) (f : O → O) :
    Refused (answer ((writeElement s.cap (l.get s) i f).map (l.put s))) := by
  obtain ⟨g, hg⟩ := isBusy_iff.1 hb
  rw [writeElement, writeOperand_busy (l.control_eq s ▸ hg)]
  split <;> exact ⟨_, rfl⟩

theorem writeEntry_busy (l : UnitLens u O R W) (hb : isBusy s u = true) (n i : Nat) (f : O → O) :
    Refused (answer ((writeEntry s.cap n (l.get s) i f).map (l.put s))) := by
  rw [writeEntry]
  split
  · exact writeElement_busy l hb i f
  · exact ⟨_, rfl⟩

end

/-- Settles O14: every operand write goes through the unit that is `BUSY`, and a `CTRL` write there is reserved. -/
theorem noOperandWriteWhileBusy : Obligations.NoOperandWriteWhileBusy := by
  unfold Obligations.NoOperandWriteWhileBusy
  refine ⟨fun s u r v hb hr => ?_, fun s u i v hb hw => ?_, fun s u i v hb hw => ?_, fun s i v hb => writeElement_busy .rld hb i _,
    fun s p i v hb => writeElement_busy .rld hb i _, fun s i v hb => writeEntry_busy .hde hb _ i _,
    fun s i v hb => writeEntry_busy .hen hb _ i _, fun s i v hb => writeElement_busy .lzd hb i _, fun s u w hb hw => ?_⟩
  · obtain ⟨h2, h32⟩ := operandRegister_bounds hr
    rw [hostWrite_reg s u r v h32 (by omega), writeReg_busy v hb hr]
    rfl
  · cases u
    case rle => exact writeElement_busy .rle hb i _
    case htb => exact writeElement_busy .htb hb i _
    case hen => exact writeElement_busy .hen hb i _
    case lze => exact writeElement_busy .lze hb i _
    all_goals cases hw
  · cases u
    case bre => exact writeElement_busy .bre hb i _
    case hde => exact writeElement_busy .hde hb i _
    all_goals cases hw
  · obtain ⟨g, hg⟩ := isBusy_iff.1 hb
    have hnotIdle : (control s u).state ≠ .idle := by rw [hg]; exact nofun
    rw [hostWrite_ctrl]
    refine (reservedWritesAreRefused s u w ?_).1
    rcases hw with hstart | hclear
    · exact .inr (.inr (.inr (.inl ⟨hstart, hnotIdle⟩)))
    · exact .inr (.inr (.inr (.inr ⟨hclear, hb⟩)))

end Sys2Proof.Machine

namespace Sys2Proof.Machine

/-! ### Instructions of different units commute (R317) -/

section
variable {s t a b : State} {u v : UnitId} {i : Instr}

theorem SameUnit.symm (h : SameUnit u s t) : SameUnit u t s := by cases u <;> exact Eq.symm h

theorem SameUnit.sameInput (h : SameUnit u s t) : SameInput u s t := by
  cases u <;> exact ⟨congrArg CodecUnit.ctl h, congrArg CodecUnit.ops h⟩

/-- A state is its eight units and what it holds besides them. -/
theorem eq_of_sameUnit (h : ∀ u, SameUnit u s t) (hcap : s.cap = t.cap) (hpending : s.pending = t.pending)
    (hreads : s.reads = t.reads) (hseen : s.seen = t.seen) : s = t := by
  have h1 : s.rle = t.rle := h .rle
  have h2 : s.rld = t.rld := h .rld
  have h3 : s.bre = t.bre := h .bre
  have h4 : s.htb = t.htb := h .htb
  have h5 : s.hen = t.hen := h .hen
  have h6 : s.hde = t.hde := h .hde
  have h7 : s.lze = t.lze := h .lze
  have h8 : s.lzd = t.lzd := h .lzd
  cases s
  cases t
  simp_all

/-- `CLEAR` sees its own unit only. -/
theorem execClear_congr {c : BitVec 8} (h : SameUnit u s t) (hexec : exec (.clear u c) s = .next a) :
    ∃ b, exec (.clear u c) t = .next b ∧ SameUnit u a b := by
  have hmap := answer_eq_next.1 (show answer _ = .next a from hexec)
  cases u <;> obtain ⟨x, hx, rfl⟩ := Except.map_eq_ok.1 hmap <;> rw [show _ = _ from h] at hx <;>
    exact ⟨_, answer_eq_next.2 (Except.map_eq_ok.2 ⟨x, hx, rfl⟩), rfl⟩

/-- An instruction sees its own unit and the capacity only (R43, R317). -/
theorem exec_congr (hi : i ≠ .hufEncode) (hcap : s.cap = t.cap) (h : SameUnit (instrUnit i) s t) (hexec : exec i s = .next a) :
    ∃ b, exec i t = .next b ∧ SameUnit (instrUnit i) a b := by
  by_cases hop : IsOperation i
  · exact (outcomeDependsOnOperandsAlone i s t hop hcap h.sameInput).2 a hexec
  cases i with
  | clear u c => exact execClear_congr h hexec
  | hufEncode => exact absurd rfl hi
  | _ => exact absurd ⟨nofun, nofun⟩ hop

/-- Two ways through the same two units, each changing what the other does not, meet (R317). -/
theorem OnlyUnit.square {c d : State} (hne : u ≠ v) (hsa : OnlyUnit u s a) (hab : OnlyUnit v a b) (hsc : OnlyUnit v s c)
    (hcd : OnlyUnit u c d) (hbc : SameUnit v b c) (had : SameUnit u a d) : d = b := by
  obtain ⟨cap1, pending1, reads1, seen1⟩ := hsa.frame
  obtain ⟨cap2, pending2, reads2, seen2⟩ := hab.frame
  obtain ⟨cap3, pending3, reads3, seen3⟩ := hsc.frame
  obtain ⟨cap4, pending4, reads4, seen4⟩ := hcd.frame
  refine eq_of_sameUnit (fun w => ?_) (by rw [cap4, cap3, cap2, cap1]) (by rw [pending4, pending3, pending2, pending1])
    (by rw [reads4, reads3, reads2, reads1]) (by rw [seen4, seen3, seen2, seen1])
  rcases eq_or_ne w u with rfl | hu
  · exact had.symm.trans (hab.sameUnit_of_ne hne)
  rcases eq_or_ne w v with rfl | hv
  · exact (hcd.sameUnit_of_ne hu).symm.trans hbc.symm
  · have hway : SameUnit w s d := (hsc.sameUnit_of_ne hv).trans (hcd.sameUnit_of_ne hu)
    exact hway.symm.trans ((hsa.sameUnit_of_ne hu).trans (hab.sameUnit_of_ne hv))

end

/-- Settles O50: each instruction finds its own unit the same in both orders, and leaves the unit of the other as it is. -/
theorem differentUnitsCommute : Obligations.DifferentUnitsCommute := by
  unfold Obligations.DifferentUnitsCommute
  intro i j s a b hi hj hne ha hb
  have hsa := operationsTouchOnlyTheirUnit i s a hi ha
  have hab := operationsTouchOnlyTheirUnit j a b hj hb
  obtain ⟨c, hc, hbc⟩ := exec_congr hj hsa.cap (hsa.sameUnit_of_ne hne.symm).symm hb
  have hsc := operationsTouchOnlyTheirUnit j s c hj hc
  obtain ⟨d, hd, had⟩ := exec_congr hi hsc.cap.symm (hsc.sameUnit_of_ne hne) ha
  have hcd := operationsTouchOnlyTheirUnit i c d hi hd
  obtain rfl := OnlyUnit.square hne hsa hab hsc hcd hbc had
  exact ⟨c, hc, hd⟩

/-! ### Compression ratios (R290 to R293) -/

theorem counter_ne_zero {n : Nat} (h0 : 0 < n) (h : n < 2 ^ 64) : counter n ≠ 0 := by
  intro hzero
  have hn := congrArg BitVec.toNat hzero
  rw [counter_toNat h] at hn
  exact h0.ne' hn

/-- The ratio of two counters that hold their numbers (R290). -/
theorem compressionRatio_counter {m n : Nat} (hm : m < 2 ^ 64) (h0 : 0 < n) (hn : n < 2 ^ 64) :
    compressionRatio (counter m) (counter n) = some ((m : Rat) / n) := by
  rw [compressionRatio, if_neg (counter_ne_zero h0 hn), counter_toNat hm, counter_toNat hn]

theorem compressionRatio_zero (num : BitVec 64) : compressionRatio num (counter 0) = none := if_pos rfl

theorem one_le_ratio {m n : Nat} (h0 : 0 < n) (h : n ≤ m) : (1 : Rat) ≤ m / n := by
  rw [one_le_div (by exact_mod_cast h0)]
  exact_mod_cast h

section
variable {s t : State}

/-- A completed `RLE.ENCS` counts at least one run and no more runs than symbols. -/
theorem exec_rleEncs_counters (hexec : exec .rleEncs s = .next t) (hdone : Done t.rle.ctl) :
    ∃ size runs, 0 < runs ∧ runs ≤ size ∧ size < 2 ^ 64 ∧
      t.rle.res.ratioNum = counter size ∧ t.rle.res.ratioDen = counter runs := by
  obtain ⟨x, hx, rfl⟩ := exec_rleEncs_next.1 hexec
  obtain ⟨-, e, he, rfl⟩ := runOn_ok.1 hx
  obtain ⟨r, w, h, ho⟩ := rleEncsOp_operands he
  have hbad := (exec_rleEncs_done ho hexec hdone).1
  rw [rleEncsOp_eq ho, hbad, if_neg Bool.false_ne_true] at he
  obtain ⟨-, rfl⟩ := deliver_ok.1 he
  obtain ⟨hw, hh, hsize⟩ := toNat_of_badRaster_eq_false hbad
  have hmax := ho.stream.admitted
  rw [maxIn_eq, hsize] at hmax
  exact ⟨_, _, hh.trans (rasterRuns_length_ge _ _ hw r hsize), rasterRuns_length_le .., by omega, rfl, rfl⟩

/-- Eight plane sequences of at least one 32-bit field each, and at most one more than the raster has symbols (R157). -/
theorem planesLength_bounds (r : List Symbol) :
    256 ≤ planesLength (encodePlanes r) ∧ planesLength (encodePlanes r) ≤ 256 * (r.length + 1) := by
  have hlen : ∀ n ∈ (encodePlanes r).toList.map List.length, 32 ≤ n ∧ n ≤ 32 * (r.length + 1) := by
    intro n hn
    obtain ⟨e, he, rfl⟩ := List.mem_map.1 hn
    rw [encodePlanes, Vector.toList_ofFn, List.mem_ofFn] at he
    obtain ⟨p, rfl⟩ := he
    have hplane := encodePlane_length (bitPlane p.val r)
    rwa [bitPlane_length] at hplane
  have hlow := List.card_nsmul_le_sum _ 32 fun n hn => (hlen n hn).1
  have hhigh := List.sum_le_card_nsmul _ (32 * (r.length + 1)) fun n hn => (hlen n hn).2
  simp only [List.length_map, Vector.length_toList, smul_eq_mul] at hlow hhigh
  rw [planesLength]
  omega

theorem exec_rleEncb_counters (hexec : exec .rleEncb s = .next t) (hdone : Done t.rle.ctl) :
    ∃ size bits, 0 < size ∧ size < 2 ^ 64 ∧ 256 ≤ bits ∧ bits < 2 ^ 64 ∧
      t.rle.res.ratioNum = counter size ∧ t.rle.res.ratioDen = counter bits := by
  obtain ⟨x, hx, rfl⟩ := exec_rleEncb_next.1 hexec
  obtain ⟨-, e, he, rfl⟩ := runOn_ok.1 hx
  obtain ⟨r, w, h, ho⟩ := rleEncbOp_operands he
  rw [rleEncbOp_eq ho] at he
  split at he
  · cases he
    cases hdone.1
  · next hbad =>
    obtain ⟨-, rfl⟩ := deliver_ok.1 he
    obtain ⟨hw, hh, hsize⟩ := toNat_of_badRaster_eq_false (Bool.eq_false_of_not_eq_true hbad)
    have hpos := Nat.mul_pos hw hh
    have hmax := ho.stream.admitted
    have hplanes := planesLength_bounds r
    rw [maxIn_eq] at hmax
    exact ⟨_, _, by omega, by omega, hplanes.1, by omega, rfl, rfl⟩

/-- A `HEN.ENC` that answers delivered between 1 and 255 bits for each symbol (R222, R223). -/
theorem exec_henEnc_counters (hexec : exec .henEnc s = .next t) :
    ∃ n bits, s.hen.ops.inLen.value.toNat = n ∧ n ≤ bits ∧ bits ≤ 255 * n ∧ n < 2 ^ 32 ∧
      t.hen.res.ratioNum = counter (8 * n) ∧ t.hen.res.ratioDen = counter bits := by
  obtain ⟨x, hx, rfl⟩ := exec_henEnc_next.1 hexec
  obtain ⟨-, e, he, rfl⟩ := runOn_ok.1 hx
  obtain ⟨xs, tab, ho⟩ := henEncOp_operands he
  rw [henEncOp_eq ho] at he
  split at he
  · cases he
  · next bits hbits =>
    obtain ⟨-, rfl⟩ := deliver_ok.1 he
    obtain ⟨hlow, hhigh⟩ := encodeSymbols_length _ _ _ hbits
    have hmax := ho.stream.admitted
    rw [maxIn_eq] at hmax
    exact ⟨_, _, ho.stream.counted, hlow, hhigh, by omega, rfl, rfl⟩

/-- An `LZE.ENC` that answers counts at least one code for a non-empty stream, and no more codes than bytes (R255). -/
theorem exec_lzeEnc_counters (hexec : exec .lzeEnc s = .next t) :
    ∃ n codes, s.lze.ops.inLen.value.toNat = n ∧ (0 < n → 0 < codes) ∧ codes ≤ n ∧ n < 2 ^ 32 ∧
      t.lze.res.ratioNum = counter n ∧ t.lze.res.ratioDen = counter codes := by
  obtain ⟨x, hx, rfl⟩ := exec_lzeEnc_next.1 hexec
  obtain ⟨-, e, he, rfl⟩ := runOn_ok.1 hx
  obtain ⟨b, hb, hdeliver⟩ := lzeEncOp_ok.1 he
  obtain ⟨-, rfl⟩ := deliver_ok.1 hdeliver
  have hmax := hb.admitted
  rw [maxIn_eq] at hmax
  exact ⟨_, _, hb.counted, fun hpos => List.length_pos_iff.2 (lzwEncode_ne_nil (List.length_pos_iff.1 hpos)),
    lzwEncode_length_le b, by omega, rfl, rfl⟩

end

theorem toNat_pos_of_ne_zero {v : BitVec 64} (h : v ≠ 0) : 0 < v.toNat :=
  Nat.pos_of_ne_zero fun hzero => h (BitVec.eq_of_toNat_eq hzero)

/-- Settles O56: each ratio is that of two counts whose sizes the operation bounds. -/
theorem compressionRatios : Obligations.CompressionRatios := by
  unfold Obligations.CompressionRatios
  refine ⟨fun s t hexec hdone => ?_, fun s t hexec hdone => ?_, fun s t hexec => ?_, fun s t hexec => ?_⟩
  · obtain ⟨size, runs, hpos, hle, hmax, hnum, hden⟩ := exec_rleEncs_counters hexec hdone
    rw [hnum, hden]
    exact ⟨_, compressionRatio_counter hmax hpos (by omega), one_le_ratio hpos hle⟩
  · obtain ⟨size, bits, hpos, hmax, hbits, hbmax, hnum, hden⟩ := exec_rleEncb_counters hexec hdone
    rw [hnum, hden, counter_toNat hbmax]
    exact ⟨hbits, _, compressionRatio_counter hmax (by omega) hbmax,
      div_pos (by exact_mod_cast hpos) (by exact_mod_cast (by omega : 0 < bits))⟩
  · obtain ⟨n, bits, hn, hlow, hhigh, hmax, hnum, hden⟩ := exec_henEnc_counters hexec
    rw [hnum, hden]
    refine ⟨fun hzero => ?_, fun hne => ?_⟩
    · obtain rfl : n = 0 := by rw [← hn, hzero]; rfl
      obtain rfl : bits = 0 := by omega
      exact ⟨rfl, rfl, compressionRatio_zero _⟩
    · have hpos : 0 < n := hn ▸ toNat_pos_of_ne_zero hne
      have hbits : (0 : Rat) < bits := by exact_mod_cast (by omega : 0 < bits)
      refine ⟨_, compressionRatio_counter (by omega) (by omega) (by omega), ?_, ?_⟩
      · rw [div_le_div_iff₀ (by norm_num) hbits]
        exact_mod_cast (by omega : 8 * bits ≤ 8 * n * 255)
      · rw [div_le_iff₀ hbits]
        exact_mod_cast (by omega : 8 * n ≤ 8 * bits)
  · obtain ⟨n, codes, hn, hcodes, hle, hmax, hnum, hden⟩ := exec_lzeEnc_counters hexec
    rw [hnum, hden]
    refine ⟨fun hzero => ?_, fun hne => ?_⟩
    · obtain rfl : n = 0 := by rw [← hn, hzero]; rfl
      obtain rfl : codes = 0 := by omega
      exact compressionRatio_zero _
    · have hpos := hcodes (hn ▸ toNat_pos_of_ne_zero hne)
      exact ⟨_, compressionRatio_counter (by omega) hpos (by omega), one_le_ratio hpos hle⟩

end Sys2Proof.Machine

namespace Sys2Proof.Machine

/-! ### Samples that are refused (R341, R342, R348)

An operation samples its operands one after the other, and the first sample that is refused names the refusal. What is known of the
name depends on the operands being in range, so the notions below carry that condition as `P`; with `P` false they say nothing of it. -/

/-- Something is refused, by a name that `Q` admits; and where `P` holds, because an operand was not written. -/
def RefusedBy (P : Prop) (Q : Refusal → Prop) : Prop := ∃ why, Q why ∧ (P → why = .operandNotWritten)

/-- A sample is so refused. -/
def SampleRefused (P : Prop) {α : Type} (e : Except Refusal α) : Prop := RefusedBy P fun why => e = .error why

/-- A sample answers, or is so refused. -/
def Sampled (P : Prop) {α : Type} (e : Except Refusal α) : Prop := (∃ x, e = .ok x) ∨ SampleRefused P e

/-- Of a sample and what is sampled after it, the first one that is refused has the name `r`. -/
def FirstOf {α : Type} (e : Except Refusal α) (r : Refusal) (later : Prop) : Prop := e = .error r ∨ (∃ x, e = .ok x) ∧ later

section
variable {P P' : Prop} {Q : Refusal → Prop} {α : Type}

theorem SampleRefused.mono {e : Except Refusal α} (h : SampleRefused P' e) (hP : P → P') : SampleRefused P e := by
  obtain ⟨why, he, hname⟩ := h
  exact ⟨why, he, fun hp => hname (hP hp)⟩

theorem Sampled.first {e : Except Refusal α} (he : Sampled P e) (h : SampleRefused P e ∨ RefusedBy P Q) :
    RefusedBy P fun why => FirstOf e why (Q why) := by
  rcases he with hok | ⟨why, hrefused, hname⟩
  · rcases h with ⟨why, hrefused, hname⟩ | ⟨why, hq, hname⟩
    · exact ⟨why, .inl hrefused, hname⟩
    · exact ⟨why, .inr ⟨hok, hq⟩, hname⟩
  · exact ⟨why, .inl hrefused, hname⟩

theorem sampleReg_refused {r : OpReg} (h : r.written = false) : SampleRefused P (sampleReg r) :=
  ⟨_, sampleReg_unwritten h, fun _ => rfl⟩

theorem sampleReg_sampled (r : OpReg) : Sampled P (sampleReg r) := by
  cases h : r.written with
  | true => exact .inl ⟨_, sampleReg_ok.2 ⟨h, rfl⟩⟩
  | false => exact .inr (sampleReg_refused h)

variable {cap : Option Nat} {bound : Nat} {len : OpReg} {b : Buf α}

theorem sampleStream_unwritten (h : len.written = false) : sampleStream cap bound len b = .error .operandNotWritten := by
  simp [sampleStream, sampleLength, sampleReg_unwritten h]

/-- A stream beyond the capacity is refused, by whatever name (R348). -/
theorem sampleStream_beyond (h : fitsCap cap len.value.toNat = false) : SampleRefused False (sampleStream cap bound len b) := by
  cases he : sampleStream cap bound len b with
  | error why => exact ⟨why, rfl, False.elim⟩
  | ok xs =>
    have ho := sampleStream_ok.1 he
    cases h.symm.trans (ho.counted ▸ ho.capacity)

/-- A stream whose length is admitted is refused only where something of it was not written (R342). -/
theorem sampleStream_sampled (hP : P → LengthAdmitted cap bound len) : Sampled P (sampleStream cap bound len b) := by
  cases he : sampleStream cap bound len b with
  | ok xs => exact .inl ⟨xs, rfl⟩
  | error why =>
    refine .inr ⟨why, rfl, fun hp => ?_⟩
    obtain ⟨hbound, hcap⟩ := hP hp
    cases hw : len.written with
    | false =>
      rw [sampleStream_unwritten hw] at he
      cases he
      rfl
    | true =>
      simp only [sampleStream, sampleLength_ok.2 ⟨hw, rfl, hbound⟩, sampleBuf, hcap, if_true] at he
      split at he <;> cases he
      rfl

theorem sampleCodeTable_refused {b : Buf CodeElem} (hP : P → fitsCap cap Config.numCodes = true)
    (h : ∃ i, i < Config.numCodes ∧ bufGet b i = none) : SampleRefused P (sampleCodeTable cap b) := by
  obtain ⟨i, hi, hnone⟩ := h
  cases hcap : fitsCap cap Config.numCodes with
  | true => exact ⟨_, sampleCodeTable_missing hcap hi hnone, fun _ => rfl⟩
  | false => exact ⟨_, sampleCodeTable_beyond hcap, fun hp => by cases hcap.symm.trans (hP hp)⟩

/-- `ROOT` has nine bits (R103). -/
theorem sampleTree_mustBeZeroSet {o : HdeOps} (hw : o.root.written = true) (hr : 512 ≤ o.root.value.toNat) :
    sampleTree cap o = .error .mustBeZeroSet := by
  simp only [sampleTree, sampleLow_mustBeZeroSet (n := 9) ⟨hw, rfl⟩ hr]

/-- A tree operand of which `ROOT` or an entry reached was not written (R108, R342). -/
theorem sampleTree_refused {o : HdeOps} (hlow : P → o.root.value.toNat < 2 ^ 9) (hcap : P → fitsCap cap Config.maxNodes = true)
    (hshape : P → o.root.value.toNat ≠ Config.maxNodes → TableShape o.treeIn o.root.value.toNat)
    (h : o.root.written = false ∨ (o.root.value.toNat ≠ Config.maxNodes ∧ ¬ TableWritten o.treeIn o.root.value.toNat)) :
    SampleRefused P (sampleTree cap o) := by
  cases hw : o.root.written with
  | false => exact ⟨.operandNotWritten, by simp [sampleTree, sampleLow, sampleReg_unwritten hw], fun _ => rfl⟩
  | true =>
    obtain ⟨hne, hmissing⟩ := h.resolve_left (by simp [hw])
    by_cases hr : o.root.value.toNat < 2 ^ 9
    · cases hc : fitsCap cap Config.maxNodes with
      | false => exact ⟨_, sampleTree_beyond hw hr hc, fun hp => by cases hc.symm.trans (hcap hp)⟩
      | true =>
        have hsample : sampleTree cap o = treeOf o.treeIn o.root.value.toNat := by
          simp only [sampleTree, sampleLow_ok.2 ⟨hw, hr, rfl⟩, hc, if_true]
        rw [hsample]
        rcases treeOf_cases o.treeIn _ hne with ⟨-, hwritten, -⟩ | ⟨-, -, htree⟩ | ⟨hbad, why, htree, -⟩
        · exact absurd hwritten hmissing
        · exact ⟨_, htree, fun _ => rfl⟩
        · exact ⟨why, htree, fun hp => absurd (hshape hp hne) hbad⟩
    · exact ⟨_, sampleTree_mustBeZeroSet hw (Nat.le_of_not_lt hr), fun hp => absurd (hlow hp) hr⟩

/-- Of the planes, too, one that is refused is enough. -/
theorem samplePlanes_refused : ∀ {l : List (OpReg × Buf Bool)}, (P → ∀ x ∈ l, LengthAdmitted cap Config.maxPlaneLen x.1) →
    (∃ x ∈ l, SampleRefused P (sampleStream cap Config.maxPlaneLen x.1 x.2)) → SampleRefused P (samplePlanes cap l) := by
  intro l
  induction l with
  | nil => rintro - ⟨x, hx, -⟩; cases hx
  | cons y rest ih =>
    obtain ⟨len, b⟩ := y
    rintro hP ⟨x, hx, hrefused⟩
    have hhead : Sampled P (sampleStream cap Config.maxPlaneLen len b) := sampleStream_sampled fun hp => hP hp _ List.mem_cons_self
    have hsome : SampleRefused P (sampleStream cap Config.maxPlaneLen len b) ∨ SampleRefused P (samplePlanes cap rest) := by
      rcases List.mem_cons.1 hx with rfl | hx
      · exact .inl hrefused
      · exact .inr (ih (fun hp x hx => hP hp x (List.mem_cons_of_mem _ hx)) ⟨x, hx, hrefused⟩)
    obtain ⟨why, he | ⟨⟨xs, he⟩, hrest⟩, hname⟩ := hhead.first hsome
    · exact ⟨why, by simp only [samplePlanes, he], hname⟩
    · exact ⟨why, by simp only [samplePlanes, he, hrest], hname⟩

end

/-! ### Operations with a sample that is refused -/

/-- The plane operands of `RLD.DECB` in the order of their samples. -/
def sampledPlanes (s : State) : Except Refusal (List (List Bool)) :=
  samplePlanes s.cap (s.rld.ops.planeLen.toList.zip s.rld.ops.planeIn.toList)

/-- The first refused sample of the instruction is refused as `r`. -/
def FirstRefusal (s : State) : Instr → Refusal → Prop
  | .rleEncs, r | .rleEncb, r => FirstOf (sampleReg s.rle.ops.width) r (FirstOf (sampleReg s.rle.ops.height) r
      (sampleStream s.cap Config.maxIn s.rle.ops.inLen s.rle.ops.symIn = .error r))
  | .rldDecs, r => FirstOf (sampleReg s.rld.ops.width) r (FirstOf (sampleReg s.rld.ops.height) r
      (sampleStream s.cap Config.maxIn s.rld.ops.inLen s.rld.ops.pairIn = .error r))
  | .rldDecb, r => FirstOf (sampleReg s.rld.ops.width) r (FirstOf (sampleReg s.rld.ops.height) r (sampledPlanes s = .error r))
  | .brePut, r => FirstOf (sampleStream s.cap Config.maxIn s.bre.ops.inLen s.bre.ops.bitIn) r (sampleLow 32 s.bre.ops.arg = .error r)
  | .htbBuild, r | .hufEncode, r => sampleStream s.cap Config.maxIn s.htb.ops.inLen s.htb.ops.symIn = .error r
  | .henEnc, r => FirstOf (sampleStream s.cap Config.maxIn s.hen.ops.inLen s.hen.ops.symIn) r
      (sampleCodeTable s.cap s.hen.ops.ctabIn = .error r)
  | .hdeDec, r => FirstOf (sampleStream s.cap Config.maxIn s.hde.ops.inLen s.hde.ops.bitIn) r (sampleTree s.cap s.hde.ops = .error r)
  | .lzeEnc, r => sampleStream s.cap Config.maxIn s.lze.ops.inLen s.lze.ops.symIn = .error r
  | .lzdDec, r => sampleStream s.cap Config.maxIn s.lzd.ops.inLen s.lzd.ops.lzcIn = .error r
  | .clear _ _, _ => False

/-- Some operand that the instruction samples is refused, and where `P` holds as not written. -/
def SomeSampleRefused (P : Prop) (s : State) : Instr → Prop
  | .rleEncs | .rleEncb => SampleRefused P (sampleReg s.rle.ops.width) ∨ SampleRefused P (sampleReg s.rle.ops.height) ∨
      SampleRefused P (sampleStream s.cap Config.maxIn s.rle.ops.inLen s.rle.ops.symIn)
  | .rldDecs => SampleRefused P (sampleReg s.rld.ops.width) ∨ SampleRefused P (sampleReg s.rld.ops.height) ∨
      SampleRefused P (sampleStream s.cap Config.maxIn s.rld.ops.inLen s.rld.ops.pairIn)
  | .rldDecb => SampleRefused P (sampleReg s.rld.ops.width) ∨ SampleRefused P (sampleReg s.rld.ops.height) ∨
      ∃ p : Fin 8, SampleRefused P (sampleStream s.cap Config.maxPlaneLen s.rld.ops.planeLen[p] s.rld.ops.planeIn[p])
  | .brePut => SampleRefused P (sampleStream s.cap Config.maxIn s.bre.ops.inLen s.bre.ops.bitIn) ∨
      SampleRefused P (sampleLow 32 s.bre.ops.arg)
  | .htbBuild | .hufEncode => SampleRefused P (sampleStream s.cap Config.maxIn s.htb.ops.inLen s.htb.ops.symIn)
  | .henEnc => SampleRefused P (sampleStream s.cap Config.maxIn s.hen.ops.inLen s.hen.ops.symIn) ∨
      SampleRefused P (sampleCodeTable s.cap s.hen.ops.ctabIn)
  | .hdeDec => SampleRefused P (sampleStream s.cap Config.maxIn s.hde.ops.inLen s.hde.ops.bitIn) ∨
      SampleRefused P (sampleTree s.cap s.hde.ops)
  | .lzeEnc => SampleRefused P (sampleStream s.cap Config.maxIn s.lze.ops.inLen s.lze.ops.symIn)
  | .lzdDec => SampleRefused P (sampleStream s.cap Config.maxIn s.lzd.ops.inLen s.lzd.ops.lzcIn)
  | .clear _ _ => False

section
variable {P : Prop} {s : State}

/-- The plane operands, as `RLD.DECB` lists them. -/
theorem mem_planes {o : RldOps} {x : OpReg × Buf Bool} :
    x ∈ o.planeLen.toList.zip o.planeIn.toList ↔ ∃ p : Fin 8, x = (o.planeLen[p], o.planeIn[p]) := by
  rw [List.mem_iff_getElem]
  constructor
  · rintro ⟨k, hk, rfl⟩
    exact ⟨⟨k, by simpa using hk⟩, by simp⟩
  · rintro ⟨p, rfl⟩
    exact ⟨p.val, by simp, by simp⟩

theorem sampleRaster_error {r : Refusal} (h : FirstRefusal s .rleEncs r) : sampleRaster s.cap s.rle.ops = .error r := by
  rcases h with hw | ⟨⟨w, hw⟩, hh | ⟨⟨ht, hh⟩, hstream⟩⟩
  · simp only [sampleRaster, hw]
  · simp only [sampleRaster, hw, hh]
  · simp only [sampleRaster, hw, hh, hstream]

theorem rldDecsOp_error {r : Refusal} (h : FirstRefusal s .rldDecs r) : rldDecsOp s.cap s.rld = .error r := by
  rcases h with hw | ⟨⟨w, hw⟩, hh | ⟨⟨ht, hh⟩, hstream⟩⟩
  · simp only [rldDecsOp, hw]
  · simp only [rldDecsOp, hw, hh]
  · simp only [rldDecsOp, hw, hh, hstream]

theorem rldDecbOp_error {r : Refusal} (h : FirstRefusal s .rldDecb r) : rldDecbOp s.cap s.rld = .error r := by
  rcases h with hw | ⟨⟨w, hw⟩, hh | ⟨⟨ht, hh⟩, hplanes⟩⟩
  · simp only [rldDecbOp, hw]
  · simp only [rldDecbOp, hw, hh]
  · rw [sampledPlanes] at hplanes
    simp only [rldDecbOp, hw, hh, hplanes]

theorem brePutOp_error {r : Refusal} (h : FirstRefusal s .brePut r) : brePutOp s.cap s.bre = .error r := by
  rcases h with hb | ⟨⟨b, hb⟩, harg⟩
  · simp only [brePutOp, hb]
  · simp only [brePutOp, hb, harg]

theorem henEncOp_error {r : Refusal} (h : FirstRefusal s .henEnc r) : henEncOp s.cap s.hen = .error r := by
  rcases h with hxs | ⟨⟨xs, hxs⟩, htab⟩
  · simp only [henEncOp, hxs]
  · simp only [henEncOp, hxs, htab]

theorem hdeDecOp_error {r : Refusal} (h : FirstRefusal s .hdeDec r) : hdeDecOp s.cap s.hde = .error r := by
  rcases h with hbits | ⟨⟨bits, hbits⟩, htree⟩
  · simp only [hdeDecOp, hbits]
  · simp only [hdeDecOp, hbits, htree]

/-- The first sample that is refused names the refusal of the operation. -/
theorem operation_error {i : Instr} {r : Refusal} (hop : IsOperation i) (h : FirstRefusal s i r) :
    (operationSpec i hop).op s.cap ((operationSpec i hop).lens.get s) = .error r := by
  cases i with
  | rleEncs =>
    have he : rleEncsOp s.cap s.rle = .error r := by simp only [rleEncsOp, sampleRaster_error h]
    exact he
  | rleEncb =>
    have he : rleEncbOp s.cap s.rle = .error r := by simp only [rleEncbOp, sampleRaster_error h]
    exact he
  | rldDecs => exact rldDecsOp_error h
  | rldDecb => exact rldDecbOp_error h
  | brePut => exact brePutOp_error h
  | htbBuild =>
    have he : htbBuildOp s.cap s.htb = .error r := by simp only [htbBuildOp, show sampleStream _ _ _ _ = _ from h]
    exact he
  | henEnc => exact henEncOp_error h
  | hdeDec => exact hdeDecOp_error h
  | lzeEnc =>
    have he : lzeEncOp s.cap s.lze = .error r := by simp only [lzeEncOp, show sampleStream _ _ _ _ = _ from h]
    exact he
  | lzdDec =>
    have he : lzdDecOp s.cap s.lzd = .error r := by simp only [lzdDecOp, show sampleStream _ _ _ _ = _ from h]
    exact he
  | clear u b => exact absurd rfl (hop.2 u b)
  | hufEncode => exact absurd rfl hop.1

/-- An operation of a unit in `IDLE` that is refused: so is the instruction, by the same name. -/
theorem exec_operation_refused {i : Instr} (hop : IsOperation i) (hidle : (control s (instrUnit i)).state = .idle) {r : Refusal}
    (h : (operationSpec i hop).op s.cap ((operationSpec i hop).lens.get s) = .error r) : exec i s = .refused r :=
  (operationSpec i hop).exec_refused (by rwa [← UnitLens.control_eq]) h

/-- So it names the refusal of the instruction; that of the pseudo-operation is named by its first half. -/
theorem exec_firstRefusal {i : Instr} {r : Refusal} (hidle : (control s (instrUnit i)).state = .idle) (h : FirstRefusal s i r) :
    exec i s = .refused r := by
  by_cases hop : IsOperation i
  · exact exec_operation_refused hop hidle (operation_error hop h)
  cases i with
  | clear u b => exact h.elim
  | hufEncode =>
    have hbuild : IsOperation .htbBuild := ⟨nofun, nofun⟩
    exact exec_hufEncode_refused (exec_operation_refused hbuild hidle (operation_error (i := .htbBuild) hbuild h))
  | _ => exact absurd ⟨nofun, nofun⟩ hop

theorem sampledPlanes_refused (hP : P → OperandsInRange s .rldDecb)
    (h : ∃ p : Fin 8, SampleRefused P (sampleStream s.cap Config.maxPlaneLen s.rld.ops.planeLen[p] s.rld.ops.planeIn[p])) :
    SampleRefused P (sampledPlanes s) := by
  obtain ⟨p, hp⟩ := h
  refine samplePlanes_refused (fun hr x hx => ?_) ⟨_, mem_planes.2 ⟨p, rfl⟩, hp⟩
  obtain ⟨q, rfl⟩ := mem_planes.1 hx
  exact hP hr q

/-- Where some sample is refused, one of them is the first. -/
theorem firstRefusal_of_some {i : Instr} (hP : P → OperandsInRange s i) (h : SomeSampleRefused P s i) :
    RefusedBy P (FirstRefusal s i) := by
  cases i with
  | rleEncs | rleEncb | rldDecs => exact (sampleReg_sampled _).first (h.imp_right (sampleReg_sampled _).first)
  | rldDecb =>
    exact (sampleReg_sampled _).first (h.imp_right fun h =>
      (sampleReg_sampled _).first (h.imp_right (sampledPlanes_refused hP)))
  | brePut | henEnc | hdeDec => exact (sampleStream_sampled fun hp => (hP hp).1).first h
  | htbBuild | hufEncode | lzeEnc | lzdDec => exact h
  | clear u b => exact h.elim

theorem exec_refused_of_sample {i : Instr} (hidle : (control s (instrUnit i)).state = .idle) (hP : P → OperandsInRange s i)
    (h : SomeSampleRefused P s i) : ∃ why, exec i s = .refused why ∧ (P → why = .operandNotWritten) := by
  obtain ⟨why, hfirst, hname⟩ := firstRefusal_of_some hP h
  exact ⟨why, exec_firstRefusal hidle hfirst, hname⟩

/-- An operand that was not written refuses its sample (R342). -/
theorem someSampleRefused_of_missing {i : Instr} (h : OperandMissing s i) : SomeSampleRefused (OperandsInRange s i) s i := by
  cases i with
  | rleEncs | rleEncb =>
    rcases h with hw | hh | hr
    · exact .inl (sampleReg_refused hw)
    · exact .inr (.inl (sampleReg_refused hh))
    · exact .inr (.inr (SampleRefused.mono (sampleStream_missing hr) id))
  | rldDecs =>
    rcases h with hw | hh | hr
    · exact .inl (sampleReg_refused hw)
    · exact .inr (.inl (sampleReg_refused hh))
    · exact .inr (.inr (SampleRefused.mono (sampleStream_missing hr) id))
  | rldDecb =>
    rcases h with hw | hh | ⟨p, hp⟩
    · exact .inl (sampleReg_refused hw)
    · exact .inr (.inl (sampleReg_refused hh))
    · exact .inr (.inr ⟨p, SampleRefused.mono (sampleStream_missing hp) fun hin => hin p⟩)
  | brePut =>
    rcases h with hl | ha | hm
    · exact .inl (SampleRefused.mono (sampleStream_missing (.inl hl)) And.left)
    · exact .inr ⟨.operandNotWritten, by simp [sampleLow, sampleReg_unwritten ha], fun _ => rfl⟩
    · exact .inl (SampleRefused.mono (sampleStream_missing (.inr hm)) And.left)
  | henEnc =>
    rcases h with hl | hm | ht
    · exact .inl (SampleRefused.mono (sampleStream_missing (.inl hl)) And.left)
    · exact .inl (SampleRefused.mono (sampleStream_missing (.inr hm)) And.left)
    · exact .inr (sampleCodeTable_refused And.right ht)
  | hdeDec =>
    have htree (hm : s.hde.ops.root.written = false ∨ (s.hde.ops.root.value.toNat ≠ Config.maxNodes ∧
        ¬ TableWritten s.hde.ops.treeIn s.hde.ops.root.value.toNat)) :
        SampleRefused (OperandsInRange s .hdeDec) (sampleTree s.cap s.hde.ops) :=
      sampleTree_refused (fun hin => hin.2.1) (fun hin => hin.2.2.1) (fun hin => hin.2.2.2) hm
    rcases h with hl | hr | hm | ht
    · exact .inl (SampleRefused.mono (sampleStream_missing (.inl hl)) And.left)
    · exact .inr (htree (.inl hr))
    · exact .inl (SampleRefused.mono (sampleStream_missing (.inr hm)) And.left)
    · exact .inr (htree (.inr ht))
  | htbBuild | hufEncode | lzeEnc | lzdDec => exact SampleRefused.mono (sampleStream_missing h) id
  | clear u b => exact h.elim

/-- With nothing written the first sample of every operation is refused for that reason. -/
theorem firstRefusal_of_nothingWritten {i : Instr} (h : NothingWritten s) (hclear : ∀ u b, i ≠ .clear u b) :
    FirstRefusal s i .operandNotWritten := by
  have hreg : ∀ r ∈ operandRegisters s, r.written = false := h.registers
  cases i with
  | rleEncs | rleEncb | rldDecs | rldDecb => exact .inl (sampleReg_unwritten (hreg _ (by simp [operandRegisters])))
  | brePut | henEnc | hdeDec => exact .inl (sampleStream_unwritten (hreg _ (by simp [operandRegisters])))
  | htbBuild | hufEncode | lzeEnc | lzdDec => exact sampleStream_unwritten (hreg _ (by simp [operandRegisters]))
  | clear u b => exact absurd rfl (hclear u b)

end

/-- Settles O46: an operation is refused by its first sample that is, and an operand that was not written refuses its own. -/
theorem unwrittenOperandsAreRefused : Obligations.UnwrittenOperandsAreRefused := by
  unfold Obligations.UnwrittenOperandsAreRefused
  refine ⟨fun s i h hclear hidle => ?_, fun s i hidle h => ?_, fun s i hidle h hrange => ?_⟩
  · exact exec_firstRefusal hidle (firstRefusal_of_nothingWritten h hclear)
  · obtain ⟨why, he, -⟩ := exec_refused_of_sample hidle id (someSampleRefused_of_missing h)
    exact ⟨why, he⟩
  · obtain ⟨why, he, hname⟩ := exec_refused_of_sample hidle id (someSampleRefused_of_missing h)
    rwa [hname hrange] at he

end Sys2Proof.Machine

namespace Sys2Proof.Machine

/-! ### Operands above their ranges (R348) -/

section
variable {s : State}

/-- Of the planes, the first whose sample is refused names the refusal. -/
theorem samplePlanes_first {cap : Option Nat} {r : Refusal} : ∀ {l : List (OpReg × Buf Bool)} {k : Nat} {hk : k < l.length},
    (∀ j (hj : j < k), ∃ bits, sampleStream cap Config.maxPlaneLen l[j].1 l[j].2 = .ok bits) →
    sampleStream cap Config.maxPlaneLen l[k].1 l[k].2 = .error r → samplePlanes cap l = .error r := by
  intro l
  induction l with
  | nil => intro k hk; cases hk
  | cons y rest ih =>
    obtain ⟨len, b⟩ := y
    intro k hk hbefore h
    cases k with
    | zero => simp only [samplePlanes, show sampleStream cap Config.maxPlaneLen len b = .error r from h]
    | succ k =>
      obtain ⟨bits, hbits⟩ := hbefore 0 k.succ_pos
      have hrest : samplePlanes cap rest = .error r :=
        ih (hk := Nat.lt_of_succ_lt_succ hk) (fun j hj => hbefore (j + 1) (Nat.succ_lt_succ hj)) h
      simp only [samplePlanes, show sampleStream cap Config.maxPlaneLen len b = .ok bits from hbits, hrest]

theorem sampledPlanes_first {p : Fin 8} {r : Refusal}
    (hbefore : ∀ q : Fin 8, q < p → ∃ bits,
      StreamOperand s.cap Config.maxPlaneLen s.rld.ops.planeLen[q] s.rld.ops.planeIn[q] bits)
    (h : sampleStream s.cap Config.maxPlaneLen s.rld.ops.planeLen[p] s.rld.ops.planeIn[p] = .error r) :
    sampledPlanes s = .error r := by
  refine samplePlanes_first (k := p.val) (hk := by simp) (fun j hj => ?_) (by simpa using h)
  obtain ⟨bits, hbits⟩ := hbefore ⟨j, hj.trans p.isLt⟩ hj
  exact ⟨bits, by simpa using sampleStream_ok.2 hbits⟩

/-- An operand that is there leaves the refusal to the ones sampled after it. -/
theorem FirstOf.reg {r : OpReg} {why : Refusal} {later : Prop} (h : r.written = true) (hlater : later) :
    FirstOf (sampleReg r) why later :=
  .inr ⟨⟨_, sampleReg_ok.2 ⟨h, rfl⟩⟩, hlater⟩

theorem FirstOf.stream {α : Type} {cap : Option Nat} {bound : Nat} {len : OpReg} {b : Buf α} {xs : List α} {why : Refusal}
    {later : Prop} (h : StreamOperand cap bound len b xs) (hlater : later) : FirstOf (sampleStream cap bound len b) why later :=
  .inr ⟨⟨xs, sampleStream_ok.2 h⟩, hlater⟩

/-- The run-length decoders check the product after the dimensions and before the stream's content (R306, R348). -/
theorem rldDecsOp_above {pairs : List PairElem} {w h : BitVec 64} (ho : PairOperands s pairs w h) (hw : 1 ≤ w.toInt)
    (hh : 1 ≤ h.toInt) (hmax : Config.maxIn < w.toNat * h.toNat) : rldDecsOp s.cap s.rld = .error .aboveAdmittedRange := by
  simp only [rldDecsOp_eq ho, badDimensions_eq_false hw hh, Bool.false_eq_true, if_false, if_pos hmax]

theorem rldDecbOp_above {planes : Vector (List Bool) 8} {w h : BitVec 64} (ho : PlaneOperands s planes w h) (hw : 1 ≤ w.toInt)
    (hh : 1 ≤ h.toInt) (hmax : Config.maxIn < w.toNat * h.toNat) : rldDecbOp s.cap s.rld = .error .aboveAdmittedRange := by
  simp only [rldDecbOp_eq ho, badDimensions_eq_false hw hh, Bool.false_eq_true, if_false, if_pos hmax]

/-- A length beyond the capacity refuses its sample. -/
theorem someSampleRefused_of_beyond {i : Instr} (h : LengthBeyondCapacity s i) : SomeSampleRefused False s i := by
  cases i with
  | rleEncs | rleEncb | rldDecs => exact .inr (.inr (sampleStream_beyond h))
  | rldDecb =>
    obtain ⟨p, hp⟩ := h
    exact .inr (.inr ⟨p, sampleStream_beyond hp⟩)
  | brePut | henEnc | hdeDec => exact .inl (sampleStream_beyond h)
  | htbBuild | hufEncode | lzeEnc | lzdDec => exact sampleStream_beyond h
  | clear u b => exact h.elim

end

/-! ### Host writes beyond a capacity -/

/-- The number of the buffer element or table entry that a place is. -/
def elementIndex : Place → Option Nat
  | .reg _ => none
  | .sym _ i | .pair i | .bit _ i | .plane _ i | .tree i | .ctab i | .lzc i => some i

section
variable {O R W : Type} {cap : Option Nat} {x : CodecUnit O R W} {s t : State} {i n : Nat} {f : O → O}
  {g : CodecUnit O R W → State}

theorem fitsCap_of_writeElement (h : (writeElement cap x i f).map g = .ok t) : fitsCap cap (i + 1) = true := by
  obtain ⟨y, hy, -⟩ := Except.map_eq_ok.1 h
  exact (writeElement_ok.1 hy).1

theorem fitsCap_of_writeEntry (h : (writeEntry cap n x i f).map g = .ok t) : fitsCap cap (i + 1) = true := by
  obtain ⟨y, hy, -⟩ := Except.map_eq_ok.1 h
  exact (writeEntry_ok.1 hy).2.1

/-- An element that is written is within the capacity. -/
theorem writePlace_fitsCap {p : Place} {v : HostValue} (h : writePlace s p v = .ok t) (hp : elementIndex p = some i) :
    fitsCap s.cap (i + 1) = true := by
  unfold writePlace at h
  split at h
  · cases hp
  · cases hp
    split at h
    · exact fitsCap_of_writeElement h
    · exact fitsCap_of_writeElement h
    · exact fitsCap_of_writeElement h
    · exact fitsCap_of_writeElement h
    · cases h
  · cases hp
    exact fitsCap_of_writeElement h
  · cases hp
    split at h
    · exact fitsCap_of_writeElement h
    · exact fitsCap_of_writeElement h
    · cases h
  · cases hp
    exact fitsCap_of_writeElement h
  · cases hp
    exact fitsCap_of_writeEntry h
  · cases hp
    exact fitsCap_of_writeEntry h
  · cases hp
    exact fitsCap_of_writeElement h
  · cases h

theorem hostWrite_beyond {p : Place} {v : HostValue} (hp : elementIndex p = some i) (hcap : fitsCap s.cap (i + 1) = false) :
    Refused (hostWrite p v s) := by
  have hwrite : hostWrite p v s = answer (writePlace s p v) := by
    cases p with
    | reg _ => cases hp
    | _ => rfl
  cases he : writePlace s p v with
  | error why => exact ⟨why, hwrite.trans (answer_eq_refused.2 he)⟩
  | ok t => cases hcap.symm.trans (writePlace_fitsCap he hp)

end

/-- Settles O47: a length above its range, a table beyond the capacity and a `ROOT` out of range each refuse their sample, so the
operation is refused, by that name where the operands sampled before answer; a product out of range is met after the dimension check. -/
theorem operandsAboveRangeAreRefused : Obligations.OperandsAboveRangeAreRefused := by
  unfold Obligations.OperandsAboveRangeAreRefused
  refine ⟨fun s hidle hw hlen => ?lze, fun s hidle hw hlen => ?lzd, fun s hidle hw hlen => ?htb,
    fun s hidle hw hh hl hlen => ?rle, fun s pairs w h ho hidle hw hh hmax => ?pairs,
    fun s planes w h ho hidle hw hh hmax => ?planes, fun s bits hbits hidle hroot hbound => ?root,
    fun s hidle hw hlen => ?bre, fun s hidle hw hlen => ?hen, fun s hidle hw hlen => ?hde,
    fun s hidle hw hh hl hlen => ?decs, fun s p hidle hw hh hl hlen => ?decb,
    fun s xs hxs hidle hcap => ?codes, fun s bits hbits hidle hroot hbound hcap => ?tree,
    fun s xs hxs hidle hcap => ?built, fun s p v i hcap hwritable hp => ?write, fun s i hidle h => ?length⟩
  case lze => exact exec_firstRefusal (i := .lzeEnc) hidle (sampleStream_above hw hlen)
  case lzd => exact exec_firstRefusal (i := .lzdDec) hidle (sampleStream_above hw hlen)
  case htb =>
    exact ⟨exec_firstRefusal (i := .htbBuild) hidle (sampleStream_above hw hlen),
      exec_firstRefusal (i := .hufEncode) hidle (sampleStream_above hw hlen)⟩
  case rle =>
    have hfirst : FirstRefusal s .rleEncs .aboveAdmittedRange := .reg hw (.reg hh (sampleStream_above hl hlen))
    exact ⟨exec_firstRefusal (i := .rleEncs) hidle hfirst, exec_firstRefusal (i := .rleEncb) hidle hfirst⟩
  case pairs => exact exec_operation_refused (i := .rldDecs) ⟨nofun, nofun⟩ hidle (rldDecsOp_above ho hw hh hmax)
  case planes => exact exec_operation_refused (i := .rldDecb) ⟨nofun, nofun⟩ hidle (rldDecbOp_above ho hw hh hmax)
  case root => exact exec_firstRefusal (i := .hdeDec) hidle (.stream hbits (sampleTree_mustBeZeroSet hroot hbound))
  case bre => exact exec_firstRefusal (i := .brePut) hidle (.inl (sampleStream_above hw hlen))
  case hen => exact exec_firstRefusal (i := .henEnc) hidle (.inl (sampleStream_above hw hlen))
  case hde => exact exec_firstRefusal (i := .hdeDec) hidle (.inl (sampleStream_above hw hlen))
  case decs => exact exec_firstRefusal (i := .rldDecs) hidle (.reg hw (.reg hh (sampleStream_above hl hlen)))
  case decb =>
    have habove := sampleStream_above (cap := s.cap) (b := s.rld.ops.planeIn[p]) hl hlen
    refine ⟨?_, fun hbefore => exec_firstRefusal (i := .rldDecb) hidle (.reg hw (.reg hh (sampledPlanes_first hbefore habove)))⟩
    have hsome : SomeSampleRefused False s .rldDecb := .inr (.inr ⟨p, _, habove, False.elim⟩)
    obtain ⟨why, he, -⟩ := exec_refused_of_sample (i := .rldDecb) hidle False.elim hsome
    exact ⟨why, he⟩
  case codes => exact exec_firstRefusal (i := .henEnc) hidle (.stream hxs (sampleCodeTable_beyond hcap))
  case tree => exact exec_firstRefusal (i := .hdeDec) hidle (.stream hbits (sampleTree_beyond hroot hbound hcap))
  case built =>
    exact ⟨exec_operation_refused (i := .htbBuild) ⟨nofun, nofun⟩ hidle (htbBuildOp_beyond hxs hcap),
      exec_hufEncode_beyond hxs hidle hcap⟩
  case write =>
    have helement : elementIndex p = some i := by
      rcases hp with rfl | rfl | rfl | rfl | ⟨u, rfl⟩ | ⟨u, rfl⟩ | ⟨q, rfl⟩ <;> rfl
    exact hostWrite_beyond helement hcap
  case length =>
    obtain ⟨why, he, -⟩ := exec_refused_of_sample hidle False.elim (someSampleRefused_of_beyond h)
    exact ⟨why, he⟩

end Sys2Proof.Machine
